-- ==== Sys2Proof/Word.lean ====
section
/-! DEFINITION. The byte of the links, and fixed tables indexed by `Fin n` with total read and write. -/

namespace Sys2Proof

/-- One byte of a frame on a station port or on the field link. -/
abbrev Byte := BitVec 8

/-- Read place `i` of a fixed table. -/
def vget {α : Type} {n : Nat} (v : Vector α n) (i : Fin n) : α := v[i.1]

/-- Write place `i` of a fixed table. -/
def vset {α : Type} {n : Nat} (v : Vector α n) (i : Fin n) (x : α) : Vector α n := v.set i.1 x i.2

/-- A fixed table with every place rewritten by `f`. -/
def vmap {α β : Type} {n : Nat} (f : α → β) (v : Vector α n) : Vector β n :=
  ⟨⟨v.toArray.toList.map f⟩, by simp⟩

end Sys2Proof
end

