-- ==== Sys2Proof/Config.lean ====
section
/-! DEFINITION. The constants the spec fixes for every part, and the model's one free value. -/

namespace Sys2Proof.Config

/-- FREE VALUE (log entry 3): where among `k` waiting expiries of the millisecond `clock` the next one is placed. The
manual lets either of two events that fall together be taken first; nothing constrains this choice. -/
opaque expiryPlace (clock k : Nat) : Nat

/-- R82, R60: a sample is fresh for 2,000 ms, and its loss is found 2,000 ms after its arrival. -/
def freshMs : Nat := 2000

/-- R93: an analyzer's age expiry comes 5,000 ms after its latest reading. -/
def ageMs : Nat := 5000

/-- R198: the read-back window, in ms. -/
def windowMs : Nat := 250

/-- R199: the disagreement timer, in ms. -/
def disagreeMs : Nat := 250

/-- R202: the refresh of a LOAD_SET, in ms. -/
def refreshMs : Nat := 1000

/-- R58: the over-current reference keeps a higher value for 1,000 ms after a fall of the setpoint. -/
def referenceHoldMs : Nat := 1000

/-- R111: the shred queue holds at most six packs. -/
def queueMax : Nat := 6

/-- R193: a notice queue holds up to 16 notices. -/
def noticeMax : Nat := 16

/-- R185: the receive list holds up to 4 frames. -/
def receiveMax : Nat := 4

/-- R38: a curve holds up to 12 points. -/
def pointMax : Nat := 12

/-- R18: one watt-hour is 3,600,000 mJ. -/
def mjPerWh : Nat := 3600000

/-- R17: energy counts saturate at 2^48 - 1. -/
def energyMax : Nat := 2 ^ 48 - 1

/-- R19: a zone inventory is 0 to 2^32 - 1. R158, R176: so are lot numbers and occurrence numbers. -/
def word32 : Nat := 2 ^ 32

/-- R94: the effective oxygen with no valid analyzer, and the clamp of R92. -/
def airOxygen : Nat := 2100

/-- "The bay context": segment elapsed is 0 to 3,600,000 ms. -/
def elapsedMax : Nat := 3600000

end Sys2Proof.Config
end

