-- ==== Sys2Proof/Syntax.lean ====
section
/-! DEFINITION. The commands of the part: one constructor per row of spec/opcode_table.json, with the row's operands.
A request carries the port it arrives on, its frame's sequence byte and its body's fields as the numbers of the wire (R187, R188). -/

namespace Sys2Proof

/-- The three station ports (R183): port 1 is the line port, 2 the fire port, 3 the custody port. -/
inductive Port where
  | line | fire | custody
deriving DecidableEq, Repr

/-- The two oxygen analyzers (field-link addresses 9 and 10). -/
inductive AnalyzerId where
  | a | b
deriving DecidableEq, Repr

/-- The classification of a supervised detector line (R133, R203). -/
inductive LineState where
  | normal | active | opened | short
deriving DecidableEq, Repr

/-- The twenty supervised outputs of R197 (the line fault output is not supervised). -/
inductive Output where
  | contactor (bay : Fin 8)
  | permit
  | upperGate
  | lowerGate
  | purge
  | release (zone : Fin 8)
deriving DecidableEq, Repr

/-- Why a station frame is discarded while the line is not idle (R185). -/
inductive FrameFault where
  | overlong | badCrc | overrun
deriving DecidableEq, Repr

/-- Why a field frame is discarded (R201). -/
inductive FieldFault where
  | overlong | idleLine | badCrc | badCode | badLength
deriving DecidableEq, Repr

/-- The two baud-rate straps (R183); `true` is high. -/
structure Straps where
  first : Bool
  second : Bool
deriving DecidableEq, Repr

/-- Why the part stops (R203): its main supply is lost, with the backup supply holding retained memory or not, or its
reset input is pulled low. -/
inductive StopCause where
  | supplyLost (backup : Bool)
  | resetLow
deriving DecidableEq, Repr

/-- The fields of WRITE_TREATMENT after the entry index, in the order of the treatment table (R26). -/
structure TreatmentFields where
  refuse : Nat
  acceptDamaged : Nat
  limit : Nat
  cap : Nat
  curve : Nat
  current : Nat
  stop : Nat
  segment : Nat
  rest : Nat
  retries : Nat
  dwell : Nat
  maxTemp : Nat
deriving DecidableEq, Repr

/-- One constructor per row of spec/opcode_table.json, in the table's order. -/
inductive Instr where
  | hardwareReset (straps : Straps) (agrees : Bool)
  | stationFrameValid (p : Port) (seq code : Byte) (body : List Byte)
  | stationFrameDiscard (p : Port) (why : FrameFault)
  | stationLineIdleTimeout (p : Port)
  | presenceTimerExpiry (p : Port)
  | readStatus (p : Port) (seq : Byte) (part : Nat)
  | readPack (p : Port) (seq : Byte) (index gen : Nat)
  | listPacks (p : Port) (seq : Byte) (state lot : Option Nat)
  | setCursor (p : Port) (seq : Byte) (index : Nat)
  | readBay (p : Port) (seq : Byte) (bay : Nat)
  | readZone (p : Port) (seq : Byte) (zone : Nat)
  | readLot (p : Port) (seq : Byte) (lot : Nat)
  | readBank (p : Port) (seq : Byte) (bank : Nat)
  | readConfig (p : Port) (seq : Byte) (item index : Nat)
  | fetchNotices (p : Port) (seq : Byte)
  | setPresenceTime (p : Port) (seq : Byte) (seconds : Nat)
  | clearBank (p : Port) (seq : Byte) (bank number : Nat)
  | setReportEnables (p : Port) (seq : Byte) (bank : Nat) (enables : List Nat)
  | admitPack (p : Port) (seq : Byte) (tag lot typeCode damaged mass nominal cells : Nat)
  | withdraw (p : Port) (seq : Byte) (index gen : Nat)
  | openLot (p : Port) (seq : Byte) (number : Nat)
  | closeLot (p : Port) (seq : Byte) (lot : Nat)
  | releaseLot (p : Port) (seq : Byte) (lot : Nat)
  | outputWeight (p : Port) (seq : Byte) (lot mass final : Nat)
  | switchShredLot (p : Port) (seq : Byte) (lot : Nat)
  | cancelSwitch (p : Port) (seq : Byte)
  | setRecoveryBounds (p : Port) (seq : Byte) (low high : Nat)
  | assign (p : Port) (seq : Byte) (index gen bay : Nat)
  | move (p : Port) (seq : Byte) (index gen dest : Nat)
  | quarantine (p : Port) (seq : Byte) (index gen : Nat)
  | start (p : Port) (seq : Byte) (bay : Nat)
  | pause (p : Port) (seq : Byte) (bay : Nat)
  | resume (p : Port) (seq : Byte) (bay : Nat)
  | abort (p : Port) (seq : Byte) (bay : Nat)
  | writeSlot (p : Port) (seq : Byte) (bay slot current stop segment : Nat)
  | clearBay (p : Port) (seq : Byte) (bay : Nat)
  | enqueue (p : Port) (seq : Byte) (index gen : Nat)
  | remove (p : Port) (seq : Byte) (index gen dest : Nat)
  | feed (p : Port) (seq : Byte) (index gen : Nat)
  | lockClosed (p : Port) (seq : Byte)
  | returnPack (p : Port) (seq : Byte) (index gen : Nat)
  | dropDone (p : Port) (seq : Byte) (index gen : Nat)
  | lockEmptied (p : Port) (seq : Byte)
  | chamberClear (p : Port) (seq : Byte)
  | inertStart (p : Port) (seq : Byte)
  | inertStop (p : Port) (seq : Byte)
  | writeFeed (p : Port) (seq : Byte) (seconds : Nat)
  | writeTreatment (p : Port) (seq : Byte) (index : Nat) (fields : TreatmentFields)
  | writeRange (p : Port) (seq : Byte) (index low high treatment enabled : Nat)
  | writeSlotMap (p : Port) (seq : Byte) (family treatment enabled : Nat)
  | setMap (p : Port) (seq : Byte) (enable treatment : Nat)
  | curveBegin (p : Port) (seq : Byte) (curve : Nat)
  | curvePoint (p : Port) (seq : Byte) (curve voltage fraction : Nat)
  | curveEnd (p : Port) (seq : Byte) (curve : Nat)
  | lineRestart (p : Port) (seq : Byte) (target guard1 guard2 : Nat)
  | writeDetector (p : Port) (seq : Byte) (detector zone kind : Nat)
  | writeFireTimes (p : Port) (seq : Byte) (dwell rearm : Nat)
  | writeZone (p : Port) (seq : Byte) (zone threshold delay : Nat)
  | hold (p : Port) (seq : Byte) (zone : Nat)
  | holdEnd (p : Port) (seq : Byte) (zone : Nat)
  | release (p : Port) (seq : Byte) (target guard1 guard2 : Nat)
  | zoneReset (p : Port) (seq : Byte) (target guard1 guard2 : Nat)
  | isolateZone (p : Port) (seq : Byte) (zone : Nat)
  | restoreZone (p : Port) (seq : Byte) (zone : Nat)
  | inertReset (p : Port) (seq : Byte) (target guard1 guard2 : Nat)
  | writeInertLimits (p : Port) (seq : Byte) (purge run trip hold maxPurge : Nat)
  | baySample (address sequence voltage : Nat) (current temperature : Int) (interval : Nat)
  | analyzerReading (address oxygen status : Nat)
  | fieldFrameDiscard (why : FieldFault)
  | loadSetTransmit
  | loadSetRefreshExpiry (bay : Fin 8)
  | segmentTimerExpiry (bay : Fin 8)
  | sampleLoss (bay : Fin 8)
  | overCurrentReferenceDrop (bay : Fin 8)
  | restTimerExpiry (bay : Fin 8)
  | analyzerAgeExpiry (analyzer : AnalyzerId)
  | purgeTimeout
  | holdTimerExpiry
  | lockPurgeTimerExpiry
  | detectorLineChange (detector : Fin 24) (line : LineState)
  | detectorDwellExpiry (detector : Fin 24)
  | faultDwellExpiry (detector : Fin 24)
  | rearmExpiry (detector : Fin 24)
  | recoveryTimerExpiry (detector : Fin 24)
  | releaseTimerExpiry (zone : Fin 8)
  | readbackChange (output : Output) (level : Bool)
  | readbackWindowExpiry (output : Output)
  | disagreementTimerExpiry (output : Output)
  | mainSupplyLoss (cause : StopCause)
  | stationPortHuntsAgain (p : Port)
  | fieldLinkHuntsAgain
deriving DecidableEq, Repr

end Sys2Proof
end

