-- ==== Sys2Proof/Machine/State.lean ====
section
/-! DEFINITION. The state of the IV-3420 as plain data, block by block, and its value after the first hardware reset. -/

namespace Sys2Proof.Machine

/-- No command of this part stops it: the spec describes no fault that does (INVENTORY.md, Faults), so this closed type
has no constructor and no meaning raises one. -/
inductive Fault where
deriving DecidableEq, Repr

/-- Why a command has no meaning. -/
inductive Refusal where
  /-- Raised by `exec`'s arm of a command that has no meaning yet; safe. No arm raises it at present. -/
  | notModelled (mnemonic : String)
deriving DecidableEq, Repr

/-- A time stamp: an epoch and a line-clock reading in seconds (00_scope.md, Time). -/
structure Stamp where
  epoch : Nat
  seconds : Nat
deriving DecidableEq, Repr

/-- A pack handle: record index and generation (R1). -/
structure Handle where
  index : Fin 256
  gen : Nat
deriving DecidableEq, Repr

/-! ### Classification -/

/-- One entry of the treatment table (R26); a pack record holds a copy (R35). -/
structure Treatment where
  refuse : Bool
  acceptDamaged : Bool
  limit : Nat
  cap : Nat
  curve : Fin 4
  current : Nat
  stop : Nat
  segment : Nat
  rest : Nat
  retries : Nat
  dwell : Nat
  maxTemp : Nat
deriving DecidableEq, Repr

/-- R28. -/
def Treatment.initial : Treatment :=
  { refuse := true, acceptDamaged := false, limit := 0, cap := 0, curve := 0, current := 1000, stop := 2500,
    segment := 600, rest := 600, retries := 0, dwell := 60, maxTemp := 450 }

/-- One range of the treatment map (R29). -/
structure Range where
  low : Nat
  high : Nat
  treatment : Fin 8
  enabled : Bool
deriving DecidableEq, Repr

/-- One chemistry slot of the treatment map (R30). -/
structure ChemSlot where
  treatment : Fin 8
  enabled : Bool
deriving DecidableEq, Repr

inductive CurveStatus where
  | valid | rewriting | invalid
deriving DecidableEq, Repr

/-- A point of a residual curve: cell voltage in mV and fraction in per mille (R38). -/
structure Point where
  mv : Nat
  frac : Nat
deriving DecidableEq, Repr

structure Curve where
  status : CurveStatus
  points : List Point
deriving DecidableEq, Repr

structure Classification where
  treatments : Vector Treatment 8
  ranges : Vector Range 8
  slots : Vector ChemSlot 16
  mapOn : Bool
  defaultTreatment : Fin 8
  curves : Vector Curve 4
deriving DecidableEq, Repr

/-- R28, R32, R36. -/
def Classification.initial : Classification :=
  { treatments := Vector.replicate 8 Treatment.initial
    ranges := Vector.replicate 8 ⟨0, 0, 0, false⟩
    slots := Vector.replicate 16 ⟨0, false⟩
    mapOn := false
    defaultTreatment := 0
    curves := Vector.replicate 4 ⟨.invalid, []⟩ }

/-! ### Pack Register -/

/-- The states of an allocated record; FREE is the record that holds no pack. -/
inductive PackState where
  | received | loaded | discharging | resting | discharged | queued | feeding | shredded | quarantined | withdrawn
deriving DecidableEq, Repr

inductive Loc where
  | intake
  | bay (n : Fin 8)
  | buffer
  | feedLock
  | shredder
  | quarantine
  | out
deriving DecidableEq, Repr

inductive QuarantineCause where
  | refused | damaged | operator | overTemperature | reverseCurrent | restCurrent | reboundLimit | zoneAlarm
  | feedUncertain | lockReleased
deriving DecidableEq, Repr

/-- What an allocated pack record holds ("The pack record"); its standing energy is derived (`Pack.standing`). -/
structure Pack where
  state : PackState
  tag : Nat
  lot : Fin 8
  typeCode : Nat
  damaged : Bool
  mass : Nat
  nominal : Nat
  cells : Nat
  treatmentIndex : Fin 8
  treatment : Treatment
  loc : Loc
  removed : Nat
  remainder : Nat
  estimated : Nat
  basis : Nat
  removedSince : Nat
  residual : Option Nat
  retries : Nat
  dischargedAt : Option Stamp
  recheck : Bool
  residualAtFeed : Option Nat
  cause : Option QuarantineCause
  admittedAt : Stamp
deriving DecidableEq, Repr

/-- One of the 256 records: its generation, and its pack unless it is FREE (R1). -/
structure Rec where
  gen : Nat
  pack : Option Pack
deriving DecidableEq, Repr

/-! ### Bay Supervisor -/

inductive BayState where
  | empty | loaded | discharging | resting | done | paused | faulted
deriving DecidableEq, Repr

inductive PauseCause where
  | line | samples | link | output
deriving DecidableEq, Repr

inductive FaultCause where
  | overCurrent | outputMismatch | zoneAlarm | overTemperature | reverseCurrent | restCurrent
deriving DecidableEq, Repr

inductive SlotName where
  | a | b
deriving DecidableEq, Repr

/-- One load profile slot of a bay. -/
structure Slot where
  current : Nat
  stop : Nat
  segment : Nat
  valid : Bool
deriving DecidableEq, Repr

/-- An invalid slot; its contents are not stated (log entry 24). -/
def Slot.none : Slot := ⟨0, 0, 0, false⟩

/-- An accepted sample: mV, mA, 0.1 degrees C, and its arrival on the line clock in ms. -/
structure Sample where
  voltage : Nat
  current : Int
  temp : Int
  arrival : Nat
deriving DecidableEq, Repr

/-- The result of a residual check (R44). -/
structure Check where
  vc : Nat
  frac : Nat
  residual : Nat
  limit : Nat
  pass : Bool
deriving DecidableEq, Repr

/-- The intake tally of R88. -/
structure Tally where
  accepted : Nat
  filled : Nat
  duplicates : Nat
  stale : Nat
  outOfRange : Nat
  resyncs : Nat
deriving DecidableEq, Repr

def Tally.zero : Tally := ⟨0, 0, 0, 0, 0, 0⟩

/-- One bay context. The contactor's command and read-back stand in its supervision context (`Outputs`). -/
structure Bay where
  state : BayState
  occupant : Option Handle
  recheck : Bool
  slotA : Slot
  slotB : Slot
  active : SlotName
  pending : Bool
  elapsed : Nat
  rest : Option Nat
  deferred : Bool
  pauseCause : Option PauseCause
  faultCause : Option FaultCause
  setpoint : Nat
  overRef : Nat
  overEnd : Option Nat
  confirmedOpen : Bool
  lastSeq : Option Nat
  lastSample : Option Sample
  lastCheck : Option Check
  tally : Tally
deriving DecidableEq, Repr

/-- R51, R76: an EMPTY bay. -/
def Bay.initial : Bay :=
  { state := .empty, occupant := none, recheck := false, slotA := Slot.none, slotB := Slot.none, active := .a,
    pending := false, elapsed := 0, rest := none, deferred := false, pauseCause := none, faultCause := none,
    setpoint := 0, overRef := 0, overEnd := none, confirmedOpen := true, lastSeq := none, lastSample := none,
    lastCheck := none, tally := Tally.zero }

/-! ### Atmosphere Monitor -/

inductive AnalyzerStatus where
  | ok | warmup | fault
deriving DecidableEq, Repr

structure Reading where
  value : Nat
  saturated : Bool
  status : AnalyzerStatus
  arrival : Nat
deriving DecidableEq, Repr

structure Analyzer where
  latest : Option Reading
  valid : Bool
deriving DecidableEq, Repr

inductive InertState where
  | vented | purging | holding | inert | tripped
deriving DecidableEq, Repr

/-- The five inerting limits (R104). -/
structure InertLimits where
  purge : Nat
  run : Nat
  trip : Nat
  hold : Nat
  maxPurge : Nat
deriving DecidableEq, Repr

def InertLimits.initial : InertLimits := ⟨400, 500, 800, 60, 900⟩

structure Atmosphere where
  a : Analyzer
  b : Analyzer
  oxygen : Nat
  discrepancy : Bool
  state : InertState
  purgeClock : Option Nat
  timeoutReported : Bool
  holdTimer : Option Nat
  z7Released : Bool
  limits : InertLimits
deriving DecidableEq, Repr

/-- R106, with the default limits of R104. -/
def Atmosphere.initial : Atmosphere :=
  { a := ⟨none, false⟩, b := ⟨none, false⟩, oxygen := Config.airOxygen, discrepancy := false, state := .vented,
    purgeClock := none, timeoutReported := false, holdTimer := none, z7Released := false,
    limits := InertLimits.initial }

/-! ### Fire Zone Controller -/

inductive DetectorKind where
  | heat | smoke | gas | flame
deriving DecidableEq, Repr

inductive DetectorState where
  | normal | confirming | active | rearming | confirmingFault | faulted
deriving DecidableEq, Repr

/-- A detector's map entry and context. `faultShort` is the fault kind: some true for SHORT, some false for OPEN. -/
structure Detector where
  zone : Option (Fin 8)
  kind : DetectorKind
  line : LineState
  state : DetectorState
  prior : Option DetectorState
  timer : Option Nat
  faultShort : Option Bool
deriving DecidableEq, Repr

def Detector.initial : Detector := ⟨none, .heat, .normal, .normal, none, none, none⟩

inductive ZoneState where
  | normal | preAlarm | alarm | releasePending | released | isolated
deriving DecidableEq, Repr

structure Zone where
  state : ZoneState
  hold : Bool
  timer : Option Nat
  inventory : Nat
  threshold : Nat
  delay : Nat
deriving DecidableEq, Repr

/-- R153: the values of a zone other than Z7. -/
def Zone.initial : Zone := ⟨.normal, false, none, 0, 20000, 30⟩

/-- R153: the values of Z7. -/
def Zone.initialZ7 : Zone := ⟨.normal, false, none, 0, 0, 0⟩

structure Fire where
  detectors : Vector Detector 24
  dwell : Nat
  rearm : Nat
  zones : Vector Zone 8
deriving DecidableEq, Repr

/-- R132, R134, R153, R156. -/
def Fire.initial : Fire :=
  { detectors := Vector.replicate 24 Detector.initial, dwell := 500, rearm := 10,
    zones := (Vector.replicate 8 Zone.initial).set 6 Zone.initialZ7 }

/-! ### Feed Controller -/

inductive LockState where
  | empty | loading | lockPurge | dropping | held | blocked
deriving DecidableEq, Repr

/-- The feed lock context ("The lock context"). -/
structure Lock where
  state : LockState
  occupant : Option Handle
  dropStarted : Bool
  returning : Bool
  purgeTimer : Option Nat
deriving DecidableEq, Repr

def Lock.initial : Lock := ⟨.empty, none, false, false, none⟩

/-- The Feed Controller's copies of the permit's inputs, as last told (R108). -/
structure PermitInputs where
  inert : InertState
  z6 : ZoneState
  z7 : ZoneState
  firePresent : Bool
  uncontained : Bool
  shredLotSet : Bool
deriving DecidableEq, Repr

def PermitInputs.initial : PermitInputs := ⟨.vented, .normal, .normal, false, false, false⟩

structure Feed where
  permit : Bool
  inputs : PermitInputs
  queue : List Handle
  lock : Lock
  purgeTime : Nat
deriving DecidableEq, Repr

/-- R109, R111, R129, R130. -/
def Feed.initial : Feed := ⟨false, PermitInputs.initial, [], Lock.initial, 15⟩

/-! ### Lot Table -/

/-- The states of a lot in use; a FREE slot holds no lot. -/
inductive LotState where
  | opened | draining | closed
deriving DecidableEq, Repr

inductive Balance where
  | notApplicable | within | exception
deriving DecidableEq, Repr

/-- A lot record ("The lot record"). -/
structure Lot where
  state : LotState
  number : Nat
  admitted : Nat
  shredded : Nat
  withdrawn : Nat
  intakeMass : Nat
  shreddedMass : Nat
  withdrawnMass : Nat
  outputMass : Nat
  energy : Nat
  residualAtFeed : Nat
  final : Bool
  uncertain : Bool
  balance : Option Balance
  recovery : Option Nat
  openedAt : Stamp
  closedAt : Option Stamp
deriving DecidableEq, Repr

/-- The switch record of R169. -/
structure Switch where
  old : Fin 8
  target : Fin 8
  chamberClear : Bool
  finalSeen : Bool
deriving DecidableEq, Repr

structure LotTable where
  lots : Vector (Option Lot) 8
  shredLot : Option (Fin 8)
  switch : Option Switch
  boundLow : Nat
  boundHigh : Nat
deriving DecidableEq, Repr

/-- R157. -/
def LotTable.initial : LotTable := ⟨Vector.replicate 8 none, none, none, 550, 1020⟩

/-! ### Incident Banks -/

inductive BankId where
  | links | records | discharge | atmosphere | fire | feed
deriving DecidableEq, Repr

inductive Severity where
  | advisory | contained | uncontained
deriving DecidableEq, Repr

/-- The codes of the incident catalogue (R182), bank by bank, in the catalogue's order. -/
inductive Code where
  | stationAbsent | frameErrors
  | retentionLost | feedUncertain | balanceException
  | overTemperature | reverseCurrent | restCurrent | overCurrent | sampleLoss | reboundLimit | contactorMismatch
  | curveInvalid
  | o2Trip | analyzerLoss | analyzerDiscrepancy | purgeTimeout | purgeOutputMismatch
  | zonePreAlarm | zoneAlarm | zoneReleased | detectorFault | releaseOutputMismatch
  | gateMismatch | permitOutputMismatch | lockHeld
deriving DecidableEq, Repr

/-- A held incident ("The bank record"). `place` is the zone or bay number, as the code says. -/
structure Incident where
  severity : Severity
  code : Code
  detail : Nat
  pack : Option Handle
  place : Option Nat
  lot : Option (Fin 8)
  uncertain : Bool
  stamp : Stamp
deriving DecidableEq, Repr

/-- A bank: it is valid while it holds an incident. -/
structure Bank where
  held : Option Incident
  overflow : Bool
  number : Nat
  enables : List Bool
deriving DecidableEq, Repr

/-- R174: a bank of newly initialised memory, with `k` codes. -/
def Bank.initial (k : Nat) : Bank := ⟨none, false, 0, List.replicate k true⟩

structure Banks where
  links : Bank
  records : Bank
  discharge : Bank
  atmosphere : Bank
  fire : Bank
  feed : Bank
deriving DecidableEq, Repr

def Banks.initial : Banks :=
  ⟨Bank.initial 2, Bank.initial 3, Bank.initial 8, Bank.initial 5, Bank.initial 5, Bank.initial 3⟩

/-! ### Station Links -/

/-- The inputs a permit notice lists as failing (R109). -/
inductive PermitInput where
  | inert | z6 | z7 | firePort | banks | shredLot
deriving DecidableEq, Repr

/-- What a notice reports: the kinds of the table of notice kinds, each with its subject and value. -/
inductive NoticeBody where
  | pack (h : Handle) (state : PackState) (loc : Loc)
  | bay (n : Fin 8) (state : BayState) (pause : Option PauseCause) (fault : Option FaultCause)
      (occupant : Option Handle)
  | lock (state : LockState) (occupant : Option Handle) (dropStarted returning : Bool)
  | permit (on : Bool) (failing : List PermitInput)
  | inert (state : InertState) (oxygen : Nat)
  | zone (n : Fin 8) (state : ZoneState) (hold : Bool) (remaining : Option Nat) (inventory : Nat)
  | detectorFault (n : Fin 24) (state : DetectorState) (short : Option Bool) (zone : Option (Fin 8))
  | incident (bank : BankId) (code : Code) (severity : Severity) (detail number : Nat) (kept : Bool)
  | bankCleared (bank : BankId) (number : Nat)
  | presence (p : Port) (present : Bool)
  | lot (n : Fin 8) (state : Option LotState) (number : Nat) (closing : Option (Option Balance × Option Nat × Bool))
  | shredLot (lot : Option (Fin 8)) (switch : Option Switch)
deriving DecidableEq, Repr

structure Notice where
  what : NoticeBody
  stamp : Stamp
deriving DecidableEq, Repr

/-- The result codes of R186. -/
inductive Result where
  | ok | denied | malformed | noPack | wrongState | frozen | busy | full | duplicate | guardMismatch | notPermitted
  | stale | wrongLot | recheckRequired
deriving DecidableEq, Repr

/-- A received request frame, less its start byte, length and CRC (R184). -/
structure Frame where
  seq : Byte
  code : Byte
  body : List Byte
deriving DecidableEq, Repr

/-- A response frame, less its start byte, length and CRC (R184). -/
structure Response where
  seq : Byte
  code : Byte
  result : Result
  body : List Byte
deriving DecidableEq, Repr

/-- A receiver hunts for a start byte, or ignores bytes until the line has been idle (R185, R201). -/
inductive Receiver where
  | hunting | ignoring
deriving DecidableEq, Repr

/-- The state of one station port. `response` is the response last produced (R186, R196). -/
structure PortCtx where
  present : Bool
  timer : Option Nat
  presenceTime : Nat
  receiver : Receiver
  received : List Frame
  errors : Nat
  notices : List Notice
  overflowed : Bool
  cursor : Fin 256
  response : Option Response
deriving DecidableEq, Repr

/-- R192, R196: a port after a hardware reset, with its presence time. -/
def PortCtx.initial (seconds : Nat) : PortCtx :=
  { present := false, timer := none, presenceTime := seconds, receiver := .hunting, received := [], errors := 0,
    notices := [], overflowed := false, cursor := 0, response := none }

structure Ports where
  line : PortCtx
  fire : PortCtx
  custody : PortCtx
deriving DecidableEq, Repr

def Ports.initial : Ports := ⟨PortCtx.initial 5, PortCtx.initial 2, PortCtx.initial 120⟩

/-! ### Field outputs and field link -/

/-- A supervision context ("Read-back supervision"). -/
structure Supervision where
  command : Bool
  readback : Bool
  window : Option Nat
  disagree : Option Nat
  reported : Bool
deriving DecidableEq, Repr

/-- R200, with the read-back input at `level`. -/
def Supervision.initial (level : Bool) : Supervision := ⟨false, level, some Config.windowMs, none, false⟩

structure Outputs where
  contactors : Vector Supervision 8
  permit : Supervision
  upperGate : Supervision
  lowerGate : Supervision
  purge : Supervision
  releases : Vector Supervision 8
  lineFault : Bool
deriving DecidableEq, Repr

/-- R200 with every read-back input off; the line fault output off. -/
def Outputs.initial : Outputs :=
  { contactors := Vector.replicate 8 (Supervision.initial false), permit := Supervision.initial false,
    upperGate := Supervision.initial false, lowerGate := Supervision.initial false, purge := Supervision.initial false,
    releases := Vector.replicate 8 (Supervision.initial false), lineFault := false }

/-- A LOAD_SET frame waiting or sent (R78, R202). -/
structure LoadSet where
  bay : Fin 8
  setpoint : Nat
deriving DecidableEq, Repr

structure FieldLink where
  waiting : List LoadSet
  sent : Option LoadSet
  refresh : Vector (Option Nat) 8
  receiver : Receiver
deriving DecidableEq, Repr

/-- R202: after a hardware reset eight LOAD_SETs of setpoint 0 wait, in bay order. That the receiver hunts then is the
model's choice (log entry 16). -/
def FieldLink.initial : FieldLink :=
  { waiting := [⟨0, 0⟩, ⟨1, 0⟩, ⟨2, 0⟩, ⟨3, 0⟩, ⟨4, 0⟩, ⟨5, 0⟩, ⟨6, 0⟩, ⟨7, 0⟩], sent := none,
    refresh := Vector.replicate 8 none, receiver := .hunting }

/-! ### The whole part -/

/-- The state of the part. `run` is no while the part is stopped (R203), `checkAgrees` is whether retained memory
agrees with its check word (R172), `retentionFound` what the last reset found (R173). -/
structure State where
  run : Bool
  clock : Nat
  epoch : Nat
  retentionFound : Bool
  checkAgrees : Bool
  straps : Straps
  packs : Vector Rec 256
  inventories : Vector Nat 8
  cls : Classification
  bays : Vector Bay 8
  atm : Atmosphere
  feed : Feed
  fire : Fire
  lot : LotTable
  banks : Banks
  ports : Ports
  out : Outputs
  link : FieldLink
  pending : List Instr
deriving DecidableEq, Repr

/-- The part as a hardware reset starts it from newly initialised memory, before RETENTION_LOST is posted. -/
def State.initial : State :=
  { run := true, clock := 0, epoch := 0, retentionFound := false, checkAgrees := true, straps := ⟨false, false⟩,
    packs := Vector.replicate 256 ⟨0, none⟩, inventories := Vector.replicate 8 0, cls := Classification.initial,
    bays := Vector.replicate 8 Bay.initial, atm := Atmosphere.initial, feed := Feed.initial, fire := Fire.initial,
    lot := LotTable.initial, banks := Banks.initial, ports := Ports.initial, out := Outputs.initial,
    link := FieldLink.initial, pending := [] }

/-- R172, R174: RETENTION_LOST, the first incident of newly initialised memory. -/
def retentionLostBank : Bank :=
  { held := some ⟨.uncontained, .retentionLost, 0, none, none, none, false, ⟨0, 0⟩⟩, overflow := false, number := 1,
    enables := List.replicate 3 true }

/-- The machine right after reset: the first hardware reset of a part whose retained memory was never initialised
(R172), with every detector line NORMAL, every read-back off and both straps low (log entry 6). -/
def State.reset : State :=
  { State.initial with
    banks := { Banks.initial with records := retentionLostBank }
    out := { Outputs.initial with lineFault := true } }

end Sys2Proof.Machine
end

