-- ==== Sys2Proof/WellFormed.lean ====
section
/-! DEFINITION. The fields of each request with their widths on the wire (R187, R188), and the check that a command's
operands are what its frame can carry. -/

namespace Sys2Proof

/-- One body field: its width in bytes and its number. -/
structure WireField where
  width : Nat
  value : Nat
deriving DecidableEq, Repr

/-- An optional field is preceded by one byte, 0 for absent and 1 for present (R187). -/
def optField (w : Nat) : Option Nat → List WireField
  | none => [⟨1, 0⟩]
  | some v => [⟨1, 1⟩, ⟨w, v⟩]

/-- The width of the time of SET_PRESENCE_TIME: the smallest that holds the port's range (R187, R192). -/
def presenceWidth : Port → Nat
  | .custody => 2
  | _ => 1

/-- The widths of WRITE_TREATMENT's fields after the index: R187 applied to the treatment table's ranges. -/
def TreatmentFields.wire (t : TreatmentFields) : List WireField :=
  [⟨1, t.refuse⟩, ⟨1, t.acceptDamaged⟩, ⟨2, t.limit⟩, ⟨4, t.cap⟩, ⟨1, t.curve⟩, ⟨4, t.current⟩, ⟨2, t.stop⟩,
   ⟨2, t.segment⟩, ⟨2, t.rest⟩, ⟨1, t.retries⟩, ⟨2, t.dwell⟩, ⟨2, t.maxTemp⟩]

namespace Instr

/-- The port, the sequence byte and the request code (the request catalogue) of a request; none for an event. -/
def head : Instr → Option (Port × Byte × Nat)
  | readStatus p q _ => some (p, q, 1)
  | readPack p q .. => some (p, q, 2)
  | listPacks p q .. => some (p, q, 3)
  | setCursor p q _ => some (p, q, 4)
  | readBay p q _ => some (p, q, 5)
  | readZone p q _ => some (p, q, 6)
  | readLot p q _ => some (p, q, 7)
  | readBank p q _ => some (p, q, 8)
  | readConfig p q .. => some (p, q, 9)
  | fetchNotices p q => some (p, q, 10)
  | setPresenceTime p q _ => some (p, q, 11)
  | clearBank p q .. => some (p, q, 12)
  | setReportEnables p q .. => some (p, q, 13)
  | admitPack p q .. => some (p, q, 20)
  | withdraw p q .. => some (p, q, 21)
  | openLot p q _ => some (p, q, 22)
  | closeLot p q _ => some (p, q, 23)
  | releaseLot p q _ => some (p, q, 24)
  | outputWeight p q .. => some (p, q, 25)
  | switchShredLot p q _ => some (p, q, 26)
  | cancelSwitch p q => some (p, q, 27)
  | setRecoveryBounds p q .. => some (p, q, 28)
  | assign p q .. => some (p, q, 40)
  | move p q .. => some (p, q, 41)
  | quarantine p q .. => some (p, q, 42)
  | start p q _ => some (p, q, 43)
  | pause p q _ => some (p, q, 44)
  | resume p q _ => some (p, q, 45)
  | abort p q _ => some (p, q, 46)
  | writeSlot p q .. => some (p, q, 47)
  | clearBay p q _ => some (p, q, 48)
  | enqueue p q .. => some (p, q, 49)
  | remove p q .. => some (p, q, 50)
  | feed p q .. => some (p, q, 51)
  | lockClosed p q => some (p, q, 52)
  | returnPack p q .. => some (p, q, 53)
  | dropDone p q .. => some (p, q, 54)
  | lockEmptied p q => some (p, q, 55)
  | chamberClear p q => some (p, q, 56)
  | inertStart p q => some (p, q, 57)
  | inertStop p q => some (p, q, 58)
  | writeFeed p q _ => some (p, q, 59)
  | writeTreatment p q .. => some (p, q, 60)
  | writeRange p q .. => some (p, q, 61)
  | writeSlotMap p q .. => some (p, q, 62)
  | setMap p q .. => some (p, q, 63)
  | curveBegin p q _ => some (p, q, 64)
  | curvePoint p q .. => some (p, q, 65)
  | curveEnd p q _ => some (p, q, 66)
  | lineRestart p q .. => some (p, q, 67)
  | writeDetector p q .. => some (p, q, 80)
  | writeFireTimes p q .. => some (p, q, 81)
  | writeZone p q .. => some (p, q, 82)
  | hold p q _ => some (p, q, 83)
  | holdEnd p q _ => some (p, q, 84)
  | release p q .. => some (p, q, 85)
  | zoneReset p q .. => some (p, q, 86)
  | isolateZone p q _ => some (p, q, 87)
  | restoreZone p q _ => some (p, q, 88)
  | inertReset p q .. => some (p, q, 89)
  | writeInertLimits p q .. => some (p, q, 90)
  | _ => none

/-- The body fields of a request, in the order its rule lists them, at the widths of R187 (log entry 14). -/
def fields : Instr → List WireField
  | readStatus _ _ part => [⟨1, part⟩]
  | readPack _ _ i g => [⟨1, i⟩, ⟨1, g⟩]
  | listPacks _ _ st lot => optField 1 st ++ optField 1 lot
  | setCursor _ _ i => [⟨1, i⟩]
  | readBay _ _ n => [⟨1, n⟩]
  | readZone _ _ z => [⟨1, z⟩]
  | readLot _ _ l => [⟨1, l⟩]
  | readBank _ _ b => [⟨1, b⟩]
  | readConfig _ _ item index => [⟨1, item⟩, ⟨1, index⟩]
  | setPresenceTime p _ t => [⟨presenceWidth p, t⟩]
  | clearBank _ _ b n => [⟨1, b⟩, ⟨4, n⟩]
  | setReportEnables _ _ b es => ⟨1, b⟩ :: ⟨1, es.length⟩ :: es.map (⟨1, ·⟩)
  | admitPack _ _ tag lot tc dam mass nom cells =>
      [⟨8, tag⟩, ⟨1, lot⟩, ⟨4, tc⟩, ⟨1, dam⟩, ⟨4, mass⟩, ⟨4, nom⟩, ⟨1, cells⟩]
  | withdraw _ _ i g => [⟨1, i⟩, ⟨1, g⟩]
  | openLot _ _ n => [⟨4, n⟩]
  | closeLot _ _ l => [⟨1, l⟩]
  | releaseLot _ _ l => [⟨1, l⟩]
  | outputWeight _ _ l m f => [⟨1, l⟩, ⟨4, m⟩, ⟨1, f⟩]
  | switchShredLot _ _ l => [⟨1, l⟩]
  | setRecoveryBounds _ _ lo hi => [⟨2, lo⟩, ⟨2, hi⟩]
  | assign _ _ i g n => [⟨1, i⟩, ⟨1, g⟩, ⟨1, n⟩]
  | move _ _ i g d => [⟨1, i⟩, ⟨1, g⟩, ⟨1, d⟩]
  | quarantine _ _ i g => [⟨1, i⟩, ⟨1, g⟩]
  | start _ _ n => [⟨1, n⟩]
  | pause _ _ n => [⟨1, n⟩]
  | resume _ _ n => [⟨1, n⟩]
  | abort _ _ n => [⟨1, n⟩]
  | writeSlot _ _ n sl c v t => [⟨1, n⟩, ⟨1, sl⟩, ⟨4, c⟩, ⟨2, v⟩, ⟨2, t⟩]
  | clearBay _ _ n => [⟨1, n⟩]
  | enqueue _ _ i g => [⟨1, i⟩, ⟨1, g⟩]
  | remove _ _ i g d => [⟨1, i⟩, ⟨1, g⟩, ⟨1, d⟩]
  | feed _ _ i g => [⟨1, i⟩, ⟨1, g⟩]
  | returnPack _ _ i g => [⟨1, i⟩, ⟨1, g⟩]
  | dropDone _ _ i g => [⟨1, i⟩, ⟨1, g⟩]
  | writeFeed _ _ t => [⟨1, t⟩]
  | writeTreatment _ _ i t => ⟨1, i⟩ :: t.wire
  | writeRange _ _ i lo hi t e => [⟨1, i⟩, ⟨4, lo⟩, ⟨4, hi⟩, ⟨1, t⟩, ⟨1, e⟩]
  | writeSlotMap _ _ f t e => [⟨1, f⟩, ⟨1, t⟩, ⟨1, e⟩]
  | setMap _ _ e t => [⟨1, e⟩, ⟨1, t⟩]
  | curveBegin _ _ c => [⟨1, c⟩]
  | curvePoint _ _ c v f => [⟨1, c⟩, ⟨2, v⟩, ⟨2, f⟩]
  | curveEnd _ _ c => [⟨1, c⟩]
  | lineRestart _ _ t a b => [⟨1, t⟩, ⟨1, a⟩, ⟨1, b⟩]
  | writeDetector _ _ d z k => [⟨1, d⟩, ⟨1, z⟩, ⟨1, k⟩]
  | writeFireTimes _ _ d r => [⟨2, d⟩, ⟨1, r⟩]
  | writeZone _ _ z th d => [⟨1, z⟩, ⟨4, th⟩, ⟨1, d⟩]
  | hold _ _ z => [⟨1, z⟩]
  | holdEnd _ _ z => [⟨1, z⟩]
  | release _ _ t a b => [⟨1, t⟩, ⟨1, a⟩, ⟨1, b⟩]
  | zoneReset _ _ t a b => [⟨1, t⟩, ⟨1, a⟩, ⟨1, b⟩]
  | isolateZone _ _ z => [⟨1, z⟩]
  | restoreZone _ _ z => [⟨1, z⟩]
  | inertReset _ _ t a b => [⟨1, t⟩, ⟨1, a⟩, ⟨1, b⟩]
  | writeInertLimits _ _ a b c h m => [⟨2, a⟩, ⟨2, b⟩, ⟨2, c⟩, ⟨2, h⟩, ⟨2, m⟩]
  | _ => []

/-- Every field holds a number its width can carry. -/
def fieldsFit (i : Instr) : Bool := i.fields.all fun f => f.value < 256 ^ f.width

/-- A request body is at most 240 bytes (R184). -/
def bodyFits (i : Instr) : Bool := (i.fields.map (·.width)).sum ≤ 240

/-- The operands of the events that carry frame fields fit the frames' widths (R184, R201). -/
def eventFits : Instr → Bool
  | stationFrameValid _ _ _ body => body.length ≤ 240
  | baySample a q v c t iv =>
      decide (a < 256 ∧ q < 2 ^ 16 ∧ v < 2 ^ 32 ∧ -2 ^ 31 ≤ c ∧ c < 2 ^ 31 ∧ -2 ^ 15 ≤ t ∧ t < 2 ^ 15 ∧ iv < 2 ^ 16)
  | analyzerReading a o st => decide (a < 256 ∧ o < 2 ^ 16 ∧ st < 256)
  | _ => true

/-- A command is well formed when some frame or event carries exactly its operands. -/
def wellFormed (i : Instr) : Bool := i.fieldsFit && i.bodyFits && i.eventFits

end Instr

end Sys2Proof
end

