-- ==== Sys2Proof/Decode.lean ====
section
/-! DEFINITION. The frames of the station links and of the field link: the CRC, the encoder of every request and field
frame, their decoders, and `decodeTableWord` (the command table gives no row any bits). -/

namespace Sys2Proof

open Machine

/-! ### Numbers on the wire -/

/-- `v` in `k` bytes, most significant byte first (R187). -/
def be : Nat → Nat → List Byte
  | 0, _ => []
  | k + 1, v => BitVec.ofNat 8 (v / 256 ^ k) :: be k v

/-- The number a run of bytes spells, most significant byte first (R187). -/
def rd (bs : List Byte) : Nat := bs.foldl (fun a b => a * 256 + b.toNat) 0

/-- `v` in two's complement in `k` bytes (R187). -/
def beInt (k : Nat) (v : Int) : List Byte := be k (v % (256 ^ k : Nat)).toNat

/-- The number `k` bytes spell in two's complement (R187). -/
def rdInt (k : Nat) (bs : List Byte) : Int :=
  if rd bs < 256 ^ k / 2 then (rd bs : Int) else (rd bs : Int) - (256 ^ k : Nat)

/-- One bit of the CRC of R184: polynomial x^16 + x^12 + x^5 + 1. -/
def crcBit (c : BitVec 16) (b : Bool) : BitVec 16 :=
  if c.msb != b then (c <<< 1) ^^^ 0x1021#16 else c <<< 1

/-- One byte of the CRC, most significant bit first. -/
def crcByte (c : BitVec 16) (b : Byte) : BitVec 16 :=
  [7, 6, 5, 4, 3, 2, 1, 0].foldl (fun c i => crcBit c (b.getLsbD i)) c

/-- The CRC of R184: from FFFF, no final inversion. -/
def crc16 (bs : List Byte) : BitVec 16 := bs.foldl crcByte 0xFFFF#16

/-- The CRC as two bytes, most significant byte first. -/
def crcBytes (bs : List Byte) : List Byte := be 2 (crc16 bs).toNat

/-! ### Requests -/

/-- The body of a request (R187). -/
def Instr.body (i : Instr) : List Byte := i.fields.flatMap fun f => be f.width f.value

/-- The frame of a request, less start byte, length and CRC; an event has the empty frame. -/
def Instr.frame (i : Instr) : Frame :=
  match i.head with
  | some (_, q, c) => ⟨q, BitVec.ofNat 8 c, i.body⟩
  | none => ⟨0, 0, []⟩

/-- A request as the port it arrives on and its frame; none for an event. -/
def encodeRequest (i : Instr) : Option (Port × Frame) := i.head.map fun h => (h.1, i.frame)

/-- The body widths of each request code on port `p` (R187, the owners' rules); none for LIST_PACKS (3) and
SET_REPORT_ENABLES (13), whose length varies, and for a code that is not in the catalogue. -/
def requestWidths (p : Port) : Nat → Option (List Nat)
  | 1 => some [1]
  | 2 => some [1, 1]
  | 4 | 5 | 6 | 7 | 8 => some [1]
  | 9 => some [1, 1]
  | 10 => some []
  | 11 => some [presenceWidth p]
  | 12 => some [1, 4]
  | 20 => some [8, 1, 4, 1, 4, 4, 1]
  | 21 => some [1, 1]
  | 22 => some [4]
  | 23 | 24 => some [1]
  | 25 => some [1, 4, 1]
  | 26 => some [1]
  | 27 => some []
  | 28 => some [2, 2]
  | 40 | 41 => some [1, 1, 1]
  | 42 => some [1, 1]
  | 43 | 44 | 45 | 46 => some [1]
  | 47 => some [1, 1, 4, 2, 2]
  | 48 => some [1]
  | 49 => some [1, 1]
  | 50 => some [1, 1, 1]
  | 51 => some [1, 1]
  | 52 => some []
  | 53 | 54 => some [1, 1]
  | 55 | 56 | 57 | 58 => some []
  | 59 => some [1]
  | 60 => some [1, 1, 1, 2, 4, 1, 4, 2, 2, 2, 1, 2, 2]
  | 61 => some [1, 4, 4, 1, 1]
  | 62 => some [1, 1, 1]
  | 63 => some [1, 1]
  | 64 => some [1]
  | 65 => some [1, 2, 2]
  | 66 => some [1]
  | 67 => some [1, 1, 1]
  | 80 => some [1, 1, 1]
  | 81 => some [2, 1]
  | 82 => some [1, 4, 1]
  | 83 | 84 => some [1]
  | 85 | 86 => some [1, 1, 1]
  | 87 | 88 => some [1]
  | 89 => some [1, 1, 1]
  | 90 => some [2, 2, 2, 2, 2]
  | _ => none

/-- Cut a body into numbers of the given widths; none when the length differs (R187). -/
def splitFields : List Nat → List Byte → Option (List Nat)
  | [], [] => some []
  | [], _ :: _ => none
  | w :: ws, bs =>
    if bs.length < w then none else (splitFields ws (bs.drop w)).map (rd (bs.take w) :: ·)

/-- Read an optional one-byte field: its value if present, and what follows (R187). -/
def readOpt : List Byte → Option (Option Nat × List Byte)
  | 0 :: rest => some (none, rest)
  | 1 :: v :: rest => some (some v.toNat, rest)
  | _ => none

/-- LIST_PACKS: two optional one-byte fields (R21, R187). -/
def readListPacks (p : Port) (q : Byte) (bs : List Byte) : Option Instr :=
  match readOpt bs with
  | some (st, rest) =>
    match readOpt rest with
    | some (lot, []) => some (.listPacks p q st lot)
    | _ => none
  | none => none

/-- SET_REPORT_ENABLES: a bank and an enable for each code. R175 does not say whether the enables are a list of R187, with a
count byte before it, or one field for each code; they are read as a list (log entry 14: the model's choice). -/
def readEnables (p : Port) (q : Byte) : List Byte → Option Instr
  | b :: n :: es => if es.length = n.toNat then some (.setReportEnables p q b.toNat (es.map (·.toNat))) else none
  | _ => none

/-- The request of a code and its numbers (the request catalogue). -/
def buildRequest (p : Port) (q : Byte) : Nat → List Nat → Option Instr
  | 1, [a] => some (.readStatus p q a)
  | 2, [i, g] => some (.readPack p q i g)
  | 4, [a] => some (.setCursor p q a)
  | 5, [a] => some (.readBay p q a)
  | 6, [a] => some (.readZone p q a)
  | 7, [a] => some (.readLot p q a)
  | 8, [a] => some (.readBank p q a)
  | 9, [a, b] => some (.readConfig p q a b)
  | 10, [] => some (.fetchNotices p q)
  | 11, [a] => some (.setPresenceTime p q a)
  | 12, [a, b] => some (.clearBank p q a b)
  | 20, [a, b, c, d, e, f, g] => some (.admitPack p q a b c d e f g)
  | 21, [i, g] => some (.withdraw p q i g)
  | 22, [a] => some (.openLot p q a)
  | 23, [a] => some (.closeLot p q a)
  | 24, [a] => some (.releaseLot p q a)
  | 25, [a, b, c] => some (.outputWeight p q a b c)
  | 26, [a] => some (.switchShredLot p q a)
  | 27, [] => some (.cancelSwitch p q)
  | 28, [a, b] => some (.setRecoveryBounds p q a b)
  | 40, [i, g, a] => some (.assign p q i g a)
  | 41, [i, g, a] => some (.move p q i g a)
  | 42, [i, g] => some (.quarantine p q i g)
  | 43, [a] => some (.start p q a)
  | 44, [a] => some (.pause p q a)
  | 45, [a] => some (.resume p q a)
  | 46, [a] => some (.abort p q a)
  | 47, [a, b, c, d, e] => some (.writeSlot p q a b c d e)
  | 48, [a] => some (.clearBay p q a)
  | 49, [i, g] => some (.enqueue p q i g)
  | 50, [i, g, a] => some (.remove p q i g a)
  | 51, [i, g] => some (.feed p q i g)
  | 52, [] => some (.lockClosed p q)
  | 53, [i, g] => some (.returnPack p q i g)
  | 54, [i, g] => some (.dropDone p q i g)
  | 55, [] => some (.lockEmptied p q)
  | 56, [] => some (.chamberClear p q)
  | 57, [] => some (.inertStart p q)
  | 58, [] => some (.inertStop p q)
  | 59, [a] => some (.writeFeed p q a)
  | 60, [i, a, b, c, d, e, f, g, h, j, k, l, m] => some (.writeTreatment p q i ⟨a, b, c, d, e, f, g, h, j, k, l, m⟩)
  | 61, [a, b, c, d, e] => some (.writeRange p q a b c d e)
  | 62, [a, b, c] => some (.writeSlotMap p q a b c)
  | 63, [a, b] => some (.setMap p q a b)
  | 64, [a] => some (.curveBegin p q a)
  | 65, [a, b, c] => some (.curvePoint p q a b c)
  | 66, [a] => some (.curveEnd p q a)
  | 67, [a, b, c] => some (.lineRestart p q a b c)
  | 80, [a, b, c] => some (.writeDetector p q a b c)
  | 81, [a, b] => some (.writeFireTimes p q a b)
  | 82, [a, b, c] => some (.writeZone p q a b c)
  | 83, [a] => some (.hold p q a)
  | 84, [a] => some (.holdEnd p q a)
  | 85, [a, b, c] => some (.release p q a b c)
  | 86, [a, b, c] => some (.zoneReset p q a b c)
  | 87, [a] => some (.isolateZone p q a)
  | 88, [a] => some (.restoreZone p q a)
  | 89, [a, b, c] => some (.inertReset p q a b c)
  | 90, [a, b, c, d, e] => some (.writeInertLimits p q a b c d e)
  | _, _ => none

/-- The request that a frame on port `p` carries; none for a code that is not in the catalogue and for a body whose
length does not match the request's fields (R186, R187). -/
def decodeRequest (p : Port) (f : Frame) : Option Instr :=
  let code := f.code.toNat
  if code = 3 then readListPacks p f.seq f.body
  else if code = 13 then readEnables p f.seq f.body
  else match requestWidths p code with
    | none => none
    | some ws =>
      match splitFields ws f.body with
      | none => none
      | some vs => buildRequest p f.seq code vs

/-- The ports that may issue a request code, as the catalogue gives; none for a code that is not in it. -/
def rolesOf (code : Nat) : Option (List Port) :=
  if 1 ≤ code ∧ code ≤ 13 then some [.line, .fire, .custody]
  else if 20 ≤ code ∧ code ≤ 28 then some [.custody]
  else if 40 ≤ code ∧ code ≤ 67 then some [.line]
  else if 80 ≤ code ∧ code ≤ 90 then some [.fire]
  else none

/-! ### Frames as bytes -/

/-- The start byte of every frame (R184, R201). -/
def startByte : Byte := 0xA5

/-- Put start byte and CRC around a frame's bytes (R184). -/
def closeFrame (bs : List Byte) : List Byte := startByte :: (bs ++ crcBytes bs)

/-- A request frame as bytes (R184). -/
def Machine.Frame.bytes (f : Frame) : List Byte :=
  closeFrame ([f.seq, f.code] ++ be 1 f.body.length ++ f.body)

/-- The number of a result code (R186). -/
def Machine.Result.number (r : Result) : Nat := r.ctorIdx

/-- A response frame as bytes (R184). -/
def Machine.Response.bytes (r : Response) : List Byte :=
  closeFrame ([r.seq, r.code] ++ be 1 r.result.number ++ be 1 r.body.length ++ r.body)

/-- The event that the bytes of one frame make on a port that is hunting, from the start byte to the last CRC byte (R185):
overlong as soon as the length byte is taken, then the CRC. None where the bytes are not one frame. -/
def stationEvent (p : Port) : List Byte → Option Instr
  | s :: q :: c :: n :: rest =>
    if s ≠ startByte then none
    else if 240 < n.toNat then some (.stationFrameDiscard p .overlong)
    else if rest.length ≠ n.toNat + 2 then none
    else
      let body := rest.take n.toNat
      if crcBytes ([q, c, n] ++ body) = rest.drop n.toNat then some (.stationFrameValid p q c body)
      else some (.stationFrameDiscard p .badCrc)
  | _ => none

/-- A BAY_SAMPLE or ANALYZER_READING as the bytes of its field frame (the field frame and body tables); none for every
other command. -/
def fieldBytes : Instr → Option (List Byte)
  | .baySample a q v c t iv =>
      some (closeFrame (be 1 a ++ be 1 1 ++ be 1 14 ++ be 2 q ++ be 4 v ++ beInt 4 c ++ beInt 2 t ++ be 2 iv))
  | .analyzerReading a o st => some (closeFrame (be 1 a ++ be 1 2 ++ be 1 3 ++ be 2 o ++ be 1 st))
  | _ => none

/-- A LOAD_SET as the bytes of its field frame; the bay is its address (R78, R202). -/
def Machine.LoadSet.bytes (l : LoadSet) : List Byte :=
  closeFrame (be 1 (l.bay.1 + 1) ++ be 1 3 ++ be 1 4 ++ be 4 l.setpoint)

/-- The body of a correct field frame as the event it is (R201). -/
def fieldBody (a c : Byte) (body : List Byte) : Instr :=
  if c = 1 then
    if body.length = 14 then
      .baySample a.toNat (rd (body.take 2)) (rd ((body.drop 2).take 4)) (rdInt 4 ((body.drop 6).take 4))
        (rdInt 2 ((body.drop 10).take 2)) (rd (body.drop 12))
    else .fieldFrameDiscard .badLength
  else if c = 2 then
    if body.length = 3 then .analyzerReading a.toNat (rd (body.take 2)) (rd (body.drop 2))
    else .fieldFrameDiscard .badLength
  else .fieldFrameDiscard .badCode

/-- The event that the bytes of one frame make at the hunting field receiver (R201). None where they are not one frame. -/
def fieldEvent : List Byte → Option Instr
  | s :: a :: c :: n :: rest =>
    if s ≠ startByte then none
    else if 240 < n.toNat then some (.fieldFrameDiscard .overlong)
    else if rest.length ≠ n.toNat + 2 then none
    else
      let body := rest.take n.toNat
      if crcBytes ([a, c, n] ++ body) = rest.drop n.toNat then some (fieldBody a c body)
      else some (.fieldFrameDiscard .badCrc)
  | _ => none

/-! ### The command table -/

/-- The command a word spells by the table's bits: no row of spec/opcode_table.json gives bits, so none. -/
def decodeTableWord (_nbits _w : Nat) : Option Instr := none

end Sys2Proof
end

