-- ==== Sys2Proof/Machine/Operands.lean ====
section
/-! DEFINITION. How the fields of a request name things of the state, how values are numbered on the wire (R188), and
reading and writing one port, bank, output, bay, zone, detector, record or lot of the state. -/

namespace Sys2Proof.Machine

/-! ### Operand numbers -/

/-- A number counted from 0, as an index below `n`. -/
def index0 (n k : Nat) : Option (Fin n) := if h : k < n then some ⟨k, h⟩ else none

/-- A number counted from 1 (a bay, a zone, a detector), as an index below `n`. -/
def index1 (n k : Nat) : Option (Fin n) := if k = 0 then none else index0 n (k - 1)

/-- A yes/no or on/off field: 0 or 1 (R188). -/
def yesNo : Nat → Option Bool
  | 0 => some false
  | 1 => some true
  | _ => none

/-- `v` taken at the nearest end of `lo` to `hi` (00_scope.md, Quantities). -/
def clamp (lo hi v : Nat) : Nat := max lo (min hi v)

/-- The handle two fields carry; none when either is out of range. -/
def handleOf (index gen : Nat) : Option Handle :=
  if gen < 256 then (index0 256 index).map (⟨·, gen⟩) else none

/-- Every bay or zone, in number order. -/
def eight : List (Fin 8) := [0, 1, 2, 3, 4, 5, 6, 7]

/-- Every detector, in number order. -/
def allDetectors : List (Fin 24) := List.finRange 24

/-- Every record index, in order. -/
def allRecords : List (Fin 256) := List.finRange 256

/-- The six banks, in order (R188). -/
def allBanks : List BankId := [.links, .records, .discharge, .atmosphere, .fire, .feed]

def bankOfNumber (k : Nat) : Option BankId := allBanks[k]?

/-- The detector kinds, in order (R132, R188). -/
def kindOfNumber (k : Nat) : Option DetectorKind := [DetectorKind.heat, .smoke, .gas, .flame][k]?

/-- The states of allocated records, numbered from 1 (R188); FREE is 0. -/
def packStateOfNumber (k : Nat) : Option PackState :=
  if k = 0 then none
  else [PackState.received, .loaded, .discharging, .resting, .discharged, .queued, .feeding, .shredded, .quarantined,
    .withdrawn][k - 1]?

/-- Slot A is 0, slot B is 1 (R52, R188). -/
def slotOfNumber : Nat → Option SlotName
  | 0 => some .a
  | 1 => some .b
  | _ => none

/-- Port numbers of incident details (R183). -/
def portNumber : Port → Nat
  | .line => 1
  | .fire => 2
  | .custody => 3

/-- The baud rate of the three station ports, as the two straps read at the last hardware reset give it (R183). -/
def State.portBaud (s : State) : Nat :=
  match s.straps.first, s.straps.second with
  | false, false => 57600
  | true, false => 115200
  | false, true => 230400
  | true, true => 460800

/-- The baud rate of the field link, whatever the straps say (R183; chapter 11, the field link). -/
def fieldBaud : Nat := 460800

def allPorts : List Port := [.line, .fire, .custody]

/-- The two ports other than `p` (R191). -/
def otherPorts (p : Port) : List Port := allPorts.filter (· != p)

/-! ### Places and zones -/

/-- The zone of a bay: BAY1 and BAY2 in Z2, up to BAY7 and BAY8 in Z5 (R4). -/
def bayZone (n : Fin 8) : Fin 8 := ⟨n.1 / 2 + 1, by omega⟩

/-- The zone of a location (R4). -/
def zoneOf : Loc → Option (Fin 8)
  | .intake => some 0
  | .bay n => some (bayZone n)
  | .buffer => some 5
  | .feedLock => some 6
  | .quarantine => some 7
  | .shredder => none
  | .out => none

/-- The number of a location (R188). -/
def Loc.number : Loc → Nat
  | .intake => 0
  | .bay n => n.1 + 1
  | .buffer => 9
  | .feedLock => 10
  | .shredder => 11
  | .quarantine => 12
  | .out => 13

/-! ### One part of the state -/

/-- The time stamp of the present step (00_scope.md, Time). -/
def State.now (s : State) : Stamp := ⟨s.epoch, s.clock / 1000⟩

def State.port (s : State) : Port → PortCtx
  | .line => s.ports.line
  | .fire => s.ports.fire
  | .custody => s.ports.custody

def State.setPort (s : State) (p : Port) (c : PortCtx) : State :=
  match p with
  | .line => { s with ports.line := c }
  | .fire => { s with ports.fire := c }
  | .custody => { s with ports.custody := c }

def Banks.get (b : Banks) : BankId → Bank
  | .links => b.links
  | .records => b.records
  | .discharge => b.discharge
  | .atmosphere => b.atmosphere
  | .fire => b.fire
  | .feed => b.feed

def Banks.put (b : Banks) (k : BankId) (x : Bank) : Banks :=
  match k with
  | .links => { b with links := x }
  | .records => { b with records := x }
  | .discharge => { b with discharge := x }
  | .atmosphere => { b with atmosphere := x }
  | .fire => { b with fire := x }
  | .feed => { b with feed := x }

def State.sup (s : State) : Output → Supervision
  | .contactor n => vget s.out.contactors n
  | .permit => s.out.permit
  | .upperGate => s.out.upperGate
  | .lowerGate => s.out.lowerGate
  | .purge => s.out.purge
  | .release z => vget s.out.releases z

def State.setSup (s : State) (o : Output) (v : Supervision) : State :=
  match o with
  | .contactor n => { s with out.contactors := vset s.out.contactors n v }
  | .permit => { s with out.permit := v }
  | .upperGate => { s with out.upperGate := v }
  | .lowerGate => { s with out.lowerGate := v }
  | .purge => { s with out.purge := v }
  | .release z => { s with out.releases := vset s.out.releases z v }

/-- The supervised outputs, in the order of R197. -/
def allOutputs : List Output :=
  eight.map .contactor ++ [.permit, .upperGate, .lowerGate, .purge] ++ eight.map .release

def State.bay (s : State) (n : Fin 8) : Bay := vget s.bays n

def State.setBay (s : State) (n : Fin 8) (b : Bay) : State := { s with bays := vset s.bays n b }

def State.zone (s : State) (z : Fin 8) : Zone := vget s.fire.zones z

def State.setZone (s : State) (z : Fin 8) (q : Zone) : State := { s with fire.zones := vset s.fire.zones z q }

def State.detector (s : State) (d : Fin 24) : Detector := vget s.fire.detectors d

def State.setDetector (s : State) (d : Fin 24) (x : Detector) : State :=
  { s with fire.detectors := vset s.fire.detectors d x }

def State.record (s : State) (i : Fin 256) : Rec := vget s.packs i

def State.setPack (s : State) (i : Fin 256) (p : Option Pack) : State :=
  { s with packs := vset s.packs i { s.record i with pack := p } }

def State.lotAt (s : State) (j : Fin 8) : Option Lot := vget s.lot.lots j

def State.setLot (s : State) (j : Fin 8) (l : Option Lot) : State := { s with lot.lots := vset s.lot.lots j l }

/-- The pack a handle names: its record is allocated and of the handle's generation (R1). -/
def State.lookup (s : State) (h : Handle) : Option Pack :=
  if (s.record h.index).gen = h.gen then (s.record h.index).pack else none

/-- The handle of a record as it stands. -/
def State.handle (s : State) (i : Fin 256) : Handle := ⟨i, (s.record i).gen⟩

/-- The slot of a bay by name. -/
def Bay.slot (b : Bay) : SlotName → Slot
  | .a => b.slotA
  | .b => b.slotB

def Bay.setSlot (b : Bay) (n : SlotName) (x : Slot) : Bay :=
  match n with
  | .a => { b with slotA := x }
  | .b => { b with slotB := x }

def SlotName.other : SlotName → SlotName
  | .a => .b
  | .b => .a

/-- The slot in force. -/
def Bay.activeSlot (b : Bay) : Slot := b.slot b.active

/-! ### Incident catalogue -/

/-- The bank of a code (R182). -/
def Code.bank : Code → BankId
  | .stationAbsent | .frameErrors => .links
  | .retentionLost | .feedUncertain | .balanceException => .records
  | .overTemperature | .reverseCurrent | .restCurrent | .overCurrent | .sampleLoss | .reboundLimit
  | .contactorMismatch | .curveInvalid => .discharge
  | .o2Trip | .analyzerLoss | .analyzerDiscrepancy | .purgeTimeout | .purgeOutputMismatch => .atmosphere
  | .zonePreAlarm | .zoneAlarm | .zoneReleased | .detectorFault | .releaseOutputMismatch => .fire
  | .gateMismatch | .permitOutputMismatch | .lockHeld => .feed

/-- The codes of each bank, in the order of the catalogue (R182). -/
def BankId.codes : BankId → List Code
  | .links => [.stationAbsent, .frameErrors]
  | .records => [.retentionLost, .feedUncertain, .balanceException]
  | .discharge => [.overTemperature, .reverseCurrent, .restCurrent, .overCurrent, .sampleLoss, .reboundLimit,
      .contactorMismatch, .curveInvalid]
  | .atmosphere => [.o2Trip, .analyzerLoss, .analyzerDiscrepancy, .purgeTimeout, .purgeOutputMismatch]
  | .fire => [.zonePreAlarm, .zoneAlarm, .zoneReleased, .detectorFault, .releaseOutputMismatch]
  | .feed => [.gateMismatch, .permitOutputMismatch, .lockHeld]

/-- The number of a code within its bank (R188). -/
def Code.number (c : Code) : Nat := c.bank.codes.idxOf c

/-- The codes that cannot be disabled (R175). -/
def Code.lockedOn : Code → Bool
  | .retentionLost | .o2Trip | .zoneAlarm | .zoneReleased | .releaseOutputMismatch | .gateMismatch
  | .permitOutputMismatch => true
  | _ => false

/-- The port that may clear a bank and write its enables (R179); every port for LINKS. -/
def BankId.clearers : BankId → List Port
  | .links => allPorts
  | .records => [.custody]
  | .discharge | .feed => [.line]
  | .atmosphere | .fire => [.fire]

/-- The ports whose role subscribes to a bank (R177). -/
def BankId.subscribers : BankId → List Port
  | .links => [.fire]
  | .records => [.custody]
  | .discharge => [.line]
  | .atmosphere => [.line, .fire]
  | .fire => [.fire]
  | .feed => [.line]

/-! ### Values as bytes (R187, R188). A named value is numbered in the order of its constructors. -/

def wBool (b : Bool) : List Byte := be 1 (if b then 1 else 0)

def wOpt {α : Type} (f : α → List Byte) : Option α → List Byte
  | none => be 1 0
  | some x => be 1 1 ++ f x

def wList {α : Type} (f : α → List Byte) (l : List α) : List Byte := be 1 l.length ++ l.flatMap f

def wHandle (h : Handle) : List Byte := be 1 h.index.1 ++ be 1 h.gen

def wStamp (t : Stamp) : List Byte := be 2 t.epoch ++ be 4 t.seconds

/-- A place, zone or bay as its number from 1. -/
def wFrom1 {n : Nat} (i : Fin n) : List Byte := be 1 (i.1 + 1)

/-- A zone or unassigned: 0 for unassigned (R188). -/
def wZoneOrNone : Option (Fin 8) → List Byte
  | none => be 1 0
  | some z => wFrom1 z

/-- A lot handle. -/
def wLot (j : Fin 8) : List Byte := be 1 j.1

def PackState.number (p : PackState) : Nat := p.ctorIdx + 1

def LotState.number (l : LotState) : Nat := l.ctorIdx + 1

/-- A presence: PRESENT 0, ABSENT 1, the order of the table of a port's state. -/
def wPresence (present : Bool) : List Byte := be 1 (if present then 0 else 1)

def wSwitch (w : Switch) : List Byte := wLot w.old ++ wLot w.target ++ wBool w.chamberClear ++ wBool w.finalSeen

/-- An OPEN or SHORT fault kind. -/
def wFaultKind (short : Bool) : List Byte := wBool short

/-- The value of a notice entry: the contents the owning rule names, in its order. What a rule gives only where there is one
is an optional field; the closing values of a lot, given at CLOSED alone, have no presence byte as a whole (log entry 13: the
model's choice). -/
def NoticeBody.value : NoticeBody → List Byte
  | .pack _ st loc => be 1 st.number ++ be 1 loc.number
  | .bay _ st pc fc occ =>
      be 1 st.ctorIdx ++ wOpt (be 1 ·.ctorIdx) pc ++ wOpt (be 1 ·.ctorIdx) fc ++ wOpt wHandle occ
  | .lock st occ ds rt => be 1 st.ctorIdx ++ wOpt wHandle occ ++ wBool ds ++ wBool rt
  | .permit on fl => wBool on ++ wList (be 1 ·.ctorIdx) fl
  | .inert st ox => be 1 st.ctorIdx ++ be 2 ox
  | .zone _ st h t inv => be 1 st.ctorIdx ++ wBool h ++ wOpt (be 4) t ++ be 4 inv
  | .detectorFault _ st k z => be 1 st.ctorIdx ++ wOpt wFaultKind k ++ wZoneOrNone z
  | .incident _ c sv d n kept => be 1 c.number ++ be 1 sv.ctorIdx ++ be 2 d ++ be 4 n ++ wBool kept
  | .bankCleared _ n => be 4 n ++ wBool true
  | .presence _ on => wPresence on
  | .lot _ st n closing =>
      be 1 (st.elim 0 LotState.number) ++ be 4 n ++
        (match closing with
          | none => []
          | some (bal, rcv, unc) => wOpt (be 1 ·.ctorIdx) bal ++ wOpt (be 8) rcv ++ wBool unc)
  | .shredLot l w => wOpt wLot l ++ wOpt wSwitch w

/-- The kind number of a notice (the table of notice kinds). -/
def NoticeBody.kind : NoticeBody → Nat
  | .pack .. => 1
  | .bay .. => 2
  | .lock .. => 3
  | .permit .. => 4
  | .inert .. => 5
  | .zone .. => 6
  | .detectorFault .. => 7
  | .incident .. | .bankCleared .. => 8
  | .presence .. => 9
  | .lot .. => 10
  | .shredLot .. => 11

/-- The two subject bytes of a notice. -/
def NoticeBody.subject : NoticeBody → List Byte
  | .pack h .. => wHandle h
  | .bay n .. => be 2 (n.1 + 1)
  | .zone n .. => be 2 (n.1 + 1)
  | .detectorFault n .. => be 2 (n.1 + 1)
  | .incident b .. => be 2 b.ctorIdx
  | .bankCleared b _ => be 2 b.ctorIdx
  | .presence p _ => be 2 (portNumber p)
  | .lot n .. => be 2 n.1
  | _ => be 2 0

/-- A notice entry (the notice entry table). -/
def Notice.entry (n : Notice) : List Byte :=
  be 1 n.what.kind ++ n.what.subject ++ be 1 n.what.value.length ++ n.what.value ++ wStamp n.stamp

end Sys2Proof.Machine
end

