-- ==== Sys2Proof/Machine/Flags.lean ====
section
/-! DEFINITION. What is computed from the state and stored nowhere: standing energy, freshness, dwell, frozen zones, the
residual check, classification, the alarm condition, the permit's condition, the banks' answers. -/

namespace Sys2Proof.Machine

/-! ### Packs -/

/-- From a terminal state a pack leaves only by being freed. -/
def PackState.terminal : PackState → Bool
  | .shredded | .withdrawn => true
  | _ => false

/-- Standing energy (R18). -/
def Pack.standing (p : Pack) : Nat :=
  if p.state.terminal then 0 else p.basis - p.removedSince / Config.mjPerWh

/-- The zone a pack lies in. -/
def Pack.zone (p : Pack) : Option (Fin 8) := zoneOf p.loc

/-- The pack of a record lies in zone `z`. -/
def Rec.inZone (r : Rec) (z : Fin 8) : Bool := r.pack.any fun p => p.zone == some z

/-- What a record adds to the inventory of zone `z` (R19). -/
def Rec.energyIn (r : Rec) (z : Fin 8) : Nat :=
  match r.pack with
  | some p => if p.zone = some z then p.standing else 0
  | none => 0

/-- The sum of the standing energy of the packs located in `z` (R19). -/
def zoneSum (packs : Vector Rec 256) (z : Fin 8) : Nat := (packs.toList.map (·.energyIn z)).sum

/-- The count of allocated records located in `z` (R20). -/
def zoneCount (packs : Vector Rec 256) (z : Fin 8) : Nat := packs.toList.countP (·.inZone z)

/-- The dwell is expired (R114); a pack with no discharged at has none that is valid (log entry 21). -/
def dwellExpired (s : State) (p : Pack) : Bool :=
  p.recheck ||
    match p.dischargedAt with
    | none => true
    | some t => t.epoch != s.epoch || decide (p.treatment.dwell * 60 < s.now.seconds - t.seconds)

/-! ### Zones -/

/-- PRE_ALARM, ALARM, RELEASE_PENDING or RELEASED: no move into or out of the zone (R5). -/
def ZoneState.escalated : ZoneState → Bool
  | .preAlarm | .alarm | .releasePending | .released => true
  | _ => false

/-- ALARM and above (R73). -/
def ZoneState.alarmed : ZoneState → Bool
  | .alarm | .releasePending | .released => true
  | _ => false

/-- A move from one location to another is frozen (R5). -/
def moveFrozen (s : State) (src dst : Option (Fin 8)) : Bool :=
  (src.any fun z => (s.zone z).state.escalated) ||
    (dst.any fun z => (s.zone z).state.escalated || (s.zone z).state == .isolated)

/-- A detector is of zone `z` (R140). -/
def Detector.of (d : Detector) (z : Fin 8) : Bool := d.zone == some z

/-- The detectors of a zone, in number order. -/
def zoneDetectors (s : State) (z : Fin 8) : List Detector := s.fire.detectors.toList.filter (·.of z)

def healthyCount (ds : List Detector) : Nat := ds.countP (·.state != .faulted)

def activeCount (ds : List Detector) : Nat := ds.countP (·.state == .active)

/-- The lowest-numbered part of the alarm condition that holds (R140). -/
def alarmPart (ds : List Detector) : Option Nat :=
  if 2 ≤ ds.countP (fun d => d.state == .active || d.state == .rearming) ∧ 1 ≤ activeCount ds then some 1
  else if ds.any fun d => d.kind == .flame && d.state == .active then some 2
  else if healthyCount ds < 2 ∧ 1 ≤ activeCount ds then some 3
  else none

/-- Every detector is NORMAL or FAULTED (R141). -/
def allQuiet (ds : List Detector) : Bool := ds.all fun d => d.state == .normal || d.state == .faulted

/-- A detector that refuses ZONE_RESET (R150). -/
def busyDetector (ds : List Detector) : Bool := ds.any fun d => d.state == .confirming || d.state == .active

/-- The lowest-numbered ACTIVE detector of a zone, as its number from 1; 0 for none (R141). -/
def lowestActive (s : State) (z : Fin 8) : Nat :=
  ((allDetectors.find? fun d => (s.detector d).of z && (s.detector d).state == .active).map (·.1 + 1)).getD 0

/-- A zone in ALARM goes to release (R143). -/
def goesToRelease (s : State) (z : Fin 8) : Bool :=
  !s.ports.fire.present || decide ((s.zone z).threshold ≤ (s.zone z).inventory)

/-! ### Bays -/

/-- A bay's last sample is fresh (R82). -/
def Bay.fresh (b : Bay) (clock : Nat) : Bool := b.lastSample.any fun x => decide (clock ≤ x.arrival + Config.freshMs)

/-- The bay has an occupant. -/
def Bay.occupied (b : Bay) : Bool := b.occupant.isSome

/-- Integration runs (R83). -/
def Bay.integrates (b : Bay) : Bool :=
  match b.state with
  | .discharging | .resting | .paused => true
  | _ => false

/-- Bays that WRITE_SLOT may write (R52). -/
def Bay.steerable (b : Bay) : Bool :=
  match b.state with
  | .loaded | .discharging | .resting | .paused => true
  | _ => false

/-- How a sample's sequence is judged (R80). -/
inductive SeqClass where
  | first
  | next (missing : Nat)
  | resync
  | duplicate
  | stale
deriving DecidableEq, Repr

/-- R80. -/
def classifySeq (last : Option Nat) (q : Nat) : SeqClass :=
  match last with
  | none => .first
  | some l =>
    let d := (q + 65536 - l) % 65536
    if d = 0 then .duplicate
    else if d ≤ 50 then .next (d - 1)
    else if d ≤ 32767 then .resync
    else .stale

/-- The missing count of an accepted sample (R80). -/
def SeqClass.missing : SeqClass → Nat
  | .next m => m
  | _ => 0

/-- Energy of a sample in nJ (R84). -/
def increment (v : Nat) (i : Int) (interval missing : Nat) : Nat := v * i.toNat * interval * (missing + 1)

/-- The over-current limit (R58). -/
def overLimit (reference : Nat) : Nat := reference * 110 / 100 + 2000

/-! ### Residual check -/

/-- Division rounded up. -/
def ceilDiv (a b : Nat) : Nat := (a + b - 1) / b

/-- The fraction past the lower point `lo`, `vc` being above its voltage (R42, steps 3 and 4). -/
def fractionFrom (lo : Point) (vc : Nat) : List Point → Nat
  | [] => lo.frac
  | hi :: rest =>
    if vc < hi.mv then lo.frac + ceilDiv ((vc - lo.mv) * (hi.frac - lo.frac)) (hi.mv - lo.mv)
    else fractionFrom hi vc rest

/-- The remaining fraction at a cell voltage (R42); a curve with no points gives none (log entry 21). -/
def curveFraction (vc : Nat) : List Point → Option Nat
  | [] => none
  | p :: ps => some (if vc ≤ p.mv then p.frac else fractionFrom p vc ps)

/-- The limit of the residual check (R43). -/
def residualLimit (p : Pack) : Nat := min (p.nominal * p.treatment.limit / 1000) p.treatment.cap

/-- The residual check from a rest voltage and a curve (R42, R43). -/
def residualCheck (p : Pack) (v : Nat) (points : List Point) : Option Check :=
  (curveFraction (v / p.cells) points).map fun f =>
    let residual := ceilDiv (p.nominal * f) 1000
    { vc := v / p.cells, frac := f, residual := residual, limit := residualLimit p,
      pass := decide (residual ≤ residualLimit p) }

/-- A curve's points strictly rise in voltage: the position of the first that does not, from 1 (R39). -/
def voltageFault (prev : Point) (pos : Nat) : List Point → Option Nat
  | [] => none
  | p :: ps => if p.mv ≤ prev.mv then some pos else voltageFault p (pos + 1) ps

/-- The position of the first point whose fraction is below that of the point before it (R39). -/
def fractionFault (prev : Point) (pos : Nat) : List Point → Option Nat
  | [] => none
  | p :: ps => if p.frac < prev.frac then some pos else fractionFault p (pos + 1) ps

/-- The position of the first fraction above 1,000 (R39). -/
def rangeFault (pos : Nat) : List Point → Option Nat
  | [] => none
  | p :: ps => if 1000 < p.frac then some pos else rangeFault (pos + 1) ps

/-- Why CURVE_END finds a curve INVALID, in the order of R39: TOO_FEW_POINTS 0, VOLTAGE_ORDER 1, FRACTION_ORDER 2,
FRACTION_RANGE 3, with the position. -/
def curveFault (points : List Point) : Option (Nat × Nat) :=
  match points with
  | [] => some (0, 0)
  | p :: ps =>
    if ps = [] ∨ Config.pointMax < ps.length + 1 then some (0, ps.length + 1)
    else match voltageFault p 2 ps with
      | some k => some (1, k)
      | none =>
        match fractionFault p 2 ps with
        | some k => some (2, k)
        | none => (rangeFault 1 points).map (3, ·)

/-! ### Classification -/

/-- Treatment `a` is more restrictive than `b`, in the order of R34; indexes break the tie. -/
def stricter (ts : Vector Treatment 8) (a b : Fin 8) : Bool :=
  let x := vget ts a
  let y := vget ts b
  if x.refuse != y.refuse then x.refuse
  else if x.limit ≠ y.limit then decide (x.limit < y.limit)
  else if x.cap ≠ y.cap then decide (x.cap < y.cap)
  else decide (a < b)

/-- The most restrictive of the candidates (R34). -/
def mostRestrictive (ts : Vector Treatment 8) (best : Fin 8) : List (Fin 8) → Fin 8
  | [] => best
  | c :: cs => mostRestrictive ts (if stricter ts c best then c else best) cs

/-- The treatments that the enabled ranges containing a type code name. -/
def rangeCandidates (c : Classification) (tc : Nat) : List (Fin 8) :=
  (c.ranges.toList.filter fun r => r.enabled && decide (r.low ≤ tc) && decide (tc ≤ r.high)).map (·.treatment)

/-- The chemistry family of a type code. -/
def family (tc : Nat) : Option (Fin 16) := index0 16 (tc / 1048576)

/-- The treatment index of a type code (R33). -/
def classify (c : Classification) (tc : Nat) : Fin 8 :=
  if !c.mapOn then c.defaultTreatment
  else match rangeCandidates c tc with
    | t :: ts => mostRestrictive c.treatments t ts
    | [] =>
      match family tc with
      | none => c.defaultTreatment
      | some f => if (vget c.slots f).enabled then (vget c.slots f).treatment else c.defaultTreatment

/-! ### Atmosphere -/

/-- The effective oxygen (R94). -/
def effectiveOxygen (a b : Analyzer) : Nat :=
  match a.valid, b.valid with
  | true, true => max (a.latest.elim 0 (·.value)) (b.latest.elim 0 (·.value))
  | true, false => a.latest.elim Config.airOxygen (·.value)
  | false, true => b.latest.elim Config.airOxygen (·.value)
  | false, false => Config.airOxygen

/-- The count of valid analyzers (R96). -/
def validCount (a b : Analyzer) : Nat := a.valid.toNat + b.valid.toNat

/-- The purge request the monitor's state calls for (R105). -/
def purgeWanted (a : Atmosphere) : Bool := a.state != .vented || a.z7Released

/-! ### Permit and banks -/

/-- The inputs of the permit that fail, in the order of R109. -/
def failing (i : PermitInputs) : List PermitInput :=
  (if i.inert = .inert then [] else [.inert]) ++ (if i.z6 = .normal then [] else [.z6]) ++
    (if i.z7 = .normal then [] else [.z7]) ++ (if i.firePresent then [] else [.firePort]) ++
    (if i.uncontained then [.banks] else []) ++ (if i.shredLotSet then [] else [.shredLot])

/-- The condition of the shred permit (R108). -/
def permitHolds (i : PermitInputs) : Bool := (failing i).isEmpty

/-- ADVISORY below CONTAINED below UNCONTAINED. -/
def Severity.rank (v : Severity) : Nat := v.ctorIdx

/-- The bank holds a valid UNCONTAINED incident. -/
def Bank.uncontained (b : Bank) : Bool := b.held.any fun h => h.severity == .uncontained

/-- The banks' answer to the Feed Controller (R180). -/
def bankAnswer (b : Banks) : Bool := b.fire.uncontained || b.atmosphere.uncontained || b.feed.uncontained

/-- A bank lights the line fault output (R181). -/
def Bank.lights (b : Bank) : Bool := b.held.any fun h => h.severity != .advisory

/-- The level of the line fault output (R181). -/
def lineFaultLevel (b : Banks) : Bool := allBanks.any fun k => (b.get k).lights

/-! ### Lots -/

/-- The lot of slot `j` is in use and in state `st`. -/
def lotIn (s : State) (j : Fin 8) (st : LotState) : Bool := (s.lotAt j).any fun l => l.state == st

/-- Every record of the lot is SHREDDED or WITHDRAWN (R162). -/
def lotAllTerminal (s : State) (j : Fin 8) : Bool :=
  s.packs.toList.all fun r => r.pack.all fun p => p.lot != j || p.state.terminal

/-- A DRAINING lot closes (R162). -/
def lotCloses (s : State) (j : Fin 8) (l : Lot) : Bool :=
  l.state == .draining && lotAllTerminal s j && (l.shredded == 0 || l.final)

/-- The balance and recovery of a closing lot (R163). -/
def lotBalance (l : Lot) (lo hi : Nat) : Balance × Option Nat :=
  if l.shreddedMass = 0 then (.notApplicable, none)
  else
    let r := l.outputMass * 1000 / l.shreddedMass
    (if lo ≤ r ∧ r ≤ hi then .within else .exception, some r)

/-! ### Lock -/

/-- The lock movements that the permit governs (R122). -/
def Lock.movesByPermit (l : Lock) : Bool :=
  match l.state with
  | .loading => !l.returning
  | .lockPurge | .dropping => true
  | _ => false

/-- The lock is moving its pack back to the queue (R122). -/
def Lock.movesBack (l : Lock) : Bool := l.state == .loading && l.returning

/-- The queue as ENQUEUE counts it, with the reserved place (R111). -/
def Feed.queueCount (f : Feed) : Nat := f.queue.length + if f.lock.returning then 1 else 0

end Sys2Proof.Machine
end

