-- ==== Sys2Proof/Machine/Ops.lean ====
section
/-! DEFINITION. The shared operations of the blocks: notices, outputs, setpoints, incidents, the permit and the lock,
packs and inventories, bays, the inert state, zones, lots, presence. Each is the one place its rule is stated. -/

namespace Sys2Proof.Machine

/-! ### Notices (R193) -/

/-- A notice joins a queue at the tail, or is dropped and marks it overflowed. -/
def PortCtx.enqueue (c : PortCtx) (n : Notice) : PortCtx :=
  if c.notices.length < Config.noticeMax then { c with notices := c.notices ++ [n] } else { c with overflowed := true }

/-- Place a notice on the queues of the ports given. -/
def notify (ps : List Port) (what : NoticeBody) (s : State) : State :=
  ps.foldl (fun t p => t.setPort p ((t.port p).enqueue ⟨what, s.now⟩)) s

/-! ### Outputs (R197, R198) -/

/-- A change of command starts the window, drops the disagreement timer and the report (R198). -/
def Supervision.setCommand (v : Supervision) (on : Bool) : Supervision :=
  if v.command = on then v
  else { v with command := on, window := some Config.windowMs, disagree := none, reported := false }

/-- Command an output. -/
def command (o : Output) (on : Bool) (s : State) : State := s.setSup o ((s.sup o).setCommand on)

/-- Command a bay's contactor; a change to off sets contactor confirmed open from the read-back (R47, R61). -/
def commandContactor (n : Fin 8) (on : Bool) (s : State) : State :=
  let v := s.sup (.contactor n)
  let s1 := command (.contactor n) on s
  if v.command && !on then s1.setBay n { s1.bay n with confirmedOpen := !v.readback } else s1

/-! ### Load setpoints (R90, R202) -/

/-- Join the list of waiting LOAD_SET frames, replacing a waiting frame of the same bay in its place. -/
def queueSetpoint (waiting : List LoadSet) (f : LoadSet) : List LoadSet :=
  if waiting.any (·.bay == f.bay) then waiting.map fun g => if g.bay = f.bay then f else g else waiting ++ [f]

/-- Produce a LOAD_SET of a bay's commanded setpoint. -/
def sendLoadSet (n : Fin 8) (s : State) : State :=
  { s with link.waiting := queueSetpoint s.link.waiting ⟨n, (s.bay n).setpoint⟩ }

/-- Command a bay's setpoint; a change sends a LOAD_SET (R90). -/
def setSetpoint (n : Fin 8) (ma : Nat) (s : State) : State :=
  if (s.bay n).setpoint = ma then s else sendLoadSet n (s.setBay n { s.bay n with setpoint := ma })

/-! ### Incidents (R176, R177, R181) -/

/-- What a posting block gives its bank. -/
structure Posting where
  code : Code
  severity : Severity
  detail : Nat
  pack : Option Handle := none
  place : Option Nat := none
  lot : Option (Fin 8) := none
  uncertain : Bool := false

/-- The incident a posting is written as. -/
def Posting.incident (p : Posting) (t : Stamp) : Incident :=
  ⟨p.severity, p.code, p.detail, p.pack, p.place, p.lot, p.uncertain, t⟩

/-- The code's report enable is on. -/
def Bank.enabled (b : Bank) (c : Code) : Bool := b.enables.getD c.number true

/-- The bank after a recorded posting, and whether the posting was kept (R176, points 2 to 4). -/
def Bank.take (b : Bank) (i : Incident) : Bank × Bool :=
  let n := (b.number + 1) % Config.word32
  match b.held with
  | none => ({ b with held := some i, number := n }, true)
  | some h =>
    if h.severity.rank < i.severity.rank then ({ b with held := some i, overflow := true, number := n }, true)
    else ({ b with overflow := true, number := n }, false)

/-- Command the line fault output afresh (R181). -/
def relight (s : State) : State := { s with out.lineFault := lineFaultLevel s.banks }

/-- Post an incident to its bank, with its notice and the line fault output; the permit is not told. -/
def postRaw (p : Posting) (s : State) : State :=
  let k := p.code.bank
  let b := s.banks.get k
  if !b.enabled p.code && p.severity != .uncontained then s
  else
    let r := b.take (p.incident s.now)
    notify k.subscribers (.incident k p.code p.severity p.detail r.1.number r.2)
      (relight { s with banks := s.banks.put k r.1 })

/-! ### Feed lock and shred permit (R108, R109, R117, R122, R123) -/

/-- Write the lock: the gates follow its state, and a change of state, returning or drop started is noticed (R117). -/
def setLock (l : Lock) (s : State) : State :=
  let o := s.feed.lock
  let s1 := command .lowerGate (l.state == .dropping)
    (command .upperGate (l.state == .loading) { s with feed.lock := l })
  if o.state = l.state ∧ o.returning = l.returning ∧ o.dropStarted = l.dropStarted then s1
  else notify [.line] (.lock l.state l.occupant l.dropStarted l.returning) s1

/-- Hold the lock for cause 1 (permit), 2 (line port) or 3 (zone) (R122). -/
def holdLock (cause : Nat) (s : State) : State :=
  let l := s.feed.lock
  postRaw { code := .lockHeld, severity := .advisory, detail := cause, pack := l.occupant }
    (setLock { l with state := .held, purgeTimer := none } s)

/-- A HELD lock resumes when its conditions hold (R123). -/
def resumeLock (s : State) : State :=
  let l := s.feed.lock
  let i := s.feed.inputs
  if l.state ≠ .held then s
  else if l.returning then
    if i.z6 = .normal ∧ i.z7 = .normal ∧ s.ports.line.present = true then setLock { l with state := .loading } s else s
  else if s.feed.permit && s.ports.line.present then
    setLock { l with state := .lockPurge, purgeTimer := some (s.feed.purgeTime * 1000) } s
  else s

/-- Evaluate the shred permit (R109): on a change the output, the permit notice and the lock; then R123. -/
def evalPermit (s : State) : State :=
  let on := permitHolds s.feed.inputs
  let s1 :=
    if on = s.feed.permit then s
    else
      let s2 := notify [.line, .fire] (.permit on (failing s.feed.inputs))
        (command .permit on { s with feed.permit := on })
      if !on && s2.feed.lock.movesByPermit then holdLock 1 s2 else s2
  resumeLock s1

/-- Deliver the banks' answer to the Feed Controller where it has changed (R180). -/
def deliverBanks (s : State) : State :=
  let a := bankAnswer s.banks
  if a = s.feed.inputs.uncontained then s else evalPermit { s with feed.inputs.uncontained := a }

/-- Post an incident, with every effect of the posting. Its notice comes before the permit notice it brings about (log entry
8: the model's order). -/
def post (p : Posting) (s : State) : State := deliverBanks (postRaw p s)

/-- Deliver the inert state (R97). -/
def deliverInert (s : State) : State := evalPermit { s with feed.inputs.inert := s.atm.state }

/-- Deliver whether a shred lot is set, where that has changed (R166). -/
def deliverShred (s : State) : State :=
  let b := s.lot.shredLot.isSome
  if b = s.feed.inputs.shredLotSet then s else evalPermit { s with feed.inputs.shredLotSet := b }

/-- Deliver the fire port's presence (R108). -/
def deliverFirePort (s : State) : State := evalPermit { s with feed.inputs.firePresent := s.ports.fire.present }

/-- Deliver the state of Z6 or Z7: a returning lock's hold, then the permit and R123 (log entry 8: the model's order). -/
def deliverFeedZone (z : Fin 8) (st : ZoneState) (s : State) : State :=
  let s1 := if z = 5 then { s with feed.inputs.z6 := st } else { s with feed.inputs.z7 := st }
  let s2 := if s1.feed.lock.movesBack ∧ st ≠ .normal then holdLock 3 s1 else s1
  evalPermit s2

/-! ### Packs and inventories (R3, R10, R19, R23) -/

def creditZone (z : Option (Fin 8)) (wh : Nat) (inv : Vector Nat 8) : Vector Nat 8 :=
  match z with
  | none => inv
  | some z => vset inv z (vget inv z + wh)

def debitZone (z : Option (Fin 8)) (wh : Nat) (inv : Vector Nat 8) : Vector Nat 8 :=
  match z with
  | none => inv
  | some z => vset inv z (vget inv z - wh)

/-- Write a record's pack and adjust the inventories of its old and new place (R19). -/
def storePack (i : Fin 256) (p : Pack) (s : State) : State :=
  let inv := match (s.record i).pack with
    | none => s.inventories
    | some o => debitZone o.zone o.standing s.inventories
  { s.setPack i (some p) with inventories := creditZone p.zone p.standing inv }

/-- The pack state notice of record `i`, to the ports given (R23). -/
def noticePack (ps : List Port) (i : Fin 256) (s : State) : State :=
  match (s.record i).pack with
  | none => s
  | some p => notify ps (.pack (s.handle i) p.state p.loc) s

/-- The ports a transition's notice goes to: custody too for SHREDDED, WITHDRAWN and QUARANTINED (R23). -/
def PackState.noticePorts : PackState → List Port
  | .shredded | .withdrawn | .quarantined => [.line, .custody]
  | _ => [.line]

/-- Apply a transition: the record, the inventories, the notice. -/
def transition (i : Fin 256) (p : Pack) (s : State) : State := noticePack p.state.noticePorts i (storePack i p s)

/-- Quarantine the pack of a record; one already QUARANTINED keeps its state and cause and posts nothing (R10). -/
def quarantinePack (i : Fin 256) (cause : QuarantineCause) (s : State) : State :=
  match (s.record i).pack with
  | none => s
  | some p =>
    if p.state = .quarantined then s else transition i { p with state := .quarantined, cause := some cause } s

/-- The pack of a bay's occupant. -/
def State.occupantPack (s : State) (n : Fin 8) : Option (Fin 256 × Pack) :=
  match (s.bay n).occupant with
  | none => none
  | some h => (s.lookup h).map (h.index, ·)

/-- Apply `f` to the pack of a bay's occupant, as a transition. -/
def onOccupant (n : Fin 8) (f : Pack → Pack) (s : State) : State :=
  match s.occupantPack n with
  | none => s
  | some (i, p) => transition i (f p) s

/-! ### Custody uncertain (R160) -/

/-- Mark a pack's lot custody uncertain and post FEED_UNCERTAIN. -/
def feedUncertain (detail : Nat) (h : Handle) (p : Pack) (s : State) : State :=
  postRaw { code := .feedUncertain, severity := .contained, detail := detail, pack := some h, lot := some p.lot,
            uncertain := true }
    (s.setLot p.lot ((s.lotAt p.lot).map fun l => { l with uncertain := true }))

/-- The lock with its occupant blocked, drop started and returning no (R127, R128, R131). -/
def Lock.blockedWith (l : Lock) : Lock := ⟨.blocked, l.occupant, false, false, none⟩

/-- Quarantine the lock's occupant with a cause, and block the lock; `detail` is that of FEED_UNCERTAIN where custody of
the pack has become uncertain. -/
def blockLock (cause : QuarantineCause) (detail : Option Nat) (s : State) : State :=
  match s.feed.lock.occupant with
  | none => s
  | some h =>
    let s1 := quarantinePack h.index cause s
    let s2 := match detail, s.lookup h with
      | some d, some p => feedUncertain d h p s1
      | _, _ => s1
    setLock s.feed.lock.blockedWith s2

/-- The lock is occupied and not BLOCKED. -/
def Lock.working (l : Lock) : Bool := l.state != .empty && l.state != .blocked

/-- Z7 enters RELEASED (R127). -/
def releaseLock (s : State) : State :=
  if s.feed.lock.working then
    blockLock .lockReleased (if s.feed.lock.dropStarted then some 4 else none) s
  else s

/-! ### Bays (R47, R48, R70, R73) -/

/-- Write a bay context; a change of its state posts the bay state notice (R48). -/
def putBay (n : Fin 8) (b : Bay) (s : State) : State :=
  let s1 := s.setBay n b
  if (s.bay n).state = b.state then s1
  else notify [.line] (.bay n b.state b.pauseCause b.faultCause b.occupant) s1

/-- Contactor off, setpoint 0, over-current reference 0 (R47; log entry 11). -/
def stopLoad (n : Fin 8) (s : State) : State :=
  let s1 := setSetpoint n 0 (commandContactor n false s)
  s1.setBay n { s1.bay n with overRef := 0, overEnd := none }

/-- Contactor on, setpoint and reference at the active slot's current (R47, R58). -/
def startLoad (n : Fin 8) (s : State) : State :=
  let ma := (s.bay n).activeSlot.current
  let s1 := setSetpoint n ma (commandContactor n true s)
  s1.setBay n { s1.bay n with overRef := ma, overEnd := none }

/-- Make a bay DISCHARGING from segment elapsed `ms`. -/
def enterDischarging (n : Fin 8) (ms : Nat) (s : State) : State :=
  let s1 := startLoad n s
  putBay n { s1.bay n with state := .discharging, elapsed := ms, pauseCause := none } s1

/-- Make a bay PAUSED, its load stopped and segment elapsed kept (R60, R67, R74, R75). -/
def pauseBay (n : Fin 8) (cause : PauseCause) (s : State) : State :=
  let s1 := stopLoad n s
  putBay n { s1.bay n with state := .paused, pauseCause := some cause } s1

/-- The bay's work ended: elapsed 0, timer stopped, deferral and pause cause cleared. -/
def Bay.cleared (b : Bay) (st : BayState) : Bay :=
  { b with state := st, elapsed := 0, rest := none, deferred := false, pauseCause := none }

/-- Fault a bay (R70); a bay already FAULTED keeps its first cause. -/
def faultBay (n : Fin 8) (cause : FaultCause) (s : State) : State :=
  let s1 := stopLoad n s
  let b := s1.bay n
  putBay n { b.cleared .faulted with faultCause := if b.state = .faulted then b.faultCause else some cause } s1

/-- A zone reaches ALARM or above: an occupied bay of it is stopped (R73). -/
def alarmBay (n : Fin 8) (s : State) : State :=
  match (s.bay n).occupant with
  | none => s
  | some h => faultBay n .zoneAlarm (quarantinePack h.index .zoneAlarm s)

/-- The bays of a zone, in number order. -/
def baysOf (z : Fin 8) : List (Fin 8) := eight.filter fun n => bayZone n == z

/-- Take a segment boundary's slot change (R53). -/
def Bay.swapSlot (b : Bay) : Bay := if b.pending then { b with active := b.active.other, pending := false } else b

/-- The setpoint follows the active slot while DISCHARGING, and the over-current reference follows the setpoint:
at once on a rise, 1,000 ms after a fall (R58). -/
def followSlot (n : Fin 8) (s : State) : State :=
  let b := s.bay n
  let ma := b.activeSlot.current
  let b1 :=
    if b.setpoint < ma then { b with overRef := ma, overEnd := none }
    else if ma < b.setpoint then { b with overEnd := some (s.clock + Config.referenceHoldMs) }
    else b
  setSetpoint n ma (s.setBay n b1)

/-- The segment boundary of a DISCHARGING bay (R55). -/
def takeBoundary (n : Fin 8) (s : State) : State :=
  followSlot n (s.setBay n { (s.bay n).swapSlot with elapsed := 0 })

/-- Segment elapsed has reached the active slot's length. -/
def Bay.segmentOver (b : Bay) : Bool := decide (b.activeSlot.segment * 1000 ≤ b.elapsed)

/-- Slot A at the pack's default profile, slot B invalid, A active, nothing pending (R50, R76, R77). -/
def Bay.defaultSlots (b : Bay) (t : Treatment) : Bay :=
  { b with slotA := ⟨t.current, t.stop, t.segment, true⟩, slotB := Slot.none, active := .a, pending := false }

/-- A pack takes a bay (R50, R88): the context is set up and a LOAD_SET of 0 joins the list (R202). -/
def occupyBay (n : Fin 8) (h : Handle) (t : Treatment) (recheck : Bool) (s : State) : State :=
  let s1 := commandContactor n false s
  let b := Bay.defaultSlots Bay.initial t
  sendLoadSet n (putBay n { b with state := .loaded, occupant := some h, recheck := recheck,
                                   confirmedOpen := !(s1.sup (.contactor n)).readback } s1)

/-- The occupant leaves its bay (R51). -/
def emptyBay (n : Fin 8) (s : State) : State :=
  let b := s.bay n
  putBay n { b with state := .empty, occupant := none, recheck := false, slotA := { b.slotA with valid := false },
                    slotB := { b.slotB with valid := false }, pending := false, deferred := false,
                    pauseCause := none, faultCause := none, lastSeq := none, lastSample := none,
                    lastCheck := none } s

/-- Empty the bay a location names, if it names one. -/
def leaveLoc (l : Loc) (s : State) : State :=
  match l with
  | .bay n => emptyBay n s
  | _ => s

/-! ### Zones (R142, R143, R148, R154) -/

/-- The zone state notice (R154). -/
def noticeZone (z : Fin 8) (s : State) : State :=
  let q := s.zone z
  notify [.line, .fire] (.zone z q.state q.hold q.timer q.inventory) s

/-- Command the purge request as R105 gives it. -/
def commandPurge (s : State) : State := command .purge (purgeWanted s.atm) s

/-- Z7's entry to RELEASED or departure from it reaches the Atmosphere Monitor (R105). -/
def deliverPurge (released : Bool) (s : State) : State := commandPurge { s with atm.z7Released := released }

/-- Deliver a zone's change of state from `old` to the other blocks, and post its notice (R154). The zone's notice comes after
the pack, bay, permit and lock notices of its deliveries (log entry 8: the model's order). -/
def deliverZone (z : Fin 8) (old : ZoneState) (s : State) : State :=
  let st := (s.zone z).state
  let s1 := if !old.alarmed && st.alarmed then (baysOf z).foldl (fun t n => alarmBay n t) s else s
  let s2 := if z = 5 ∨ z = 6 then deliverFeedZone z st s1 else s1
  let s3 := if z = 6 ∧ st = .released then releaseLock s2 else s2
  let s4 := if z = 6 ∧ (st = .released ∨ old = .released) then deliverPurge (st == .released) s3 else s3
  noticeZone z s4

/-- Change a zone's context, with the deliveries of the change. -/
def changeZone (z : Fin 8) (q : Zone) (s : State) : State := deliverZone z (s.zone z).state (s.setZone z q)

/-- Enter RELEASED (R148); `detail` 1 timer, 2 delay 0, 3 RELEASE. The incident reaches the permit before the zone's new state
(log entry 9: the model's order), and the notice of ZONE_RELEASED comes before the zone state notice of the entry (log entry
8: the model's order). -/
def enterReleased (z : Fin 8) (detail : Nat) (s : State) : State :=
  let q := s.zone z
  let s1 := command (.release z) true (s.setZone z { q with state := .released, hold := false, timer := none })
  deliverZone z q.state
    (post { code := .zoneReleased, severity := .uncontained, detail := detail, place := some (z.1 + 1) } s1)

/-- Evaluate a zone in ALARM for release (R143). -/
def evalRelease (z : Fin 8) (s : State) : State :=
  let q := s.zone z
  if q.state = .alarm ∧ goesToRelease s z = true then
    if q.delay = 0 then enterReleased z 2 s
    else changeZone z { q with state := .releasePending, hold := false, timer := some (q.delay * 1000) } s
  else s

/-- Enter ALARM by a part of the alarm condition, and evaluate for release (R142). The incident reaches the permit before the
zone's new state (log entry 9: the model's order). -/
def enterAlarm (z : Fin 8) (part : Nat) (s : State) : State :=
  let q := s.zone z
  evalRelease z (deliverZone z q.state
    (post { code := .zoneAlarm, severity := .uncontained, detail := part, place := some (z.1 + 1) }
      (s.setZone z { q with state := .alarm })))

/-- Enter PRE_ALARM for a detector's change (R141). The notice of ZONE_PRE_ALARM comes before the zone state notice of the
entry (log entry 8: the model's order). -/
def enterPreAlarm (z : Fin 8) (detail : Nat) (s : State) : State :=
  let q := s.zone z
  deliverZone z q.state
    (post { code := .zonePreAlarm, severity := .advisory, detail := detail, place := some (z.1 + 1) }
      (s.setZone z { q with state := .preAlarm }))

/-- Evaluate a zone against its detectors (R141); `detail` is that of an entry to PRE_ALARM. -/
def evalZone (z : Fin 8) (detail : Nat) (s : State) : State :=
  let q := s.zone z
  let ds := zoneDetectors s z
  if q.state = .normal ∨ q.state = .preAlarm then
    match alarmPart ds with
    | some part => enterAlarm z part s
    | none =>
      if q.state = .normal then (if 1 ≤ activeCount ds then enterPreAlarm z detail s else s)
      else if allQuiet ds then changeZone z { q with state := .normal } s
      else s
  else s

/-- Deliver a zone's inventory to the Fire Zone Controller where it has changed (R19, R143). -/
def deliverInventory (z : Fin 8) (s : State) : State :=
  if (s.zone z).inventory = vget s.inventories z then s
  else evalRelease z (s.setZone z { s.zone z with inventory := vget s.inventories z })

/-- Deliver the inventories of a transition's old and new place, the old place's first (log entry 8: the model's order). -/
def deliverPlaces (src dst : Option (Fin 8)) (s : State) : State :=
  let s1 := match src with
    | none => s
    | some z => deliverInventory z s
  match dst with
  | none => s1
  | some z => deliverInventory z s1

/-! ### Residual check (R41, R44, R62 to R66) -/

/-- A checked pack's energy: residual and basis become the residual, removed since basis 0 (R44). -/
def Pack.rebased (p : Pack) (residual : Nat) : Pack :=
  { p with residual := some residual, basis := residual, removedSince := 0 }

/-- Act on a residual check's result (R64, R65, R66). -/
def actOnCheck (n : Fin 8) (i : Fin 256) (p : Pack) (c : Check) (s : State) : State :=
  let q := p.rebased c.residual
  let s0 := s.setBay n { s.bay n with lastCheck := some c, deferred := false, recheck := false }
  let s1 :=
    if c.pass then
      let t := transition i { q with state := .discharged, dischargedAt := some s.now, recheck := false } s0
      putBay n { t.bay n with state := .done } t
    else if p.retries < p.treatment.retries then
      let t := transition i { q with state := .discharging, retries := p.retries + 1 } s0
      if t.ports.line.present then enterDischarging n 0 t
      else putBay n { t.bay n with state := .paused, pauseCause := some .link, elapsed := 0 } t
    else
      let t := transition i { q with state := .quarantined, cause := some .reboundLimit } s0
      post { code := .reboundLimit, severity := .contained, detail := min c.residual 65535, pack := some (t.handle i),
             place := some (n.1 + 1) } (putBay n { t.bay n with state := .done } t)
  deliverPlaces p.zone none s1

/-- The result the check would have now: the last sample is fresh and the pack's curve VALID (R41). -/
def readyCheck (n : Fin 8) (s : State) : Option (Fin 256 × Pack × Check) :=
  match s.occupantPack n, (s.bay n).lastSample with
  | some (i, p), some x =>
    let c := vget s.cls.curves p.treatment.curve
    if (s.bay n).fresh s.clock && c.status == .valid then
      (residualCheck p x.voltage c.points).map fun r => (i, p, r)
    else none
  | _, _ => none

/-- Run the check if it can be run, else leave it deferred (R62, R63). -/
def runCheck (n : Fin 8) (s : State) : State :=
  match readyCheck n s with
  | some (i, p, c) => actOnCheck n i p c s
  | none => s.setBay n { s.bay n with deferred := true }

/-! ### Inert state (R97) -/

/-- Enter an inert state: its timers and the purge request (R98, R99, R105). -/
def setInert (st : InertState) (s : State) : State :=
  let a := s.atm
  commandPurge { s with atm := { a with
    state := st
    purgeClock := if st = .purging then some 0 else none
    timeoutReported := if st = .purging then false else a.timeoutReported
    holdTimer := if st = .holding then some (a.limits.hold * 1000) else none } }

/-- The inert state notice (R97). -/
def noticeInert (s : State) : State := notify [.line, .fire] (.inert s.atm.state s.atm.oxygen) s

/-- Change the inert state, with O2_TRIP on entry to TRIPPED, the delivery to the permit and the notice. -/
def changeInert (st : InertState) (s : State) : State :=
  let s1 := setInert st s
  let s2 := if st = .tripped then
      post { code := .o2Trip, severity := .uncontained, detail := s1.atm.oxygen } s1
    else s1
  noticeInert (deliverInert s2)

/-- The state an evaluation finds (the table of R97). -/
def inertOutcome (a : Atmosphere) : InertState :=
  match a.state with
  | .vented => .vented
  | .purging => if a.oxygen ≤ a.limits.purge then .holding else .purging
  | .holding =>
    if a.limits.trip ≤ a.oxygen then .tripped else if a.limits.purge < a.oxygen then .purging else .holding
  | .inert =>
    if a.limits.trip ≤ a.oxygen then .tripped else if a.limits.run < a.oxygen then .purging else .inert
  | .tripped => .tripped

/-- Evaluate the inert state machine (R97). -/
def evalInert (s : State) : State :=
  if inertOutcome s.atm = s.atm.state then s else changeInert (inertOutcome s.atm) s

/-- Post PURGE_TIMEOUT where the clock has reached the max purge time and none is reported (R98). -/
def checkPurgeTimeout (s : State) : State :=
  match s.atm.purgeClock with
  | none => s
  | some ms =>
    if s.atm.limits.maxPurge * 1000 ≤ ms ∧ s.atm.timeoutReported = false then
      post { code := .purgeTimeout, severity := .contained, detail := s.atm.oxygen }
        { s with atm.timeoutReported := true }
    else s

/-! ### Lots (R159, R162, R166, R171) -/

/-- The lot state notice (R171). -/
def noticeLot (j : Fin 8) (st : Option LotState) (number : Nat)
    (closing : Option (Option Balance × Option Nat × Bool)) (s : State) : State :=
  notify [.custody] (.lot j st number closing) s

/-- Write the shred lot and the switch record: a change of either is delivered and noticed once (R166, R171). The permit notice
of the delivery comes before the shred lot notice (log entry 8: the model's order). -/
def setShred (shred : Option (Fin 8)) (sw : Option Switch) (s : State) : State :=
  if s.lot.shredLot = shred ∧ s.lot.switch = sw then s
  else notify [.line, .custody] (.shredLot shred sw)
    (deliverShred { s with lot.shredLot := shred, lot.switch := sw })

/-- The switch record after the closing of lot `j` (R170). -/
def switchAfterClose (j : Fin 8) (sw : Option Switch) : Option Switch := sw.filter fun w => w.target != j

/-- Close lot `j` (R162, R163). -/
def closeLot (j : Fin 8) (l : Lot) (s : State) : State :=
  let bal := lotBalance l s.lot.boundLow s.lot.boundHigh
  let l' := { l with state := .closed, closedAt := some s.now, balance := some bal.1, recovery := bal.2 }
  let s1 := s.setLot j (some l')
  let s2 := if bal.1 = .exception then
      postRaw { code := .balanceException, severity := .contained, detail := min (bal.2.getD 0) 65535,
                lot := some j } s1
    else s1
  let s3 := setShred (if s2.lot.shredLot = some j then none else s2.lot.shredLot)
    (switchAfterClose j s2.lot.switch) s2
  noticeLot j (some .closed) l.number (some (some bal.1, bal.2, l.uncertain)) s3

/-- Test lot `j` for closing (R162). -/
def testClosing (j : Fin 8) (s : State) : State :=
  match s.lotAt j with
  | some l => if lotCloses s j l then closeLot j l s else s
  | none => s

/-- The terminal report of a pack (R15, R159): counts, masses and sums of its lot. -/
def Lot.countTerminal (l : Lot) (p : Pack) : Lot :=
  if p.state = .shredded then
    { l with shredded := l.shredded + 1, shreddedMass := l.shreddedMass + p.mass, energy := l.energy + p.removed,
             residualAtFeed := l.residualAtFeed + p.residualAtFeed.getD 0 }
  else { l with withdrawn := l.withdrawn + 1, withdrawnMass := l.withdrawnMass + p.mass,
                energy := l.energy + p.removed }

/-- Report a terminal transition to the Lot Table (R15). -/
def reportTerminal (p : Pack) (s : State) : State :=
  s.setLot p.lot ((s.lotAt p.lot).map (·.countTerminal p))

/-! ### Presence (R191) -/

/-- A zone's part of the fire port's absence (R146). -/
def fireAbsentZone (z : Fin 8) (s : State) : State :=
  let q := s.zone z
  if q.state = .releasePending ∧ q.hold = true then s.setZone z { q with hold := false } else evalRelease z s

/-- A DISCHARGING bay pauses when the line port becomes ABSENT (R74). -/
def lineAbsentBay (n : Fin 8) (s : State) : State :=
  if (s.bay n).state = .discharging then pauseBay n .link s else s

/-- A change of a port's presence reaches the blocks that act on it (R191). -/
def deliverPresence (p : Port) (s : State) : State :=
  match p with
  | .line =>
    if s.ports.line.present then resumeLock s
    else
      let s1 := eight.foldl (fun t n => lineAbsentBay n t) s
      if s1.feed.lock.movesByPermit || s1.feed.lock.movesBack then holdLock 2 s1 else s1
  | .fire =>
    let s1 := deliverFirePort s
    if s.ports.fire.present then s1 else eight.foldl (fun t z => fireAbsentZone z t) s1
  | .custody => s

/-- Restart a port's presence timer; an ABSENT port becomes PRESENT (R191). The notices of the deliveries come before the
presence notice (log entry 8: the model's order). -/
def touchPort (p : Port) (s : State) : State :=
  let c := s.port p
  let s1 := s.setPort p { c with present := true, timer := some (c.presenceTime * 1000) }
  if c.present then s1 else notify (otherPorts p) (.presence p true) (deliverPresence p s1)

/-! ### Requests (R186, R189) -/

/-- What an owner block answers a request with. -/
structure Reply where
  st : State
  result : Result
  body : List Byte

def reply (s : State) (body : List Byte) : Reply := ⟨s, .ok, body⟩

/-- A refusal: an empty body, nothing changed. -/
def refuse (r : Result) (s : State) : Reply := ⟨s, r, []⟩

/-- The guard of a guarded request (R189): the three body bytes against each other and the request code. -/
def guarded (code target g1 g2 : Nat) (owner : State → Reply) (s : State) : Reply :=
  if target + g1 = 255 ∧ g2 + code = 255 then owner s else refuse .guardMismatch s

/-- Make the response the one last produced on the port (R186). -/
def respond (p : Port) (f : Frame) (r : Reply) : State :=
  r.st.setPort p { r.st.port p with response := some ⟨f.seq, f.code, r.result, if r.result = .ok then r.body else []⟩ }

/-- The port may issue the request code (R186). -/
def mayIssue (p : Port) (code : Nat) : Bool := (rolesOf code).any (·.contains p)

/-- Take a request: presence, the role, the owner, the response (R186, R191). -/
def takeRequest (p : Port) (f : Frame) (owner : State → Reply) (s : State) : State :=
  let s1 := touchPort p s
  respond p f (if mayIssue p f.code.toNat then owner s1 else refuse .denied s1)

/-- The error count adds 1, and FRAME_ERRORS is posted at its multiples of 100 (R185). -/
def countError (p : Port) (s : State) : State :=
  let c := s.port p
  let n := min (c.errors + 1) 65535
  let s1 := s.setPort p { c with errors := n }
  if n ≠ c.errors ∧ n % 100 = 0 then
    post { code := .frameErrors, severity := .advisory, detail := portNumber p } s1
  else s1

/-- A discard that ends only with an idle line (R185). -/
def discardFrame (p : Port) (s : State) : State :=
  let s1 := countError p s
  s1.setPort p { s1.port p with receiver := .ignoring }

/-- A valid frame arrives: it joins the receive list, or is an overrun; either restarts presence (R185, R186, R191). -/
def receiveFrame (p : Port) (f : Frame) (s : State) : State :=
  let c := s.port p
  if c.receiver = .ignoring then s
  else if c.received.length < Config.receiveMax then
    touchPort p (s.setPort p { c with received := c.received ++ [f] })
  else discardFrame p (touchPort p s)

/-- A request command: the frame at the head of the port's list is taken; with an empty list the frame arrives and is
taken at once; behind other frames it joins the list (log entry 1). -/
def serve (p : Port) (f : Frame) (owner : State → Reply) (s : State) : State :=
  if !s.run then s
  else match (s.port p).received with
    | [] => if (s.port p).receiver = .ignoring then s else takeRequest p f owner s
    | g :: rest =>
      if g = f then takeRequest p f owner (s.setPort p { s.port p with received := rest }) else receiveFrame p f s

/-- An event of the running part; a stopped part does nothing (R203, log entry 7). -/
def whenRunning (f : State → State) (s : State) : State := if s.run then f s else s

end Sys2Proof.Machine
end

