-- ==== Sys2Proof/Machine/Reads.lean ====
section
/-! DEFINITION. The requests open to every port: the reads, the cursor, the notices, the presence time, clearing a bank and
writing its enables (chapters 01, 08, 09, 10). -/

namespace Sys2Proof.Machine

open Host (Outcome)

/-! ### READ_STATUS (R195) -/

/-- A timer or clock, where it is running; a stopped one is absent (log entry 13). -/
def wTimer (t : Option Nat) : List Byte := wOpt (be 4) t

/-- The bytes of a port's remaining presence time: at most 30,000 ms, 10,000 ms and 600,000 ms (R187, R192). -/
def remainingWidth : Port → Nat
  | .line | .fire => 2
  | .custody => 4

/-- The commanded and read-back levels of an output. -/
def wLevels (v : Supervision) : List Byte := wBool v.command ++ wBool v.readback

/-- One port's part of selector 0. -/
def wPort (p : Port) (c : PortCtx) : List Byte :=
  wPresence c.present ++ be (presenceWidth p) c.presenceTime ++ wOpt (be (remainingWidth p)) c.timer ++ be 2 c.errors ++
    be 1 c.notices.length ++ wBool c.overflowed ++ be 1 c.received.length

/-- An analyzer context: latest value, saturated, status, validity, age, each but the validity an optional field of its own
(R94, R187). -/
def wAnalyzer (clock : Nat) (a : Analyzer) : List Byte :=
  wOpt (be 2 ·.value) a.latest ++ wOpt (wBool ·.saturated) a.latest ++ wOpt (be 1 ·.status.ctorIdx) a.latest ++
    wBool a.valid ++ wOpt (fun r : Reading => be 4 (clock - r.arrival)) a.latest

def statusLinks (s : State) : List Byte := allPorts.flatMap fun p => wPort p (s.port p)

def statusLots (s : State) : List Byte :=
  be 2 s.epoch ++ be 4 (s.clock / 1000) ++ be 2 (s.clock % 1000) ++ wBool s.retentionFound ++ wOpt wLot s.lot.shredLot ++
    wOpt wSwitch s.lot.switch

def statusAtmosphere (s : State) : List Byte :=
  be 1 s.atm.state.ctorIdx ++ be 2 s.atm.oxygen ++ wAnalyzer s.clock s.atm.a ++ wAnalyzer s.clock s.atm.b ++
    wTimer s.atm.purgeClock ++ wTimer s.atm.holdTimer ++ wLevels s.out.purge

/-- The permit, its output levels, its inputs, the queue with each pack's lot, the lock, the gate output levels, in the
order of the owning rules; R195 names the inputs before the levels (R109, R111, R117; log entry 13). -/
def statusFeed (s : State) : List Byte :=
  let f := s.feed
  let i := f.inputs
  wBool f.permit ++ wLevels s.out.permit ++ be 1 i.inert.ctorIdx ++ be 1 i.z6.ctorIdx ++ be 1 i.z7.ctorIdx ++
    wPresence i.firePresent ++ wBool i.uncontained ++ wBool i.shredLotSet ++
    wList (fun h => wHandle h ++ be 1 ((s.lookup h).elim 0 (·.lot.1))) f.queue ++ wBool f.lock.returning ++
    be 1 f.lock.state.ctorIdx ++ wOpt wHandle f.lock.occupant ++ wBool f.lock.dropStarted ++ wBool f.lock.returning ++
    wTimer f.lock.purgeTimer ++ wLevels s.out.upperGate ++ wLevels s.out.lowerGate

def statusFire (s : State) : List Byte :=
  (s.fire.detectors.toList.flatMap fun d => wZoneOrNone d.zone ++ be 1 d.state.ctorIdx ++ be 1 d.line.ctorIdx) ++
    s.fire.zones.toList.flatMap fun q => be 1 q.state.ctorIdx

/-- The line fault output, and each bank's valid flag, severity and occurrence number (R195). The severity, held while the
bank is valid, is written as an optional field, where READ_BANK writes none of its own (log entry 13). -/
def statusBanks (s : State) : List Byte :=
  wBool s.out.lineFault ++ allBanks.flatMap fun k =>
    let b := s.banks.get k
    wBool b.held.isSome ++ wOpt (fun i : Incident => be 1 i.severity.ctorIdx) b.held ++ be 4 b.number

def statusReply (part : Nat) (s : State) : Reply :=
  match part with
  | 0 => reply s (statusLinks s)
  | 1 => reply s (statusLots s)
  | 2 => reply s (statusAtmosphere s)
  | 3 => reply s (statusFeed s)
  | 4 => reply s (statusFire s)
  | 5 => reply s (statusBanks s)
  | _ => refuse .malformed s

def execReadStatus (p : Port) (seq : Byte) (part : Nat) (s : State) : Outcome State Fault Refusal :=
  .next (serve p (Instr.readStatus p seq part).frame (statusReply part) s)

/-! ### READ_PACK (R1, R20) -/

def wTreatment (t : Treatment) : List Byte :=
  wBool t.refuse ++ wBool t.acceptDamaged ++ be 2 t.limit ++ be 4 t.cap ++ be 1 t.curve.1 ++ be 4 t.current ++
    be 2 t.stop ++ be 2 t.segment ++ be 2 t.rest ++ be 1 t.retries ++ be 2 t.dwell ++ be 2 t.maxTemp

/-- The whole record, in the order of the pack record table. -/
def wPack (gen : Nat) (p : Pack) : List Byte :=
  be 1 p.state.number ++ be 1 gen ++ be 8 p.tag ++ wLot p.lot ++ be 4 p.typeCode ++ wBool p.damaged ++ be 4 p.mass ++
    be 4 p.nominal ++ be 1 p.cells ++ be 1 p.treatmentIndex.1 ++ wTreatment p.treatment ++ be 1 p.loc.number ++
    be 8 p.removed ++ be 4 p.remainder ++ be 2 p.estimated ++ be 4 p.basis ++ be 8 p.removedSince ++
    be 4 p.standing ++ wOpt (be 4) p.residual ++ be 1 p.retries ++ wOpt wStamp p.dischargedAt ++ wBool p.recheck ++
    wOpt (be 4) p.residualAtFeed ++ wOpt (be 1 ·.ctorIdx) p.cause ++ wStamp p.admittedAt

/-- A request that names a pack: the fields in range, then the handle (R2, checks 1 and 2). -/
def withPack (index gen : Nat) (s : State) (k : Handle → Pack → Reply) : Reply :=
  match handleOf index gen with
  | none => refuse .malformed s
  | some h =>
    match s.lookup h with
    | none => refuse .noPack s
    | some p => k h p

def readPackReply (index gen : Nat) (s : State) : Reply :=
  withPack index gen s fun h p => reply s (wPack h.gen p)

def execReadPack (p : Port) (seq : Byte) (index gen : Nat) (s : State) : Outcome State Fault Refusal :=
  .next (serve p (Instr.readPack p seq index gen).frame (readPackReply index gen) s)

/-! ### LIST_PACKS and SET_CURSOR (R21, R22) -/

/-- The filters of a LIST_PACKS; none when either is out of range. -/
def listFilters (state lot : Option Nat) : Option (Option PackState × Option (Fin 8)) :=
  match state, lot with
  | none, none => some (none, none)
  | some a, none => (packStateOfNumber a).map fun x => (some x, none)
  | none, some b => (index0 8 b).map fun y => (none, some y)
  | some a, some b =>
    match packStateOfNumber a, index0 8 b with
    | some x, some y => some (some x, some y)
    | _, _ => none

/-- A record matches every filter given. -/
def listMatch (fs : Option PackState × Option (Fin 8)) (p : Pack) : Bool :=
  fs.1.all (p.state == ·) && fs.2.all (p.lot == ·)

/-- Scan records upward until `k` more are selected: those selected, and what of the register is left unscanned. -/
def scanPacks (s : State) (fs : Option PackState × Option (Fin 8)) :
    Nat → List (Fin 256) → List (Fin 256 × Pack) × List (Fin 256)
  | 0, is => ([], is)
  | _ + 1, [] => ([], [])
  | k + 1, i :: is =>
    match (s.record i).pack with
    | some p =>
      if listMatch fs p then ((i, p) :: (scanPacks s fs k is).1, (scanPacks s fs k is).2)
      else scanPacks s fs (k + 1) is
    | none => scanPacks s fs (k + 1) is

/-- The summary of a selected record. -/
def wSummary (s : State) (x : Fin 256 × Pack) : List Byte :=
  wHandle (s.handle x.1) ++ be 8 x.2.tag ++ be 1 x.2.state.number ++ be 1 x.2.loc.number ++ be 4 x.2.standing

def listReply (p : Port) (state lot : Option Nat) (s : State) : Reply :=
  match listFilters state lot with
  | none => refuse .malformed s
  | some fs =>
    let r := scanPacks s fs 8 (allRecords.drop (s.port p).cursor.1)
    reply (s.setPort p { s.port p with cursor := r.2.head?.getD 0 })
      (wList (wSummary s) r.1 ++ wBool r.2.isEmpty)

def execListPacks (p : Port) (seq : Byte) (state lot : Option Nat) (s : State) : Outcome State Fault Refusal :=
  .next (serve p (Instr.listPacks p seq state lot).frame (listReply p state lot) s)

def cursorReply (p : Port) (index : Nat) (s : State) : Reply :=
  match index0 256 index with
  | none => refuse .malformed s
  | some i => reply (s.setPort p { s.port p with cursor := i }) (be 1 i.1)

def execSetCursor (p : Port) (seq : Byte) (index : Nat) (s : State) : Outcome State Fault Refusal :=
  .next (serve p (Instr.setCursor p seq index).frame (cursorReply p index) s)

/-! ### READ_BAY, READ_ZONE, READ_LOT, READ_BANK -/

def wSlot (x : Slot) : List Byte := be 4 x.current ++ be 2 x.stop ++ be 2 x.segment ++ wBool x.valid

/-- The outcome of a residual check: pass 0, fail 1 (R188, "The bay context"). -/
def wOutcome (pass : Bool) : List Byte := be 1 (if pass then 0 else 1)

/-- The whole bay context in the order of its table, with ages in place of times, then the tally (R48, R88). -/
def wBay (clock : Nat) (v : Supervision) (b : Bay) : List Byte :=
  be 1 b.state.ctorIdx ++ wOpt wHandle b.occupant ++ wBool b.recheck ++ wSlot b.slotA ++ wSlot b.slotB ++
    be 1 b.active.ctorIdx ++ wBool b.pending ++ be 4 b.elapsed ++ wTimer b.rest ++ wBool b.deferred ++
    wOpt (be 1 ·.ctorIdx) b.pauseCause ++ wOpt (be 1 ·.ctorIdx) b.faultCause ++ be 4 b.setpoint ++ be 4 b.overRef ++
    wOpt (fun e : Nat => be 2 (e - clock)) b.overEnd ++ wLevels v ++ wBool b.confirmedOpen ++ wOpt (be 2) b.lastSeq ++
    wOpt (fun x : Sample => be 4 x.voltage ++ beInt 4 x.current ++ beInt 2 x.temp ++ be 4 (clock - x.arrival))
      b.lastSample ++
    wOpt (fun c : Check => be 4 c.vc ++ be 2 c.frac ++ be 4 c.residual ++ be 4 c.limit ++ wOutcome c.pass) b.lastCheck ++
    be 2 b.tally.accepted ++ be 2 b.tally.filled ++ be 2 b.tally.duplicates ++ be 2 b.tally.stale ++
    be 2 b.tally.outOfRange ++ be 2 b.tally.resyncs

def readBayReply (bay : Nat) (s : State) : Reply :=
  match index1 8 bay with
  | none => refuse .malformed s
  | some n => reply s (wBay s.clock (s.sup (.contactor n)) (s.bay n))

def execReadBay (p : Port) (seq : Byte) (bay : Nat) (s : State) : Outcome State Fault Refusal :=
  .next (serve p (Instr.readBay p seq bay).frame (readBayReply bay) s)

def wDetector (d : Fin 24) (x : Detector) : List Byte :=
  wFrom1 d ++ be 1 x.kind.ctorIdx ++ be 1 x.state.ctorIdx ++ be 1 x.line.ctorIdx ++ wOpt wFaultKind x.faultShort

/-- READ_ZONE's body (R20, R155). The zone's detectors are a list with its count byte (log entry 13: the model's choice). -/
def wZone (s : State) (z : Fin 8) : List Byte :=
  let q := s.zone z
  be 4 (vget s.inventories z) ++ be 2 (zoneCount s.packs z) ++ be 1 q.state.ctorIdx ++ wBool q.hold ++ wTimer q.timer ++
    wBool (q.hold && q.timer.isSome) ++ be 4 q.threshold ++ be 1 q.delay ++ wLevels (s.sup (.release z)) ++
    wList (fun d => wDetector d (s.detector d)) (allDetectors.filter fun d => (s.detector d).of z) ++
    be 1 (healthyCount (zoneDetectors s z)) ++ be 1 (activeCount (zoneDetectors s z))

def readZoneReply (zone : Nat) (s : State) : Reply :=
  match index1 8 zone with
  | none => refuse .malformed s
  | some z => reply s (wZone s z)

def execReadZone (p : Port) (seq : Byte) (zone : Nat) (s : State) : Outcome State Fault Refusal :=
  .next (serve p (Instr.readZone p seq zone).frame (readZoneReply zone) s)

/-- The lot record in the order of its table (R157). Balance and recovery each have a presence byte of their own. -/
def wLotRecord (l : Lot) : List Byte :=
  be 1 l.state.number ++ be 4 l.number ++ be 2 l.admitted ++ be 2 l.shredded ++ be 2 l.withdrawn ++ be 8 l.intakeMass ++
    be 8 l.shreddedMass ++ be 8 l.withdrawnMass ++ be 8 l.outputMass ++ be 8 l.energy ++ be 4 l.residualAtFeed ++
    wBool l.final ++ wBool l.uncertain ++ wOpt (be 1 ·.ctorIdx) l.balance ++ wOpt (be 8) l.recovery ++
    wStamp l.openedAt ++ wOpt wStamp l.closedAt

/-- READ_LOT: the shred lot and the switch record follow as optional fields (log entry 13: the model's choice). -/
def readLotReply (lot : Nat) (s : State) : Reply :=
  match index0 8 lot with
  | none => refuse .malformed s
  | some j =>
    match s.lotAt j with
    | none => reply s (be 1 0)
    | some l => reply s (wLotRecord l ++ wOpt wLot s.lot.shredLot ++ wOpt wSwitch s.lot.switch)

def execReadLot (p : Port) (seq : Byte) (lot : Nat) (s : State) : Outcome State Fault Refusal :=
  .next (serve p (Instr.readLot p seq lot).frame (readLotReply lot) s)

def wIncident (i : Incident) : List Byte :=
  be 1 i.severity.ctorIdx ++ be 1 i.code.number ++ be 2 i.detail ++ wOpt wHandle i.pack ++ wOpt (be 1) i.place ++
    wOpt wLot i.lot ++ wBool i.uncertain ++ wStamp i.stamp

/-- A bank's record and enables; while it is valid the incident's fields follow with no presence byte, and the enables are
written as a list with its count byte, where R178 says neither (log entry 13: the model's choice). -/
def wBank (b : Bank) : List Byte :=
  wBool b.held.isSome ++ wBool b.overflow ++ be 4 b.number ++ b.held.elim [] wIncident ++ wList wBool b.enables

def readBankReply (bank : Nat) (s : State) : Reply :=
  match bankOfNumber bank with
  | none => refuse .malformed s
  | some k => reply s (wBank (s.banks.get k))

def execReadBank (p : Port) (seq : Byte) (bank : Nat) (s : State) : Outcome State Fault Refusal :=
  .next (serve p (Instr.readBank p seq bank).frame (readBankReply bank) s)

/-! ### READ_CONFIG (R45, R188) -/

def wRange (r : Range) : List Byte := be 4 r.low ++ be 4 r.high ++ be 1 r.treatment.1 ++ wBool r.enabled

def wChemSlot (c : ChemSlot) : List Byte := be 1 c.treatment.1 ++ wBool c.enabled

/-- A curve's status, and its points as a list with its count byte (R45; log entry 13: the model's choice). -/
def wCurve (c : Curve) : List Byte :=
  be 1 c.status.ctorIdx ++ wList (fun q : Point => be 2 q.mv ++ be 2 q.frac) c.points

def wLimits (l : InertLimits) : List Byte := be 2 l.purge ++ be 2 l.run ++ be 2 l.trip ++ be 2 l.hold ++ be 2 l.maxPurge

def wMapEntry (d : Detector) : List Byte := wZoneOrNone d.zone ++ be 1 d.kind.ctorIdx

/-- The body of a configuration item; none for an item or index outside the table of R188. -/
def configBody (s : State) (item index : Nat) : Option (List Byte) :=
  match item with
  | 0 => (index0 8 index).map fun i => wTreatment (vget s.cls.treatments i)
  | 1 => (index0 8 index).map fun i => wRange (vget s.cls.ranges i)
  | 2 => (index0 16 index).map fun i => wChemSlot (vget s.cls.slots i)
  | 3 => if index = 0 then some (wBool s.cls.mapOn ++ be 1 s.cls.defaultTreatment.1) else none
  | 4 => (index0 4 index).map fun i => wCurve (vget s.cls.curves i)
  | 5 => if index = 0 then some (wLimits s.atm.limits) else none
  | 6 => if index = 0 then some (be 1 s.feed.purgeTime) else none
  | 7 => (index1 24 index).map fun d => wMapEntry (s.detector d)
  | 8 => if index = 0 then some (be 2 s.fire.dwell ++ be 1 s.fire.rearm) else none
  | 9 => (index1 8 index).map fun z => be 4 (s.zone z).threshold ++ be 1 (s.zone z).delay
  | 10 => if index = 0 then some (be 2 s.lot.boundLow ++ be 2 s.lot.boundHigh) else none
  | 11 => if index = 0 then some (allPorts.flatMap fun p => be (presenceWidth p) (s.port p).presenceTime) else none
  | _ => none

def readConfigReply (item index : Nat) (s : State) : Reply :=
  match configBody s item index with
  | none => refuse .malformed s
  | some b => reply s b

def execReadConfig (p : Port) (seq : Byte) (item index : Nat) (s : State) : Outcome State Fault Refusal :=
  .next (serve p (Instr.readConfig p seq item index).frame (readConfigReply item index) s)

/-! ### FETCH_NOTICES and SET_PRESENCE_TIME (R192, R194) -/

/-- The number returned stands first, as R194 lists it, and is the notices' only count (log entry 13: the model's choice). -/
def fetchReply (p : Port) (s : State) : Reply :=
  let c := s.port p
  let out := c.notices.take 8
  reply (s.setPort p { c with notices := c.notices.drop 8, overflowed := false })
    (be 1 out.length ++ be 1 (c.notices.drop 8).length ++ wBool c.overflowed ++ out.flatMap (·.entry))

def execFetchNotices (p : Port) (seq : Byte) (s : State) : Outcome State Fault Refusal :=
  .next (serve p (Instr.fetchNotices p seq).frame (fetchReply p) s)

/-- The range of a port's presence time, in s (R192). -/
def presenceRange : Port → Nat × Nat
  | .line => (1, 30)
  | .fire => (1, 10)
  | .custody => (10, 600)

def presenceReply (p : Port) (seconds : Nat) (s : State) : Reply :=
  let t := clamp (presenceRange p).1 (presenceRange p).2 seconds
  reply (s.setPort p { s.port p with presenceTime := t, timer := some (t * 1000) }) (be (presenceWidth p) t)

def execSetPresenceTime (p : Port) (seq : Byte) (seconds : Nat) (s : State) : Outcome State Fault Refusal :=
  .next (serve p (Instr.setPresenceTime p seq seconds).frame (presenceReply p seconds) s)

/-! ### CLEAR_BANK and SET_REPORT_ENABLES (R175, R179) -/

/-- Clear a bank: the record is emptied, number and enables kept; notice, permit and line fault follow. -/
def clearBankState (k : BankId) (s : State) : State :=
  let b := s.banks.get k
  deliverBanks (notify k.subscribers (.bankCleared k b.number)
    (relight { s with banks := s.banks.put k { b with held := none, overflow := false } }))

/-- The checks of CLEAR_BANK; a bank that is not valid answers OK with its occurrence number, the body of a clear (R179; log
entry 13). -/
def clearBankReply (p : Port) (bank number : Nat) (s : State) : Reply :=
  match bankOfNumber bank with
  | none => refuse .malformed s
  | some k =>
    let b := s.banks.get k
    if Config.word32 ≤ number then refuse .malformed s
    else if !k.clearers.contains p then refuse .denied s
    else if b.held.isNone then reply s (be 4 b.number)
    else if number ≠ b.number then refuse .stale s
    else reply (clearBankState k s) (be 4 b.number)

def execClearBank (p : Port) (seq : Byte) (bank number : Nat) (s : State) : Outcome State Fault Refusal :=
  .next (serve p (Instr.clearBank p seq bank number).frame (clearBankReply p bank number) s)

/-- The enables a request sends: one on-or-off value for each code of the bank. -/
def enablesOf (k : BankId) (es : List Nat) : Option (List Bool) :=
  if es.length = k.codes.length ∧ es.all (· ≤ 1) = true then some (es.map (· == 1)) else none

/-- The enables as written: a code that cannot be disabled stays on. -/
def keepLocked (k : BankId) (es : List Bool) : List Bool := (k.codes.zip es).map fun x => x.1.lockedOn || x.2

/-- The checks of SET_REPORT_ENABLES in the order of R175. The answer's enables are a list with its count byte, which R175
does not say (log entry 13: the model's choice). -/
def enablesReply (p : Port) (bank : Nat) (es : List Nat) (s : State) : Reply :=
  match bankOfNumber bank with
  | none => refuse .malformed s
  | some k =>
    match enablesOf k es with
    | none => refuse .malformed s
    | some v =>
      if !k.clearers.contains p then refuse .denied s
      else reply { s with banks := s.banks.put k { s.banks.get k with enables := keepLocked k v } }
        (wList wBool (keepLocked k v))

def execSetReportEnables (p : Port) (seq : Byte) (bank : Nat) (enables : List Nat) (s : State) :
    Outcome State Fault Refusal :=
  .next (serve p (Instr.setReportEnables p seq bank enables).frame (enablesReply p bank enables) s)

end Sys2Proof.Machine
end

