-- ==== Sys2Proof/Machine/ClassRequests.lean ====
section
/-! DEFINITION. The Classification block's requests: WRITE_TREATMENT, WRITE_RANGE, WRITE_SLOT_MAP, SET_MAP, CURVE_BEGIN,
CURVE_POINT, CURVE_END (chapter 02). -/

namespace Sys2Proof.Machine

open Host (Outcome)

/-- The entry a WRITE_TREATMENT writes: the refused ranges of R26, then the clamps of R27. -/
def treatmentOf (t : TreatmentFields) : Option Treatment :=
  match yesNo t.refuse, yesNo t.acceptDamaged, index0 4 t.curve with
  | some r, some a, some c =>
    if t.limit ≤ 1000 ∧ t.cap ≤ 100000 ∧ 1000 ≤ t.current ∧ t.current ≤ 400000 ∧ 1500 ≤ t.stop ∧ t.stop ≤ 4500 ∧
        t.retries ≤ 7 ∧ 200 ≤ t.maxTemp ∧ t.maxTemp ≤ 800 then
      some { refuse := r, acceptDamaged := a, limit := t.limit, cap := t.cap, curve := c, current := t.current,
             stop := t.stop, segment := clamp 10 3600 t.segment, rest := clamp 60 7200 t.rest, retries := t.retries,
             dwell := clamp 10 1440 t.dwell, maxTemp := t.maxTemp }
    else none
  | _, _, _ => none

def writeTreatmentReply (index : Nat) (f : TreatmentFields) (s : State) : Reply :=
  match index0 8 index, treatmentOf f with
  | some i, some t => reply { s with cls.treatments := vset s.cls.treatments i t } (wTreatment t)
  | _, _ => refuse .malformed s

def execWriteTreatment (p : Port) (seq : Byte) (index : Nat) (f : TreatmentFields) (s : State) :
    Outcome State Fault Refusal :=
  .next (serve p (Instr.writeTreatment p seq index f).frame (writeTreatmentReply index f) s)

/-- WRITE_RANGE (R29). -/
def writeRangeReply (index low high treatment enabled : Nat) (s : State) : Reply :=
  match index0 8 index, index0 8 treatment, yesNo enabled with
  | some i, some t, some e =>
    if 16777215 < low ∨ 16777215 < high ∨ high < low then refuse .malformed s
    else
      let r : Range := ⟨low, high, t, e⟩
      reply { s with cls.ranges := vset s.cls.ranges i r } (wRange r)
  | _, _, _ => refuse .malformed s

def execWriteRange (p : Port) (seq : Byte) (index low high treatment enabled : Nat) (s : State) :
    Outcome State Fault Refusal :=
  .next (serve p (Instr.writeRange p seq index low high treatment enabled).frame
    (writeRangeReply index low high treatment enabled) s)

/-- WRITE_SLOT_MAP (R30). -/
def writeSlotMapReply (fam treatment enabled : Nat) (s : State) : Reply :=
  match index0 16 fam, index0 8 treatment, yesNo enabled with
  | some i, some t, some e =>
    let c : ChemSlot := ⟨t, e⟩
    reply { s with cls.slots := vset s.cls.slots i c } (wChemSlot c)
  | _, _, _ => refuse .malformed s

def execWriteSlotMap (p : Port) (seq : Byte) (fam treatment enabled : Nat) (s : State) :
    Outcome State Fault Refusal :=
  .next (serve p (Instr.writeSlotMap p seq fam treatment enabled).frame (writeSlotMapReply fam treatment enabled) s)

/-- SET_MAP (R31). -/
def setMapReply (enable treatment : Nat) (s : State) : Reply :=
  match yesNo enable, index0 8 treatment with
  | some e, some t =>
    reply { s with cls.mapOn := e, cls.defaultTreatment := t } (wBool e ++ be 1 t.1)
  | _, _ => refuse .malformed s

def execSetMap (p : Port) (seq : Byte) (enable treatment : Nat) (s : State) : Outcome State Fault Refusal :=
  .next (serve p (Instr.setMap p seq enable treatment).frame (setMapReply enable treatment) s)

/-! ### Curves (R37 to R40) -/

def setCurve (k : Fin 4) (c : Curve) (s : State) : State := { s with cls.curves := vset s.cls.curves k c }

/-- A curve other than `k` is REWRITING. -/
def otherRewriting (s : State) (k : Fin 4) : Bool :=
  ([0, 1, 2, 3] : List (Fin 4)).any fun j => j != k && (vget s.cls.curves j).status == .rewriting

def curveBeginReply (curve : Nat) (s : State) : Reply :=
  match index0 4 curve with
  | none => refuse .malformed s
  | some k => if otherRewriting s k then refuse .busy s else reply (setCurve k ⟨.rewriting, []⟩ s) []

def execCurveBegin (p : Port) (seq : Byte) (curve : Nat) (s : State) : Outcome State Fault Refusal :=
  .next (serve p (Instr.curveBegin p seq curve).frame (curveBeginReply curve) s)

def curvePointReply (curve voltage fraction : Nat) (s : State) : Reply :=
  match index0 4 curve with
  | none => refuse .malformed s
  | some k =>
    let c := vget s.cls.curves k
    if 65535 < voltage ∨ 65535 < fraction then refuse .malformed s
    else if c.status ≠ .rewriting then refuse .wrongState s
    else if Config.pointMax ≤ c.points.length then refuse .full s
    else reply (setCurve k { c with points := c.points ++ [⟨voltage, fraction⟩] } s) (be 1 (c.points.length + 1))

def execCurvePoint (p : Port) (seq : Byte) (curve voltage fraction : Nat) (s : State) : Outcome State Fault Refusal :=
  .next (serve p (Instr.curvePoint p seq curve voltage fraction).frame (curvePointReply curve voltage fraction) s)

/-- A RESTING bay whose deferred check waits for curve `k` (R63). -/
def waitsFor (k : Fin 4) (s : State) (n : Fin 8) : Bool :=
  let b := s.bay n
  b.state == .resting && b.deferred && (s.occupantPack n).any (·.2.treatment.curve == k)

/-- Wake the deferred checks of a curve made VALID, in bay order (R40). -/
def wakeChecks (k : Fin 4) (s : State) : State :=
  eight.foldl (fun t n => if waitsFor k t n then runCheck n t else t) s

/-- The body of a CURVE_END response: the status and, for INVALID, the reason and the position. R39 and R187 do not say
whether these two carry the presence byte of an optional field; none is written, the status decides (log entry 13: the
model's choice). -/
def wVerdict : Option (Nat × Nat) → List Byte
  | none => be 1 (CurveStatus.valid).ctorIdx
  | some (reason, pos) => be 1 (CurveStatus.invalid).ctorIdx ++ be 1 reason ++ be 1 pos

/-- Judge a curve (R39). -/
def judgeCurve (k : Fin 4) (points : List Point) (s : State) : State :=
  if (curveFault points).isNone then wakeChecks k (setCurve k ⟨.valid, points⟩ s)
  else post { code := .curveInvalid, severity := .advisory, detail := k.1 } (setCurve k ⟨.invalid, points⟩ s)

def curveEndReply (curve : Nat) (s : State) : Reply :=
  match index0 4 curve with
  | none => refuse .malformed s
  | some k =>
    let c := vget s.cls.curves k
    if c.status ≠ .rewriting then refuse .wrongState s
    else reply (judgeCurve k c.points s) (wVerdict (curveFault c.points))

def execCurveEnd (p : Port) (seq : Byte) (curve : Nat) (s : State) : Outcome State Fault Refusal :=
  .next (serve p (Instr.curveEnd p seq curve).frame (curveEndReply curve) s)

end Sys2Proof.Machine
end

