-- ==== Sys2Proof/Machine/FireRequests.lean ====
section
/-! DEFINITION. The Fire Zone Controller's requests: WRITE_DETECTOR, WRITE_FIRE_TIMES, WRITE_ZONE, HOLD, HOLD_END, RELEASE,
ZONE_RESET, ISOLATE_ZONE, RESTORE_ZONE (chapter 07). -/

namespace Sys2Proof.Machine

open Host (Outcome)

/-- The zone field of WRITE_DETECTOR: 0 unassigned, 1 to 8 a zone (R188). -/
def zoneOrNone (z : Nat) : Option (Option (Fin 8)) := if z = 0 then some none else (index1 8 z).map some

/-- Evaluate the new zone and, where it differs, the old one, for a detector, in the order R132 names them (log entry 17). -/
def evalZones (old new : Option (Fin 8)) (detail : Nat) (s : State) : State :=
  let s1 := match new with
    | some z => evalZone z detail s
    | none => s
  match old with
  | some z => if new = some z then s1 else evalZone z detail s1
  | none => s1

/-- R132. -/
def writeDetectorReply (detector zone kind : Nat) (s : State) : Reply :=
  match index1 24 detector, zoneOrNone zone, kindOfNumber kind with
  | some d, some z, some k =>
    let x := s.detector d
    if (x.zone.any fun q => (s.zone q).state.escalated) || (z.any fun q => (s.zone q).state.escalated) then
      refuse .frozen s
    else
      let y := { x with zone := z, kind := k }
      reply (evalZones x.zone z (d.1 + 1) (s.setDetector d y)) (wMapEntry y)
  | _, _, _ => refuse .malformed s

def execWriteDetector (p : Port) (seq : Byte) (detector zone kind : Nat) (s : State) : Outcome State Fault Refusal :=
  .next (serve p (Instr.writeDetector p seq detector zone kind).frame (writeDetectorReply detector zone kind) s)

/-- R134. -/
def writeFireTimesReply (dwell rearm : Nat) (s : State) : Reply :=
  let d := clamp 100 5000 dwell
  let r := clamp 1 120 rearm
  reply { s with fire.dwell := d, fire.rearm := r } (be 2 d ++ be 1 r)

def execWriteFireTimes (p : Port) (seq : Byte) (dwell rearm : Nat) (s : State) : Outcome State Fault Refusal :=
  .next (serve p (Instr.writeFireTimes p seq dwell rearm).frame (writeFireTimesReply dwell rearm) s)

/-- A request that names a zone by its number: MALFORMED outside 1 to 8. -/
def withZone (zone : Nat) (s : State) (k : Fin 8 → Reply) : Reply :=
  match index1 8 zone with
  | none => refuse .malformed s
  | some z => k z

/-- R153: both values are written, and a zone in ALARM is evaluated for release. -/
def writeZoneReply (zone threshold delay : Nat) (s : State) : Reply :=
  withZone zone s fun z =>
    if 10000000 < threshold then refuse .malformed s
    else
      let d := clamp 0 120 delay
      reply (evalRelease z (s.setZone z { s.zone z with threshold := threshold, delay := d })) (be 4 threshold ++ be 1 d)

def execWriteZone (p : Port) (seq : Byte) (zone threshold delay : Nat) (s : State) : Outcome State Fault Refusal :=
  .next (serve p (Instr.writeZone p seq zone threshold delay).frame (writeZoneReply zone threshold delay) s)

/-! ### HOLD and HOLD_END (R145) -/

/-- Set the hold of a RELEASE_PENDING zone; an effective change posts the zone state notice. -/
def setHold (z : Fin 8) (on : Bool) (s : State) : Reply :=
  let q := s.zone z
  if q.state ≠ .releasePending then refuse .wrongState s
  else if q.hold = on then reply s []
  else reply (noticeZone z (s.setZone z { q with hold := on })) []

def holdReply (zone : Nat) (s : State) : Reply := withZone zone s fun z => setHold z true s

def execHold (p : Port) (seq : Byte) (zone : Nat) (s : State) : Outcome State Fault Refusal :=
  .next (serve p (Instr.hold p seq zone).frame (holdReply zone) s)

def holdEndReply (zone : Nat) (s : State) : Reply := withZone zone s fun z => setHold z false s

def execHoldEnd (p : Port) (seq : Byte) (zone : Nat) (s : State) : Outcome State Fault Refusal :=
  .next (serve p (Instr.holdEnd p seq zone).frame (holdEndReply zone) s)

/-! ### RELEASE and ZONE_RESET (R147, R150) -/

def releaseReply (target : Nat) (s : State) : Reply :=
  withZone target s fun z =>
    match (s.zone z).state with
    | .released => reply s []
    | .isolated => refuse .wrongState s
    | _ => reply (enterReleased z 3 s) []

def execRelease (p : Port) (seq : Byte) (target g1 g2 : Nat) (s : State) : Outcome State Fault Refusal :=
  .next (serve p (Instr.release p seq target g1 g2).frame (guarded 85 target g1 g2 (releaseReply target)) s)

/-- The zone becomes NORMAL, its release output off, and is evaluated at once. -/
def zoneResetState (z : Fin 8) (s : State) : State :=
  evalZone z (lowestActive s z)
    (changeZone z { s.zone z with state := .normal, hold := false, timer := none } (command (.release z) false s))

def zoneResetReply (target : Nat) (s : State) : Reply :=
  withZone target s fun z =>
    if !(s.zone z).state.alarmed then refuse .wrongState s
    else if busyDetector (zoneDetectors s z) then refuse .notPermitted s
    else reply (zoneResetState z s) []

def execZoneReset (p : Port) (seq : Byte) (target g1 g2 : Nat) (s : State) : Outcome State Fault Refusal :=
  .next (serve p (Instr.zoneReset p seq target g1 g2).frame (guarded 86 target g1 g2 (zoneResetReply target)) s)

/-! ### ISOLATE_ZONE and RESTORE_ZONE (R151, R152) -/

def isolateReply (zone : Nat) (s : State) : Reply :=
  withZone zone s fun z =>
    if (s.zone z).state ≠ .normal then refuse .wrongState s
    else if zoneCount s.packs z ≠ 0 then refuse .busy s
    else reply (changeZone z { s.zone z with state := .isolated } s) []

def execIsolateZone (p : Port) (seq : Byte) (zone : Nat) (s : State) : Outcome State Fault Refusal :=
  .next (serve p (Instr.isolateZone p seq zone).frame (isolateReply zone) s)

/-- The zone becomes NORMAL and is evaluated against its detectors as they stand. -/
def restoreState (z : Fin 8) (s : State) : State :=
  evalZone z (lowestActive s z) (changeZone z { s.zone z with state := .normal } s)

def restoreReply (zone : Nat) (s : State) : Reply :=
  withZone zone s fun z =>
    if (s.zone z).state ≠ .isolated then refuse .wrongState s else reply (restoreState z s) []

def execRestoreZone (p : Port) (seq : Byte) (zone : Nat) (s : State) : Outcome State Fault Refusal :=
  .next (serve p (Instr.restoreZone p seq zone).frame (restoreReply zone) s)

end Sys2Proof.Machine
end

