-- ==== Sys2Proof/Machine/AtmosphereRequests.lean ====
section
/-! DEFINITION. The Atmosphere Monitor's requests and events: INERT_START, INERT_STOP, INERT_RESET, WRITE_INERT_LIMITS,
ANALYZER_READING, ANALYZER_AGE_EXPIRY, PURGE_TIMEOUT, HOLD_TIMER_EXPIRY (chapter 05). -/

namespace Sys2Proof.Machine

open Host (Outcome)

/-! ### Requests -/

/-- R101. -/
def inertStartReply (s : State) : Reply :=
  if s.atm.state ≠ .vented then refuse .wrongState s else reply (changeInert .purging s) []

def execInertStart (p : Port) (seq : Byte) (s : State) : Outcome State Fault Refusal :=
  .next (serve p (Instr.inertStart p seq).frame inertStartReply s)

/-- R102. -/
def inertStopReply (s : State) : Reply :=
  if s.atm.state = .vented ∨ s.atm.state = .tripped then refuse .wrongState s
  else if s.feed.lock.state ≠ .empty then refuse .busy s
  else reply (changeInert .vented s) []

def execInertStop (p : Port) (seq : Byte) (s : State) : Outcome State Fault Refusal :=
  .next (serve p (Instr.inertStop p seq).frame inertStopReply s)

/-- R103; a target other than 0 is MALFORMED (R189). -/
def inertResetReply (target : Nat) (s : State) : Reply :=
  if target ≠ 0 then refuse .malformed s
  else if s.atm.state ≠ .tripped then refuse .wrongState s
  else if s.atm.limits.purge < s.atm.oxygen then refuse .notPermitted s
  else reply (changeInert .holding s) []

def execInertReset (p : Port) (seq : Byte) (target g1 g2 : Nat) (s : State) : Outcome State Fault Refusal :=
  .next (serve p (Instr.inertReset p seq target g1 g2).frame (guarded 89 target g1 g2 (inertResetReply target)) s)

/-- Write the limits, evaluate the machine, and look at a clock already past the new maximum (R104, log entry 23). -/
def writeLimits (l : InertLimits) (s : State) : State :=
  checkPurgeTimeout (evalInert { s with atm.limits := l })

def writeInertLimitsReply (purge run trip hold maxPurge : Nat) (s : State) : Reply :=
  if 1200 < purge ∨ 1200 < run ∨ 1200 < trip ∨ run ≤ purge ∨ trip ≤ run then refuse .malformed s
  else
    let l : InertLimits := ⟨purge, run, trip, clamp 10 600 hold, clamp 60 3600 maxPurge⟩
    reply (writeLimits l s) (wLimits l)

def execWriteInertLimits (p : Port) (seq : Byte) (purge run trip hold maxPurge : Nat) (s : State) :
    Outcome State Fault Refusal :=
  .next (serve p (Instr.writeInertLimits p seq purge run trip hold maxPurge).frame
    (writeInertLimitsReply purge run trip hold maxPurge) s)

/-! ### Analyzers -/

def Atmosphere.analyzer (a : Atmosphere) : AnalyzerId → Analyzer
  | .a => a.a
  | .b => a.b

def Atmosphere.setAnalyzer (a : Atmosphere) (k : AnalyzerId) (x : Analyzer) : Atmosphere :=
  match k with
  | .a => { a with a := x }
  | .b => { a with b := x }

/-- Address 9 is analyzer A, 10 analyzer B (R92, R201). -/
def analyzerAt : Nat → Option AnalyzerId
  | 9 => some .a
  | 10 => some .b
  | _ => none

/-- The statuses of an analyzer, numbered as the body table gives. -/
def statusAt : Nat → Option AnalyzerStatus
  | 0 => some .ok
  | 1 => some .warmup
  | 2 => some .fault
  | _ => none

/-- The difference of the two latest values. -/
def oxygenGap (a b : Analyzer) : Nat :=
  let x := a.latest.elim 0 (·.value)
  let y := b.latest.elim 0 (·.value)
  max x y - min x y

/-- The discrepancy rule (R95). -/
def judgeDiscrepancy (s : State) : State :=
  let a := s.atm
  if !(a.a.valid && a.b.valid) then s
  else if oxygenGap a.a a.b ≤ 50 then { s with atm.discrepancy := false }
  else if a.discrepancy then s
  else post { code := .analyzerDiscrepancy, severity := .advisory, detail := oxygenGap a.a a.b }
    { s with atm.discrepancy := true }

/-- The loss rule (R96); `before` is the count of valid analyzers before the event. -/
def judgeLoss (k : AnalyzerId) (before : Nat) (s : State) : State :=
  let after := validCount s.atm.a s.atm.b
  if after < before then
    post { code := .analyzerLoss, severity := if after = 0 then .uncontained else .contained,
           detail := if k = .a then 1 else 2 } s
  else s

/-- An analyzer context changes: discrepancy, loss, effective oxygen, evaluation, in the order of R94. -/
def analyzerEvent (k : AnalyzerId) (x : Analyzer) (s : State) : State :=
  let before := validCount s.atm.a s.atm.b
  let s1 := { s with atm := s.atm.setAnalyzer k x }
  let s2 := judgeLoss k before (judgeDiscrepancy s1)
  evalInert { s2 with atm.oxygen := effectiveOxygen s2.atm.a s2.atm.b }

/-- A reading as it is recorded: above 2,100 it is clamped and saturated (R92). -/
def Reading.taken (oxygen : Nat) (st : AnalyzerStatus) (t : Nat) : Reading :=
  ⟨min oxygen Config.airOxygen, decide (Config.airOxygen < oxygen), st, t⟩

/-- A correct ANALYZER_READING (R92, R93). -/
def takeReading (address oxygen status : Nat) (s : State) : State :=
  match analyzerAt address, statusAt status with
  | some k, some st =>
    if 2500 < oxygen then s
    else analyzerEvent k ⟨some (Reading.taken oxygen st s.clock), st == .ok⟩ s
  | _, _ => s

def execAnalyzerReading (address oxygen status : Nat) (s : State) : Outcome State Fault Refusal :=
  .next (whenRunning (fun s => if s.link.receiver = .ignoring then s else takeReading address oxygen status s) s)

/-- The age expiry of an analyzer is due (R93). -/
def ageDue (s : State) (k : AnalyzerId) : Bool :=
  let x := s.atm.analyzer k
  x.valid && x.latest.any fun r => decide (r.arrival + Config.ageMs ≤ s.clock)

def execAnalyzerAgeExpiry (k : AnalyzerId) (s : State) : Outcome State Fault Refusal :=
  .next (whenRunning (fun s =>
    if ageDue s k then analyzerEvent k { s.atm.analyzer k with valid := false } s else s) s)

/-! ### Timers -/

/-- R98. -/
def execPurgeTimeout (s : State) : Outcome State Fault Refusal :=
  .next (whenRunning checkPurgeTimeout s)

/-- R99. -/
def execHoldTimerExpiry (s : State) : Outcome State Fault Refusal :=
  .next (whenRunning (fun s =>
    if s.atm.state = .holding ∧ s.atm.holdTimer = some 0 then changeInert .inert s else s) s)

end Sys2Proof.Machine
end

