-- ==== Sys2Proof/Machine/Register.lean ====
section
/-! DEFINITION. The Pack Register's requests: ADMIT, WITHDRAW, ASSIGN, MOVE, QUARANTINE (chapter 01). -/

namespace Sys2Proof.Machine

open Host (Outcome)

/-! ### ADMIT (R6, R7) -/

/-- An allocated record carries the tag (R6). -/
def tagHeld (s : State) (tag : Nat) : Bool := s.packs.toList.any fun r => r.pack.any (·.tag == tag)

/-- The FREE record with the lowest index (R7). -/
def freeRecord (s : State) : Option (Fin 256) := allRecords.find? fun i => (s.record i).pack.isNone

/-- The state and cause the treatment copy decides (R7). -/
def admitState (t : Treatment) (damaged : Bool) : PackState × Option QuarantineCause :=
  if t.refuse then (.quarantined, some .refused)
  else if damaged && !t.acceptDamaged then (.quarantined, some .damaged)
  else (.received, none)

/-- The record of an admitted pack (R7, R35). -/
def admitted (s : State) (tag : Nat) (lot : Fin 8) (typeCode : Nat) (damaged : Bool) (mass nominal cells : Nat) : Pack :=
  let k := classify s.cls typeCode
  let t := vget s.cls.treatments k
  { state := (admitState t damaged).1, tag, lot, typeCode, damaged, mass, nominal, cells, treatmentIndex := k,
    treatment := t, loc := .intake, removed := 0, remainder := 0, estimated := 0, basis := nominal, removedSince := 0,
    residual := none, retries := 0, dischargedAt := none, recheck := false, residualAtFeed := none,
    cause := (admitState t damaged).2, admittedAt := s.now }

/-- Admit a pack into record `i`: the record, the notice to line and custody, the lot's count and mass, Z1. -/
def admitAt (i : Fin 256) (p : Pack) (s : State) : State :=
  let s1 := noticePack [.line, .custody] i (storePack i p s)
  let s2 := s1.setLot p.lot
    ((s1.lotAt p.lot).map fun l => { l with admitted := l.admitted + 1, intakeMass := l.intakeMass + p.mass })
  deliverPlaces none p.zone s2

/-- The ranges of R6. -/
def admitRanges (tag typeCode mass nominal cells : Nat) : Bool :=
  decide (1 ≤ tag ∧ tag < 2 ^ 64 ∧ typeCode ≤ 16777215 ∧ 100 ≤ mass ∧ mass ≤ 2000000 ∧ 1 ≤ nominal ∧ nominal ≤ 100000 ∧
    1 ≤ cells ∧ cells ≤ 240)

def admitReply (tag lot typeCode damaged mass nominal cells : Nat) (s : State) : Reply :=
  match index0 8 lot, yesNo damaged with
  | some j, some d =>
    if !admitRanges tag typeCode mass nominal cells then refuse .malformed s
    else if !lotIn s j .opened then refuse .wrongState s
    else if tagHeld s tag then refuse .duplicate s
    else match freeRecord s with
      | none => refuse .full s
      | some i =>
        if (s.zone 0).state ≠ .normal then refuse .frozen s
        else
          let p := admitted s tag j typeCode d mass nominal cells
          reply (admitAt i p s) (wHandle (s.handle i) ++ be 1 p.treatmentIndex.1)
  | _, _ => refuse .malformed s

def execAdmit (p : Port) (seq : Byte) (tag lot typeCode damaged mass nominal cells : Nat) (s : State) :
    Outcome State Fault Refusal :=
  .next (serve p (Instr.admitPack p seq tag lot typeCode damaged mass nominal cells).frame
    (admitReply tag lot typeCode damaged mass nominal cells) s)

/-! ### WITHDRAW (R14, R15) -/

/-- Apply a transition into a terminal state, its report to the Lot Table, and the inventories (log entry 8: the model's
order). -/
def retire (i : Fin 256) (old new : Pack) (s : State) : State :=
  deliverPlaces old.zone new.zone (reportTerminal new (transition i new s))

def withdrawReply (index gen : Nat) (s : State) : Reply :=
  withPack index gen s fun h p =>
    if p.state ≠ .quarantined ∨ p.loc ≠ .quarantine then refuse .wrongState s
    else if moveFrozen s p.zone none then refuse .frozen s
    else reply (testClosing p.lot (retire h.index p { p with state := .withdrawn, loc := .out } s)) []

def execWithdraw (p : Port) (seq : Byte) (index gen : Nat) (s : State) : Outcome State Fault Refusal :=
  .next (serve p (Instr.withdraw p seq index gen).frame (withdrawReply index gen) s)

/-! ### ASSIGN (R8, R49, R50) -/

/-- The pack's state and place allow ASSIGN to bay `n`. -/
def assignable (s : State) (p : Pack) (n : Fin 8) : Bool :=
  match p.state, p.loc with
  | .received, .intake => true
  | .discharged, .bay m => m != n && (s.bay m).state == .done
  | _, _ => false

/-- Move a pack into an EMPTY bay: the register, the old bay's EMPTY notice before the new bay's LOADED one, the inventories
last (log entry 8: the model's order). -/
def placeInBay (h : Handle) (p : Pack) (n : Fin 8) (recheck : Bool) (s : State) : State :=
  deliverPlaces p.zone (some (bayZone n))
    (occupyBay n h p.treatment recheck
      (leaveLoc p.loc (transition h.index { p with state := .loaded, loc := .bay n } s)))

def assignReply (index gen bay : Nat) (s : State) : Reply :=
  match index1 8 bay with
  | none => refuse .malformed s
  | some n =>
    withPack index gen s fun h p =>
      if !assignable s p n then refuse .wrongState s
      else if (s.bay n).state ≠ .empty then refuse .busy s
      else if moveFrozen s p.zone (some (bayZone n)) then refuse .frozen s
      else reply (placeInBay h p n (p.state == .discharged) s) []

def execAssign (p : Port) (seq : Byte) (index gen bay : Nat) (s : State) : Outcome State Fault Refusal :=
  .next (serve p (Instr.assign p seq index gen bay).frame (assignReply index gen bay) s)

/-! ### MOVE (R9) -/

/-- The destinations of MOVE, numbered as locations (R188). -/
def moveDest : Nat → Option Loc
  | 0 => some .intake
  | 12 => some .quarantine
  | _ => none

/-- A bay that lets its occupant go: LOADED or DONE; a pack in no bay is not held by one. -/
def bayLetsGo (s : State) (l : Loc) : Bool :=
  match l with
  | .bay n => (s.bay n).state == .loaded || (s.bay n).state == .done
  | _ => true

/-- The cases of R9. -/
def movable (p : Pack) (dest : Loc) : Bool :=
  match p.state, p.loc, dest with
  | .loaded, .bay _, .intake => true
  | .quarantined, .bay _, .quarantine => true
  | .quarantined, .intake, .quarantine => true
  | .quarantined, .buffer, .quarantine => true
  | _, _, _ => false

/-- The pack after MOVE. -/
def movedPack (p : Pack) (dest : Loc) : Pack :=
  { p with loc := dest, state := if dest = .intake then .received else p.state }

/-- Carry out MOVE: the notice of a move within QUARANTINED goes to the line alone (R23); the inventories come last (log
entry 8: the model's order). -/
def moveState (h : Handle) (p : Pack) (dest : Loc) (s : State) : State :=
  deliverPlaces p.zone (zoneOf dest)
    (leaveLoc p.loc (noticePack [.line] h.index (storePack h.index (movedPack p dest) s)))

def moveReply (index gen dest : Nat) (s : State) : Reply :=
  match moveDest dest with
  | none => refuse .malformed s
  | some d =>
    withPack index gen s fun h p =>
      if p.loc = d then reply s []
      else if !movable p d || !bayLetsGo s p.loc then refuse .wrongState s
      else if moveFrozen s p.zone (zoneOf d) then refuse .frozen s
      else reply (moveState h p d s) []

def execMove (p : Port) (seq : Byte) (index gen dest : Nat) (s : State) : Outcome State Fault Refusal :=
  .next (serve p (Instr.move p seq index gen dest).frame (moveReply index gen dest) s)

/-! ### QUARANTINE (R11, R72, R116) -/

/-- A bay's part of a quarantine by request (R72). -/
def quarantineBay (n : Fin 8) (s : State) : State :=
  if (s.bay n).steerable then
    let s1 := stopLoad n s
    putBay n ((s1.bay n).cleared .done) s1
  else s

/-- A location's part of a quarantine by request: the bay stops; a QUEUED pack leaves the queue. -/
def quarantinePlace (h : Handle) (p : Pack) (s : State) : State :=
  match p.loc with
  | .bay n => quarantineBay n s
  | _ => if p.state = .queued then { s with feed.queue := s.feed.queue.filter (· != h) } else s

def quarantineReply (index gen : Nat) (s : State) : Reply :=
  withPack index gen s fun h p =>
    match p.state with
    | .feeding | .shredded | .withdrawn => refuse .wrongState s
    | .quarantined => reply s []
    | _ => reply (quarantinePlace h p (quarantinePack h.index .operator s)) []

def execQuarantine (p : Port) (seq : Byte) (index gen : Nat) (s : State) : Outcome State Fault Refusal :=
  .next (serve p (Instr.quarantine p seq index gen).frame (quarantineReply index gen) s)

end Sys2Proof.Machine
end

