-- ==== Sys2Proof/Machine/Lots.lean ====
section
/-! DEFINITION. The Lot Table's requests: OPEN_LOT, CLOSE_LOT, RELEASE_LOT, OUTPUT_WEIGHT, SWITCH_SHRED_LOT,
CANCEL_SWITCH, CHAMBER_CLEAR, SET_RECOVERY_BOUNDS (chapter 08). -/

namespace Sys2Proof.Machine

open Host (Outcome)

/-! ### OPEN_LOT (R158) -/

/-- A newly opened lot. -/
def Lot.fresh (number : Nat) (t : Stamp) : Lot :=
  { state := .opened, number, admitted := 0, shredded := 0, withdrawn := 0, intakeMass := 0, shreddedMass := 0,
    withdrawnMass := 0, outputMass := 0, energy := 0, residualAtFeed := 0, final := false, uncertain := false,
    balance := none, recovery := none, openedAt := t, closedAt := none }

/-- A lot in use carries the number. -/
def numberHeld (s : State) (n : Nat) : Bool := s.lot.lots.toList.any fun l => l.any (·.number == n)

/-- The FREE slot with the lowest index. -/
def freeLot (s : State) : Option (Fin 8) := eight.find? fun j => (s.lotAt j).isNone

def openLotReply (number : Nat) (s : State) : Reply :=
  if Config.word32 ≤ number then refuse .malformed s
  else if numberHeld s number then refuse .duplicate s
  else match freeLot s with
    | none => refuse .full s
    | some j => reply (noticeLot j (some .opened) number none (s.setLot j (some (Lot.fresh number s.now)))) (wLot j)

def execOpenLot (p : Port) (seq : Byte) (number : Nat) (s : State) : Outcome State Fault Refusal :=
  .next (serve p (Instr.openLot p seq number).frame (openLotReply number) s)

/-! ### CLOSE_LOT (R161) -/

/-- A request that names a lot handle: MALFORMED outside 0 to 7. -/
def withLot (lot : Nat) (s : State) (k : Fin 8 → Reply) : Reply :=
  match index0 8 lot with
  | none => refuse .malformed s
  | some j => k j

/-- An OPEN lot becomes DRAINING and is tested for closing. -/
def drainLot (j : Fin 8) (l : Lot) (s : State) : State :=
  testClosing j (noticeLot j (some .draining) l.number none (s.setLot j (some { l with state := .draining })))

def closeLotReply (lot : Nat) (s : State) : Reply :=
  withLot lot s fun j =>
    match s.lotAt j with
    | none => refuse .wrongState s
    | some l => if l.state ≠ .opened then refuse .wrongState s else reply (drainLot j l s) []

def execCloseLot (p : Port) (seq : Byte) (lot : Nat) (s : State) : Outcome State Fault Refusal :=
  .next (serve p (Instr.closeLot p seq lot).frame (closeLotReply lot) s)

/-! ### RELEASE_LOT (R16, R165) -/

/-- A record of lot `j`. -/
def Rec.ofLot (r : Rec) (j : Fin 8) : Bool := r.pack.any (·.lot == j)

/-- Free a record: its generation advances (R1, R16). -/
def Rec.freed (r : Rec) : Rec := ⟨(r.gen + 1) % 256, none⟩

/-- Free every record of lot `j`. -/
def freeRecords (j : Fin 8) (packs : Vector Rec 256) : Vector Rec 256 :=
  vmap (fun r => if r.ofLot j then r.freed else r) packs

def releaseLotReply (lot : Nat) (s : State) : Reply :=
  withLot lot s fun j =>
    match s.lotAt j with
    | none => refuse .wrongState s
    | some l =>
      if l.state ≠ .closed then refuse .wrongState s
      else
        let s1 := { s with packs := freeRecords j s.packs }
        reply (noticeLot j none l.number none (s1.setLot j none)) (be 2 (s.packs.toList.countP (·.ofLot j)))

def execReleaseLot (p : Port) (seq : Byte) (lot : Nat) (s : State) : Outcome State Fault Refusal :=
  .next (serve p (Instr.releaseLot p seq lot).frame (releaseLotReply lot) s)

/-! ### OUTPUT_WEIGHT (R167) -/

/-- The lot is the shred lot, or the old lot of an open switch whose final weight is not seen. -/
def weighable (s : State) (j : Fin 8) : Bool :=
  s.lot.shredLot == some j || s.lot.switch.any fun w => w.old == j && !w.finalSeen

/-- The feed lock has a FEEDING occupant. -/
def lockFeeding (s : State) : Bool :=
  match s.feed.lock.occupant with
  | none => false
  | some h => (s.lookup h).any (·.state == .feeding)

/-- The shred lot and the switch record after a final weight of lot `j` (R167, R169). -/
def afterFinal (s : State) (j : Fin 8) : Option (Fin 8) × Option Switch :=
  let shred := if s.lot.shredLot = some j then none else s.lot.shredLot
  match s.lot.switch with
  | none => (shred, none)
  | some w =>
    if w.old ≠ j then (shred, some w)
    else if w.chamberClear then (some w.target, none)
    else (shred, some { w with finalSeen := true })

/-- A final weight's effects, after the mass is added. -/
def finalWeight (j : Fin 8) (s : State) : State :=
  let a := afterFinal s j
  testClosing j (setShred a.1 a.2 (s.setLot j ((s.lotAt j).map fun l => { l with final := true })))

def outputWeightReply (lot mass final : Nat) (s : State) : Reply :=
  match index0 8 lot, yesNo final with
  | some j, some f =>
    if 100000000 < mass then refuse .malformed s
    else match s.lotAt j with
      | none => refuse .wrongLot s
      | some l =>
        if l.final then refuse .wrongState s
        else if !weighable s j then refuse .wrongLot s
        else if f && s.lot.shredLot == some j && lockFeeding s then refuse .busy s
        else if 2 ^ 48 ≤ l.outputMass + mass then refuse .full s
        else
          let s1 := s.setLot j (some { l with outputMass := l.outputMass + mass })
          reply (if f then finalWeight j s1 else s1) (be 8 (l.outputMass + mass))
  | _, _ => refuse .malformed s

def execOutputWeight (p : Port) (seq : Byte) (lot mass final : Nat) (s : State) : Outcome State Fault Refusal :=
  .next (serve p (Instr.outputWeight p seq lot mass final).frame (outputWeightReply lot mass final) s)

/-! ### SWITCH_SHRED_LOT, CANCEL_SWITCH and CHAMBER_CLEAR (R168 to R170) -/

/-- The shred lot has shredded something, so a switch is not immediate (R168). -/
def shredStarted (s : State) : Option (Fin 8) :=
  s.lot.shredLot.filter fun j => (s.lotAt j).any fun l => decide (0 < l.shredded)

/-- The outcome of a switch on the wire: immediate 0, open 1 (log entry 13). -/
def switchReply (lot : Nat) (s : State) : Reply :=
  withLot lot s fun j =>
    if s.lot.switch.isSome then refuse .busy s
    else if s.feed.lock.state ≠ .empty then refuse .busy s
    else match s.lotAt j with
      | none => refuse .wrongState s
      | some l =>
        if l.state = .closed ∨ l.final = true then refuse .wrongState s
        else if s.lot.shredLot = some j then reply s []
        else match shredStarted s with
          | none => reply (setShred (some j) none s) (be 1 0)
          | some o => reply (setShred (some o) (some ⟨o, j, false, false⟩) s) (be 1 1)

def execSwitchShredLot (p : Port) (seq : Byte) (lot : Nat) (s : State) : Outcome State Fault Refusal :=
  .next (serve p (Instr.switchShredLot p seq lot).frame (switchReply lot) s)

/-- End an open switch without completion (R170). -/
def endSwitch (s : State) : State := setShred s.lot.shredLot none s

def cancelReply (s : State) : Reply :=
  if s.lot.switch.isNone then refuse .wrongState s else reply (endSwitch s) []

def execCancelSwitch (p : Port) (seq : Byte) (s : State) : Outcome State Fault Refusal :=
  .next (serve p (Instr.cancelSwitch p seq).frame cancelReply s)

def chamberClearReply (s : State) : Reply :=
  match s.lot.switch with
  | none => refuse .wrongState s
  | some w =>
    if w.chamberClear then reply s []
    else if w.finalSeen then reply (setShred (some w.target) none s) []
    else reply (setShred s.lot.shredLot (some { w with chamberClear := true }) s) []

def execChamberClear (p : Port) (seq : Byte) (s : State) : Outcome State Fault Refusal :=
  .next (serve p (Instr.chamberClear p seq).frame chamberClearReply s)

/-! ### SET_RECOVERY_BOUNDS (R164) -/

def boundsReply (low high : Nat) (s : State) : Reply :=
  if 65535 < low ∨ 65535 < high ∨ high < low then refuse .malformed s
  else
    let lo := clamp 0 2000 low
    let hi := clamp 0 2000 high
    reply { s with lot.boundLow := lo, lot.boundHigh := hi } (be 2 lo ++ be 2 hi)

def execSetRecoveryBounds (p : Port) (seq : Byte) (low high : Nat) (s : State) : Outcome State Fault Refusal :=
  .next (serve p (Instr.setRecoveryBounds p seq low high).frame (boundsReply low high) s)

end Sys2Proof.Machine
end

