-- ==== Sys2Proof/Machine/FeedRequests.lean ====
section
/-! DEFINITION. The Feed Controller's requests: ENQUEUE, REMOVE, FEED, LOCK_CLOSED, RETURN, DROP_DONE, LOCK_EMPTIED,
WRITE_FEED (chapter 06). -/

namespace Sys2Proof.Machine

open Host (Outcome)

/-- An expired dwell refuses the request and sets recheck required (R114, R12). -/
def refuseRecheck (i : Fin 256) (p : Pack) (s : State) : Reply :=
  refuse .recheckRequired (s.setPack i (some { p with recheck := true }))

/-! ### ENQUEUE (R112, R113) -/

/-- The DONE bay a DISCHARGED pack stands in. -/
def doneBay (s : State) (p : Pack) : Option (Fin 8) :=
  match p.state, p.loc with
  | .discharged, .bay n => if (s.bay n).state = .done then some n else none
  | _, _ => none

/-- Carry out ENQUEUE: record, queue, bay, and the inventories last (log entry 8: the model's order). -/
def enqueueState (h : Handle) (p : Pack) (n : Fin 8) (s : State) : State :=
  let s1 := transition h.index { p with state := .queued, loc := .buffer } s
  let s2 := emptyBay n { s1 with feed.queue := s1.feed.queue ++ [h] }
  deliverPlaces p.zone (some 5) s2

def enqueueReply (index gen : Nat) (s : State) : Reply :=
  withPack index gen s fun h p =>
    match doneBay s p with
    | none => refuse .wrongState s
    | some n =>
      if dwellExpired s p then refuseRecheck h.index p s
      else if Config.queueMax ≤ s.feed.queueCount then refuse .full s
      else if moveFrozen s p.zone (some 5) then refuse .frozen s
      else reply (enqueueState h p n s) (be 1 (s.feed.queue.length + 1))

def execEnqueue (p : Port) (seq : Byte) (index gen : Nat) (s : State) : Outcome State Fault Refusal :=
  .next (serve p (Instr.enqueue p seq index gen).frame (enqueueReply index gen) s)

/-! ### REMOVE (R115) -/

/-- The destination of REMOVE: 0 for QUARANTINE, 1 to 8 for a bay (R188). -/
def removeDest (d : Nat) : Option (Option (Fin 8)) := if d = 0 then some none else (index1 8 d).map some

def unqueue (h : Handle) (s : State) : State := { s with feed.queue := s.feed.queue.filter (· != h) }

/-- Take a QUEUED pack out to the quarantine store, the inventories last (log entry 8: the model's order). -/
def removeToStore (h : Handle) (p : Pack) (s : State) : State :=
  deliverPlaces p.zone (some 7)
    (transition h.index { p with state := .quarantined, cause := some .operator, loc := .quarantine } (unqueue h s))

def removeReply (index gen dest : Nat) (s : State) : Reply :=
  match removeDest dest with
  | none => refuse .malformed s
  | some d =>
    withPack index gen s fun h p =>
      if p.state ≠ .queued then refuse .wrongState s
      else match d with
        | some n =>
          if (s.bay n).state ≠ .empty then refuse .busy s
          else if moveFrozen s (some 5) (some (bayZone n)) then refuse .frozen s
          else reply (placeInBay h p n true (unqueue h s)) []
        | none =>
          if moveFrozen s (some 5) (some 7) then refuse .frozen s else reply (removeToStore h p s) []

def execRemove (p : Port) (seq : Byte) (index gen dest : Nat) (s : State) : Outcome State Fault Refusal :=
  .next (serve p (Instr.remove p seq index gen dest).frame (removeReply index gen dest) s)

/-! ### FEED (R118, R119) -/

/-- Carry out FEED: queue, record, lock, and the inventories last (log entry 8: the model's order). -/
def feedState (h : Handle) (p : Pack) (s : State) : State :=
  let s1 := transition h.index { p with state := .feeding, loc := .feedLock, residualAtFeed := some p.standing }
    { s with feed.queue := s.feed.queue.tail }
  deliverPlaces p.zone (some 6) (setLock ⟨.loading, some h, false, false, none⟩ s1)

def feedReply (index gen : Nat) (s : State) : Reply :=
  withPack index gen s fun h p =>
    if p.state ≠ .queued ∨ s.feed.queue.head? ≠ some h then refuse .wrongState s
    else if s.feed.lock.state ≠ .empty then refuse .busy s
    else if s.lot.switch.isSome then refuse .busy s
    else if s.lot.shredLot ≠ some p.lot then refuse .wrongLot s
    else if !s.feed.permit then refuse .notPermitted s
    else if dwellExpired s p then refuseRecheck h.index p s
    else if moveFrozen s (some 5) (some 6) then refuse .frozen s
    else reply (feedState h p s) []

def execFeed (p : Port) (seq : Byte) (index gen : Nat) (s : State) : Outcome State Fault Refusal :=
  .next (serve p (Instr.feed p seq index gen).frame (feedReply index gen) s)

/-! ### LOCK_CLOSED (R120) -/

def lockClosedReply (s : State) : Reply :=
  let l := s.feed.lock
  if l.state = .loading ∧ l.returning = false then
    reply (setLock { l with state := .lockPurge, purgeTimer := some (s.feed.purgeTime * 1000) } s) []
  else refuse .wrongState s

def execLockClosed (p : Port) (seq : Byte) (s : State) : Outcome State Fault Refusal :=
  .next (serve p (Instr.lockClosed p seq).frame lockClosedReply s)

/-! ### RETURN (R124) -/

/-- The lock lets its pack be returned. -/
def Lock.returnable (l : Lock) : Bool :=
  (l.state == .loading || l.state == .lockPurge || l.state == .held) && !l.dropStarted && !l.returning

def returnReply (index gen : Nat) (s : State) : Reply :=
  withPack index gen s fun h p =>
    let l := s.feed.lock
    if p.state ≠ .feeding ∨ l.occupant ≠ some h then refuse .wrongState s
    else if !l.returnable then refuse .wrongState s
    else if Config.queueMax ≤ s.feed.queue.length then refuse .full s
    else if moveFrozen s (some 6) (some 5) then refuse .frozen s
    else reply (setLock { l with state := .loading, returning := true, purgeTimer := none } s) []

def execReturnPack (p : Port) (seq : Byte) (index gen : Nat) (s : State) : Outcome State Fault Refusal :=
  .next (serve p (Instr.returnPack p seq index gen).frame (returnReply index gen) s)

/-! ### DROP_DONE (R126) -/

/-- Carry out DROP_DONE: record, lot, lock, inventories, and then the test for closing (log entry 8: the model's order). -/
def dropState (h : Handle) (p : Pack) (s : State) : State :=
  let q := { p with state := .shredded, loc := .shredder }
  let s1 := setLock Lock.initial (reportTerminal q (transition h.index q s))
  testClosing p.lot (deliverPlaces p.zone none s1)

def dropDoneReply (index gen : Nat) (s : State) : Reply :=
  withPack index gen s fun h p =>
    let l := s.feed.lock
    if p.state ≠ .feeding ∨ l.occupant ≠ some h ∨ l.dropStarted = false ∨ l.state = .blocked then refuse .wrongState s
    else reply (dropState h p s) []

def execDropDone (p : Port) (seq : Byte) (index gen : Nat) (s : State) : Outcome State Fault Refusal :=
  .next (serve p (Instr.dropDone p seq index gen).frame (dropDoneReply index gen) s)

/-! ### LOCK_EMPTIED (R125) -/

/-- A returned pack goes back to the head of the queue; the inventories come after the lock's notice (log entry 8: the
model's order). -/
def requeue (h : Handle) (p : Pack) (s : State) : State :=
  let s1 := transition h.index { p with state := .queued, loc := .buffer, residualAtFeed := none } s
  deliverPlaces p.zone (some 5) (setLock Lock.initial { s1 with feed.queue := h :: s1.feed.queue })

/-- A blocked lock's pack goes to the quarantine store; the notice goes to the line alone (R23). The inventories, and a release
of Z8 they may cause, come after the lock's notice (log entry 8: the model's order). -/
def emptyBlocked (h : Handle) (p : Pack) (s : State) : State :=
  deliverPlaces p.zone (some 7)
    (setLock Lock.initial (noticePack [.line] h.index (storePack h.index { p with loc := .quarantine } s)))

/-- The lock's occupant and its pack. -/
def lockPack (s : State) : Option (Handle × Pack) :=
  match s.feed.lock.occupant with
  | none => none
  | some h => (s.lookup h).map (h, ·)

def lockEmptiedReply (s : State) : Reply :=
  let l := s.feed.lock
  match lockPack s with
  | none => refuse .wrongState s
  | some (h, p) =>
    if (l.state = .loading ∨ l.state = .held) ∧ l.returning = true then reply (requeue h p s) []
    else if l.state = .blocked then reply (emptyBlocked h p s) []
    else refuse .wrongState s

def execLockEmptied (p : Port) (seq : Byte) (s : State) : Outcome State Fault Refusal :=
  .next (serve p (Instr.lockEmptied p seq).frame lockEmptiedReply s)

/-! ### WRITE_FEED (R129) -/

def writeFeedReply (seconds : Nat) (s : State) : Reply :=
  let t := clamp 5 120 seconds
  reply { s with feed.purgeTime := t } (be 1 t)

def execWriteFeed (p : Port) (seq : Byte) (seconds : Nat) (s : State) : Outcome State Fault Refusal :=
  .next (serve p (Instr.writeFeed p seq seconds).frame (writeFeedReply seconds) s)

end Sys2Proof.Machine
end

