-- ==== Sys2Proof/Machine/BayRequests.lean ====
section
/-! DEFINITION. The Bay Supervisor's requests: START, PAUSE, RESUME, ABORT, WRITE_SLOT, CLEAR_BAY (chapter 03). -/

namespace Sys2Proof.Machine

open Host (Outcome)

/-- A request that names a bay by its number: MALFORMED outside 1 to 8. -/
def withBay (bay : Nat) (s : State) (k : Fin 8 → Reply) : Reply :=
  match index1 8 bay with
  | none => refuse .malformed s
  | some n => k n

/-- The zone and freshness checks of START and RESUME; a zone in any state but NORMAL refuses. -/
def bayReady (n : Fin 8) (s : State) (go : State) : Reply :=
  if (s.zone (bayZone n)).state ≠ .normal then refuse .frozen s
  else if !(s.bay n).fresh s.clock then refuse .notPermitted s
  else reply go []

/-- The rest time of a bay's occupant, in ms. -/
def restMs (n : Fin 8) (s : State) : Nat := ((s.occupantPack n).elim 0 (·.2.treatment.rest)) * 1000

/-- START's recheck path (R56). -/
def startRecheck (n : Fin 8) (s : State) : State :=
  let s1 := onOccupant n (fun p => { p with state := .resting }) s
  putBay n { s1.bay n with state := .resting, rest := some (restMs n s1), deferred := false } s1

/-- START's discharge path (R57). -/
def startDischarge (n : Fin 8) (s : State) : State :=
  enterDischarging n 0 (onOccupant n (fun p => { p with state := .discharging }) s)

def startReply (bay : Nat) (s : State) : Reply :=
  withBay bay s fun n =>
    if (s.bay n).state ≠ .loaded then refuse .wrongState s
    else bayReady n s (if (s.bay n).recheck then startRecheck n s else startDischarge n s)

def execStart (p : Port) (seq : Byte) (bay : Nat) (s : State) : Outcome State Fault Refusal :=
  .next (serve p (Instr.start p seq bay).frame (startReply bay) s)

/-- PAUSE (R67). -/
def pauseReply (bay : Nat) (s : State) : Reply :=
  withBay bay s fun n =>
    if (s.bay n).state ≠ .discharging then refuse .wrongState s else reply (pauseBay n .line s) []

def execPause (p : Port) (seq : Byte) (bay : Nat) (s : State) : Outcome State Fault Refusal :=
  .next (serve p (Instr.pause p seq bay).frame (pauseReply bay) s)

/-- Continue the interrupted segment; a segment already over takes its boundary at once (R68). -/
def resumeState (n : Fin 8) (s : State) : State :=
  let s1 := enterDischarging n (s.bay n).elapsed s
  if (s1.bay n).segmentOver then takeBoundary n s1 else s1

def resumeReply (bay : Nat) (s : State) : Reply :=
  withBay bay s fun n =>
    if (s.bay n).state ≠ .paused then refuse .wrongState s else bayReady n s (resumeState n s)

def execResume (p : Port) (seq : Byte) (bay : Nat) (s : State) : Outcome State Fault Refusal :=
  .next (serve p (Instr.resume p seq bay).frame (resumeReply bay) s)

/-- ABORT's effect (R69). -/
def abortState (n : Fin 8) (s : State) : State :=
  let s1 := stopLoad n (onOccupant n (fun p => { p with state := .loaded }) s)
  putBay n ((s1.bay n).cleared .loaded) s1

def abortReply (bay : Nat) (s : State) : Reply :=
  withBay bay s fun n => if !(s.bay n).integrates then refuse .wrongState s else reply (abortState n s) []

def execAbort (p : Port) (seq : Byte) (bay : Nat) (s : State) : Outcome State Fault Refusal :=
  .next (serve p (Instr.abort p seq bay).frame (abortReply bay) s)

/-! ### WRITE_SLOT (R52 to R54) -/

/-- Write a slot: the inactive one is staged, the active one acts at once. -/
def writeSlotState (n : Fin 8) (sl : SlotName) (x : Slot) (s : State) : State :=
  let b := s.bay n
  let s1 := s.setBay n (b.setSlot sl x)
  if sl ≠ b.active then s1.setBay n { s1.bay n with pending := true }
  else if b.state ≠ .discharging then s1
  else if (s1.bay n).segmentOver then takeBoundary n (followSlot n s1)
  else followSlot n s1

def writeSlotReply (bay slot current stop segment : Nat) (s : State) : Reply :=
  match index1 8 bay, slotOfNumber slot with
  | some n, some sl =>
    if current < 1000 ∨ 400000 < current ∨ stop < 1500 ∨ 4500 < stop then refuse .malformed s
    else if !(s.bay n).steerable then refuse .wrongState s
    else
      let x : Slot := ⟨current, stop, clamp 10 3600 segment, true⟩
      reply (writeSlotState n sl x s) (wSlot x)
  | _, _ => refuse .malformed s

def execWriteSlot (p : Port) (seq : Byte) (bay slot current stop segment : Nat) (s : State) :
    Outcome State Fault Refusal :=
  .next (serve p (Instr.writeSlot p seq bay slot current stop segment).frame
    (writeSlotReply bay slot current stop segment) s)

/-! ### CLEAR_BAY (R71) -/

/-- The bay's state from its occupant after CLEAR_BAY. -/
def clearedState (n : Fin 8) (s : State) : BayState :=
  match s.occupantPack n with
  | none => .empty
  | some (_, p) => if p.state = .loaded then .loaded else .done

def clearBayState (n : Fin 8) (s : State) : State :=
  if (s.bay n).occupied then putBay n { s.bay n with state := clearedState n s, faultCause := none } s
  else emptyBay n s

def clearBayReply (bay : Nat) (s : State) : Reply :=
  withBay bay s fun n =>
    if (s.bay n).state ≠ .faulted then refuse .wrongState s
    else if (s.sup (.contactor n)).readback then refuse .notPermitted s
    else reply (clearBayState n s) []

def execClearBay (p : Port) (seq : Byte) (bay : Nat) (s : State) : Outcome State Fault Refusal :=
  .next (serve p (Instr.clearBay p seq bay).frame (clearBayReply bay) s)

end Sys2Proof.Machine
end

