-- ==== Sys2Proof/Machine/SampleEvents.lean ====
section
/-! DEFINITION. The field link and the bays' own events: BAY_SAMPLE, FIELD_FRAME_DISCARD, FIELD_LINK_HUNTS_AGAIN,
LOAD_SET_TRANSMIT, LOAD_SET_REFRESH_EXPIRY, SEGMENT_TIMER_EXPIRY, SAMPLE_LOSS, OVER_CURRENT_REFERENCE_DROP,
REST_TIMER_EXPIRY (chapters 03, 04, 11). -/

namespace Sys2Proof.Machine

open Host (Outcome)

/-! ### Faults and stop found by a sample (R58, R59, R61, R70) -/

/-- A bay fault raised by a sample: the pack, the bay, the incident. -/
def sampleFault (n : Fin 8) (cause : FaultCause) (pack : State → State) (code : Code) (detail : Nat) (s : State) :
    State :=
  post { code, severity := .contained, detail, pack := (s.bay n).occupant, place := some (n.1 + 1) }
    (faultBay n cause (pack s))

/-- Quarantine a bay's occupant. -/
def quarantineOccupant (n : Fin 8) (cause : QuarantineCause) (s : State) : State :=
  match (s.bay n).occupant with
  | none => s
  | some h => quarantinePack h.index cause s

/-- The occupant becomes LOADED again, every energy field and its retries kept (R13). -/
def reloadOccupant (n : Fin 8) (s : State) : State :=
  onOccupant n (fun p => if p.state = .quarantined then p else { p with state := .loaded }) s

def overTemperature (n : Fin 8) (x : Sample) (s : State) : State :=
  sampleFault n .overTemperature (quarantineOccupant n .overTemperature) .overTemperature x.temp.toNat s

def reverseCurrent (n : Fin 8) (x : Sample) (s : State) : State :=
  sampleFault n .reverseCurrent (quarantineOccupant n .reverseCurrent) .reverseCurrent (x.current.natAbs / 10) s

def restCurrent (n : Fin 8) (x : Sample) (s : State) : State :=
  sampleFault n .restCurrent (quarantineOccupant n .restCurrent) .restCurrent (x.current.natAbs / 10) s

def overCurrent (n : Fin 8) (x : Sample) (s : State) : State :=
  sampleFault n .overCurrent (reloadOccupant n) .overCurrent (x.current.toNat / 10) s

/-- The stop voltage ends the discharge (R59). -/
def stopReached (n : Fin 8) (s : State) : State :=
  let s1 := onOccupant n (fun p => { p with state := .resting }) s
  let s2 := stopLoad n (s1.setBay n (s1.bay n).swapSlot)
  putBay n { s2.bay n with state := .resting, rest := some (restMs n s2), deferred := false, elapsed := 0 } s2

/-- The checks of a DISCHARGING bay, in order (R58). -/
def dischargeChecks (n : Fin 8) (p : Pack) (x : Sample) (s : State) : State :=
  let b := s.bay n
  if (p.treatment.maxTemp : Int) < x.temp then overTemperature n x s
  else if x.current < -1000 then reverseCurrent n x s
  else if (overLimit b.overRef : Int) < x.current then overCurrent n x s
  else if x.voltage / p.cells ≤ b.activeSlot.stop then stopReached n s
  else s

/-- The checks of a RESTING or PAUSED bay, in order (R61), then a deferred check (R63). -/
def restChecks (n : Fin 8) (p : Pack) (x : Sample) (s : State) : State :=
  let b := s.bay n
  if (p.treatment.maxTemp : Int) < x.temp then overTemperature n x s
  else if b.confirmedOpen && decide (500 < x.current.natAbs) then restCurrent n x s
  else if b.state = .resting ∧ b.deferred = true then runCheck n s
  else s

/-- The checks of the bay's state (R81, point 4). -/
def sampleChecks (n : Fin 8) (x : Sample) (s : State) : State :=
  match s.occupantPack n with
  | none => s
  | some (_, p) =>
    match (s.bay n).state with
    | .discharging => dischargeChecks n p x s
    | .resting | .paused => restChecks n p x s
    | _ => s

/-! ### Integration (R84 to R87) -/

/-- Book an increment: whole millijoules, remainder, estimated intervals (R17, R85, R86). -/
def Pack.integrate (p : Pack) (inc missing : Nat) (resync : Bool) : Pack :=
  let mj := (p.remainder + inc) / 1000000
  { p with remainder := (p.remainder + inc) % 1000000
           removed := min (p.removed + mj) Config.energyMax
           removedSince := min (p.removedSince + mj) Config.energyMax
           estimated := if resync then 65535 else min (p.estimated + missing) 65535 }

/-- Integrate a sample into the occupant's record and deliver the zone's inventory (R87). -/
def integrateSample (n : Fin 8) (v : Nat) (i : Int) (interval : Nat) (k : SeqClass) (s : State) : State :=
  match s.occupantPack n with
  | none => s
  | some (j, p) =>
    deliverPlaces p.zone none
      (storePack j (p.integrate (increment v i interval k.missing) k.missing (k == .resync)) s)

/-! ### Tallies (R88) -/

def sat16 (n : Nat) : Nat := min n 65535

/-- The tally after an accepted sample. -/
def Tally.accept (t : Tally) (k : SeqClass) (integrated : Bool) : Tally :=
  { t with accepted := sat16 (t.accepted + 1)
           filled := if integrated then sat16 (t.filled + k.missing) else t.filled
           resyncs := if k = .resync then sat16 (t.resyncs + 1) else t.resyncs }

/-- Change a bay's tally. -/
def tallyBay (n : Fin 8) (f : Tally → Tally) (s : State) : State :=
  s.setBay n { s.bay n with tally := f (s.bay n).tally }

/-! ### BAY_SAMPLE (R79 to R81) -/

/-- The ranges of R78. -/
def sampleRanges (q v : Nat) (i t : Int) (interval : Nat) : Bool :=
  decide (q ≤ 65535 ∧ v ≤ 200000 ∧ -500000 ≤ i ∧ i ≤ 500000 ∧ -400 ≤ t ∧ t ≤ 1500 ∧ 1 ≤ interval ∧ interval ≤ 1000)

/-- An accepted sample, in the order of R81. -/
def acceptSample (n : Fin 8) (k : SeqClass) (q : Nat) (x : Sample) (interval : Nat) (s : State) : State :=
  let run := (s.bay n).integrates
  let s1 := s.setBay n { s.bay n with lastSeq := some q }
  let s2 := if run then integrateSample n x.voltage x.current interval k s1 else s1
  let s3 := s2.setBay n { s2.bay n with lastSample := some x }
  tallyBay n (·.accept k run) (sampleChecks n x s3)

/-- A correct BAY_SAMPLE (R79, R80). -/
def takeSample (address q v : Nat) (i t : Int) (interval : Nat) (s : State) : State :=
  match index1 8 address with
  | none => s
  | some n =>
    let b := s.bay n
    if !b.occupied then s
    else if !sampleRanges q v i t interval then
      tallyBay n (fun y => { y with outOfRange := sat16 (y.outOfRange + 1) }) s
    else match classifySeq b.lastSeq q with
      | .duplicate => tallyBay n (fun y => { y with duplicates := sat16 (y.duplicates + 1) }) s
      | .stale => tallyBay n (fun y => { y with stale := sat16 (y.stale + 1) }) s
      | k => acceptSample n k q ⟨v, i, t, s.clock⟩ interval s

/-- A frame completes at a hunting field receiver; one that completes while it waits for an idle line is lost. -/
def onFieldLink (f : State → State) (s : State) : State := if s.link.receiver = .ignoring then s else f s

def execBaySample (address sequence voltage : Nat) (current temperature : Int) (interval : Nat) (s : State) :
    Outcome State Fault Refusal :=
  .next (whenRunning (onFieldLink (takeSample address sequence voltage current temperature interval)) s)

/-! ### The field link (R201, R202) -/

/-- What the receiver does after a discard (R201; log entry 16). -/
def receiverAfter (why : FieldFault) (r : Receiver) : Receiver :=
  match why with
  | .overlong | .idleLine | .badCrc => .ignoring
  | .badCode | .badLength => r

def execFieldFrameDiscard (why : FieldFault) (s : State) : Outcome State Fault Refusal :=
  .next (whenRunning (onFieldLink fun s =>
    { s with link.receiver := receiverAfter why s.link.receiver }) s)

def execFieldLinkHuntsAgain (s : State) : Outcome State Fault Refusal :=
  .next (whenRunning (fun s => { s with link.receiver := .hunting }) s)

/-- The oldest waiting LOAD_SET is sent and restarts its bay's refresh timer. -/
def transmitLoadSet (s : State) : State :=
  match s.link.waiting with
  | [] => s
  | f :: rest =>
    { s with link := { s.link with waiting := rest, sent := some f,
                                   refresh := vset s.link.refresh f.bay (some Config.refreshMs) } }

def execLoadSetTransmit (s : State) : Outcome State Fault Refusal := .next (whenRunning transmitLoadSet s)

/-- The refresh of a bay: an occupied bay's setpoint joins the list; the timer stops until a frame is sent. -/
def refreshBay (n : Fin 8) (s : State) : State :=
  if vget s.link.refresh n = some 0 then
    let s1 := { s with link.refresh := vset s.link.refresh n none }
    if (s.bay n).occupied then sendLoadSet n s1 else s1
  else s

def execLoadSetRefreshExpiry (n : Fin 8) (s : State) : Outcome State Fault Refusal :=
  .next (whenRunning (refreshBay n) s)

/-! ### The bays' timers -/

/-- The segment timer is due (R55). -/
def segmentDue (s : State) (n : Fin 8) : Bool := (s.bay n).state == .discharging && (s.bay n).segmentOver

def execSegmentTimerExpiry (n : Fin 8) (s : State) : Outcome State Fault Refusal :=
  .next (whenRunning (fun s => if segmentDue s n then takeBoundary n s else s) s)

/-- The sample loss timer is due (R60). -/
def lossDue (s : State) (n : Fin 8) : Bool :=
  (s.bay n).state == .discharging &&
    (s.bay n).lastSample.any fun x => decide (x.arrival + Config.freshMs ≤ s.clock)

/-- R60. -/
def sampleLost (n : Fin 8) (s : State) : State :=
  post { code := .sampleLoss, severity := .contained, detail := 0, pack := (s.bay n).occupant,
         place := some (n.1 + 1) } (pauseBay n .samples s)

def execSampleLoss (n : Fin 8) (s : State) : Outcome State Fault Refusal :=
  .next (whenRunning (fun s => if lossDue s n then sampleLost n s else s) s)

/-- The end of the over-current reference is due (R58). -/
def referenceDue (s : State) (n : Fin 8) : Bool := (s.bay n).overEnd.any fun e => decide (e ≤ s.clock)

/-- The reference drops to the commanded setpoint (R58). -/
def dropReference (n : Fin 8) (s : State) : State :=
  s.setBay n { s.bay n with overRef := (s.bay n).setpoint, overEnd := none }

def execOverCurrentReferenceDrop (n : Fin 8) (s : State) : Outcome State Fault Refusal :=
  .next (whenRunning (fun s => if referenceDue s n then dropReference n s else s) s)

/-- The rest timer is due (R62). -/
def restDue (s : State) (n : Fin 8) : Bool := (s.bay n).state == .resting && (s.bay n).rest == some 0

/-- The timer stops and the residual check is asked for (R62). -/
def endRest (n : Fin 8) (s : State) : State := runCheck n (s.setBay n { s.bay n with rest := none })

def execRestTimerExpiry (n : Fin 8) (s : State) : Outcome State Fault Refusal :=
  .next (whenRunning (fun s => if restDue s n then endRest n s else s) s)

end Sys2Proof.Machine
end

