-- ==== Sys2Proof/Machine/PinEvents.lean ====
section
/-! DEFINITION. The events of the pins and of the fire zones' and the lock's timers: DETECTOR_LINE_CHANGE and the
detector timers, RELEASE_TIMER_EXPIRY, LOCK_PURGE_TIMER_EXPIRY, READBACK_CHANGE, READBACK_WINDOW_EXPIRY,
DISAGREEMENT_TIMER_EXPIRY (chapters 06, 07, 11). -/

namespace Sys2Proof.Machine

open Host (Outcome)

/-! ### Detectors (R133 to R139) -/

/-- The line goes OPEN or SHORT: the dwell proves the fault (R137). -/
def Detector.doubt (x : Detector) (dwell : Nat) : Detector :=
  { x with state := .confirmingFault, prior := some x.state, timer := some dwell }

/-- The line goes ACTIVE: the dwell proves it (R135). -/
def Detector.confirm (x : Detector) (dwell : Nat) : Detector :=
  { x with state := .confirming, prior := none, timer := some dwell }

/-- The line has gone quiet after an activation (R136, R137). -/
def Detector.rearm (x : Detector) (ms : Nat) : Detector := { x with state := .rearming, prior := none, timer := some ms }

/-- Quiet again. -/
def Detector.quiet (x : Detector) : Detector :=
  { x with state := .normal, prior := none, timer := none, faultShort := none }

/-- The detector after its line is reported as `l`; `dwell` and `rearm` in ms (R135 to R138). -/
def Detector.onLine (x : Detector) (l : LineState) (dwell rearm : Nat) : Detector :=
  let y := { x with line := l }
  match x.state, l with
  | .normal, .active => y.confirm dwell
  | .normal, .normal => y
  | .normal, _ => y.doubt dwell
  | .confirming, .normal => y.quiet
  | .confirming, .active => y
  | .confirming, _ => y.doubt dwell
  | .active, .normal => y.rearm rearm
  | .active, .active => y
  | .active, _ => y.doubt dwell
  | .rearming, .active => y.confirm dwell
  | .rearming, .normal => y
  | .rearming, _ => y.doubt dwell
  | .confirmingFault, .normal =>
    if x.prior = some .active ∨ x.prior = some .rearming then y.rearm rearm else y.quiet
  | .confirmingFault, .active =>
    if x.prior = some .active then { y with state := .active, prior := none, timer := none } else y.confirm dwell
  | .confirmingFault, _ => y
  | .faulted, .normal => { y with timer := some rearm }
  | .faulted, _ => { y with timer := none }

/-- DETECTOR_FAULT (R137). -/
def detectorFaultPosting (d : Fin 24) (x : Detector) : Posting :=
  { code := .detectorFault, severity := .contained
    detail := d.1 + 1 + (if x.faultShort = some true then 256 else 0)
    place := x.zone.map fun z => z.1 + 1 }

/-- The detector fault notice (R139). -/
def noticeDetector (d : Fin 24) (x : Detector) (s : State) : State :=
  notify [.fire] (.detectorFault d x.state x.faultShort x.zone) s

/-- Hand a detector's change of state to its zone, when it is assigned (R139). -/
def handToZone (d : Fin 24) (s : State) : State :=
  match (s.detector d).zone with
  | none => s
  | some z => evalZone z (d.1 + 1) s

/-- Write a detector context: a change of its state posts what R139 gives and is handed to its zone. At an entry to FAULTED
the incident's notice comes before the detector fault notice, and at an entry to FAULTED or a departure from it both come before
the incidents and notices of the zone's evaluation, which no rule orders (log entry 8: the model's order). -/
def changeDetector (d : Fin 24) (x : Detector) (s : State) : State :=
  let old := (s.detector d).state
  let s1 := s.setDetector d x
  if x.state = old then s1
  else
    let s2 :=
      if x.state = .faulted then noticeDetector d x (post (detectorFaultPosting d x) s1)
      else if old = .faulted then noticeDetector d x s1
      else s1
    handToZone d s2

/-- A report of a detector's line; one that repeats the recorded line state is no event (R133). -/
def takeLine (d : Fin 24) (l : LineState) (s : State) : State :=
  let x := s.detector d
  if x.line = l then s else changeDetector d (x.onLine l s.fire.dwell (s.fire.rearm * 1000)) s

/-- A stopped part's input circuit goes on showing the line; its controller does nothing (log entry 7). -/
def execDetectorLineChange (d : Fin 24) (l : LineState) (s : State) : Outcome State Fault Refusal :=
  .next (if s.run then takeLine d l s else s.setDetector d { s.detector d with line := l })

/-- The detector is in `st` with its timer run out. -/
def detectorDue (s : State) (d : Fin 24) (st : DetectorState) : Bool :=
  (s.detector d).state == st && (s.detector d).timer == some 0

/-- R135. -/
def execDetectorDwellExpiry (d : Fin 24) (s : State) : Outcome State Fault Refusal :=
  .next (whenRunning (fun s =>
    if detectorDue s d .confirming then changeDetector d { s.detector d with state := .active, timer := none } s
    else s) s)

/-- The fault kind is the present line state (R137). -/
def Detector.fail (x : Detector) : Detector :=
  { x with state := .faulted, prior := none, timer := none, faultShort := some (x.line == .short) }

/-- R137. -/
def execFaultDwellExpiry (d : Fin 24) (s : State) : Outcome State Fault Refusal :=
  .next (whenRunning (fun s =>
    if detectorDue s d .confirmingFault then changeDetector d (s.detector d).fail s else s) s)

/-- R136. -/
def execRearmExpiry (d : Fin 24) (s : State) : Outcome State Fault Refusal :=
  .next (whenRunning (fun s =>
    if detectorDue s d .rearming then changeDetector d (s.detector d).quiet s else s) s)

/-- R138. -/
def execRecoveryTimerExpiry (d : Fin 24) (s : State) : Outcome State Fault Refusal :=
  .next (whenRunning (fun s =>
    if detectorDue s d .faulted then changeDetector d (s.detector d).quiet s else s) s)

/-! ### Release timer and lock purge timer -/

/-- The release timer of a zone has run out and is not halted (R144). -/
def releaseDue (s : State) (z : Fin 8) : Bool :=
  (s.zone z).state == .releasePending && !(s.zone z).hold && (s.zone z).timer == some 0

/-- R144. -/
def execReleaseTimerExpiry (z : Fin 8) (s : State) : Outcome State Fault Refusal :=
  .next (whenRunning (fun s => if releaseDue s z then enterReleased z 1 s else s) s)

/-- The lock purge timer has run out in LOCK_PURGE (R121). -/
def lockPurgeDue (s : State) : Bool := s.feed.lock.state == .lockPurge && s.feed.lock.purgeTimer == some 0

/-- The lower gate opens (R121). -/
def openLower (s : State) : State :=
  setLock { s.feed.lock with state := .dropping, dropStarted := true, purgeTimer := none } s

def execLockPurgeTimerExpiry (s : State) : Outcome State Fault Refusal :=
  .next (whenRunning (fun s => if lockPurgeDue s then openLower s else s) s)

/-! ### Read-back supervision (R198, R199) and its owners -/

/-- The supervision context after a change of the read-back (R199). -/
def Supervision.onReadback (v : Supervision) (level : Bool) : Supervision :=
  let w := { v with readback := level }
  if v.window.isSome then w
  else if level = v.command then { w with disagree := none, reported := false }
  else if v.reported then w
  else { w with disagree := some Config.disagreeMs }

/-- Every change of a read-back is handed to the owner: the Bay Supervisor uses it for contactor confirmed open (R61). -/
def handReadback (o : Output) (level : Bool) (s : State) : State :=
  match o with
  | .contactor n =>
    if !level && !(s.sup o).command then s.setBay n { s.bay n with confirmedOpen := true } else s
  | _ => s

def takeReadback (o : Output) (level : Bool) (s : State) : State :=
  if (s.sup o).readback = level then s else handReadback o level (s.setSup o ((s.sup o).onReadback level))

/-- A stopped part's input goes on showing its level (log entry 7). -/
def execReadbackChange (o : Output) (level : Bool) (s : State) : Outcome State Fault Refusal :=
  .next (if s.run then takeReadback o level s else s.setSup o { s.sup o with readback := level })

/-- A stuck contactor's effect on the occupant (R75). -/
def stuckPack (n : Fin 8) (s : State) : State :=
  match s.occupantPack n with
  | none => s
  | some (i, p) =>
    match p.state with
    | .resting | .discharging => transition i { p with state := .loaded } s
    | .discharged => s.setPack i (some { p with recheck := true })
    | _ => s

/-- Stuck closed (R75). -/
def contactorStuck (n : Fin 8) (s : State) : State :=
  post { code := .contactorMismatch, severity := .uncontained, detail := 1, pack := (s.bay n).occupant,
         place := some (n.1 + 1) } (faultBay n .outputMismatch (stuckPack n s))

/-- Failed to close (R75). -/
def contactorFailed (n : Fin 8) (s : State) : State :=
  post { code := .contactorMismatch, severity := .contained, detail := 2, pack := (s.bay n).occupant,
         place := some (n.1 + 1) } (pauseBay n .output s)

/-- A gate mismatch is posted, and the permit evaluated at the deposit (R108, R128). -/
def gateMismatch (detail : Nat) (s : State) : State :=
  evalPermit (post { code := .gateMismatch, severity := .uncontained, detail, pack := s.feed.lock.occupant } s)

/-- A lower gate mismatch blocks a working lock (R128). -/
def lowerMismatch (detail : Nat) (s : State) : State :=
  let s1 := gateMismatch detail s
  if s1.feed.lock.working then blockLock .feedUncertain (some 1) s1 else s1

/-- A mismatch reaches the output's owner; the direction is on while commanded off, or off while commanded on. -/
def reportMismatch (o : Output) (s : State) : State :=
  let on := (s.sup o).command
  let detail := if on then 2 else 1
  match o with
  | .contactor n => if on then contactorFailed n s else contactorStuck n s
  | .permit => evalPermit (post { code := .permitOutputMismatch, severity := .uncontained, detail } s)
  | .upperGate => gateMismatch detail s
  | .lowerGate => lowerMismatch (detail + 2) s
  | .purge => post { code := .purgeOutputMismatch, severity := .contained, detail } s
  | .release z =>
    post { code := .releaseOutputMismatch, severity := .uncontained, detail, place := some (z.1 + 1) } s

/-- The window ends; a disagreeing read-back is reported (R198, log entry 22). -/
def endWindow (o : Output) (s : State) : State :=
  let v := s.sup o
  if v.readback = v.command then s.setSup o { v with window := none }
  else reportMismatch o (s.setSup o { v with window := none, reported := true })

def execReadbackWindowExpiry (o : Output) (s : State) : Outcome State Fault Refusal :=
  .next (whenRunning (fun s => if (s.sup o).window = some 0 then endWindow o s else s) s)

/-- The disagreement has lasted: it is reported (R199). -/
def endDisagreement (o : Output) (s : State) : State :=
  reportMismatch o (s.setSup o { s.sup o with disagree := none, reported := true })

def execDisagreementTimerExpiry (o : Output) (s : State) : Outcome State Fault Refusal :=
  .next (whenRunning (fun s => if (s.sup o).disagree = some 0 then endDisagreement o s else s) s)

end Sys2Proof.Machine
end

