-- ==== Sys2Proof/Machine/Resets.lean ====
section
/-! DEFINITION. HARDWARE_RESET, LINE_RESTART and MAIN_SUPPLY_LOSS, with each block's reset and restart rule (R24, R25,
R76, R77, R106, R107, R130, R131, R156, R172, R190, R196, R200, R203). -/

namespace Sys2Proof.Machine

open Host (Outcome)

/-! ### MAIN_SUPPLY_LOSS (R203) -/

/-- A supervised output of a stopped part: commanded off, no timer running. -/
def Supervision.dark (v : Supervision) : Supervision := ⟨false, v.readback, none, none, false⟩

/-- Every output off. -/
def Outputs.dark (o : Outputs) : Outputs :=
  { contactors := vmap (·.dark) o.contactors, permit := o.permit.dark, upperGate := o.upperGate.dark,
    lowerGate := o.lowerGate.dark, purge := o.purge.dark, releases := vmap (·.dark) o.releases, lineFault := false }

/-- Retained memory survives a stop but for a loss of the main supply without a backup. -/
def keepsMemory : StopCause → Bool
  | .supplyLost backup => backup
  | .resetLow => true

/-- The part stops: every output is off, and nothing else runs (R203, log entry 7). -/
def stopPart (cause : StopCause) (s : State) : State :=
  { s with run := false, out := s.out.dark, checkAgrees := s.checkAgrees && keepsMemory cause }

def execMainSupplyLoss (cause : StopCause) (s : State) : Outcome State Fault Refusal := .next (stopPart cause s)

/-! ### HARDWARE_RESET (R172) -/

/-- A pack record after a reset that finds memory intact (R24). -/
def Pack.afterReset (p : Pack) : Pack :=
  match p.state with
  | .discharging | .resting => { p with state := .loaded }
  | .discharged | .queued => { p with recheck := true }
  | .feeding => { p with state := .quarantined, cause := some .feedUncertain }
  | _ => p

def Rec.afterReset (r : Rec) : Rec := { r with pack := r.pack.map (·.afterReset) }

/-- The record of the pack at a location: the lowest, where several stand there. -/
def packAt (packs : Vector Rec 256) (l : Loc) : Option (Fin 256 × Pack) :=
  allRecords.findSome? fun i =>
    match (vget packs i).pack with
    | some p => if p.loc = l then some (i, p) else none
    | none => none

/-- The bay's state from its occupant's (the table of R76). -/
def bayStateOf (p : PackState) : BayState :=
  match p with
  | .loaded | .discharging | .resting => .loaded
  | _ => .done

/-- A bay context rebuilt from the records (R76); `closed` is the contactor's read-back. -/
def resetBay (packs : Vector Rec 256) (n : Fin 8) (closed : Bool) : Bay :=
  match packAt packs (.bay n) with
  | none => { Bay.initial with confirmedOpen := !closed }
  | some (i, p) =>
    { Bay.defaultSlots Bay.initial p.treatment with
      state := bayStateOf p.state, occupant := some ⟨i, (vget packs i).gen⟩, confirmedOpen := !closed }

/-- The feed lock rebuilt from the records (R130). -/
def resetLock (packs : Vector Rec 256) : Lock :=
  match packAt packs .feedLock with
  | none => Lock.initial
  | some (i, _) => ⟨.blocked, some ⟨i, (vget packs i).gen⟩, false, false, none⟩

/-- A curve found REWRITING becomes INVALID and empty (R36). -/
def Curve.afterReset (c : Curve) : Curve := if c.status = .rewriting then ⟨.invalid, []⟩ else c

/-- A supervision context after a hardware reset (R200). -/
def Supervision.afterReset (v : Supervision) : Supervision := Supervision.initial v.readback

def Outputs.afterReset (o : Outputs) : Outputs :=
  { contactors := vmap (·.afterReset) o.contactors, permit := o.permit.afterReset, upperGate := o.upperGate.afterReset,
    lowerGate := o.lowerGate.afterReset, purge := o.purge.afterReset, releases := vmap (·.afterReset) o.releases,
    lineFault := false }

/-- A detector after a hardware reset: NORMAL, then its line as a change from NORMAL (R139). -/
def Detector.afterReset (x : Detector) (dwell rearm : Nat) : Detector :=
  (Detector.mk x.zone x.kind .normal .normal none none none).onLine x.line dwell rearm

/-- The zones after a hardware reset, with the inventories delivered (R156). -/
def resetZones (zones : Vector Zone 8) (inv : Vector Nat 8) : Vector Zone 8 :=
  eight.foldl (fun v z => vset v z
    { (vget v z) with state := .normal, hold := false, timer := none, inventory := vget inv z }) zones

/-- The inventories recomputed from the records (R19). -/
def recomputed (packs : Vector Rec 256) : Vector Nat 8 :=
  eight.foldl (fun v z => vset v z (zoneSum packs z)) (Vector.replicate 8 0)

/-- Record a posting in its bank; at a reset every notice queue is empty, so no notice is placed (log entry 18). -/
def deposit (p : Posting) (s : State) : State :=
  let k := p.code.bank
  let b := s.banks.get k
  if !b.enabled p.code && p.severity != .uncontained then s
  else { s with banks := s.banks.put k (b.take (p.incident s.now)).1 }

/-- A pack found FEEDING at the lock marks its lot and posts FEED_UNCERTAIN, detail 2 (R130, R160). -/
def resetUncertain (old : Vector Rec 256) (s : State) : State :=
  match packAt old .feedLock with
  | some (i, p) =>
    if p.state = .feeding then
      deposit { code := .feedUncertain, severity := .contained, detail := 2, pack := some (s.handle i),
                lot := some p.lot, uncertain := true }
        (s.setLot p.lot ((s.lotAt p.lot).map fun l => { l with uncertain := true }))
    else s
  | none => s

/-- Retained memory as newly initialised, keeping what is read from the inputs (R172). -/
def forget (s : State) : State :=
  { State.initial with
    out := s.out
    fire := { Fire.initial with
      detectors := vmap (fun d : Detector => { Detector.initial with line := d.line }) s.fire.detectors }
    pending := s.pending }

/-- Every block rebuilt from retained memory as `s` holds it (R24, R76, R106, R130, R156, R196, R200, R202). -/
def rebuild (s : State) : State :=
  let packs := vmap (·.afterReset) s.packs
  let inv := recomputed packs
  { s with
    run := true
    clock := 0
    packs := packs
    inventories := inv
    cls := { s.cls with curves := vmap (·.afterReset) s.cls.curves }
    bays := eight.foldl (fun v n => vset v n (resetBay packs n (vget s.out.contactors n).readback)) s.bays
    atm := { Atmosphere.initial with limits := s.atm.limits }
    feed := { Feed.initial with queue := s.feed.queue, lock := resetLock packs, purgeTime := s.feed.purgeTime }
    fire := { s.fire with
      detectors := vmap (fun d => d.afterReset s.fire.dwell (s.fire.rearm * 1000)) s.fire.detectors
      zones := resetZones s.fire.zones inv }
    lot := { s.lot with switch := none }
    ports := ⟨PortCtx.initial s.ports.line.presenceTime, PortCtx.initial s.ports.fire.presenceTime,
      PortCtx.initial s.ports.custody.presenceTime⟩
    out := s.out.afterReset
    link := FieldLink.initial }

/-- What the banks and the Lot Table deliver before the permit's first evaluation, and the line fault output
(R109, R180, R181). -/
def firstDeliveries (s : State) : State :=
  relight { s with feed.inputs.uncontained := bankAnswer s.banks, feed.inputs.shredLotSet := s.lot.shredLot.isSome }

/-- RETENTION_LOST (R172). -/
def retentionLost : Posting := { code := .retentionLost, severity := .uncontained, detail := 0 }

/-- The reset of a part whose retained memory is intact: the epoch advances, the items keep their values. -/
def resetIntact (straps : Straps) (s : State) : State :=
  firstDeliveries (resetUncertain s.packs
    (rebuild { s with straps := straps, retentionFound := true, epoch := (s.epoch + 1) % 65536 }))

/-- The reset of a part whose retained memory is not intact. -/
def resetLost (straps : Straps) (s : State) : State :=
  firstDeliveries (deposit retentionLost (rebuild { forget s with straps := straps }))

/-- A hardware reset; memory is intact when it agrees with its check word (log entry 5). -/
def hardwareReset (straps : Straps) (agrees : Bool) (s : State) : State :=
  if s.checkAgrees && agrees then resetIntact straps s else resetLost straps s

/-- R203 speaks of a release of the reset input and of a return of the supply; a HARDWARE_RESET that finds the part running
is carried out whole as well (log entry 7: the model's choice). -/
def execHardwareReset (straps : Straps) (agrees : Bool) (s : State) : Outcome State Fault Refusal :=
  .next (hardwareReset straps agrees s)

/-! ### LINE_RESTART (R190) -/

/-- The occupant's part of a restart (R25). -/
def restartPack (i : Fin 256) (p : Pack) (s : State) : State :=
  match p.state with
  | .discharging | .resting => transition i { p with state := .loaded } s
  | .discharged => s.setPack i (some { p with recheck := true })
  | _ => s

/-- The bay as the restart sets it from its occupant (R77): recheck, sequence, sample, check and tally are kept. -/
def Bay.restarted (b : Bay) (p : Pack) : Bay :=
  { (b.cleared (bayStateOf p.state)).defaultSlots p.treatment with faultCause := none }

/-- One bay's restart (R77). -/
def restartBay (n : Fin 8) (s : State) : State :=
  match s.occupantPack n with
  | none => if (s.bay n).state = .faulted ∧ (s.bay n).faultCause ≠ some .outputMismatch then emptyBay n s else s
  | some (i, p) =>
    if (s.bay n).state = .faulted ∧ (s.bay n).faultCause = some .outputMismatch then
      s.setBay n ((s.bay n).defaultSlots p.treatment)
    else
      let s1 := stopLoad n (restartPack i p s)
      putBay n ((s1.bay n).restarted p) s1

/-- The lock's restart (R131). -/
def restartLock (s : State) : State :=
  if s.feed.lock.working then blockLock .feedUncertain (some 3) s
  else setLock { s.feed.lock with dropStarted := false, returning := false, purgeTimer := none } s

/-- The monitor's restart: its state is told, the permit not yet evaluated (R107, R190). -/
def restartMonitor (s : State) : State :=
  match s.atm.state with
  | .purging | .holding | .inert =>
    let s1 := setInert .vented s
    noticeInert { s1 with feed.inputs.inert := s1.atm.state }
  | _ => s

/-- Every block's restart rule, then one evaluation of the permit (R190). -/
def restartLine (s : State) : State :=
  evalPermit (endSwitch (restartMonitor (restartLock (eight.foldl (fun t n => restartBay n t) s))))

def lineRestartReply (target : Nat) (s : State) : Reply :=
  if target ≠ 0 then refuse .malformed s else reply (restartLine s) []

def execLineRestart (p : Port) (seq : Byte) (target g1 g2 : Nat) (s : State) : Outcome State Fault Refusal :=
  .next (serve p (Instr.lineRestart p seq target g1 g2).frame (guarded 67 target g1 g2 (lineRestartReply target)) s)

end Sys2Proof.Machine
end

