-- ==== Sys2Proof/Machine/StationEvents.lean ====
section
/-! DEFINITION. The events of the station links: STATION_FRAME_VALID, STATION_FRAME_DISCARD, STATION_LINE_IDLE_TIMEOUT,
STATION_PORT_HUNTS_AGAIN, PRESENCE_TIMER_EXPIRY (chapter 10). -/

namespace Sys2Proof.Machine

open Host (Outcome)

def execStationFrameValid (p : Port) (seq code : Byte) (body : List Byte) (s : State) : Outcome State Fault Refusal :=
  .next (whenRunning (receiveFrame p ⟨seq, code, body⟩) s)

/-- A discard (R185): an overrun needs a full list and restarts presence; bytes ignored until an idle line discard
nothing. -/
def takeDiscard (p : Port) (why : FrameFault) (s : State) : State :=
  if (s.port p).receiver = .ignoring then s
  else match why with
    | .overlong | .badCrc => discardFrame p s
    | .overrun =>
      if (s.port p).received.length < Config.receiveMax then s else discardFrame p (touchPort p s)

def execStationFrameDiscard (p : Port) (why : FrameFault) (s : State) : Outcome State Fault Refusal :=
  .next (whenRunning (takeDiscard p why) s)

/-- The line has fallen idle, so the port counts the frame and hunts again at once (R185). -/
def idleFrame (p : Port) (s : State) : State := if (s.port p).receiver = .ignoring then s else countError p s

def execStationLineIdleTimeout (p : Port) (s : State) : Outcome State Fault Refusal :=
  .next (whenRunning (idleFrame p) s)

def execStationPortHuntsAgain (p : Port) (s : State) : Outcome State Fault Refusal :=
  .next (whenRunning (fun s => s.setPort p { s.port p with receiver := .hunting }) s)

/-- The severity of STATION_ABSENT (R191). -/
def absentSeverity : Port → Severity
  | .fire => .contained
  | _ => .advisory

/-- The port becomes ABSENT (R191). -/
def becomeAbsent (p : Port) (s : State) : State :=
  let s1 := s.setPort p { s.port p with present := false, timer := none }
  let s2 := post { code := .stationAbsent, severity := absentSeverity p, detail := portNumber p } s1
  deliverPresence p (notify (otherPorts p) (.presence p false) s2)

/-- The presence timer has run out (R191). -/
def presenceDue (s : State) (p : Port) : Bool := (s.port p).present && (s.port p).timer == some 0

def execPresenceTimerExpiry (p : Port) (s : State) : Outcome State Fault Refusal :=
  .next (whenRunning (fun s => if presenceDue s p then becomeAbsent p s else s) s)

end Sys2Proof.Machine
end

