-- ==== Sys2Proof/Machine/Dispatch.lean ====
section
/-! DEFINITION. The meaning of every command, one arm per row of spec/opcode_table.json. -/

namespace Sys2Proof.Machine

/-- The effect of a command on everything but the queue. -/
def exec (i : Instr) (s : State) : Host.Outcome State Fault Refusal :=
  match i with
  | .hardwareReset straps agrees => Sys2Proof.Machine.execHardwareReset straps agrees s
  | .stationFrameValid p seq code body => Sys2Proof.Machine.execStationFrameValid p seq code body s
  | .stationFrameDiscard p why => Sys2Proof.Machine.execStationFrameDiscard p why s
  | .stationLineIdleTimeout p => Sys2Proof.Machine.execStationLineIdleTimeout p s
  | .presenceTimerExpiry p => Sys2Proof.Machine.execPresenceTimerExpiry p s
  | .readStatus p seq part => Sys2Proof.Machine.execReadStatus p seq part s
  | .readPack p seq index gen => Sys2Proof.Machine.execReadPack p seq index gen s
  | .listPacks p seq state lot => Sys2Proof.Machine.execListPacks p seq state lot s
  | .setCursor p seq index => Sys2Proof.Machine.execSetCursor p seq index s
  | .readBay p seq bay => Sys2Proof.Machine.execReadBay p seq bay s
  | .readZone p seq zone => Sys2Proof.Machine.execReadZone p seq zone s
  | .readLot p seq lot => Sys2Proof.Machine.execReadLot p seq lot s
  | .readBank p seq bank => Sys2Proof.Machine.execReadBank p seq bank s
  | .readConfig p seq item index => Sys2Proof.Machine.execReadConfig p seq item index s
  | .fetchNotices p seq => Sys2Proof.Machine.execFetchNotices p seq s
  | .setPresenceTime p seq seconds => Sys2Proof.Machine.execSetPresenceTime p seq seconds s
  | .clearBank p seq bank number => Sys2Proof.Machine.execClearBank p seq bank number s
  | .setReportEnables p seq bank enables => Sys2Proof.Machine.execSetReportEnables p seq bank enables s
  | .admitPack p seq tag lot typeCode damaged mass nominal cells => Sys2Proof.Machine.execAdmit p seq tag lot typeCode damaged mass nominal cells s
  | .withdraw p seq index gen => Sys2Proof.Machine.execWithdraw p seq index gen s
  | .openLot p seq number => Sys2Proof.Machine.execOpenLot p seq number s
  | .closeLot p seq lot => Sys2Proof.Machine.execCloseLot p seq lot s
  | .releaseLot p seq lot => Sys2Proof.Machine.execReleaseLot p seq lot s
  | .outputWeight p seq lot mass final => Sys2Proof.Machine.execOutputWeight p seq lot mass final s
  | .switchShredLot p seq lot => Sys2Proof.Machine.execSwitchShredLot p seq lot s
  | .cancelSwitch p seq => Sys2Proof.Machine.execCancelSwitch p seq s
  | .setRecoveryBounds p seq low high => Sys2Proof.Machine.execSetRecoveryBounds p seq low high s
  | .assign p seq index gen bay => Sys2Proof.Machine.execAssign p seq index gen bay s
  | .move p seq index gen dest => Sys2Proof.Machine.execMove p seq index gen dest s
  | .quarantine p seq index gen => Sys2Proof.Machine.execQuarantine p seq index gen s
  | .start p seq bay => Sys2Proof.Machine.execStart p seq bay s
  | .pause p seq bay => Sys2Proof.Machine.execPause p seq bay s
  | .resume p seq bay => Sys2Proof.Machine.execResume p seq bay s
  | .abort p seq bay => Sys2Proof.Machine.execAbort p seq bay s
  | .writeSlot p seq bay slot current stop segment => Sys2Proof.Machine.execWriteSlot p seq bay slot current stop segment s
  | .clearBay p seq bay => Sys2Proof.Machine.execClearBay p seq bay s
  | .enqueue p seq index gen => Sys2Proof.Machine.execEnqueue p seq index gen s
  | .remove p seq index gen dest => Sys2Proof.Machine.execRemove p seq index gen dest s
  | .feed p seq index gen => Sys2Proof.Machine.execFeed p seq index gen s
  | .lockClosed p seq => Sys2Proof.Machine.execLockClosed p seq s
  | .returnPack p seq index gen => Sys2Proof.Machine.execReturnPack p seq index gen s
  | .dropDone p seq index gen => Sys2Proof.Machine.execDropDone p seq index gen s
  | .lockEmptied p seq => Sys2Proof.Machine.execLockEmptied p seq s
  | .chamberClear p seq => Sys2Proof.Machine.execChamberClear p seq s
  | .inertStart p seq => Sys2Proof.Machine.execInertStart p seq s
  | .inertStop p seq => Sys2Proof.Machine.execInertStop p seq s
  | .writeFeed p seq seconds => Sys2Proof.Machine.execWriteFeed p seq seconds s
  | .writeTreatment p seq index fields => Sys2Proof.Machine.execWriteTreatment p seq index fields s
  | .writeRange p seq index low high treatment enabled => Sys2Proof.Machine.execWriteRange p seq index low high treatment enabled s
  | .writeSlotMap p seq family treatment enabled => Sys2Proof.Machine.execWriteSlotMap p seq family treatment enabled s
  | .setMap p seq enable treatment => Sys2Proof.Machine.execSetMap p seq enable treatment s
  | .curveBegin p seq curve => Sys2Proof.Machine.execCurveBegin p seq curve s
  | .curvePoint p seq curve voltage fraction => Sys2Proof.Machine.execCurvePoint p seq curve voltage fraction s
  | .curveEnd p seq curve => Sys2Proof.Machine.execCurveEnd p seq curve s
  | .lineRestart p seq target guard1 guard2 => Sys2Proof.Machine.execLineRestart p seq target guard1 guard2 s
  | .writeDetector p seq detector zone kind => Sys2Proof.Machine.execWriteDetector p seq detector zone kind s
  | .writeFireTimes p seq dwell rearm => Sys2Proof.Machine.execWriteFireTimes p seq dwell rearm s
  | .writeZone p seq zone threshold delay => Sys2Proof.Machine.execWriteZone p seq zone threshold delay s
  | .hold p seq zone => Sys2Proof.Machine.execHold p seq zone s
  | .holdEnd p seq zone => Sys2Proof.Machine.execHoldEnd p seq zone s
  | .release p seq target guard1 guard2 => Sys2Proof.Machine.execRelease p seq target guard1 guard2 s
  | .zoneReset p seq target guard1 guard2 => Sys2Proof.Machine.execZoneReset p seq target guard1 guard2 s
  | .isolateZone p seq zone => Sys2Proof.Machine.execIsolateZone p seq zone s
  | .restoreZone p seq zone => Sys2Proof.Machine.execRestoreZone p seq zone s
  | .inertReset p seq target guard1 guard2 => Sys2Proof.Machine.execInertReset p seq target guard1 guard2 s
  | .writeInertLimits p seq purge run trip hold maxPurge => Sys2Proof.Machine.execWriteInertLimits p seq purge run trip hold maxPurge s
  | .baySample address sequence voltage current temperature interval => Sys2Proof.Machine.execBaySample address sequence voltage current temperature interval s
  | .analyzerReading address oxygen status => Sys2Proof.Machine.execAnalyzerReading address oxygen status s
  | .fieldFrameDiscard why => Sys2Proof.Machine.execFieldFrameDiscard why s
  | .loadSetTransmit => Sys2Proof.Machine.execLoadSetTransmit s
  | .loadSetRefreshExpiry bay => Sys2Proof.Machine.execLoadSetRefreshExpiry bay s
  | .segmentTimerExpiry bay => Sys2Proof.Machine.execSegmentTimerExpiry bay s
  | .sampleLoss bay => Sys2Proof.Machine.execSampleLoss bay s
  | .overCurrentReferenceDrop bay => Sys2Proof.Machine.execOverCurrentReferenceDrop bay s
  | .restTimerExpiry bay => Sys2Proof.Machine.execRestTimerExpiry bay s
  | .analyzerAgeExpiry analyzer => Sys2Proof.Machine.execAnalyzerAgeExpiry analyzer s
  | .purgeTimeout => Sys2Proof.Machine.execPurgeTimeout s
  | .holdTimerExpiry => Sys2Proof.Machine.execHoldTimerExpiry s
  | .lockPurgeTimerExpiry => Sys2Proof.Machine.execLockPurgeTimerExpiry s
  | .detectorLineChange detector line => Sys2Proof.Machine.execDetectorLineChange detector line s
  | .detectorDwellExpiry detector => Sys2Proof.Machine.execDetectorDwellExpiry detector s
  | .faultDwellExpiry detector => Sys2Proof.Machine.execFaultDwellExpiry detector s
  | .rearmExpiry detector => Sys2Proof.Machine.execRearmExpiry detector s
  | .recoveryTimerExpiry detector => Sys2Proof.Machine.execRecoveryTimerExpiry detector s
  | .releaseTimerExpiry zone => Sys2Proof.Machine.execReleaseTimerExpiry zone s
  | .readbackChange output level => Sys2Proof.Machine.execReadbackChange output level s
  | .readbackWindowExpiry output => Sys2Proof.Machine.execReadbackWindowExpiry output s
  | .disagreementTimerExpiry output => Sys2Proof.Machine.execDisagreementTimerExpiry output s
  | .mainSupplyLoss cause => Sys2Proof.Machine.execMainSupplyLoss cause s
  | .stationPortHuntsAgain p => Sys2Proof.Machine.execStationPortHuntsAgain p s
  | .fieldLinkHuntsAgain => Sys2Proof.Machine.execFieldLinkHuntsAgain s

end Sys2Proof.Machine
end

