-- ==== Sys2Proof/Machine/Tick.lean ====
section
/-! DEFINITION. What passes by itself in one millisecond with no command waiting: the clock and the timers, the expiries
that come due, the frames the ports take, the transmitter (log entries 2 and 3). -/

namespace Sys2Proof.Machine

/-! ### One millisecond of every timer -/

/-- A running timer with one millisecond less; a stopped one stays stopped. -/
def countDown (t : Option Nat) : Option Nat := t.map (· - 1)

def PortCtx.tick (c : PortCtx) : PortCtx := { c with timer := countDown c.timer }

/-- The rest timer, and segment elapsed while DISCHARGING (R55, R62). -/
def Bay.tick (b : Bay) : Bay :=
  { b with rest := countDown b.rest
           elapsed := if b.state = .discharging then min (b.elapsed + 1) Config.elapsedMax else b.elapsed }

/-- The purge clock and the hold timer (R98, R99). -/
def Atmosphere.tick (a : Atmosphere) : Atmosphere :=
  { a with purgeClock := a.purgeClock.map (· + 1), holdTimer := countDown a.holdTimer }

def Detector.tick (d : Detector) : Detector := { d with timer := countDown d.timer }

/-- The release timer counts down unless a hold halts it (R144). -/
def Zone.tick (q : Zone) : Zone := if q.hold then q else { q with timer := countDown q.timer }

def Supervision.tick (v : Supervision) : Supervision :=
  { v with window := countDown v.window, disagree := countDown v.disagree }

def Outputs.tick (o : Outputs) : Outputs :=
  { o with contactors := vmap (·.tick) o.contactors, permit := o.permit.tick, upperGate := o.upperGate.tick,
           lowerGate := o.lowerGate.tick, purge := o.purge.tick, releases := vmap (·.tick) o.releases }

/-- The clock and every timer, one millisecond on. -/
def advance (s : State) : State :=
  { s with
    clock := s.clock + 1
    bays := vmap (·.tick) s.bays
    atm := s.atm.tick
    feed := { s.feed with lock := { s.feed.lock with purgeTimer := countDown s.feed.lock.purgeTimer } }
    fire := { s.fire with detectors := vmap (·.tick) s.fire.detectors, zones := vmap (·.tick) s.fire.zones }
    ports := ⟨s.ports.line.tick, s.ports.fire.tick, s.ports.custody.tick⟩
    out := s.out.tick
    link := { s.link with refresh := vmap countDown s.link.refresh } }

/-! ### The expiries that are due -/

/-- PURGE_TIMEOUT is due (R98). -/
def purgeDue (s : State) : Bool :=
  !s.atm.timeoutReported && s.atm.purgeClock.any fun ms => decide (s.atm.limits.maxPurge * 1000 ≤ ms)

/-- The commands of a bay's timers that are due. -/
def bayDue (s : State) (n : Fin 8) : List Instr :=
  (if segmentDue s n then [.segmentTimerExpiry n] else []) ++ (if lossDue s n then [.sampleLoss n] else []) ++
    (if referenceDue s n then [.overCurrentReferenceDrop n] else []) ++
    (if restDue s n then [.restTimerExpiry n] else []) ++
    (if vget s.link.refresh n = some 0 then [.loadSetRefreshExpiry n] else [])

def detectorDueList (s : State) (d : Fin 24) : List Instr :=
  (if detectorDue s d .confirming then [.detectorDwellExpiry d] else []) ++
    (if detectorDue s d .confirmingFault then [.faultDwellExpiry d] else []) ++
    (if detectorDue s d .rearming then [.rearmExpiry d] else []) ++
    (if detectorDue s d .faulted then [.recoveryTimerExpiry d] else [])

def outputDue (s : State) (o : Output) : List Instr :=
  (if (s.sup o).window = some 0 then [.readbackWindowExpiry o] else []) ++
    (if (s.sup o).disagree = some 0 then [.disagreementTimerExpiry o] else [])

/-- The request at the head of a port's receive list (R186). -/
def headRequest (s : State) (p : Port) : List Instr :=
  match (s.port p).received with
  | [] => []
  | f :: _ => (decodeRequest p f).toList

/-- Every command that happens by itself now. -/
def dueCommands (s : State) : List Instr :=
  (allPorts.flatMap fun p => if presenceDue s p then [Instr.presenceTimerExpiry p] else []) ++
    eight.flatMap (bayDue s) ++
    ([AnalyzerId.a, .b].flatMap fun k => if ageDue s k then [Instr.analyzerAgeExpiry k] else []) ++
    (if purgeDue s then [.purgeTimeout] else []) ++
    (if s.atm.state = .holding ∧ s.atm.holdTimer = some 0 then [.holdTimerExpiry] else []) ++
    (if lockPurgeDue s then [.lockPurgeTimerExpiry] else []) ++
    allDetectors.flatMap (detectorDueList s) ++
    (eight.flatMap fun z => if releaseDue s z then [Instr.releaseTimerExpiry z] else []) ++
    allOutputs.flatMap (outputDue s) ++
    allPorts.flatMap (headRequest s) ++
    (if s.link.waiting.isEmpty then [] else [.loadSetTransmit])

/-- Put `x` at place `k` of a list. -/
def insertAt (k : Nat) (x : Instr) (l : List Instr) : List Instr := l.take k ++ x :: l.drop k

/-- The due commands in an order that nothing constrains: each is placed by the free value (log entry 3). -/
def arrange (clock : Nat) : List Instr → List Instr
  | [] => []
  | x :: xs => xs.foldl (fun l y => insertAt (Config.expiryPlace clock l.length % (l.length + 1)) y l) [x]

/-! ### Frames that no request is -/

/-- The answer to a frame that no row stands for: MALFORMED for an unknown code, DENIED for a port that may not issue
the code, MALFORMED for a body of another length (R186, log entry 15). -/
def unreadReply (p : Port) (f : Frame) (s : State) : Reply :=
  if (rolesOf f.code.toNat).isSome && !mayIssue p f.code.toNat then refuse .denied s else refuse .malformed s

/-- A port answers the frame at the head of its list itself where the frame is no request. -/
def answerUnread (p : Port) (s : State) : State :=
  match (s.port p).received with
  | [] => s
  | f :: rest =>
    match decodeRequest p f with
    | some _ => s
    | none => respond p f (unreadReply p f (touchPort p (s.setPort p { s.port p with received := rest })))

/-- One millisecond of the running part on an empty queue; a stopped part's time does not pass. -/
def tick (s : State) : State :=
  if s.run then
    let s1 := allPorts.foldl (fun t p => answerUnread p t) (advance s)
    { s1 with pending := arrange s1.clock (dueCommands s1) }
  else s

end Sys2Proof.Machine
end

