-- ==== Sys2Proof/Safety.lean ====
section
/-! DEFINITION. The laws the manual says the part keeps, and the words the statements about single commands are made of:
when a port takes a request at once, what a response adds, and what a command leaves alone. -/

namespace Sys2Proof.Machine

/-! ### Words of the statements -/

/-- The running part takes a request command of port `p` at once: its receive list is empty and it hunts. -/
def Ready (p : Port) (s : State) : Prop :=
  s.run = true ∧ (s.port p).received = [] ∧ (s.port p).receiver = .hunting

/-- `u` with the response to request `i` as the one last produced on port `p`. -/
def answered (p : Port) (i : Instr) (r : Result) (body : List Byte) (u : State) : State :=
  u.setPort p { u.port p with response := some ⟨i.frame.seq, i.frame.code, r, body⟩ }

/-- The response last produced on port `p` answers request `i` with `r` and `body`. -/
def Answers (p : Port) (i : Instr) (r : Result) (body : List Byte) (t : State) : Prop :=
  (t.port p).response = some ⟨i.frame.seq, i.frame.code, r, body⟩

/-- Nothing of a port changes but its notice queue, its overflowed marker and its last response. -/
def PortsQuiet (u t : State) : Prop :=
  ∀ p, t.port p = { u.port p with notices := (t.port p).notices, overflowed := (t.port p).overflowed,
                                  response := (t.port p).response }

/-- No bay context but that of `n` changes. -/
def OnlyBay (n : Fin 8) (u t : State) : Prop := ∀ m, m ≠ n → t.bay m = u.bay m

/-- No supervised output but those listed changes. -/
def OnlyOutputs (os : List Output) (u t : State) : Prop := ∀ o, o ∉ os → t.sup o = u.sup o

/-- No record but `i` changes, and its generation neither. -/
def OnlyRecord (i : Fin 256) (u t : State) : Prop :=
  (∀ j, j ≠ i → t.record j = u.record j) ∧ (t.record i).gen = (u.record i).gen

/-- No zone context but that of `z` changes. -/
def OnlyZone (z : Fin 8) (u t : State) : Prop := ∀ y, y ≠ z → t.zone y = u.zone y

/-- No detector but `d` changes. -/
def OnlyDetector (d : Fin 24) (u t : State) : Prop := ∀ e, e ≠ d → t.detector e = u.detector e

/-- The Feed Controller knows the banks' answer, and the line fault output shows the banks (R180, R181). -/
def Told (s : State) : Prop :=
  s.feed.inputs.uncontained = bankAnswer s.banks ∧ s.out.lineFault = lineFaultLevel s.banks

/-- The bank, code, severity and detail of a mismatch on an output that is commanded `on` (R75, R105, R110, R128,
R149). -/
def mismatchRow : Output → Bool → BankId × Code × Severity × Nat
  | .contactor _, false => (.discharge, .contactorMismatch, .uncontained, 1)
  | .contactor _, true => (.discharge, .contactorMismatch, .contained, 2)
  | .permit, false => (.feed, .permitOutputMismatch, .uncontained, 1)
  | .permit, true => (.feed, .permitOutputMismatch, .uncontained, 2)
  | .upperGate, false => (.feed, .gateMismatch, .uncontained, 1)
  | .upperGate, true => (.feed, .gateMismatch, .uncontained, 2)
  | .lowerGate, false => (.feed, .gateMismatch, .uncontained, 3)
  | .lowerGate, true => (.feed, .gateMismatch, .uncontained, 4)
  | .purge, false => (.atmosphere, .purgeOutputMismatch, .contained, 1)
  | .purge, true => (.atmosphere, .purgeOutputMismatch, .contained, 2)
  | .release _, false => (.fire, .releaseOutputMismatch, .uncontained, 1)
  | .release _, true => (.fire, .releaseOutputMismatch, .uncontained, 2)

/-- The inventories count pack `x` where it lies, as the law of R19 gives. -/
def Counted (x : Pack) (u : State) : Prop := ∀ z, x.zone = some z → x.standing ≤ vget u.inventories z

/-- A zone in ALARM stays there at its present inventory: the fire port is PRESENT and the threshold is not reached
(R143). -/
def Settled (z : Fin 8) (u : State) : Prop :=
  (u.zone z).state = .alarm → u.ports.fire.present = true ∧ vget u.inventories z < (u.zone z).threshold

/-- `wh` leave the inventory of `src` and join that of `dst`, and both new values reach the Fire Zone Controller; nothing
else of it changes (R19). -/
def EnergyMoved (src dst : Option (Fin 8)) (wh : Nat) (u t : State) : Prop :=
  t.inventories = creditZone dst wh (debitZone src wh u.inventories) ∧
  t.fire = { u.fire with zones := t.fire.zones } ∧
  ∀ z, t.zone z = { u.zone z with
    inventory := if src = some z ∨ dst = some z then vget t.inventories z else (u.zone z).inventory }

/-- A bay whose load is stopped: setpoint and over-current reference 0, and where its contactor was commanded on,
contactor confirmed open from the read-back (R47, R61). -/
def Bay.unloaded (b : Bay) (v : Supervision) : Bay :=
  { b with setpoint := 0, overRef := 0, overEnd := none
           confirmedOpen := if v.command then !v.readback else b.confirmedOpen }

/-- A bay under load at its active slot's current (R47, R58). -/
def Bay.loadedAt (b : Bay) (ma : Nat) : Bay := { b with setpoint := ma, overRef := ma, overEnd := none }

/-- The outputs after bay `n`'s contactor is commanded `on`. -/
def Outputs.contactorTo (o : Outputs) (n : Fin 8) (on : Bool) : Outputs :=
  { o with contactors := vset o.contactors n ((vget o.contactors n).setCommand on) }

/-- The field link after bay `n`'s setpoint goes from `old` to `ma`: a change puts a LOAD_SET into the list (R90). -/
def FieldLink.setpointTo (k : FieldLink) (n : Fin 8) (old ma : Nat) : FieldLink :=
  if old = ma then k else { k with waiting := queueSetpoint k.waiting ⟨n, ma⟩ }

/-- An emptied bay (R51). -/
def Bay.emptied (b : Bay) : Bay :=
  { b with state := .empty, occupant := none, recheck := false, slotA := { b.slotA with valid := false },
           slotB := { b.slotB with valid := false }, pending := false, deferred := false, pauseCause := none,
           faultCause := none, lastSeq := none, lastSample := none, lastCheck := none }

/-- The bays after a pack leaves location `l` (R51). -/
def baysLeft (l : Loc) (bays : Vector Bay 8) : Vector Bay 8 :=
  match l with
  | .bay m => vset bays m (vget bays m).emptied
  | _ => bays

/-- A pack that stood at `x` takes bay `n`: record, bays, inventories, contactor and LOAD_SET (R50, R8, R202); `q` is the
queue it leaves behind. -/
def TakesBay (h : Handle) (x : Pack) (n : Fin 8) (recheck : Bool) (q : List Handle) (u t : State) : Prop :=
  t = { u with
    packs := vset u.packs h.index ⟨(u.record h.index).gen, some { x with state := .loaded, loc := .bay n }⟩
    inventories := t.inventories
    bays := vset (baysLeft x.loc u.bays) n
      { Bay.initial with
        state := .loaded, occupant := some h, recheck := recheck
        slotA := ⟨x.treatment.current, x.treatment.stop, x.treatment.segment, true⟩
        confirmedOpen := !(u.sup (.contactor n)).readback }
    feed := { u.feed with queue := q }
    fire := t.fire
    out := u.out.contactorTo n false
    link := { u.link with waiting := queueSetpoint u.link.waiting ⟨n, 0⟩ }
    ports := t.ports } ∧
  EnergyMoved x.zone (some (bayZone n)) x.standing u t ∧ PortsQuiet u t

/-- The queues of every port after the notices listed, each for the ports it names, in the order of the list (R193). -/
def Queued (ns : List (List Port × NoticeBody)) (u t : State) : Prop :=
  ∀ r,
    let c := ns.foldl (fun c n => if r ∈ n.1 then c.enqueue ⟨n.2, u.now⟩ else c) (u.port r)
    (t.port r).notices = c.notices ∧ (t.port r).overflowed = c.overflowed

/-- Bank `k` after the postings listed, in the order of the list; one whose enable is off is taken only when it is
UNCONTAINED (R176). -/
def Posted (k : BankId) (ps : List Posting) (u t : State) : Prop :=
  t.banks.get k = ps.foldl (fun b p =>
    if b.enabled p.code = true ∨ p.severity = .uncontained then (b.take (p.incident u.now)).1 else b) (u.banks.get k)

/-- FEED_UNCERTAIN for pack `x` under handle `h` (R160). -/
def uncertainty (detail : Nat) (h : Handle) (x : Pack) : Posting :=
  { code := .feedUncertain, severity := .contained, detail := detail, pack := some h, lot := some x.lot
    uncertain := true }

/-- Lot `j`, its record at `l`, the shred lot and the switch record as given, has been tested for closing: it closes exactly
where it is DRAINING, its records are terminal and its output, if it shredded anything, is final; then with the balance of
R163, out of the shred lot and of a switch to it (R162, R163, R166, R170). -/
def LotTested (j : Fin 8) (l : Lot) (shred : Option (Fin 8)) (sw : Option Switch) (u t : State) : Prop :=
  let done := l.state = .draining ∧ (∀ i x, (t.record i).pack = some x → x.lot = j → x.state.terminal = true) ∧
    (0 < l.shredded → l.final = true)
  let b := lotBalance l u.lot.boundLow u.lot.boundHigh
  (¬done →
    t.lot = { u.lot with lots := vset u.lot.lots j (some l), shredLot := shred, switch := sw } ∧
    t.banks.records = u.banks.records) ∧
  (done →
    t.lot = { u.lot with
      lots := vset u.lot.lots j
        (some { l with state := .closed, closedAt := some u.now, balance := some b.1, recovery := b.2 })
      shredLot := if shred = some j then none else shred
      switch := sw.filter (fun w => w.target != j) } ∧
    (b.1 ≠ .exception → t.banks.records = u.banks.records) ∧
    (b.1 = .exception → Posted .records
      [{ code := .balanceException, severity := .contained, detail := min (b.2.getD 0) 65535, lot := some j }] u t)) ∧
  (u.feed.inputs.shredLotSet = u.lot.shredLot.isSome →
    t.feed.inputs = { u.feed.inputs with shredLotSet := t.lot.shredLot.isSome })

/-- Bay `n` has faulted by cause `f` on pack `x` of record `i`, which becomes `y`: the load stops, the bay's work is cleared
(R47, R70). -/
def BayFaulted (n : Fin 8) (f : FaultCause) (i : Fin 256) (y : Pack) (u t : State) : Prop :=
  t.packs = vset u.packs i ⟨(u.record i).gen, some y⟩ ∧
  t.bays = vset u.bays n { (u.bay n).unloaded (u.sup (.contactor n)) with
    state := .faulted, elapsed := 0, rest := none, deferred := false, pauseCause := none, faultCause := some f } ∧
  (t.sup (.contactor n)).command = false ∧ t.link = u.link.setpointTo n (u.bay n).setpoint 0

/-- The residual check of pack `x` of record `i` in bay `n` has run with result `k`: a pass, a failure with a retry left, a
failure with none (R44, R64, R65, R66). -/
def Checked (n : Fin 8) (i : Fin 256) (x : Pack) (k : Check) (u t : State) : Prop :=
  let b : Bay := { u.bay n with lastCheck := some k, deferred := false, recheck := false }
  let y : Pack := { x with residual := some k.residual, basis := k.residual, removedSince := 0 }
  let becomes := fun (pack : Pack) (bay : Bay) => t.record i = ⟨(u.record i).gen, some pack⟩ ∧ t.bay n = bay
  (k.pass = true →
    becomes { y with state := .discharged, dischargedAt := some u.now, recheck := false } { b with state := .done } ∧
    t.sup (.contactor n) = u.sup (.contactor n)) ∧
  (k.pass = false → x.retries < x.treatment.retries →
    (u.ports.line.present = true →
      becomes { y with state := .discharging, retries := x.retries + 1 }
        { b.loadedAt b.activeSlot.current with state := .discharging, elapsed := 0, pauseCause := none } ∧
      t.sup (.contactor n) = (u.sup (.contactor n)).setCommand true) ∧
    (u.ports.line.present = false →
      becomes { y with state := .discharging, retries := x.retries + 1 }
        { b with state := .paused, pauseCause := some .link, elapsed := 0 } ∧
      t.sup (.contactor n) = u.sup (.contactor n))) ∧
  (k.pass = false → x.treatment.retries ≤ x.retries →
    becomes { y with state := .quarantined, cause := some .reboundLimit } { b with state := .done } ∧
    t.sup (.contactor n) = u.sup (.contactor n))

/-- The outputs of the Feed Controller and the line fault output may change, no other. -/
def OnlyFeedOutputs (u t : State) : Prop :=
  t.out = { u.out with permit := t.out.permit, upperGate := t.out.upperGate, lowerGate := t.out.lowerGate,
                       lineFault := t.out.lineFault }

/-- What a change of one of the permit's inputs may reach: the Feed Controller but for its queue and purge time, the FEED
bank, the Feed Controller's outputs, the line fault output, and notices. -/
def PermitFrame (u t : State) : Prop :=
  t.feed = { u.feed with permit := t.feed.permit, inputs := t.feed.inputs, lock := t.feed.lock } ∧
  t.banks = { u.banks with feed := t.banks.feed } ∧ OnlyFeedOutputs u t ∧ PortsQuiet u t

/-- The Atmosphere Monitor at its entry to an inert state (R98, R99). -/
def Atmosphere.entered (a : Atmosphere) (st : InertState) : Atmosphere :=
  { a with
    state := st
    purgeClock := if st = .purging then some 0 else none
    timeoutReported := if st = .purging then false else a.timeoutReported
    holdTimer := if st = .holding then some (a.limits.hold * 1000) else none }

/-- What an event at the Atmosphere Monitor may reach: its context, its bank, the purge request, and what a change of the
permit's inputs may reach; the Feed Controller holds the new inert state (R97, R105). -/
def InertFrame (u t : State) : Prop :=
  t = { u with atm := t.atm, feed := t.feed, banks := t.banks, out := t.out, ports := t.ports } ∧
  t.feed = { u.feed with permit := t.feed.permit, inputs := t.feed.inputs, lock := t.feed.lock } ∧
  t.banks = { u.banks with feed := t.banks.feed, atmosphere := t.banks.atmosphere } ∧
  t.out = { u.out with permit := t.out.permit, upperGate := t.out.upperGate, lowerGate := t.out.lowerGate,
                       purge := t.out.purge, lineFault := t.out.lineFault } ∧
  PortsQuiet u t

/-- What a zone in ALARM becomes at an evaluation for release, from its context `q` (R143). -/
def ReleaseJudged (q : Zone) (present : Bool) (q' : Zone) : Prop :=
  (present = true → q.inventory < q.threshold → q' = { q with state := .alarm }) ∧
  (present = false ∨ q.threshold ≤ q.inventory →
    (0 < q.delay → q' = { q with state := .releasePending, hold := false, timer := some (q.delay * 1000) }) ∧
    (q.delay = 0 → q' = { q with state := .released, hold := false, timer := none }))

/-- What an evaluation makes of zone `z`, against the detectors as `u` holds them; an alarm reaches the FIRE bank and the
Feed Controller (R141, R142, R143). -/
def Judged (z : Fin 8) (u t : State) : Prop :=
  let q := u.zone z
  let ds := zoneDetectors u z
  (q.state ≠ .normal → q.state ≠ .preAlarm → t.zone z = q) ∧
  (q.state = .normal ∨ q.state = .preAlarm →
    (alarmPart ds = none →
      (q.state = .normal → t.zone z = { q with state := if 1 ≤ activeCount ds then .preAlarm else .normal }) ∧
      (q.state = .preAlarm → t.zone z = { q with state := if allQuiet ds then .normal else .preAlarm })) ∧
    (alarmPart ds ≠ none → ReleaseJudged q u.ports.fire.present (t.zone z) ∧
      t.banks.fire.uncontained = true ∧ t.feed.inputs.uncontained = true))

/-- What an event at the Fire Zone Controller may reach: zones and detectors, what R154 delivers to, the banks, the outputs
and notices; the queue, the lots but for custody marks, the configuration of the other blocks and the clock stay. -/
def ZoneFrame (u t : State) : Prop :=
  t = { u with
    packs := t.packs, inventories := t.inventories, bays := t.bays
    atm := { u.atm with z7Released := t.atm.z7Released }
    feed := { u.feed with permit := t.feed.permit, inputs := t.feed.inputs, lock := t.feed.lock }
    fire := { u.fire with detectors := t.fire.detectors, zones := t.fire.zones }
    lot := { u.lot with lots := t.lot.lots }
    banks := t.banks, out := t.out, link := t.link, ports := t.ports } ∧
  t.banks.links = u.banks.links ∧ t.banks.atmosphere = u.banks.atmosphere ∧ t.banks.discharge = u.banks.discharge ∧
  PortsQuiet u t

/-- Zone `z` has entered RELEASED with incident detail `detail` (R127, R148, R73). -/
def EntersReleased (z : Fin 8) (detail : Nat) (u t : State) : Prop :=
  let q := u.zone z
  t.zone z = { q with state := .released, hold := false, timer := none } ∧ OnlyZone z u t ∧
  t.fire.detectors = u.fire.detectors ∧ t.sup (.release z) = (u.sup (.release z)).setCommand true ∧
  (∀ y, y ≠ z → t.sup (.release y) = u.sup (.release y)) ∧
  t.banks.fire =
    (u.banks.fire.take ⟨.uncontained, .zoneReleased, detail, none, some (z.1 + 1), none, false, u.now⟩).1 ∧
  (∀ n, bayZone n = z → (u.bay n).occupant ≠ none → q.state.alarmed = false → (t.bay n).state = .faulted) ∧
  (∀ n, bayZone n ≠ z ∨ q.state.alarmed = true → t.bay n = u.bay n) ∧
  (z = 6 → t.atm.z7Released = true ∧ t.out.purge = u.out.purge.setCommand true ∧
    (u.feed.lock.state = .empty ∨ u.feed.lock.state = .blocked → t.feed.lock = u.feed.lock) ∧
    (∀ h, u.feed.lock.occupant = some h → u.feed.lock.state ≠ .empty → u.feed.lock.state ≠ .blocked →
      t.feed.lock = ⟨.blocked, some h, false, false, none⟩)) ∧
  (z ≠ 6 → t.atm = u.atm ∧ t.out.purge = u.out.purge) ∧ ZoneFrame u t

/-- Treatment `a` is chosen before `b` (R34). -/
def ChosenBefore (ts : Vector Treatment 8) (a b : Fin 8) : Prop :=
  let x := vget ts a
  let y := vget ts b
  (x.refuse = true ∧ y.refuse = false) ∨
    (x.refuse = y.refuse ∧ (x.limit < y.limit ∨ (x.limit = y.limit ∧ (x.cap < y.cap ∨ (x.cap = y.cap ∧ a < b)))))

/-! ### Laws of the outputs -/

/-- The Feed Controller's copies are what the owners hold (R108). -/
def InputsTold (s : State) : Prop :=
  s.feed.inputs = ⟨s.atm.state, (s.zone 5).state, (s.zone 6).state, s.ports.fire.present, bankAnswer s.banks,
    s.lot.shredLot.isSome⟩

/-- The permit is on exactly under its condition, and its output is commanded so; the gates follow the lock, and a lock
that moves toward the shredder does so only under the permit (R108, R109, R117, R122). -/
def PermitLaw (s : State) : Prop :=
  s.run = true →
    InputsTold s ∧ s.feed.permit = permitHolds s.feed.inputs ∧ s.out.permit.command = s.feed.permit ∧
    s.out.upperGate.command = (s.feed.lock.state == .loading) ∧
    s.out.lowerGate.command = (s.feed.lock.state == .dropping) ∧
    (s.feed.lock.movesByPermit = true → s.feed.permit = true)

/-- A bay's contactor is commanded on exactly while it is DISCHARGING, and its setpoint is then its active slot's current
and 0 otherwise (R47). -/
def ContactorLaw (s : State) : Prop :=
  s.run = true → ∀ n,
    (s.sup (.contactor n)).command = ((s.bay n).state == .discharging) ∧
    (s.bay n).setpoint = (if (s.bay n).state = .discharging then (s.bay n).activeSlot.current else 0)

/-- A zone's release output is on exactly while the zone is RELEASED, and the purge request as R105 gives it (R105,
R148). -/
def ReleaseLaw (s : State) : Prop :=
  s.run = true →
    (∀ z, (s.sup (.release z)).command = ((s.zone z).state == .released)) ∧
    s.atm.z7Released = ((s.zone 6).state == .released) ∧
    s.out.purge.command = (s.atm.state != .vented || s.atm.z7Released)

/-- The line fault output is on exactly while a bank holds a CONTAINED or UNCONTAINED incident (R181). -/
def LineFaultLaw (s : State) : Prop := s.run = true → s.out.lineFault = lineFaultLevel s.banks

/-! ### Bounds -/

/-- The queues and lists of the links are within their places: 16 notices, 4 received frames, one waiting LOAD_SET for a
bay; the error counts saturate (R185, R193, R202). -/
def LinksBounded (s : State) : Prop :=
  (∀ p, (s.port p).notices.length ≤ 16 ∧ (s.port p).received.length ≤ 4 ∧ (s.port p).errors ≤ 65535) ∧
    (s.link.waiting.map (·.bay)).Nodup

/-- At most one curve is REWRITING (R37). -/
def CurveLaw (s : State) : Prop :=
  ∀ j k, (vget s.cls.curves j).status = .rewriting → (vget s.cls.curves k).status = .rewriting → j = k

/-! ### Laws of the register -/

/-- A pack's state and its location agree, as the transition table gives them. -/
def Pack.placed (p : Pack) : Bool :=
  match p.state, p.loc with
  | .received, .intake => true
  | .loaded, .bay _ | .discharging, .bay _ | .resting, .bay _ | .discharged, .bay _ => true
  | .queued, .buffer => true
  | .feeding, .feedLock => true
  | .shredded, .shredder => true
  | .withdrawn, .out => true
  | .quarantined, .intake | .quarantined, .bay _ | .quarantined, .buffer | .quarantined, .feedLock
  | .quarantined, .quarantine => true
  | _, _ => false

/-- Each zone inventory is the sum of the standing energy of the packs located in that zone (R19). -/
def InventoryLaw (s : State) : Prop := ∀ z, vget s.inventories z = zoneSum s.packs z

/-- A pack has a bay location exactly when it is that bay's occupant (R4). -/
def BayLaw (s : State) : Prop :=
  ∀ n,
    ((s.bay n).state = .empty → (s.bay n).occupant = none) ∧
    (∀ h, (s.bay n).occupant = some h → ∃ p, s.lookup h = some p ∧ p.loc = .bay n) ∧
    (∀ i p, (s.record i).pack = some p → p.loc = .bay n → (s.bay n).occupant = some (s.handle i))

/-- A pack has location FEED_LOCK exactly when it is the lock's occupant, and the lock has an occupant exactly when it is
not EMPTY: a QUARANTINED one where it is BLOCKED, a FEEDING one in every other state (R117). -/
def LockLaw (s : State) : Prop :=
  (s.feed.lock.occupant = none ↔ s.feed.lock.state = .empty) ∧
  (∀ h, s.feed.lock.occupant = some h → ∃ p, s.lookup h = some p ∧ p.loc = .feedLock ∧
    p.state = if s.feed.lock.state = .blocked then .quarantined else .feeding) ∧
  (∀ i p, (s.record i).pack = some p → p.loc = .feedLock → s.feed.lock.occupant = some (s.handle i))

/-- Every record of a CLOSED lot is terminal (R16, R162). -/
def ClosedLaw (s : State) : Prop :=
  ∀ i p l, (s.record i).pack = some p → s.lotAt p.lot = some l → l.state = .closed → p.state.terminal = true

/-- The law of the site: states and places agree, bays and lock hold what the records say, the inventories are the sums
of what stands in the zones. -/
def SiteLaw (s : State) : Prop :=
  (∀ i p, (s.record i).pack = some p → p.placed = true) ∧ BayLaw s ∧ LockLaw s ∧ ClosedLaw s ∧ InventoryLaw s

/-- The shred queue holds at most six packs, the reserved place counted, each at most once; every pack it holds is QUEUED
and every QUEUED pack is in it (R111). -/
def QueueLaw (s : State) : Prop :=
  s.feed.queueCount ≤ 6 ∧ s.feed.queue.Nodup ∧
  (∀ h ∈ s.feed.queue, ∃ p, s.lookup h = some p ∧ p.state = .queued) ∧
  (∀ i p, (s.record i).pack = some p → p.state = .queued → s.handle i ∈ s.feed.queue)

/-- The records of lot `j` in a non-terminal state. -/
def liveCount (s : State) (j : Fin 8) : Nat :=
  s.packs.toList.countP fun r => r.pack.any fun p => p.lot == j && !p.state.terminal

/-- Admitted is shredded plus withdrawn plus the records in a non-terminal state, and a FREE lot has no record
(R16, R159). -/
def LotLaw (s : State) : Prop :=
  ∀ j, match s.lotAt j with
    | some l => l.admitted = l.shredded + l.withdrawn + liveCount s j
    | none => ∀ i p, (s.record i).pack = some p → p.lot ≠ j

/-- The register's laws together. -/
def RegisterLaw (s : State) : Prop := SiteLaw s ∧ QueueLaw s ∧ LotLaw s

end Sys2Proof.Machine
end

