-- ==== Sys2Proof/Certificates/Slice0/Obligations.lean ====
section
/-! DEFINITION. The statements for the provers: each `Obligations.<Name>` is one, and a `Claim.<Name>` is a part of the one
that names it. In a statement about a request, `u` is the state the owner of the request
sees: the state the port found, with its presence restarted (R191). -/

open Sys2Proof Sys2Proof.Machine

/-! ### The machine -/

/-- A step takes the command at the front of the queue and runs it on the state with the queue's rest. -/
def Obligations.StepRunsTheFrontCommand : Prop :=
  ∀ (c : Instr) (rest : List Instr) (s : State), s.pending = c :: rest → step s = exec c { s with pending := rest }

/-- On an empty queue a stopped part stays as it is; a running part lets one millisecond pass on its clock and timers, and
puts exactly the due commands into the queue, in an order nothing constrains (log entries 2 and 3: the model's choice). -/
def Obligations.IdleStepLetsOneMillisecondPass : Prop :=
  ∀ s : State, s.pending = [] → (∀ p, (s.port p).received = []) →
    ∃ t, step s = .next t ∧
      (s.run = false → t = s) ∧
      (s.run = true →
        t = { advance s with pending := t.pending } ∧ t.pending.Perm (dueCommands t) ∧
        t.clock = s.clock + 1 ∧
        (∀ p, t.port p = { s.port p with timer := (s.port p).timer.map (· - 1) }) ∧
        (∀ n, t.bay n = { s.bay n with
          rest := (s.bay n).rest.map (· - 1)
          elapsed := if (s.bay n).state = .discharging then min ((s.bay n).elapsed + 1) 3600000
            else (s.bay n).elapsed }) ∧
        (∀ z, t.zone z = { s.zone z with
          timer := if (s.zone z).hold then (s.zone z).timer else (s.zone z).timer.map (· - 1) }) ∧
        (∀ d, t.detector d = { s.detector d with timer := (s.detector d).timer.map (· - 1) }) ∧
        (∀ o, t.sup o = { s.sup o with window := (s.sup o).window.map (· - 1)
                                       disagree := (s.sup o).disagree.map (· - 1) }) ∧
        t.atm = { s.atm with purgeClock := s.atm.purgeClock.map (· + 1), holdTimer := s.atm.holdTimer.map (· - 1) } ∧
        t.feed = { s.feed with lock := { s.feed.lock with purgeTimer := s.feed.lock.purgeTimer.map (· - 1) } })

/-- No command stops the machine or touches the queue of commands, and only a hardware reset moves the line clock: that a
command takes no time is the model's choice (log entry 2). Where it rests on other choices of the model: log entries 1, 4
and 7. -/
def Obligations.EveryCommandCompletes : Prop :=
  ∀ (i : Instr) (s : State), ∃ t, exec i s = .next t ∧ t.pending = s.pending ∧
    ((∀ a b, i ≠ .hardwareReset a b) → t.clock = s.clock ∧ t.epoch = s.epoch ∧ t.straps = s.straps)

/-- A stopped part answers no command but a hardware reset, a further stop and a change of an input level (R203; log entry 7:
the model's choice). -/
def Claim.StoppedPartWaitsForReset : Prop :=
  ∀ (i : Instr) (s : State), s.run = false →
    (∀ a b, i ≠ .hardwareReset a b) → (∀ c, i ≠ .mainSupplyLoss c) → (∀ d l, i ≠ .detectorLineChange d l) →
    (∀ o b, i ≠ .readbackChange o b) → exec i s = .next s

/-- The machine right after the first hardware reset (R172, R106, R109, R129, R134, R153, R156, R164, R166, R192).
Where it rests on a choice of the model: log entries 6, 16, 18 and 24. -/
def Obligations.ResetValues : Prop :=
  let s := State.reset
  s.run = true ∧ s.clock = 0 ∧ s.epoch = 0 ∧ s.retentionFound = false ∧
  (∀ i, s.record i = ⟨0, none⟩) ∧ (∀ z, vget s.inventories z = 0) ∧ (∀ n, s.bay n = Bay.initial) ∧
  s.cls = Classification.initial ∧ s.atm = Atmosphere.initial ∧ s.feed.permit = false ∧ s.feed.queue = [] ∧
  s.feed.lock = Lock.initial ∧ s.feed.purgeTime = 15 ∧ s.fire.dwell = 500 ∧ s.fire.rearm = 10 ∧
  (∀ z, (s.zone z).state = .normal ∧ (s.zone z).threshold = (if z = 6 then 0 else 20000) ∧
    (s.zone z).delay = if z = 6 then 0 else 30) ∧
  (∀ j, s.lotAt j = none) ∧ s.lot.shredLot = none ∧ s.lot.boundLow = 550 ∧ s.lot.boundHigh = 1020 ∧
  (∀ p, (s.port p).present = false ∧ (s.port p).notices = [] ∧ (s.port p).received = [] ∧ (s.port p).cursor = 0) ∧
  (∀ o, s.sup o = ⟨false, false, some 250, none, false⟩) ∧
  s.banks.records.number = 1 ∧ s.banks.records.held.map (·.code) = some .retentionLost ∧
  (∀ k, k ≠ BankId.records → (s.banks.get k).held = none ∧ (s.banks.get k).number = 0) ∧
  s.out.lineFault = true ∧ s.link.waiting.map (·.bay) = eight ∧ s.link.waiting.all (·.setpoint == 0) = true ∧
  s.pending = []

/-- A hardware reset with retained memory not intact: records FREE with generation 0, RETENTION_LOST held with number 1,
every table, bank and port at its initial value, each detector NORMAL and then its line as a change from NORMAL, whatever
the part held before (R1, R28, R32, R36, R76, R139, R172, R174, R192, R196). -/
def Claim.ResetWithoutMemoryForgets : Prop :=
  ∀ (straps : Straps) (agrees : Bool) (s : State), (s.checkAgrees && agrees) = false →
    ∃ t, exec (.hardwareReset straps agrees) s = .next t ∧
      t = { State.initial with
        straps := straps
        bays := t.bays
        fire := { Fire.initial with detectors := t.fire.detectors }
        banks := { Banks.initial with records := retentionLostBank }
        out := t.out
        pending := s.pending } ∧
      (∀ n, t.bay n = { Bay.initial with confirmedOpen := !(s.sup (.contactor n)).readback }) ∧
      (∀ d, t.detector d =
        let x : Detector := { Detector.initial with line := (s.detector d).line }
        match x.line with
        | .normal => x
        | .active => { x with state := .confirming, timer := some 500 }
        | _ => { x with state := .confirmingFault, prior := some .normal, timer := some 500 }) ∧
      (∀ o, t.sup o = ⟨false, (s.sup o).readback, some 250, none, false⟩) ∧ t.out.lineFault = true

/-- A hardware reset with retained memory intact: the epoch advances, what is retained keeps its value, every record follows
R24, the inventories are the sums again, bays and lock are rebuilt from the records, each detector is NORMAL and then takes
its line as a change from NORMAL, and a FEEDING pack found at the lock marks its lot (R24, R76, R106, R130, R139, R156,
R160, R172, R174, R196, R200). -/
def Claim.ResetWithMemoryRebuilds : Prop :=
  ∀ (straps : Straps) (s : State), s.checkAgrees = true →
    let sole := fun (l : Loc) (i : Fin 256) (p : Pack) => (s.record i).pack = some p ∧ p.loc = l ∧
      ∀ j q, (s.record j).pack = some q → q.loc = l → j = i
    let vacant := fun (l : Loc) => ∀ i p, (s.record i).pack = some p → p.loc ≠ l
    ∃ t, exec (.hardwareReset straps true) s = .next t ∧
      t = { s with
        run := true, clock := 0, epoch := (s.epoch + 1) % 65536, retentionFound := true, straps := straps
        packs := t.packs, inventories := t.inventories
        cls := { s.cls with curves := t.cls.curves }
        bays := t.bays
        atm := { Atmosphere.initial with limits := s.atm.limits }
        feed := { s.feed with
          permit := false, inputs := ⟨.vented, .normal, .normal, false, bankAnswer t.banks, s.lot.shredLot.isSome⟩
          lock := t.feed.lock }
        fire := { s.fire with detectors := t.fire.detectors, zones := t.fire.zones }
        lot := { s.lot with lots := t.lot.lots, switch := none }
        banks := { s.banks with records := t.banks.records }
        ports := t.ports, out := t.out, link := FieldLink.initial } ∧
      (∀ i, (t.record i).gen = (s.record i).gen ∧ (t.record i).pack = (s.record i).pack.map fun p =>
        match p.state with
        | .discharging | .resting => { p with state := .loaded }
        | .discharged | .queued => { p with recheck := true }
        | .feeding => { p with state := .quarantined, cause := some .feedUncertain }
        | _ => p) ∧
      InventoryLaw t ∧
      (∀ z, t.zone z = { s.zone z with
        state := .normal, hold := false, timer := none, inventory := vget t.inventories z }) ∧
      (∀ d, t.detector d =
        let x : Detector :=
          { s.detector d with state := .normal, prior := none, timer := none, faultShort := none }
        match x.line with
        | .normal => x
        | .active => { x with state := .confirming, timer := some s.fire.dwell }
        | _ => { x with state := .confirmingFault, prior := some .normal, timer := some s.fire.dwell }) ∧
      (∀ n,
        let b : Bay := { Bay.initial with confirmedOpen := !(s.sup (.contactor n)).readback }
        (vacant (.bay n) → t.bay n = b) ∧
        (∀ i p, sole (.bay n) i p → t.bay n = { b with
          state := if p.state = .loaded ∨ p.state = .discharging ∨ p.state = .resting then .loaded else .done
          occupant := some (s.handle i)
          slotA := ⟨p.treatment.current, p.treatment.stop, p.treatment.segment, true⟩ })) ∧
      (vacant .feedLock → t.feed.lock = ⟨.empty, none, false, false, none⟩) ∧
      (∀ i p, sole .feedLock i p → t.feed.lock = ⟨.blocked, some (s.handle i), false, false, none⟩) ∧
      ((∀ i p, (s.record i).pack = some p → p.loc = .feedLock → p.state ≠ .feeding) →
        t.lot.lots = s.lot.lots ∧ t.banks.records = s.banks.records) ∧
      (∀ i p, sole .feedLock i p → p.state = .feeding →
        t.lot.lots = vset s.lot.lots p.lot ((s.lotAt p.lot).map fun l => { l with uncertain := true }) ∧
        Posted .records [uncertainty 2 (s.handle i) p] { s with clock := t.clock, epoch := t.epoch } t) ∧
      (∀ k, vget t.cls.curves k = if (vget s.cls.curves k).status = .rewriting then ⟨.invalid, []⟩
        else vget s.cls.curves k) ∧
      (∀ p, t.port p = PortCtx.initial (s.port p).presenceTime) ∧
      (∀ o, t.sup o = ⟨false, (s.sup o).readback, some 250, none, false⟩) ∧ t.out.lineFault = lineFaultLevel t.banks

/-- The station ports run at the rate of the two straps as the reset read them, the field link at its own (R183). -/
def Claim.StrapsSetTheBaudRate : Prop :=
  ∀ (first second agrees : Bool) (s : State), ∃ t, exec (.hardwareReset ⟨first, second⟩ agrees) s = .next t ∧
    (first = false → second = false → t.portBaud = 57600) ∧ (first = true → second = false → t.portBaud = 115200) ∧
    (first = false → second = true → t.portBaud = 230400) ∧ (first = true → second = true → t.portBaud = 460800) ∧
    fieldBaud = 460800

/-- A hardware reset forgets memory that is not intact, rebuilds the part from memory that is, and reads the straps (R24,
R172, R174, R183). Where it rests on a choice of the model: log entries 5, 6, 7, 16, 18 and 24. -/
def Obligations.HardwareResetStartsThePart : Prop :=
  Claim.ResetWithoutMemoryForgets ∧ Claim.ResetWithMemoryRebuilds ∧ Claim.StrapsSetTheBaudRate

/-- A stop: every output off, nothing else changed but whether retained memory still agrees with its check word (R203; log
entries 5 and 7). -/
def Claim.SupplyLossStopsThePart : Prop :=
  ∀ (cause : StopCause) (s : State), ∃ t, exec (.mainSupplyLoss cause) s = .next t ∧
    t = { s with run := false, out := t.out, checkAgrees := s.checkAgrees && keepsMemory cause } ∧
    (∀ o, t.sup o = ⟨false, (s.sup o).readback, none, none, false⟩) ∧ t.out.lineFault = false ∧
    (cause = .supplyLost false → t.checkAgrees = false)

/-- A stopped part goes on showing the level of an input that changes, and nothing else of it changes (R203; log entry 7: the
model's choice). -/
def Claim.StoppedPartShowsItsInputs : Prop :=
  ∀ (d : Fin 24) (l : LineState) (o : Output) (level : Bool) (s : State), s.run = false →
    exec (.detectorLineChange d l) s = .next (s.setDetector d { s.detector d with line := l }) ∧
    exec (.readbackChange o level) s = .next (s.setSup o { s.sup o with readback := level })

/-- A stop turns every output off, and a stopped part waits for a hardware reset while its inputs go on showing their levels
(R203; log entry 7: the model's choice of what a stopped part still does). -/
def Obligations.AStoppedPartWaits : Prop :=
  Claim.StoppedPartWaitsForReset ∧ Claim.StoppedPartShowsItsInputs ∧ Claim.SupplyLossStopsThePart

/-! ### Invariants -/

/-- The laws hold at reset. -/
def Obligations.LawsHoldAtReset : Prop :=
  let s := State.reset
  PermitLaw s ∧ ContactorLaw s ∧ ReleaseLaw s ∧ LineFaultLaw s ∧ LinksBounded s ∧ SiteLaw s ∧ QueueLaw s ∧ LotLaw s ∧ CurveLaw s

/-- The shred permit is on exactly under its condition, on what the other blocks hold; the gates follow the lock; and no
pack moves toward the shredder without the permit (R108, R109, R117, R122). -/
def Obligations.PermitLawKept : Prop := ∀ s t : State, PermitLaw s → step s = .next t → PermitLaw t

/-- A bay's contactor is on only while it is DISCHARGING, with the setpoint following the active slot, in every state that
keeps the law of the site (R47; the law of the site is a statement of its own). Where it rests on a choice of the model: log
entry 11. -/
def Obligations.ContactorLawKept : Prop :=
  ∀ s t : State, SiteLaw s → ContactorLaw s → step s = .next t → ContactorLaw t

/-- A zone's release output is on exactly while it is RELEASED, and the purge request as R105 gives it (R105, R148). -/
def Obligations.ReleaseLawKept : Prop := ∀ s t : State, ReleaseLaw s → step s = .next t → ReleaseLaw t

/-- The line fault output is on exactly while a bank holds a CONTAINED or UNCONTAINED incident (R181). -/
def Claim.LineFaultLawKept : Prop := ∀ s t : State, LineFaultLaw s → step s = .next t → LineFaultLaw t

/-- The queues and lists of the links keep to their places (R185, R193, R202). -/
def Claim.LinksStayBounded : Prop := ∀ s t : State, LinksBounded s → step s = .next t → LinksBounded t

/-- At most one curve is REWRITING (R37). -/
def Claim.OneCurveRewritingKept : Prop := ∀ s t : State, CurveLaw s → step s = .next t → CurveLaw t

/-- The line fault output shows the banks, the links keep their bounds, and at most one curve is REWRITING (R37, R181, R185,
R193, R202). -/
def Obligations.LineFaultAndBoundsKept : Prop :=
  Claim.LineFaultLawKept ∧ Claim.LinksStayBounded ∧ Claim.OneCurveRewritingKept

/-- The law of the site: every zone inventory is the sum of the standing energy of the packs in that zone, bays and lock
hold what the records say (a BLOCKED lock a QUARANTINED pack, any other occupied lock a FEEDING one), states agree with
places, and a CLOSED lot holds only terminal records (R4, R16, R19, R117). -/
def Obligations.SiteLawKept : Prop := ∀ s t : State, SiteLaw s → step s = .next t → SiteLaw t

/-- The shred queue holds exactly the QUEUED packs, each once, and at most six with the reserved place (R111). -/
def Obligations.QueueLawKept : Prop :=
  ∀ s t : State, SiteLaw s → QueueLaw s → step s = .next t → QueueLaw t

/-- Admitted is shredded plus withdrawn plus the packs still on site, for every lot in use; a FREE lot has no pack
(R16, R159). -/
def Obligations.LotLawKept : Prop := ∀ s t : State, SiteLaw s → LotLaw s → step s = .next t → LotLaw t

/-! ### Every request -/

/-- The frame of every well-formed request decodes to that request, on the port it arrives on (R184, R187, R188).
Where it rests on a choice of the model: log entry 14. -/
def Obligations.RequestsRoundTrip : Prop :=
  ∀ (i : Instr) (p : Port) (f : Frame), i.wellFormed = true → encodeRequest i = some (p, f) → decodeRequest p f = some i

/-- A request its port's role may not issue is answered DENIED and changes nothing (R186). -/
def Claim.DeniedChangesNothing : Prop :=
  ∀ (i : Instr) (p : Port) (q : Byte) (c : Nat) (s : State), i.head = some (p, q, c) → Ready p s →
    mayIssue p c = false → exec i s = .next (answered p i .denied [] (touchPort p s))

/-- A guarded request is carried out only when its target plus its first guard is 255 and its code plus its second guard
is 255; otherwise it is answered GUARD_MISMATCH and changes nothing (R189). -/
def Claim.GuardMismatchChangesNothing : Prop :=
  ∀ (q : Byte) (target g1 g2 : Nat) (s : State),
    (Ready .line s → ¬(target + g1 = 255 ∧ 67 + g2 = 255) →
      exec (.lineRestart .line q target g1 g2) s =
        .next (answered .line (.lineRestart .line q target g1 g2) .guardMismatch [] (touchPort .line s))) ∧
    (Ready .fire s →
      (¬(target + g1 = 255 ∧ 85 + g2 = 255) →
        exec (.release .fire q target g1 g2) s =
          .next (answered .fire (.release .fire q target g1 g2) .guardMismatch [] (touchPort .fire s))) ∧
      (¬(target + g1 = 255 ∧ 86 + g2 = 255) →
        exec (.zoneReset .fire q target g1 g2) s =
          .next (answered .fire (.zoneReset .fire q target g1 g2) .guardMismatch [] (touchPort .fire s))) ∧
      (¬(target + g1 = 255 ∧ 89 + g2 = 255) →
        exec (.inertReset .fire q target g1 g2) s =
          .next (answered .fire (.inertReset .fire q target g1 g2) .guardMismatch [] (touchPort .fire s))))

/-- A request that names a FREE record, or a record of another generation, is answered NO_PACK and changes nothing
(R1, R2). -/
def Claim.NoPackChangesNothing : Prop :=
  ∀ (p : Port) (q : Byte) (h : Handle) (n : Fin 8) (s : State), h.gen < 256 → Ready p s →
    let u := touchPort p s
    let b := h.index.1
    u.lookup h = none →
      exec (.readPack p q b h.gen) s = .next (answered p (.readPack p q b h.gen) .noPack [] u) ∧
      (p = .custody → exec (.withdraw p q b h.gen) s = .next (answered p (.withdraw p q b h.gen) .noPack [] u)) ∧
      (p = .line →
        (∀ c ∈ [Instr.assign p q b h.gen (n.1 + 1), .move p q b h.gen 0, .move p q b h.gen 12, .quarantine p q b h.gen,
            .enqueue p q b h.gen, .remove p q b h.gen 0, .remove p q b h.gen (n.1 + 1), .feed p q b h.gen,
            .returnPack p q b h.gen, .dropDone p q b h.gen],
          exec c s = .next (answered p c .noPack [] u)))

/-- Requests refused DENIED, GUARD_MISMATCH and NO_PACK change nothing (R2, R186, R189). -/
def Obligations.RefusedAtThePort : Prop :=
  Claim.DeniedChangesNothing ∧ Claim.GuardMismatchChangesNothing ∧ Claim.NoPackChangesNothing

/-- The reads answer what they read and change no state (R20, R45, R48, R155, R157, R178, R195). -/
def Claim.ReadsAnswerAndChangeNothing : Prop :=
  ∀ (p : Port) (q : Byte) (s : State), Ready p s →
    let u := touchPort p s
    let ok := fun (c : Instr) (body : List Byte) => exec c s = .next (answered p c .ok body u)
    ok (.readStatus p q 0) (statusLinks u) ∧ ok (.readStatus p q 1) (statusLots u) ∧
    ok (.readStatus p q 2) (statusAtmosphere u) ∧ ok (.readStatus p q 3) (statusFeed u) ∧
    ok (.readStatus p q 4) (statusFire u) ∧ ok (.readStatus p q 5) (statusBanks u) ∧
    (∀ (h : Handle) (x : Pack), h.gen < 256 → u.lookup h = some x → ok (.readPack p q h.index.1 h.gen) (wPack h.gen x)) ∧
    (∀ n : Fin 8, ok (.readBay p q (n.1 + 1)) (wBay u.clock (u.sup (.contactor n)) (u.bay n))) ∧
    (∀ z : Fin 8, ok (.readZone p q (z.1 + 1)) (wZone u z)) ∧
    (∀ j : Fin 8, u.lotAt j = none → ok (.readLot p q j.1) (be 1 0)) ∧
    (∀ (j : Fin 8) (l : Lot), u.lotAt j = some l →
      ok (.readLot p q j.1) (wLotRecord l ++ wOpt wLot u.lot.shredLot ++ wOpt wSwitch u.lot.switch)) ∧
    (∀ (k : Nat) (b : BankId), allBanks[k]? = some b → ok (.readBank p q k) (wBank (u.banks.get b))) ∧
    (∀ (item index : Nat) (body : List Byte), configBody u item index = some body →
      ok (.readConfig p q item index) body) ∧
    (∀ n : Nat, 5 < n → exec (.readStatus p q n) s = .next (answered p (.readStatus p q n) .malformed [] u)) ∧
    (∀ n : Nat, n = 0 ∨ 8 < n →
      exec (.readBay p q n) s = .next (answered p (.readBay p q n) .malformed [] u) ∧
      exec (.readZone p q n) s = .next (answered p (.readZone p q n) .malformed [] u)) ∧
    (∀ n : Nat, 7 < n → exec (.readLot p q n) s = .next (answered p (.readLot p q n) .malformed [] u)) ∧
    (∀ n : Nat, 5 < n → exec (.readBank p q n) s = .next (answered p (.readBank p q n) .malformed [] u)) ∧
    (∀ item index : Nat, configBody u item index = none →
      exec (.readConfig p q item index) s = .next (answered p (.readConfig p q item index) .malformed [] u))

/-- LIST_PACKS answers the first eight matching records from the port's cursor, and moves that cursor; SET_CURSOR sets it
(R21, R22). -/
def Claim.ListAndCursorWalkTheRegister : Prop :=
  ∀ (p : Port) (q : Byte) (s : State), Ready p s →
    let u := touchPort p s
    (∀ (st lot : Option Nat) (fs : Option PackState × Option (Fin 8)), listFilters st lot = some fs →
      let found := ((allRecords.drop (u.port p).cursor.1).filterMap fun i =>
        (u.record i).pack.bind fun x => if listMatch fs x then some (i, x) else none).take 8
      let eighth := found[7]?.map (·.1.1)
      let next : Fin 256 := (eighth.bind fun k => index0 256 (k + 1)).getD 0
      exec (.listPacks p q st lot) s =
        .next (answered p (.listPacks p q st lot) .ok
          (wList (wSummary u) found ++ wBool (eighth.all fun k => k == 255))
          (u.setPort p { u.port p with cursor := next }))) ∧
    (∀ st lot : Option Nat, listFilters st lot = none →
      exec (.listPacks p q st lot) s = .next (answered p (.listPacks p q st lot) .malformed [] u)) ∧
    (∀ i : Fin 256, exec (.setCursor p q i.1) s =
      .next (answered p (.setCursor p q i.1) .ok (be 1 i.1) (u.setPort p { u.port p with cursor := i }))) ∧
    (∀ n : Nat, 255 < n → exec (.setCursor p q n) s = .next (answered p (.setCursor p q n) .malformed [] u))

/-- The reads answer what they read; only the port's cursor moves (R20, R21, R22, R195). Where it rests on a choice of
the model: log entries 13 and 21. -/
def Obligations.ReadsChangeNothing : Prop := Claim.ReadsAnswerAndChangeNothing ∧ Claim.ListAndCursorWalkTheRegister

/-! ### The Pack Register -/

/-- R18: the standing energy of a pack, after admission, after a residual check and after an integrated sample. -/
def Obligations.StandingEnergyRule : Prop :=
  (∀ p : Pack, p.state ≠ .shredded → p.state ≠ .withdrawn →
    p.standing = max 0 (p.basis - p.removedSince / 3600000)) ∧
  (∀ p : Pack, p.state = .shredded ∨ p.state = .withdrawn → p.standing = 0) ∧
  (∀ (s : State) (tag : Nat) (j : Fin 8) (tc : Nat) (d : Bool) (mass nominal cells : Nat),
    (admitted s tag j tc d mass nominal cells).standing = nominal) ∧
  (∀ (p : Pack) (r : Nat), p.state ≠ .shredded → p.state ≠ .withdrawn → (p.rebased r).standing = r) ∧
  (∀ (p : Pack) (inc missing : Nat) (resync : Bool), p.state ≠ .shredded → p.state ≠ .withdrawn →
    (p.integrate inc missing resync).standing =
      max 0 (p.basis - min (p.removedSince + (p.remainder + inc) / 1000000) (2 ^ 48 - 1) / 3600000)) ∧
  (∀ p : Pack, ({ p with state := .shredded } : Pack).standing = 0 ∧ ({ p with state := .withdrawn } : Pack).standing = 0)

/-- ADMIT's checks in their order; a refused admission changes nothing (R6). -/
def Claim.AdmitChecksInOrder : Prop :=
  ∀ (q : Byte) (tag lot tc dam mass nominal cells : Nat) (s : State), Ready .custody s →
    let u := touchPort .custody s
    let c := Instr.admitPack .custody q tag lot tc dam mass nominal cells
    let refused := fun r => exec c s = .next (answered .custody c r [] u)
    let inRange := 1 ≤ tag ∧ tag ≤ 2 ^ 64 - 1 ∧ lot ≤ 7 ∧ tc ≤ 16777215 ∧ dam ≤ 1 ∧ 100 ≤ mass ∧ mass ≤ 2000000 ∧
      1 ≤ nominal ∧ nominal ≤ 100000 ∧ 1 ≤ cells ∧ cells ≤ 240
    (¬inRange → refused .malformed) ∧
    (inRange → ∀ j : Fin 8, j.1 = lot →
      (lotIn u j .opened = false → refused .wrongState) ∧
      (lotIn u j .opened = true →
        ((∃ i x, (u.record i).pack = some x ∧ x.tag = tag) → refused .duplicate) ∧
        ((∀ i x, (u.record i).pack = some x → x.tag ≠ tag) →
          ((∀ i, (u.record i).pack ≠ none) → refused .full) ∧
          ((∃ i, (u.record i).pack = none) → (u.zone 0).state ≠ .normal → refused .frozen))))

/-- ADMIT completes: the lowest FREE record takes the pack, its treatment copy decides its state, Z1 and the lot grow by
it, and nothing else changes but notices (R7, R19, R23). -/
def Claim.AdmitTakesTheLowestFreeRecord : Prop :=
  ∀ (q : Byte) (tag : Nat) (j : Fin 8) (tc : Nat) (d : Bool) (mass nominal cells : Nat) (s : State) (i : Fin 256)
    (l : Lot), Ready .custody s → admitRanges tag tc mass nominal cells = true →
    let u := touchPort .custody s
    u.lotAt j = some l → l.state = .opened → (∀ k x, (u.record k).pack = some x → x.tag ≠ tag) →
    (u.record i).pack = none → (∀ k, k < i → (u.record k).pack ≠ none) → (u.zone 0).state = .normal →
    let k := classify u.cls tc
    let e := vget u.cls.treatments k
    let x : Pack :=
      { state := if e.refuse || (d && !e.acceptDamaged) then .quarantined else .received
        tag := tag, lot := j, typeCode := tc, damaged := d, mass := mass, nominal := nominal, cells := cells
        treatmentIndex := k, treatment := e, loc := .intake, removed := 0, remainder := 0, estimated := 0
        basis := nominal, removedSince := 0, residual := none, retries := 0, dischargedAt := none, recheck := false
        residualAtFeed := none
        cause := if e.refuse then some .refused else if d && !e.acceptDamaged then some .damaged else none
        admittedAt := u.now }
    let c := Instr.admitPack .custody q tag j.1 tc (if d then 1 else 0) mass nominal cells
    ∃ t, exec c s = .next t ∧ Answers .custody c .ok (wHandle (u.handle i) ++ be 1 k.1) t ∧
      t = { u with
        packs := vset u.packs i ⟨(u.record i).gen, some x⟩
        inventories := t.inventories
        lot := { u.lot with
          lots := vset u.lot.lots j (some { l with admitted := l.admitted + 1, intakeMass := l.intakeMass + mass }) }
        fire := t.fire
        ports := t.ports } ∧
      EnergyMoved none (some 0) nominal u t ∧ PortsQuiet u t ∧
      (t.port .line).notices = ((u.port .line).enqueue ⟨.pack (u.handle i) x.state .intake, u.now⟩).notices

/-- ADMIT in the order of its checks, and what it does when it passes (R6, R7). Where it rests on a choice of the
model: log entry 13. -/
def Obligations.AdmitTakesARecord : Prop := Claim.AdmitChecksInOrder ∧ Claim.AdmitTakesTheLowestFreeRecord

/-- A pack does not leave a zone that is escalated, nor enter one that is escalated or ISOLATED (R5). -/
def Claim.EscalatedZonesFreezeMoves : Prop :=
  ∀ (s : State) (src dst : Option (Fin 8)),
    let closed := fun st : ZoneState => st = .preAlarm ∨ st = .alarm ∨ st = .releasePending ∨ st = .released
    moveFrozen s src dst = true ↔
      (∃ z, src = some z ∧ closed (s.zone z).state) ∨
      (∃ z, dst = some z ∧ (closed (s.zone z).state ∨ (s.zone z).state = .isolated))

/-- WITHDRAW completes: the pack becomes WITHDRAWN at OUT, Z8 falls by what it stood at, its lot counts it, and the lot is
tested for closing (R14, R15, R159, R162, R163). -/
def Claim.WithdrawnPacksLeaveTheSite : Prop :=
  ∀ (q : Byte) (h : Handle) (s : State) (x : Pack) (l : Lot), Ready .custody s → h.gen < 256 →
    let u := touchPort .custody s
    u.lookup h = some x →
    let c := Instr.withdraw .custody q h.index.1 h.gen
    (x.state ≠ .quarantined ∨ x.loc ≠ .quarantine → exec c s = .next (answered .custody c .wrongState [] u)) ∧
    (x.state = .quarantined → x.loc = .quarantine →
      (moveFrozen u (some 7) none = true → exec c s = .next (answered .custody c .frozen [] u)) ∧
      (moveFrozen u (some 7) none = false → u.lotAt x.lot = some l →
        ∃ t, exec c s = .next t ∧ Answers .custody c .ok [] t ∧
          LotTested x.lot { l with
            withdrawn := l.withdrawn + 1, withdrawnMass := l.withdrawnMass + x.mass, energy := l.energy + x.removed }
            u.lot.shredLot u.lot.switch u t ∧
          t = { u with
            packs := vset u.packs h.index ⟨h.gen, some { x with state := .withdrawn, loc := .out }⟩
            inventories := t.inventories, lot := t.lot, feed := t.feed, fire := t.fire
            banks := { u.banks with records := t.banks.records, feed := t.banks.feed }, out := t.out
            ports := t.ports } ∧
          (l.state ≠ .draining → t.feed = u.feed ∧ t.banks = u.banks ∧ t.out = u.out) ∧
          t.feed.queue = u.feed.queue ∧
          EnergyMoved (some 7) none x.standing u t ∧ OnlyFeedOutputs u t ∧ PortsQuiet u t))

/-- WITHDRAW, with the lot it may close, and the moves a zone freezes (R5, R14, R15, R159, R162, R163). Where it rests on a
choice of the model: log entry 8. -/
def Obligations.WithdrawTakesThePackOut : Prop :=
  Claim.EscalatedZonesFreezeMoves ∧ Claim.WithdrawnPacksLeaveTheSite

/-- ASSIGN completes: the pack becomes LOADED in the named bay, the bay it came from empties, and the energy moves
with it (R8, R49, R50, R51). Where it rests on a choice of the model: log entry 24. -/
def Obligations.AssignPlacesThePack : Prop :=
  ∀ (q : Byte) (h : Handle) (n : Fin 8) (s : State) (x : Pack), Ready .line s → h.gen < 256 →
    let u := touchPort .line s
    u.lookup h = some x →
    ((x.state = .received ∧ x.loc = .intake) ∨
      (x.state = .discharged ∧ ∃ m, x.loc = .bay m ∧ m ≠ n ∧ (u.bay m).state = .done)) →
    let c := Instr.assign .line q h.index.1 h.gen (n.1 + 1)
    ((u.bay n).state ≠ .empty → exec c s = .next (answered .line c .busy [] u)) ∧
    ((u.bay n).state = .empty → moveFrozen u x.zone (some (bayZone n)) = true →
      exec c s = .next (answered .line c .frozen [] u)) ∧
    ((u.bay n).state = .empty → moveFrozen u x.zone (some (bayZone n)) = false →
      ∃ t, exec c s = .next t ∧ Answers .line c .ok [] t ∧
        TakesBay h x n (decide (x.state = .discharged)) u.feed.queue u t)

/-- MOVE completes: the place changes, a bay left behind empties, and a pack already there is answered OK (R9). -/
def Claim.MoveChangesThePlace : Prop :=
  ∀ (q : Byte) (h : Handle) (s : State) (x : Pack) (d : Loc) (k : Nat), Ready .line s → h.gen < 256 →
    (d = .intake ∧ k = 0) ∨ (d = .quarantine ∧ k = 12) →
    let u := touchPort .line s
    u.lookup h = some x →
    let c := Instr.move .line q h.index.1 h.gen k
    (x.loc = d → exec c s = .next (answered .line c .ok [] u)) ∧
    ((x.state = .loaded ∧ d = .intake ∧ ∃ n, x.loc = .bay n) ∨
      (x.state = .quarantined ∧ d = .quarantine ∧ ((∃ n, x.loc = .bay n) ∨ x.loc = .intake ∨ x.loc = .buffer)) →
      (∀ n, x.loc = .bay n → (u.bay n).state = .loaded ∨ (u.bay n).state = .done) →
      moveFrozen u x.zone (zoneOf d) = false →
      ∃ t, exec c s = .next t ∧ Answers .line c .ok [] t ∧
        t = { u with
          packs := vset u.packs h.index
            ⟨h.gen, some { x with loc := d, state := if d = .intake then .received else .quarantined }⟩
          inventories := t.inventories, bays := baysLeft x.loc u.bays, fire := t.fire, ports := t.ports } ∧
        EnergyMoved x.zone (zoneOf d) x.standing u t ∧ PortsQuiet u t)

/-- QUARANTINE completes: the pack becomes QUARANTINED with cause OPERATOR where it is; its bay is brought to DONE, or it
leaves the queue; a pack already QUARANTINED is answered OK (R10, R11, R72, R116). -/
def Claim.QuarantineStopsThePack : Prop :=
  ∀ (q : Byte) (h : Handle) (s : State) (x : Pack), Ready .line s → h.gen < 256 →
    let u := touchPort .line s
    u.lookup h = some x →
    let c := Instr.quarantine .line q h.index.1 h.gen
    (x.state = .quarantined → exec c s = .next (answered .line c .ok [] u)) ∧
    (x.state = .feeding ∨ x.state = .shredded ∨ x.state = .withdrawn →
      exec c s = .next (answered .line c .wrongState [] u)) ∧
    (x.state ≠ .quarantined → x.state ≠ .feeding → x.state.terminal = false → Counted x u →
      ∃ t, exec c s = .next t ∧ Answers .line c .ok [] t ∧ PortsQuiet u t ∧
        t = { u with
          packs := vset u.packs h.index ⟨h.gen, some { x with state := .quarantined, cause := some .operator }⟩
          bays := t.bays, feed := t.feed, out := t.out, link := t.link, ports := t.ports } ∧
        (∀ n, x.loc = .bay n → t.feed = u.feed ∧
          ((u.bay n).steerable = false → t.bays = u.bays ∧ t.out = u.out ∧ t.link = u.link) ∧
          ((u.bay n).steerable = true →
            t.bays = vset u.bays n { (u.bay n).unloaded (u.sup (.contactor n)) with
              state := .done, elapsed := 0, rest := none, deferred := false, pauseCause := none } ∧
            t.out = u.out.contactorTo n false ∧ t.link = u.link.setpointTo n (u.bay n).setpoint 0)) ∧
        ((∀ n, x.loc ≠ .bay n) → t.bays = u.bays ∧ t.out = u.out ∧ t.link = u.link ∧
          t.feed = { u.feed with
            queue := if x.state = .queued then u.feed.queue.filter (· != h) else u.feed.queue }))


/-- MOVE and QUARANTINE (R9, R10, R11). Where it rests on a choice of the model: log entry 11. -/
def Obligations.MoveAndQuarantine : Prop := Claim.MoveChangesThePlace ∧ Claim.QuarantineStopsThePack

/-! ### Discharge bays -/

/-- START's checks in order (R56). -/
def Claim.StartChecksInOrder : Prop :=
  ∀ (q : Byte) (bay : Nat) (s : State), Ready .line s →
    let u := touchPort .line s
    let c := Instr.start .line q bay
    let refused := fun r => exec c s = .next (answered .line c r [] u)
    (bay = 0 ∨ 8 < bay → refused .malformed) ∧
    (∀ n : Fin 8, bay = n.1 + 1 →
      ((u.bay n).state ≠ .loaded → refused .wrongState) ∧
      ((u.bay n).state = .loaded →
        ((u.zone (bayZone n)).state ≠ .normal → refused .frozen) ∧
        ((u.zone (bayZone n)).state = .normal → (u.bay n).fresh u.clock = false → refused .notPermitted)))

/-- START completes: with recheck the bay rests its pack for the treatment's rest time, without it a segment starts under
load; the pack follows (R13, R47, R56, R57, R90). -/
def Claim.StartRestsOrDischarges : Prop :=
  ∀ (q : Byte) (n : Fin 8) (s : State) (i : Fin 256) (x : Pack), Ready .line s →
    let u := touchPort .line s
    let b := u.bay n
    b.state = .loaded → (u.zone (bayZone n)).state = .normal → b.fresh u.clock = true →
    u.occupantPack n = some (i, x) → x.state.terminal = false → Counted x u →
    let c := Instr.start .line q (n.1 + 1)
    (b.recheck = true → ∃ t, exec c s = .next t ∧ Answers .line c .ok [] t ∧ PortsQuiet u t ∧
      t = { u with
        packs := vset u.packs i ⟨(u.record i).gen, some { x with state := .resting }⟩
        bays := vset u.bays n { b with state := .resting, rest := some (x.treatment.rest * 1000), deferred := false }
        ports := t.ports }) ∧
    (b.recheck = false → ∃ t, exec c s = .next t ∧ Answers .line c .ok [] t ∧ PortsQuiet u t ∧
      t = { u with
        packs := vset u.packs i ⟨(u.record i).gen, some { x with state := .discharging }⟩
        bays := vset u.bays n { b.loadedAt b.activeSlot.current with
          state := .discharging, elapsed := 0, pauseCause := none }
        out := u.out.contactorTo n true
        link := u.link.setpointTo n b.setpoint b.activeSlot.current
        ports := t.ports })

/-- START in the order of its checks, and what it does when it passes (R56, R57). Where it rests on a choice of the
model: log entry 30. -/
def Obligations.StartBeginsTheBay : Prop := Claim.StartChecksInOrder ∧ Claim.StartRestsOrDischarges

/-- PAUSE completes: contactor off, setpoint 0, segment elapsed kept (R47, R67). -/
def Claim.PauseInterruptsTheSegment : Prop :=
  ∀ (q : Byte) (n : Fin 8) (s : State), Ready .line s →
    let u := touchPort .line s
    let b := u.bay n
    let c := Instr.pause .line q (n.1 + 1)
    (b.state ≠ .discharging → exec c s = .next (answered .line c .wrongState [] u)) ∧
    (b.state = .discharging → ∃ t, exec c s = .next t ∧ Answers .line c .ok [] t ∧ PortsQuiet u t ∧
      t = { u with
        bays := vset u.bays n { b.unloaded (u.sup (.contactor n)) with state := .paused, pauseCause := some .line }
        out := u.out.contactorTo n false, link := u.link.setpointTo n b.setpoint 0, ports := t.ports })

/-- RESUME completes: the interrupted segment continues from its kept elapsed time, and a segment already over takes its
boundary at once (R53, R55, R68). -/
def Claim.ResumeContinuesTheSegment : Prop :=
  ∀ (q : Byte) (n : Fin 8) (s : State), Ready .line s →
    let u := touchPort .line s
    let b := u.bay n
    let ma := b.activeSlot.current
    b.state = .paused → (u.zone (bayZone n)).state = .normal → b.fresh u.clock = true →
    let c := Instr.resume .line q (n.1 + 1)
    ∃ t, exec c s = .next t ∧ Answers .line c .ok [] t ∧ PortsQuiet u t ∧ OnlyBay n u t ∧
      t = { u with bays := t.bays, out := u.out.contactorTo n true, link := t.link, ports := t.ports } ∧
      (b.segmentOver = false →
        t.bay n = { b.loadedAt ma with state := .discharging, pauseCause := none } ∧
        t.link = u.link.setpointTo n b.setpoint ma) ∧
      (b.segmentOver = true →
        t.bay n = { b.swapSlot with
          state := .discharging, pauseCause := none, elapsed := 0
          setpoint := b.swapSlot.activeSlot.current
          overRef := max ma b.swapSlot.activeSlot.current
          overEnd := if b.swapSlot.activeSlot.current < ma then some (u.clock + 1000) else none } ∧
        t.link = (u.link.setpointTo n b.setpoint ma).setpointTo n ma b.swapSlot.activeSlot.current)

/-- ABORT completes from DISCHARGING, RESTING and PAUSED: the bay and its pack are LOADED, the work of the bay cleared, the
slots and recheck kept (R69). -/
def Claim.AbortReturnsToLoaded : Prop :=
  ∀ (q : Byte) (n : Fin 8) (s : State) (i : Fin 256) (x : Pack), Ready .line s →
    let u := touchPort .line s
    let b := u.bay n
    let c := Instr.abort .line q (n.1 + 1)
    (b.state ≠ .discharging → b.state ≠ .resting → b.state ≠ .paused →
      exec c s = .next (answered .line c .wrongState [] u)) ∧
    (b.state = .discharging ∨ b.state = .resting ∨ b.state = .paused →
      u.occupantPack n = some (i, x) → x.state.terminal = false → Counted x u →
      ∃ t, exec c s = .next t ∧ Answers .line c .ok [] t ∧ PortsQuiet u t ∧
        t = { u with
          packs := vset u.packs i ⟨(u.record i).gen, some { x with state := .loaded }⟩
          bays := vset u.bays n { b.unloaded (u.sup (.contactor n)) with
            state := .loaded, elapsed := 0, rest := none, deferred := false, pauseCause := none }
          out := u.out.contactorTo n false, link := u.link.setpointTo n b.setpoint 0, ports := t.ports })

/-- PAUSE, RESUME and ABORT (R67, R68, R69). Where it rests on a choice of the model: log entries 11 and 30. -/
def Obligations.PauseResumeAbort : Prop :=
  Claim.PauseInterruptsTheSegment ∧ Claim.ResumeContinuesTheSegment ∧ Claim.AbortReturnsToLoaded

/-- WRITE_SLOT completes: the slot is written whole with its length clamped; a staged write sets pending, a direct write
moves the running segment's setpoint, and one that finds the segment over takes the boundary at once (R52, R53, R54). -/
def Claim.WriteSlotStagesOrActs : Prop :=
  ∀ (q : Byte) (n : Fin 8) (k current stop segment : Nat) (sl : SlotName) (s : State), Ready .line s →
    slotOfNumber k = some sl → 1000 ≤ current → current ≤ 400000 → 1500 ≤ stop → stop ≤ 4500 →
    let u := touchPort .line s
    let b := u.bay n
    let slot : Slot := ⟨current, stop, max 10 (min 3600 segment), true⟩
    let w := b.setSlot sl slot
    let c := Instr.writeSlot .line q (n.1 + 1) k current stop segment
    (b.steerable = false → exec c s = .next (answered .line c .wrongState [] u)) ∧
    (b.steerable = true →
      (sl ≠ b.active →
        exec c s = .next (answered .line c .ok (wSlot slot) (u.setBay n { w with pending := true }))) ∧
      (sl = b.active → b.state ≠ .discharging →
        exec c s = .next (answered .line c .ok (wSlot slot) (u.setBay n w))) ∧
      (sl = b.active → b.state = .discharging →
        ∃ t, exec c s = .next t ∧ Answers .line c .ok (wSlot slot) t ∧ OnlyBay n u t ∧ PortsQuiet u t ∧
          t = { u with bays := t.bays, link := t.link, ports := t.ports } ∧
          (t.bay n).slotA = w.slotA ∧ (t.bay n).slotB = w.slotB ∧ (t.bay n).state = .discharging ∧
          (t.bay n).setpoint = (t.bay n).activeSlot.current ∧
          (w.segmentOver = false → (t.bay n).active = b.active ∧ (t.bay n).pending = b.pending ∧
            (t.bay n).elapsed = b.elapsed ∧ (t.bay n).setpoint = current ∧
            t.link = u.link.setpointTo n b.setpoint current) ∧
          (w.segmentOver = true → (t.bay n).elapsed = 0 ∧ (t.bay n).pending = false ∧
            (t.bay n).active = if b.pending then b.active.other else b.active)))

/-- CLEAR_BAY completes: the fault cause is cleared and the state comes from the occupant (R71). -/
def Claim.ClearBayReleasesTheFault : Prop :=
  ∀ (q : Byte) (n : Fin 8) (s : State), Ready .line s →
    let u := touchPort .line s
    let b := u.bay n
    let c := Instr.clearBay .line q (n.1 + 1)
    (b.state ≠ .faulted → exec c s = .next (answered .line c .wrongState [] u)) ∧
    (b.state = .faulted → (u.sup (.contactor n)).readback = true →
      exec c s = .next (answered .line c .notPermitted [] u)) ∧
    (b.state = .faulted → (u.sup (.contactor n)).readback = false →
      ∃ t, exec c s = .next t ∧ Answers .line c .ok [] t ∧ PortsQuiet u t ∧
        t = { u with bays := t.bays, ports := t.ports } ∧ OnlyBay n u t ∧
        (b.occupant = none → t.bay n = b.emptied) ∧
        (∀ i x, u.occupantPack n = some (i, x) →
          t.bay n = { b with state := if x.state = .loaded then .loaded else .done, faultCause := none }))

/-- WRITE_SLOT and CLEAR_BAY (R52, R71). Where it rests on a choice of the model: log entry 13. -/
def Obligations.SlotsAndClearBay : Prop := Claim.WriteSlotStagesOrActs ∧ Claim.ClearBayReleasesTheFault

/-! ### Samples -/

/-- R80: the classification of a sample's sequence. -/
def Claim.SequenceClassification : Prop :=
  (∀ q : Nat, q ≤ 65535 → classifySeq none q = .first ∧ (classifySeq none q).missing = 0) ∧
  (∀ l q : Nat, l ≤ 65535 → q ≤ 65535 →
    let d := ((q : Int) - l) % 65536
    (d = 0 → classifySeq (some l) q = .duplicate) ∧
    (1 ≤ d → d ≤ 50 → ∀ m : Nat, (m : Int) = d - 1 →
      classifySeq (some l) q = .next m ∧ (classifySeq (some l) q).missing = m) ∧
    (51 ≤ d → d ≤ 32767 → classifySeq (some l) q = .resync ∧ (classifySeq (some l) q).missing = 0) ∧
    (32768 ≤ d → classifySeq (some l) q = .stale))

/-- R84 to R86: the increment of an integrated sample, what it books, and the estimated intervals. -/
def Claim.IntegrationBooksWholeMillijoules : Prop :=
  (∀ (v : Nat) (i : Int) (interval missing : Nat),
    (0 ≤ i → (increment v i interval missing : Int) = v * i * interval * (missing + 1)) ∧
    (i ≤ 0 → increment v i interval missing = 0)) ∧
  (∀ (p : Pack) (inc missing : Nat) (resync : Bool),
    let r := p.integrate inc missing resync
    r.remainder < 1000000 ∧ p.remainder + inc = r.remainder + 1000000 * ((p.remainder + inc) / 1000000) ∧
    r.removed = min (p.removed + (p.remainder + inc) / 1000000) (2 ^ 48 - 1) ∧
    r.removedSince = min (p.removedSince + (p.remainder + inc) / 1000000) (2 ^ 48 - 1) ∧
    r.estimated = (if resync then 65535 else min (p.estimated + missing) 65535) ∧
    r = { p with remainder := r.remainder, removed := r.removed, removedSince := r.removedSince,
                 estimated := r.estimated })

/-- The classification of a sample (R80), its increment (R84), and what it books (R85, R86). -/
def Obligations.SampleArithmetic : Prop := Claim.SequenceClassification ∧ Claim.IntegrationBooksWholeMillijoules

/-- A sample that names no bay, or a bay with no occupant, changes nothing; one out of range, a duplicate or a stale one
changes its own tally alone (R79, R80, R88, R89). -/
def Claim.DiscardedSamplesAreOnlyTallied : Prop :=
  ∀ (a q v : Nat) (i temp : Int) (iv : Nat) (s : State), s.run = true → s.link.receiver = .hunting →
    let c := Instr.baySample a q v i temp iv
    (a = 0 ∨ 8 < a → exec c s = .next s) ∧
    (∀ n : Fin 8, a = n.1 + 1 →
      let b := s.bay n
      let inRange := q ≤ 65535 ∧ v ≤ 200000 ∧ -500000 ≤ i ∧ i ≤ 500000 ∧ -400 ≤ temp ∧ temp ≤ 1500 ∧ 1 ≤ iv ∧ iv ≤ 1000
      (b.occupant = none → exec c s = .next s) ∧
      (b.occupant ≠ none →
        (¬inRange → exec c s = .next (s.setBay n { b with
          tally := { b.tally with outOfRange := min (b.tally.outOfRange + 1) 65535 } })) ∧
        (inRange → classifySeq b.lastSeq q = .duplicate → exec c s = .next (s.setBay n { b with
          tally := { b.tally with duplicates := min (b.tally.duplicates + 1) 65535 } })) ∧
        (inRange → classifySeq b.lastSeq q = .stale → exec c s = .next (s.setBay n { b with
          tally := { b.tally with stale := min (b.tally.stale + 1) 65535 } }))))

/-- An accepted sample completes: in a LOADED, DONE or FAULTED bay it is recorded and tallied and nothing more; in a
DISCHARGING bay that no check stops, its energy is booked to the occupant as well, and the zone's inventory follows
(R58, R81, R83 to R88). -/
def Claim.AcceptedSamplesAreRecorded : Prop :=
  ∀ (n : Fin 8) (q v : Nat) (i temp : Int) (iv : Nat) (s : State), s.run = true → s.link.receiver = .hunting →
    let b := s.bay n
    let c := Instr.baySample (n.1 + 1) q v i temp iv
    let k := classifySeq b.lastSeq q
    b.occupant ≠ none → sampleRanges q v i temp iv = true → k ≠ .duplicate → k ≠ .stale →
    (b.state = .loaded ∨ b.state = .done ∨ b.state = .faulted →
      exec c s = .next (s.setBay n { b with
        lastSeq := some q, lastSample := some ⟨v, i, temp, s.clock⟩, tally := b.tally.accept k false })) ∧
    (b.state = .discharging → ∀ (j : Fin 256) (x : Pack), s.occupantPack n = some (j, x) → x.loc = .bay n →
      x.state.terminal = false → (s.zone (bayZone n)).state ≠ .alarm →
      temp ≤ x.treatment.maxTemp → -1000 ≤ i → i ≤ overLimit b.overRef → b.activeSlot.stop < v / x.cells →
      let y := x.integrate (increment v i iv k.missing) k.missing (k == .resync)
      ∃ t, exec c s = .next t ∧
        t = { s with
          packs := vset s.packs j ⟨(s.record j).gen, some y⟩
          inventories := t.inventories
          bays := vset s.bays n { b with
            lastSeq := some q, lastSample := some ⟨v, i, temp, s.clock⟩, tally := b.tally.accept k true }
          fire := t.fire } ∧
        t.inventories = vset s.inventories (bayZone n)
          (vget s.inventories (bayZone n) - x.standing + y.standing) ∧
        t.fire = (s.setZone (bayZone n)
          { s.zone (bayZone n) with inventory := vget t.inventories (bayZone n) }).fire)

/-- BAY_SAMPLE discarded and accepted (R79 to R88). -/
def Obligations.SamplesAreTaken : Prop := Claim.DiscardedSamplesAreOnlyTallied ∧ Claim.AcceptedSamplesAreRecorded

/-- The checks of a DISCHARGING bay in their order, on an accepted sample: too hot, reversed and over-current fault
the bay, the stop voltage ends the discharge in RESTING (R47, R58, R59, R70). Where it rests on a choice of the model:
log entries 8 and 11. -/
def Obligations.DischargeChecksInOrder : Prop :=
  ∀ (n : Fin 8) (q v : Nat) (i temp : Int) (iv : Nat) (s : State) (j : Fin 256) (x : Pack), s.run = true →
    s.link.receiver = .hunting →
    let b := s.bay n
    let c := Instr.baySample (n.1 + 1) q v i temp iv
    let k := classifySeq b.lastSeq q
    sampleRanges q v i temp iv = true → k ≠ .duplicate → k ≠ .stale → b.state = .discharging →
    s.occupantPack n = some (j, x) → x.loc = .bay n → x.state = .discharging → (s.zone (bayZone n)).state ≠ .alarm →
    let faults := fun (f : FaultCause) (after : PackState) (qc : Option QuarantineCause) => ∃ t, exec c s = .next t ∧
      ∃ y, (t.record j).pack = some y ∧ (t.bay n).state = .faulted ∧ (t.bay n).faultCause = some f ∧ (t.bay n).setpoint = 0 ∧
      (t.sup (.contactor n)).command = false ∧ y.state = after ∧ y.cause = qc ∧
      OnlyBay n s t ∧ OnlyRecord j s t ∧ PortsQuiet s t ∧ t = { s with
        packs := t.packs, inventories := t.inventories, bays := t.bays
        feed := { s.feed with permit := t.feed.permit, inputs := t.feed.inputs, lock := t.feed.lock }, fire := t.fire
        banks := { s.banks with discharge := t.banks.discharge, feed := t.banks.feed }, out := t.out, link := t.link
        ports := t.ports }
    (x.treatment.maxTemp < temp → faults .overTemperature .quarantined (some .overTemperature)) ∧
    (temp ≤ x.treatment.maxTemp →
      (i < -1000 → faults .reverseCurrent .quarantined (some .reverseCurrent)) ∧
      (-1000 ≤ i →
        ((overLimit b.overRef : Int) < i → faults .overCurrent .loaded x.cause) ∧
        (i ≤ overLimit b.overRef → v / x.cells ≤ b.activeSlot.stop →
          ∃ t, exec c s = .next t ∧ (t.bay n).state = .resting ∧
            (t.bay n).rest = some (x.treatment.rest * 1000) ∧ (t.bay n).deferred = false ∧ (t.bay n).elapsed = 0 ∧
            (t.bay n).setpoint = 0 ∧ (t.bay n).pending = false ∧
            (t.bay n).active = (if b.pending then b.active.other else b.active) ∧
            (t.sup (.contactor n)).command = false ∧ (t.record j).pack.map (·.state) = some .resting ∧
            OnlyBay n s t ∧ OnlyRecord j s t ∧ PortsQuiet s t ∧ t = { s with
              packs := t.packs, inventories := t.inventories, bays := t.bays, fire := t.fire
              out := s.out.contactorTo n false, link := t.link, ports := t.ports })))

/-- R42 and R43: the remaining fraction of a cell voltage on a curve, the residual and the limit. -/
def Obligations.ResidualCheckArithmetic : Prop :=
  (∀ (vc : Nat) (p : Point) (ps : List Point), vc ≤ p.mv → curveFraction vc (p :: ps) = some p.frac) ∧
  (∀ (vc : Nat) (pre : List Point) (lo hi : Point) (post : List Point),
    (pre ++ lo :: hi :: post).Pairwise (fun a b => a.mv < b.mv) → lo.mv ≤ vc → vc < hi.mv →
    curveFraction vc (pre ++ lo :: hi :: post) =
      some (lo.frac + ((vc - lo.mv) * (hi.frac - lo.frac) + (hi.mv - lo.mv) - 1) / (hi.mv - lo.mv))) ∧
  (∀ (vc : Nat) (pre : List Point) (last : Point),
    (pre ++ [last]).Pairwise (fun a b => a.mv < b.mv) → last.mv ≤ vc →
    curveFraction vc (pre ++ [last]) = some last.frac) ∧
  (∀ (x : Pack) (v f : Nat) (points : List Point), curveFraction (v / x.cells) points = some f →
    residualCheck x v points = some
      { vc := v / x.cells, frac := f, residual := (x.nominal * f + 999) / 1000
        limit := min (x.nominal * x.treatment.limit / 1000) x.treatment.cap
        pass := decide ((x.nominal * f + 999) / 1000 ≤
          min (x.nominal * x.treatment.limit / 1000) x.treatment.cap) }) ∧
  (∀ (vc : Nat) (lo hi : Point), lo.mv ≤ vc → vc < hi.mv → lo.frac ≤ hi.frac →
    lo.frac + ((vc - lo.mv) * (hi.frac - lo.frac) + (hi.mv - lo.mv) - 1) / (hi.mv - lo.mv) ≤ hi.frac) ∧
  (∀ e f : Nat, f ≤ 1000 → (e * f + 999) / 1000 ≤ e)

/-- The rest timer's expiry completes: with a fresh sample and a VALID curve the check runs, and a pass makes the pack
DISCHARGED in a DONE bay, a failure with retries left a new segment, one without a QUARANTINED pack; otherwise the
check is deferred (R13, R62, R64, R65, R66). Where it rests on a choice of the model: log entry 21. -/
def Obligations.RestEndsWithTheResidualCheck : Prop :=
  ∀ (n : Fin 8) (s : State) (i : Fin 256) (x : Pack), s.run = true →
    let b := s.bay n
    b.state = .resting → b.rest = some 0 → s.occupantPack n = some (i, x) → x.loc = .bay n → x.state = .resting →
    (s.zone (bayZone n)).state ≠ .alarm →
    let c := Instr.restTimerExpiry n
    (readyCheck n s = none →
      exec c s = .next (s.setBay n { b with rest := none, deferred := true })) ∧
    (∀ k : Check, readyCheck n s = some (i, x, k) →
      ∃ t, exec c s = .next t ∧ ∃ y, (t.record i).pack = some y ∧ OnlyRecord i s t ∧ OnlyBay n s t ∧
        y.residual = some k.residual ∧ y.basis = k.residual ∧ y.removedSince = 0 ∧ y.removed = x.removed ∧
        y.loc = x.loc ∧ t.inventories = vset s.inventories (bayZone n)
          (vget s.inventories (bayZone n) - x.standing + k.residual) ∧
        (t.bay n).lastCheck = some k ∧ (t.bay n).recheck = false ∧ (t.bay n).rest = none ∧
        PortsQuiet s t ∧ t = { s with
          packs := t.packs, inventories := t.inventories, bays := t.bays
          feed := { s.feed with permit := t.feed.permit, inputs := t.feed.inputs, lock := t.feed.lock }, fire := t.fire
          banks := { s.banks with discharge := t.banks.discharge, feed := t.banks.feed }, out := t.out, link := t.link
          ports := t.ports } ∧
        (k.pass = true → (t.bay n).state = .done ∧ y.state = .discharged ∧ y.dischargedAt = some s.now ∧
          y.recheck = false ∧ y.retries = x.retries ∧ t.banks = s.banks ∧ t.out = s.out) ∧
        (k.pass = false → x.retries < x.treatment.retries →
          y.state = .discharging ∧ y.retries = x.retries + 1 ∧ t.banks = s.banks ∧
          (s.ports.line.present = true → (t.bay n).state = .discharging ∧ (t.bay n).elapsed = 0 ∧
            (t.bay n).setpoint = b.activeSlot.current ∧ (t.sup (.contactor n)).command = true) ∧
          (s.ports.line.present = false → (t.bay n).state = .paused ∧ (t.bay n).pauseCause = some .link ∧
            (t.bay n).elapsed = 0 ∧ t.out = s.out)) ∧
        (k.pass = false → x.treatment.retries ≤ x.retries →
          (t.bay n).state = .done ∧ y.state = .quarantined ∧ y.cause = some .reboundLimit ∧ y.retries = x.retries))

/-- The other timers of a bay complete: a segment boundary, a sample loss, the drop of the over-current reference; one
that is not due changes nothing (R53, R55, R58, R60; log entry 4: that an expiry not due is no event). Where it rests
on a choice of the model: log entries 11 and 12. -/
def Obligations.BayTimersAct : Prop :=
  ∀ (n : Fin 8) (s : State), s.run = true →
    let b := s.bay n
    let w := b.swapSlot
    let ma := w.activeSlot.current
    (b.state = .discharging → b.activeSlot.segment * 1000 ≤ b.elapsed →
      exec (.segmentTimerExpiry n) s = .next { s with
        bays := vset s.bays n { w with
          elapsed := 0, setpoint := ma
          overRef := if b.setpoint < ma then ma else b.overRef
          overEnd := if b.setpoint < ma then none else if ma < b.setpoint then some (s.clock + 1000) else b.overEnd }
        link := s.link.setpointTo n b.setpoint ma }) ∧
    (¬(b.state = .discharging ∧ b.activeSlot.segment * 1000 ≤ b.elapsed) →
      exec (.segmentTimerExpiry n) s = .next s) ∧
    (∀ x, b.state = .discharging → b.lastSample = some x → x.arrival + 2000 ≤ s.clock → Told s →
      ∃ t, exec (.sampleLoss n) s = .next t ∧ PortsQuiet s t ∧
        t = { s with
          bays := vset s.bays n { b.unloaded (s.sup (.contactor n)) with state := .paused, pauseCause := some .samples }
          out := { s.out.contactorTo n false with
            lineFault := lineFaultLevel { s.banks with discharge := t.banks.discharge } }
          banks := { s.banks with discharge := t.banks.discharge }
          link := s.link.setpointTo n b.setpoint 0
          ports := t.ports }) ∧
    (¬(b.state = .discharging ∧ ∃ x, b.lastSample = some x ∧ x.arrival + 2000 ≤ s.clock) →
      exec (.sampleLoss n) s = .next s) ∧
    (∀ e, b.overEnd = some e → e ≤ s.clock → exec (.overCurrentReferenceDrop n) s =
      .next (s.setBay n { b with overRef := b.setpoint, overEnd := none })) ∧
    (¬(∃ e, b.overEnd = some e ∧ e ≤ s.clock) → exec (.overCurrentReferenceDrop n) s = .next s)

/-! ### Field link and read-backs -/

/-- The field link completes: the oldest waiting LOAD_SET is sent and starts its bay's refresh, a refresh repeats the
setpoint of an occupied bay, and a discarded frame moves the receiver alone: after an overlong frame, an idle line or a bad
CRC it waits for an idle line before it hunts again (R201, R202). -/
def Claim.FieldLinkCommandsAct : Prop :=
  ∀ (s : State), s.run = true →
    (s.link.waiting = [] → exec .loadSetTransmit s = .next s) ∧
    (∀ f rest, s.link.waiting = f :: rest → exec .loadSetTransmit s = .next { s with
      link := { s.link with waiting := rest, sent := some f, refresh := vset s.link.refresh f.bay (some 1000) } }) ∧
    (∀ n : Fin 8,
      (vget s.link.refresh n ≠ some 0 → exec (.loadSetRefreshExpiry n) s = .next s) ∧
      (vget s.link.refresh n = some 0 → exec (.loadSetRefreshExpiry n) s = .next { s with
        link := { s.link with
          refresh := vset s.link.refresh n none
          waiting := if (s.bay n).occupant.isSome then queueSetpoint s.link.waiting ⟨n, (s.bay n).setpoint⟩
            else s.link.waiting } })) ∧
    (∀ why : FieldFault,
      (s.link.receiver = .ignoring → exec (.fieldFrameDiscard why) s = .next s) ∧
      (s.link.receiver = .hunting → exec (.fieldFrameDiscard why) s = .next { s with
        link := { s.link with
          receiver := if why = .overlong ∨ why = .idleLine ∨ why = .badCrc then .ignoring else .hunting } })) ∧
    exec .fieldLinkHuntsAgain s = .next { s with link := { s.link with receiver := .hunting } }

/-- A waiting LOAD_SET of the same bay is replaced in its place, another joins the tail, and the list never holds two for
one bay (R202). -/
def Claim.LoadSetListKeepsOnePerBay : Prop :=
  ∀ (waiting : List LoadSet) (f : LoadSet), (waiting.map (·.bay)).Nodup →
    ((queueSetpoint waiting f).map (·.bay)).Nodup ∧ f ∈ queueSetpoint waiting f ∧
    (∀ g ∈ waiting, g.bay ≠ f.bay → g ∈ queueSetpoint waiting f) ∧
    (f.bay ∉ waiting.map (·.bay) → queueSetpoint waiting f = waiting ++ [f]) ∧
    (f.bay ∈ waiting.map (·.bay) → (queueSetpoint waiting f).map (·.bay) = waiting.map (·.bay))

/-- The field link and its list of LOAD_SET frames (R201, R202). Where it rests on a choice of the model: log entries
16 and 20. -/
def Obligations.FieldLinkActs : Prop := Claim.FieldLinkCommandsAct ∧ Claim.LoadSetListKeepsOnePerBay

/-- A change of a read-back completes: while the window runs any level is taken; after it a disagreement starts its timer,
an agreement drops it, and a contactor seen open while commanded off is confirmed open (R61, R199). -/
def Claim.ReadbackChangesAreSupervised : Prop :=
  ∀ (o : Output) (level : Bool) (s : State), s.run = true →
    let v := s.sup o
    let c := Instr.readbackChange o level
    (v.readback = level → exec c s = .next s) ∧
    (v.readback ≠ level →
      ∃ t, exec c s = .next t ∧ OnlyOutputs [o] s t ∧ t.out.lineFault = s.out.lineFault ∧
        t = { s with bays := t.bays, out := t.out } ∧
        (∀ n, t.bay n = { s.bay n with confirmedOpen :=
          (s.bay n).confirmedOpen || (decide (o = .contactor n) && !level && !v.command) }) ∧
        (v.window ≠ none → t.sup o = { v with readback := level }) ∧
        (v.window = none → level = v.command →
          t.sup o = { v with readback := level, disagree := none, reported := false }) ∧
        (v.window = none → level ≠ v.command → v.reported = false →
          t.sup o = { v with readback := level, disagree := some 250 }) ∧
        (v.window = none → level ≠ v.command → v.reported = true → t.sup o = { v with readback := level }))

/-- The end of a window and of a disagreement timer complete: an agreeing window stops; a disagreement is reported to its
owner, which posts the incident the spec names with its direction as detail, faults a bay whose contactor is stuck, pauses
one whose contactor failed to close, and takes the permit off for a gate or the permit itself (R75, R105, R110, R128, R149,
R198, R199). -/
def Claim.MismatchesReachTheirOwners : Prop :=
  ∀ (o : Output) (s : State), s.run = true → Told s →
    let v := s.sup o
    let row := mismatchRow o v.command
    let b := s.banks.get row.1
    let reported := fun (t : State) =>
      t.cls = s.cls ∧ t.lot.shredLot = s.lot.shredLot ∧ t.atm = s.atm ∧ t.fire = s.fire ∧ Told t ∧
      (t.sup o).window ≠ some 0 ∧ (t.sup o).disagree ≠ some 0 ∧
      (b.held = none → b.enabled row.2.1 = true ∨ row.2.2.1 = .uncontained →
        ∃ i, (t.banks.get row.1).held = some i ∧ i.code = row.2.1 ∧ i.severity = row.2.2.1 ∧ i.detail = row.2.2.2) ∧
      (∀ k, k ≠ row.1 → k ≠ .feed → k ≠ .records → t.banks.get k = s.banks.get k) ∧
      (row.1 = .feed → t.feed.permit = false) ∧
      ((∀ n, o ≠ .contactor n) → t.bays = s.bays ∧ t.link = s.link ∧ (o ≠ .lowerGate → t.packs = s.packs)) ∧
      (∀ n, o = .contactor n → OnlyBay n s t ∧
        (v.command = false → (t.bay n).state = .faulted ∧
          ((s.bay n).state ≠ .faulted → (t.bay n).faultCause = some .outputMismatch)) ∧
        (v.command = true → (t.bay n).state = .paused ∧ (t.bay n).pauseCause = some .output ∧ t.packs = s.packs))
    (v.window ≠ some 0 → exec (.readbackWindowExpiry o) s = .next s) ∧
    (v.window = some 0 → v.readback = v.command →
      exec (.readbackWindowExpiry o) s = .next (s.setSup o { v with window := none })) ∧
    (v.window = some 0 → v.readback ≠ v.command → v.disagree ≠ some 0 →
      ∃ t, exec (.readbackWindowExpiry o) s = .next t ∧ reported t) ∧
    (v.disagree ≠ some 0 → exec (.disagreementTimerExpiry o) s = .next s) ∧
    (v.disagree = some 0 → v.window ≠ some 0 →
      ∃ t, exec (.disagreementTimerExpiry o) s = .next t ∧ reported t)

/-- Read-back supervision and what a mismatch does (R198, R199). Where it rests on a choice of the model: log entry
22. -/
def Obligations.ReadbacksAreSupervised : Prop := Claim.ReadbackChangesAreSupervised ∧ Claim.MismatchesReachTheirOwners

/-! ### Shred queue and feed lock -/

/-- R114: when a pack's dwell is expired. -/
def Claim.DwellRule : Prop :=
  ∀ (s : State) (p : Pack) (t : Stamp), p.dischargedAt = some t →
    (p.recheck = true → dwellExpired s p = true) ∧
    (p.recheck = false → (dwellExpired s p = true ↔
      t.epoch ≠ s.epoch ∨ p.treatment.dwell * 60 < s.clock / 1000 - t.seconds))

/-- ENQUEUE in the order of its checks: an expired dwell sets recheck required alone; a pack that passes joins the tail,
its bay empties and its energy moves to Z6 (R112, R113, R114). -/
def Claim.EnqueueJoinsTheTail : Prop :=
  ∀ (q : Byte) (h : Handle) (n : Fin 8) (s : State) (x : Pack), Ready .line s → h.gen < 256 →
    let u := touchPort .line s
    u.lookup h = some x → x.loc = .bay n →
    let c := Instr.enqueue .line q h.index.1 h.gen
    (x.state ≠ .discharged ∨ (u.bay n).state ≠ .done → exec c s = .next (answered .line c .wrongState [] u)) ∧
    (x.state = .discharged → (u.bay n).state = .done →
      (dwellExpired u x = true → exec c s =
        .next (answered .line c .recheckRequired [] (u.setPack h.index (some { x with recheck := true })))) ∧
      (dwellExpired u x = false →
        (6 ≤ u.feed.queueCount → exec c s = .next (answered .line c .full [] u)) ∧
        (u.feed.queueCount < 6 →
          (moveFrozen u x.zone (some 5) = true → exec c s = .next (answered .line c .frozen [] u)) ∧
          (moveFrozen u x.zone (some 5) = false →
            ∃ t, exec c s = .next t ∧ Answers .line c .ok (be 1 (u.feed.queue.length + 1)) t ∧
              t = { u with
                packs := vset u.packs h.index ⟨h.gen, some { x with state := .queued, loc := .buffer }⟩
                inventories := t.inventories
                bays := vset u.bays n (u.bay n).emptied
                feed := { u.feed with queue := u.feed.queue ++ [h] }
                fire := t.fire
                ports := t.ports } ∧
              EnergyMoved x.zone (some 5) x.standing u t ∧ PortsQuiet u t))))

/-- The dwell rule and ENQUEUE (R112, R113, R114). Where it rests on a choice of the model: log entry 13. -/
def Obligations.EnqueueUnderDwell : Prop := Claim.DwellRule ∧ Claim.EnqueueJoinsTheTail

/-- REMOVE completes to a bay, with recheck, and to the quarantine store, with cause OPERATOR; the packs behind close
up (R115). Where it rests on a choice of the model: log entry 24. -/
def Obligations.RemoveTakesThePackOut : Prop :=
  ∀ (q : Byte) (h : Handle) (n : Fin 8) (s : State) (x : Pack), Ready .line s → h.gen < 256 →
    let u := touchPort .line s
    u.lookup h = some x → x.state = .queued → x.loc = .buffer →
    let rest := u.feed.queue.filter (· != h)
    let c := Instr.remove .line q h.index.1 h.gen (n.1 + 1)
    let d := Instr.remove .line q h.index.1 h.gen 0
    ((u.bay n).state ≠ .empty → exec c s = .next (answered .line c .busy [] u)) ∧
    ((u.bay n).state = .empty → moveFrozen u (some 5) (some (bayZone n)) = true →
      exec c s = .next (answered .line c .frozen [] u)) ∧
    ((u.bay n).state = .empty → moveFrozen u (some 5) (some (bayZone n)) = false →
      ∃ t, exec c s = .next t ∧ Answers .line c .ok [] t ∧ TakesBay h x n true rest u t) ∧
    (moveFrozen u (some 5) (some 7) = true → exec d s = .next (answered .line d .frozen [] u)) ∧
    (moveFrozen u (some 5) (some 7) = false →
      ∃ t, exec d s = .next t ∧ Answers .line d .ok [] t ∧
        t = { u with
          packs := vset u.packs h.index
            ⟨h.gen, some { x with state := .quarantined, cause := some .operator, loc := .quarantine }⟩
          inventories := t.inventories, feed := { u.feed with queue := rest }, fire := t.fire, ports := t.ports } ∧
        EnergyMoved (some 5) (some 7) x.standing u t ∧ PortsQuiet u t)

/-- FEED in the order of its checks; a FEED that passes takes the head of the queue into the lock and opens the upper gate
(R118, R119). -/
def Obligations.FeedChecksInOrderAndLoadsTheLock : Prop :=
  ∀ (q : Byte) (h : Handle) (s : State) (x : Pack), Ready .line s → h.gen < 256 →
    let u := touchPort .line s
    u.lookup h = some x →
    let c := Instr.feed .line q h.index.1 h.gen
    let refused := fun r => exec c s = .next (answered .line c r [] u)
    (x.state ≠ .queued ∨ u.feed.queue.head? ≠ some h → refused .wrongState) ∧
    (x.state = .queued → u.feed.queue.head? = some h → x.loc = .buffer →
      (u.feed.lock.state ≠ .empty → refused .busy) ∧
      (u.feed.lock.state = .empty →
        (u.lot.switch ≠ none → refused .busy) ∧
        (u.lot.switch = none →
          (u.lot.shredLot ≠ some x.lot → refused .wrongLot) ∧
          (u.lot.shredLot = some x.lot →
            (u.feed.permit = false → refused .notPermitted) ∧
            (u.feed.permit = true →
              (dwellExpired u x = true → exec c s =
                .next (answered .line c .recheckRequired [] (u.setPack h.index (some { x with recheck := true })))) ∧
              (dwellExpired u x = false →
                (moveFrozen u (some 5) (some 6) = true → refused .frozen) ∧
                (moveFrozen u (some 5) (some 6) = false →
                  ∃ t, exec c s = .next t ∧ Answers .line c .ok [] t ∧
                    t = { u with
                      packs := vset u.packs h.index ⟨h.gen, some { x with
                        state := .feeding, loc := .feedLock, residualAtFeed := some x.standing }⟩
                      inventories := t.inventories
                      feed := { u.feed with queue := u.feed.queue.tail, lock := ⟨.loading, some h, false, false, none⟩ }
                      out := { u.out with upperGate := u.out.upperGate.setCommand true
                                          lowerGate := u.out.lowerGate.setCommand false }
                      fire := t.fire
                      ports := t.ports } ∧
                    EnergyMoved (some 5) (some 6) x.standing u t ∧ PortsQuiet u t)))))))

/-- LOCK_CLOSED and RETURN complete, each only where the lock's state lets it (R120, R124). -/
def Claim.LockClosedAndReturnMoveTheLock : Prop :=
  ∀ (q : Byte) (s : State), Ready .line s →
    let u := touchPort .line s
    let l := u.feed.lock
    let moved := fun (c : Instr) (k : Lock) (t : State) => exec c s = .next t ∧ Answers .line c .ok [] t ∧
      t = { u with
        feed := { u.feed with lock := k }
        out := { u.out with upperGate := u.out.upperGate.setCommand (k.state == .loading)
                            lowerGate := u.out.lowerGate.setCommand false }
        ports := t.ports } ∧ PortsQuiet u t
    (l.state = .loading → l.returning = false →
      ∃ t, moved (.lockClosed .line q)
        { l with state := .lockPurge, purgeTimer := some (u.feed.purgeTime * 1000) } t) ∧
    (l.state ≠ .loading ∨ l.returning = true →
      exec (.lockClosed .line q) s = .next (answered .line (.lockClosed .line q) .wrongState [] u)) ∧
    (∀ (h : Handle) (x : Pack), h.gen < 256 → u.lookup h = some x →
      let c := Instr.returnPack .line q h.index.1 h.gen
      let taken := (l.state = .loading ∨ l.state = .lockPurge ∨ l.state = .held) ∧ l.dropStarted = false ∧
        l.returning = false
      (x.state ≠ .feeding ∨ l.occupant ≠ some h → exec c s = .next (answered .line c .wrongState [] u)) ∧
      (x.state = .feeding → l.occupant = some h →
        (¬taken → exec c s = .next (answered .line c .wrongState [] u)) ∧
        (taken → 6 ≤ u.feed.queue.length → exec c s = .next (answered .line c .full [] u)) ∧
        (taken → u.feed.queue.length < 6 → moveFrozen u (some 6) (some 5) = true →
          exec c s = .next (answered .line c .frozen [] u)) ∧
        (taken → u.feed.queue.length < 6 → moveFrozen u (some 6) (some 5) = false →
          ∃ t, moved c { l with state := .loading, returning := true, purgeTimer := none } t)))

/-- DROP_DONE completes while drop started stands: the pack is SHREDDED, the lock EMPTY, the lot counts the pack and is
tested for closing; without drop started, or BLOCKED, it is refused (R15, R126, R159, R162, R163). -/
def Claim.DropDoneShredsThePack : Prop :=
  ∀ (q : Byte) (h : Handle) (s : State) (x : Pack) (l : Lot), Ready .line s → h.gen < 256 →
    let u := touchPort .line s
    let k := u.feed.lock
    u.lookup h = some x → u.lotAt x.lot = some l →
    let c := Instr.dropDone .line q h.index.1 h.gen
    (x.state ≠ .feeding ∨ k.occupant ≠ some h ∨ k.dropStarted = false ∨ k.state = .blocked →
      exec c s = .next (answered .line c .wrongState [] u)) ∧
    (x.state = .feeding → x.loc = .feedLock → k.occupant = some h → k.dropStarted = true → k.state ≠ .blocked →
      Settled 6 u →
      ∃ t, exec c s = .next t ∧ Answers .line c .ok [] t ∧
        LotTested x.lot { l with
          shredded := l.shredded + 1, shreddedMass := l.shreddedMass + x.mass, energy := l.energy + x.removed
          residualAtFeed := l.residualAtFeed + x.residualAtFeed.getD 0 } u.lot.shredLot u.lot.switch u t ∧
        t = { u with
          packs := vset u.packs h.index ⟨h.gen, some { x with state := .shredded, loc := .shredder }⟩
          inventories := t.inventories, lot := t.lot, feed := t.feed, fire := t.fire
          banks := { u.banks with records := t.banks.records, feed := t.banks.feed }, out := t.out
          ports := t.ports } ∧
        t.feed.lock = ⟨.empty, none, false, false, none⟩ ∧ t.feed.queue = u.feed.queue ∧
        t.out.upperGate.command = false ∧ t.out.lowerGate.command = false ∧
        (l.state ≠ .draining → t.feed.permit = u.feed.permit ∧ t.banks = u.banks ∧ t.out.permit = u.out.permit) ∧
        EnergyMoved (some 6) none x.standing u t ∧ OnlyFeedOutputs u t ∧ PortsQuiet u t)

/-- LOCK_EMPTIED completes from a return, to the head of the queue, and from a blocked lock, to the quarantine store; it is
refused in every other state, an EMPTY lock's included (R125). -/
def Claim.LockEmptiedEndsReturnOrBlock : Prop :=
  ∀ (q : Byte) (s : State), Ready .line s →
    let u := touchPort .line s
    let k := u.feed.lock
    let c := Instr.lockEmptied .line q
    let back := (k.state = .loading ∨ k.state = .held) ∧ k.returning = true
    (k.occupant = none ∨ ¬back ∧ k.state ≠ .blocked → exec c s = .next (answered .line c .wrongState [] u)) ∧
    (∀ (h : Handle) (x : Pack), k.occupant = some h → u.lookup h = some x → x.loc = .feedLock →
      x.state.terminal = false →
      let emptied := fun (y : Pack) (queue : List Handle) (dst : Fin 8) => ∃ t, exec c s = .next t ∧
        Answers .line c .ok [] t ∧ t.packs = vset u.packs h.index ⟨h.gen, some y⟩ ∧
        t.feed.lock = ⟨.empty, none, false, false, none⟩ ∧ t.feed.queue = queue ∧
        t.inventories = creditZone (some dst) x.standing (debitZone (some 6) x.standing u.inventories) ∧
        t.bays = u.bays ∧ t.link = u.link ∧ t.lot = u.lot ∧ t.cls = u.cls ∧
        ((u.zone 6).state ≠ .alarm → (u.zone dst).state ≠ .alarm →
          t = { u with
            packs := t.packs, inventories := t.inventories
            feed := { u.feed with lock := t.feed.lock, queue := t.feed.queue }
            out := { u.out with upperGate := u.out.upperGate.setCommand false
                                lowerGate := u.out.lowerGate.setCommand false }
            fire := t.fire, ports := t.ports } ∧
          EnergyMoved (some 6) (some dst) x.standing u t ∧ PortsQuiet u t)
      (back → emptied { x with state := .queued, loc := .buffer, residualAtFeed := none } (h :: u.feed.queue) 5) ∧
      (k.state = .blocked → emptied { x with loc := .quarantine } u.feed.queue 7))

/-- A mismatch of the lower gate quarantines the occupant of a working lock, blocks the lock, marks the pack's lot and posts
FEED_UNCERTAIN with detail 1; a RELEASE of Z7 does the same with cause LOCK_RELEASED, and marks the lot with detail 4 where
drop started stood (R127, R128, R160). -/
def Claim.GateMismatchAndZ7BlockTheLock : Prop :=
  ∀ (q : Byte) (s : State) (h : Handle) (x : Pack),
    let blocks := fun (c : Instr) (u : State) (cause : QuarantineCause) (detail : Option Nat) => ∃ t, exec c s = .next t ∧
      t.packs = vset u.packs h.index ⟨h.gen, some { x with state := .quarantined, cause := some cause }⟩ ∧
      t.inventories = u.inventories ∧ t.feed.lock = ⟨.blocked, some h, false, false, none⟩ ∧
      t.feed.queue = u.feed.queue ∧ t.feed.permit = false ∧
      t.out.upperGate.command = false ∧ t.out.lowerGate.command = false ∧
      (∀ k, detail = some k →
        t.lot = { u.lot with
          lots := vset u.lot.lots x.lot ((u.lotAt x.lot).map fun l => { l with uncertain := true }) } ∧
        Posted .records [uncertainty k h x] u t) ∧
      (detail = none → t.lot = u.lot ∧ t.banks.records = u.banks.records)
    let held := fun u : State => SiteLaw u ∧ PermitLaw u ∧ Told u ∧ u.feed.lock.occupant = some h ∧
      u.feed.lock.state ≠ .blocked ∧ u.lookup h = some x
    let v := s.sup .lowerGate
    (s.run = true → held s → v.disagree = some 0 → v.window ≠ some 0 →
      blocks (.disagreementTimerExpiry .lowerGate) s .feedUncertain (some 1)) ∧
    (s.run = true → held s → v.window = some 0 → v.readback ≠ v.command →
      blocks (.readbackWindowExpiry .lowerGate) s .feedUncertain (some 1)) ∧
    (Ready .fire s →
      let u := touchPort .fire s
      held u → (u.zone 6).state ≠ .released → (u.zone 6).state ≠ .isolated →
      blocks (.release .fire q 7 248 170) u .lockReleased (if u.feed.lock.dropStarted then some 4 else none))

/-- DROP_DONE, LOCK_EMPTIED, and what blocks the lock with its pack (R15, R125 to R128, R159, R160, R162, R163). Where it rests
on a choice of the model: log entries 8 and 27. -/
def Obligations.LockGivesUpItsPack : Prop :=
  Claim.DropDoneShredsThePack ∧ Claim.LockEmptiedEndsReturnOrBlock ∧ Claim.GateMismatchAndZ7BlockTheLock

/-- The lock purge timer's expiry opens the lower gate; one that is not due changes nothing. WRITE_FEED clamps and writes
the purge time (R121, R129; log entry 4: that an expiry not due is no event). -/
def Claim.LockPurgeTimerAndTime : Prop :=
  ∀ (s : State), s.run = true →
    let l := s.feed.lock
    (l.state = .lockPurge → l.purgeTimer = some 0 →
      ∃ t, exec .lockPurgeTimerExpiry s = .next t ∧ PortsQuiet s t ∧
        t = { s with
          feed := { s.feed with lock := { l with state := .dropping, dropStarted := true, purgeTimer := none } }
          out := { s.out with upperGate := s.out.upperGate.setCommand false
                              lowerGate := s.out.lowerGate.setCommand true }
          ports := t.ports }) ∧
    (¬(l.state = .lockPurge ∧ l.purgeTimer = some 0) → exec .lockPurgeTimerExpiry s = .next s) ∧
    (∀ (q : Byte) (seconds : Nat), Ready .line s →
      let u := touchPort .line s
      let v := max 5 (min 120 seconds)
      exec (.writeFeed .line q seconds) s =
        .next (answered .line (.writeFeed .line q seconds) .ok (be 1 v) { u with feed.purgeTime := v }))

/-- LOCK_CLOSED, RETURN, the lock purge timer and WRITE_FEED (R120, R121, R124, R129). -/
def Obligations.LockMovesToTheDrop : Prop := Claim.LockClosedAndReturnMoveTheLock ∧ Claim.LockPurgeTimerAndTime

/-- An evaluation of the permit: the level is the condition of R108; going off it holds a lock that moves toward the
shredder, with drop started kept; and a HELD lock resumes when its conditions are back (R108, R109, R122, R123). -/
def Obligations.PermitEvaluation : Prop :=
  ∀ s : State,
    let t := evalPermit s
    let i := s.feed.inputs
    (t.feed.permit = true ↔ i.inert = .inert ∧ i.z6 = .normal ∧ i.z7 = .normal ∧ i.firePresent = true ∧
      i.uncontained = false ∧ i.shredLotSet = true) ∧
    t.feed.inputs = i ∧ t.feed.queue = s.feed.queue ∧
    (t.feed.permit ≠ s.feed.permit → t.out.permit = s.out.permit.setCommand t.feed.permit) ∧
    (t.feed.permit = s.feed.permit → t.out.permit = s.out.permit) ∧
    (s.feed.permit = true → t.feed.permit = false → s.feed.lock.movesByPermit = true → s.feed.lock.returning = false →
      t.feed.lock = { s.feed.lock with state := .held, purgeTimer := none }) ∧
    (s.feed.lock.state = .held → s.feed.lock.returning = false → t.feed.permit = true →
      s.ports.line.present = true →
      t.feed.lock = { s.feed.lock with state := .lockPurge, purgeTimer := some (s.feed.purgeTime * 1000) }) ∧
    (s.feed.lock.state = .held → s.feed.lock.returning = true → i.z6 = .normal → i.z7 = .normal →
      s.ports.line.present = true → t.feed.lock = { s.feed.lock with state := .loading }) ∧
    (s.feed.lock.state = .empty ∨ s.feed.lock.state = .blocked → t.feed.lock = s.feed.lock) ∧
    (t.feed.permit = s.feed.permit → s.feed.lock.state ≠ .held → t = s) ∧
    t = { s with feed := t.feed, banks := t.banks, out := t.out, ports := t.ports } ∧ PermitFrame s t

/-! ### Atmosphere -/

/-- R97, the table of inert states. -/
def Claim.InertTable : Prop :=
  ∀ a : Atmosphere, a.limits.purge < a.limits.run → a.limits.run < a.limits.trip →
    let o := a.oxygen
    let l := a.limits
    (a.state = .vented → inertOutcome a = .vented) ∧
    (a.state = .purging → o ≤ l.purge → inertOutcome a = .holding) ∧
    (a.state = .purging → l.purge < o → inertOutcome a = .purging) ∧
    (a.state = .holding → l.trip ≤ o → inertOutcome a = .tripped) ∧
    (a.state = .holding → l.purge < o → o < l.trip → inertOutcome a = .purging) ∧
    (a.state = .holding → o ≤ l.purge → inertOutcome a = .holding) ∧
    (a.state = .inert → l.trip ≤ o → inertOutcome a = .tripped) ∧
    (a.state = .inert → l.run < o → o < l.trip → inertOutcome a = .purging) ∧
    (a.state = .inert → o ≤ l.run → inertOutcome a = .inert) ∧
    (a.state = .tripped → inertOutcome a = .tripped)

/-- INERT_START, INERT_STOP, INERT_RESET and the hold timer's expiry complete: the state, its timers, the purge request and
the Feed Controller's copy follow (R98, R99, R101, R102, R103, R105). -/
def Claim.InertRequestsChangeTheState : Prop :=
  ∀ (q : Byte) (s : State),
    let enters := fun (i : Instr) (u : State) (st : InertState) => ∃ t, exec i s = .next t ∧
      (∀ h, i.head = some h → Answers h.1 i .ok [] t) ∧
      t.atm = u.atm.entered st ∧ t.feed.inputs = { u.feed.inputs with inert := st } ∧
      t.out.purge = u.out.purge.setCommand (st != .vented || u.atm.z7Released) ∧
      t.banks.atmosphere = u.banks.atmosphere ∧ InertFrame u t
    (Ready .line s →
      let u := touchPort .line s
      let c := Instr.inertStart .line q
      let d := Instr.inertStop .line q
      (u.atm.state = .vented → enters c u .purging) ∧
      (u.atm.state ≠ .vented → exec c s = .next (answered .line c .wrongState [] u)) ∧
      (u.atm.state = .vented ∨ u.atm.state = .tripped → exec d s = .next (answered .line d .wrongState [] u)) ∧
      (u.atm.state ≠ .vented → u.atm.state ≠ .tripped → u.feed.lock.state ≠ .empty →
        exec d s = .next (answered .line d .busy [] u)) ∧
      (u.atm.state ≠ .vented → u.atm.state ≠ .tripped → u.feed.lock.state = .empty → enters d u .vented)) ∧
    (Ready .fire s →
      let u := touchPort .fire s
      let c := Instr.inertReset .fire q 0 255 166
      (u.atm.state ≠ .tripped → exec c s = .next (answered .fire c .wrongState [] u)) ∧
      (u.atm.state = .tripped → u.atm.limits.purge < u.atm.oxygen →
        exec c s = .next (answered .fire c .notPermitted [] u)) ∧
      (u.atm.state = .tripped → u.atm.oxygen ≤ u.atm.limits.purge → enters c u .holding)) ∧
    (s.run = true → s.atm.state = .holding → s.atm.holdTimer = some 0 → enters .holdTimerExpiry s .inert) ∧
    (s.run = true → ¬(s.atm.state = .holding ∧ s.atm.holdTimer = some 0) → exec .holdTimerExpiry s = .next s)

/-- WRITE_INERT_LIMITS completes: bad limits change nothing; good ones are written together with the clamped times,
and the machine is evaluated with them at once (R97, R104). Where it rests on a choice of the model: log entry 23. -/
def Obligations.InertLimitsAreEvaluatedAtOnce : Prop :=
  ∀ (q : Byte) (purge run trip hold maxPurge : Nat) (s : State), Ready .fire s →
    let u := touchPort .fire s
    let c := Instr.writeInertLimits .fire q purge run trip hold maxPurge
    let good := purge ≤ 1200 ∧ run ≤ 1200 ∧ trip ≤ 1200 ∧ purge < run ∧ run < trip
    let l : InertLimits := ⟨purge, run, trip, max 10 (min 600 hold), max 60 (min 3600 maxPurge)⟩
    let a := { u.atm with limits := l }
    (¬good → exec c s = .next (answered .fire c .malformed [] u)) ∧
    (good → ∃ t, exec c s = .next t ∧ Answers .fire c .ok (wLimits l) t ∧ t.atm.limits = l ∧
      t.atm.state = inertOutcome a ∧ InertFrame u t ∧
      (inertOutcome a = a.state →
        t.atm = { a with timeoutReported := t.atm.timeoutReported } ∧
        (t.atm.timeoutReported = true ↔ a.timeoutReported = true ∨ ∃ k, a.purgeClock = some k ∧ l.maxPurge * 1000 ≤ k)) ∧
      (inertOutcome a ≠ a.state → t.atm = a.entered (inertOutcome a)))

/-- A reading and an age expiry complete: the analyzer, the effective oxygen of the valid ones, the discrepancy flag
and the evaluation; a reading of another address, status or range changes nothing (R92 to R97). Where it rests on a
choice of the model: log entry 4. -/
def Obligations.AnalyzerEventsMoveTheOxygen : Prop :=
  ∀ (s : State), s.run = true → s.link.receiver = .hunting →
    let moves := fun (i : Instr) (a b : Analyzer) => ∃ t, exec i s = .next t ∧
      (let ox := match a.valid, b.valid, a.latest, b.latest with
        | true, true, some x, some y => max x.value y.value
        | true, false, some x, _ => x.value
        | false, true, _, some y => y.value
        | _, _, _, _ => 2100
      let gap := (a.latest.elim 0 (·.value) : Int) - b.latest.elim 0 (·.value)
      let disc := if a.valid && b.valid then decide (50 < gap.natAbs) else s.atm.discrepancy
      let m := { s.atm with a := a, b := b, oxygen := ox, discrepancy := disc }
      ((inertOutcome m = m.state → t.atm = m) ∧ (inertOutcome m ≠ m.state → t.atm = m.entered (inertOutcome m)) ∧
        InertFrame s t ∧ (a.valid = s.atm.a.valid → b.valid = s.atm.b.valid → disc = s.atm.discrepancy →
          inertOutcome m = m.state → t.banks = s.banks)))
    (∀ (ox st : Nat) (k : AnalyzerStatus), statusAt st = some k → ox ≤ 2500 →
      let r : Analyzer := ⟨some ⟨min ox 2100, decide (2100 < ox), k, s.clock⟩, decide (k = .ok)⟩
      ((s.atm.b.valid = true → s.atm.b.latest ≠ none) → moves (.analyzerReading 9 ox st) r s.atm.b) ∧
      ((s.atm.a.valid = true → s.atm.a.latest ≠ none) → moves (.analyzerReading 10 ox st) s.atm.a r)) ∧
    (∀ (adr ox st : Nat), (adr ≠ 9 ∧ adr ≠ 10) ∨ 2500 < ox ∨ 2 < st → exec (.analyzerReading adr ox st) s = .next s) ∧
    (∀ r : Reading, s.atm.a.latest = some r → s.atm.a.valid = true → r.arrival + 5000 ≤ s.clock →
      (s.atm.b.valid = true → s.atm.b.latest ≠ none) →
      moves (.analyzerAgeExpiry .a) { s.atm.a with valid := false } s.atm.b) ∧
    (∀ r : Reading, s.atm.b.latest = some r → s.atm.b.valid = true → r.arrival + 5000 ≤ s.clock →
      (s.atm.a.valid = true → s.atm.a.latest ≠ none) →
      moves (.analyzerAgeExpiry .b) s.atm.a { s.atm.b with valid := false }) ∧
    (s.atm.a.valid = false → exec (.analyzerAgeExpiry .a) s = .next s)

/-- The purge clock at its maximum posts PURGE_TIMEOUT once in a stay in PURGING, and the machine stays as it is (R98). -/
def Claim.PurgeTimeoutIsPostedOnce : Prop :=
  ∀ (s : State), s.run = true →
    (∀ k, s.atm.purgeClock = some k → s.atm.limits.maxPurge * 1000 ≤ k → s.atm.timeoutReported = false →
      ∃ t, exec .purgeTimeout s = .next t ∧ t.atm = { s.atm with timeoutReported := true } ∧ InertFrame s t ∧
        t.out.purge = s.out.purge ∧
        (s.banks.atmosphere.enabled .purgeTimeout = true →
          t.banks.atmosphere.number = (s.banks.atmosphere.number + 1) % 2 ^ 32)) ∧
    (s.atm.purgeClock = none ∨ s.atm.timeoutReported = true → exec .purgeTimeout s = .next s) ∧
    (∀ k, s.atm.purgeClock = some k → k < s.atm.limits.maxPurge * 1000 → exec .purgeTimeout s = .next s)

/-- The table of inert states, the requests and the timers that change the state (R97 to R103). Where it rests on a
choice of the model: log entry 4. -/
def Obligations.InertStateChanges : Prop :=
  Claim.InertTable ∧ Claim.InertRequestsChangeTheState ∧ Claim.PurgeTimeoutIsPostedOnce

/-! ### Lots -/

/-- OPEN_LOT in the order of its checks; one that passes takes the lowest FREE slot (R158). -/
def Claim.OpenLotTakesTheLowestFreeSlot : Prop :=
  ∀ (q : Byte) (number : Nat) (s : State), Ready .custody s →
    let u := touchPort .custody s
    let c := Instr.openLot .custody q number
    (2 ^ 32 ≤ number → exec c s = .next (answered .custody c .malformed [] u)) ∧
    (number < 2 ^ 32 →
      ((∃ j l, u.lotAt j = some l ∧ l.number = number) → exec c s = .next (answered .custody c .duplicate [] u)) ∧
      ((∀ j l, u.lotAt j = some l → l.number ≠ number) →
        ((∀ j, u.lotAt j ≠ none) → exec c s = .next (answered .custody c .full [] u)) ∧
        (∀ j : Fin 8, u.lotAt j = none → (∀ k, k < j → u.lotAt k ≠ none) →
          ∃ t, exec c s = .next t ∧ Answers .custody c .ok (be 1 j.1) t ∧ PortsQuiet u t ∧
            t = { u with
              lot := { u.lot with lots := vset u.lot.lots j (some
                { state := .opened, number := number, admitted := 0, shredded := 0, withdrawn := 0, intakeMass := 0
                  shreddedMass := 0, withdrawnMass := 0, outputMass := 0, energy := 0, residualAtFeed := 0
                  final := false, uncertain := false, balance := none, recovery := none, openedAt := u.now
                  closedAt := none }) }
              ports := t.ports })))

/-- R163: the balance of a closing lot. -/
def Claim.BalanceArithmetic : Prop :=
  ∀ (l : Lot) (lo hi : Nat),
    (l.shreddedMass = 0 → lotBalance l lo hi = (.notApplicable, none)) ∧
    (0 < l.shreddedMass →
      let r := l.outputMass * 1000 / l.shreddedMass
      (lo ≤ r → r ≤ hi → lotBalance l lo hi = (.within, some r)) ∧
      (r < lo ∨ hi < r → lotBalance l lo hi = (.exception, some r)))

/-- CLOSE_LOT completes: an OPEN lot drains, and closes at once with its balance when all its records are terminal and its
output, if it shredded any, is final; closing takes it out of the shred lot and ends a switch to it (R161, R162, R163,
R166, R170). -/
def Claim.CloseLotDrainsOrCloses : Prop :=
  ∀ (q : Byte) (j : Fin 8) (s : State), Ready .custody s →
    let u := touchPort .custody s
    let c := Instr.closeLot .custody q j.1
    (u.lotAt j = none → exec c s = .next (answered .custody c .wrongState [] u)) ∧
    (∀ l, u.lotAt j = some l →
      let done := (∀ i x, (u.record i).pack = some x → x.lot = j → x.state.terminal = true) ∧
        (0 < l.shredded → l.final = true)
      (l.state ≠ .opened → exec c s = .next (answered .custody c .wrongState [] u)) ∧
      (l.state = .opened → ¬done →
        ∃ t, exec c s = .next t ∧ Answers .custody c .ok [] t ∧ PortsQuiet u t ∧
          t = { u with
            lot := { u.lot with lots := vset u.lot.lots j (some { l with state := .draining }) }, ports := t.ports }) ∧
      (l.state = .opened → done →
        let b := lotBalance l u.lot.boundLow u.lot.boundHigh
        ∃ t, exec c s = .next t ∧ Answers .custody c .ok [] t ∧ PortsQuiet u t ∧ OnlyFeedOutputs u t ∧
          t = { u with lot := t.lot, feed := t.feed, banks := t.banks, out := t.out, ports := t.ports } ∧
          t.lot.lots = vset u.lot.lots j
            (some { l with state := .closed, closedAt := some u.now, balance := some b.1, recovery := b.2 }) ∧
          t.lot.shredLot = (if u.lot.shredLot = some j then none else u.lot.shredLot) ∧
          t.lot.switch = u.lot.switch.filter (fun w => w.target != j) ∧
          t.lot.boundLow = u.lot.boundLow ∧ t.lot.boundHigh = u.lot.boundHigh ∧ t.feed.queue = u.feed.queue ∧
          (b.1 ≠ .exception → t.banks.records = u.banks.records)))

/-- RELEASE_LOT completes: every record of the CLOSED lot is freed with its generation advanced, the slot becomes FREE, and
the response counts the records (R1, R16, R165). -/
def Claim.ReleaseLotFreesItsRecords : Prop :=
  ∀ (q : Byte) (j : Fin 8) (s : State), Ready .custody s →
    let u := touchPort .custody s
    let c := Instr.releaseLot .custody q j.1
    ((∀ l, u.lotAt j = some l → l.state ≠ .closed) → exec c s = .next (answered .custody c .wrongState [] u)) ∧
    (∀ l, u.lotAt j = some l → l.state = .closed →
      ∃ t, exec c s = .next t ∧
        Answers .custody c .ok (be 2 (u.packs.toList.countP fun r => r.pack.any fun x => x.lot == j)) t ∧
        PortsQuiet u t ∧
        t = { u with
          packs := t.packs, lot := { u.lot with lots := vset u.lot.lots j none }, ports := t.ports } ∧
        (∀ i, (∀ x, (u.record i).pack = some x → x.lot ≠ j) → t.record i = u.record i) ∧
        (∀ i x, (u.record i).pack = some x → x.lot = j → t.record i = ⟨((u.record i).gen + 1) % 256, none⟩))

/-- CLOSE_LOT with its balance, and RELEASE_LOT (R16, R161 to R165). Where it rests on a choice of the model: log
entry 13. -/
def Obligations.LotsCloseAndRelease : Prop :=
  Claim.BalanceArithmetic ∧ Claim.CloseLotDrainsOrCloses ∧ Claim.ReleaseLotFreesItsRecords

/-- The lots whose output may be weighed, and a lock that holds a FEEDING pack (R167). -/
def Claim.WeighableLotsAndFeedingLocks : Prop :=
  ∀ (s : State) (j : Fin 8),
    (weighable s j = true ↔ s.lot.shredLot = some j ∨ ∃ w, s.lot.switch = some w ∧ w.old = j ∧ w.finalSeen = false) ∧
    (lockFeeding s = true ↔ ∃ h x, s.feed.lock.occupant = some h ∧ s.lookup h = some x ∧ x.state = .feeding)

/-- OUTPUT_WEIGHT in the order of its checks; it completes by adding the mass, and a final weight takes the lot out of service,
completes a switch whose chamber is clear, and tests the lot for closing (R162, R163, R166, R167, R169). -/
def Claim.OutputWeightIsBooked : Prop :=
  ∀ (q : Byte) (j : Fin 8) (mass : Nat) (final : Bool) (s : State), Ready .custody s →
    let u := touchPort .custody s
    let c := Instr.outputWeight .custody q j.1 mass (if final then 1 else 0)
    (∀ i m f : Nat, 7 < i ∨ 100000000 < m ∨ 1 < f → exec (.outputWeight .custody q i m f) s =
      .next (answered .custody (.outputWeight .custody q i m f) .malformed [] u)) ∧
    (mass ≤ 100000000 → ∀ l : Lot, u.lotAt j = some l →
      let m := l.outputMass + mass
      let busy := final = true ∧ u.lot.shredLot = some j ∧ lockFeeding u = true
      (l.final = true → exec c s = .next (answered .custody c .wrongState [] u)) ∧
      (l.final = false → weighable u j = false → exec c s = .next (answered .custody c .wrongLot [] u)) ∧
      (l.final = false → weighable u j = true →
        (busy → exec c s = .next (answered .custody c .busy [] u)) ∧
        (¬busy → 2 ^ 48 ≤ m → exec c s = .next (answered .custody c .full [] u)) ∧
        (final = false → m < 2 ^ 48 →
          exec c s = .next (answered .custody c .ok (be 8 m) { u with
            lot := { u.lot with lots := vset u.lot.lots j (some { l with outputMass := m }) } })) ∧
        (final = true → ¬busy → m < 2 ^ 48 →
          let shred := if u.lot.shredLot = some j then none else u.lot.shredLot
          let after : Option (Fin 8) × Option Switch := match u.lot.switch with
            | none => (shred, none)
            | some w =>
              if w.old ≠ j then (shred, some w)
              else if w.chamberClear = true then (some w.target, none) else (shred, some { w with finalSeen := true })
          ∃ t, exec c s = .next t ∧ Answers .custody c .ok (be 8 m) t ∧
            LotTested j { l with outputMass := m, final := true } after.1 after.2 u t ∧
            t = { u with
              lot := t.lot, feed := t.feed, banks := { u.banks with records := t.banks.records, feed := t.banks.feed }
              out := t.out, ports := t.ports } ∧
            t.feed.queue = u.feed.queue ∧ PortsQuiet u t ∧ OnlyFeedOutputs u t)))

/-- SWITCH_SHRED_LOT, CANCEL_SWITCH and CHAMBER_CLEAR complete: immediate where nothing of the shred lot has been shredded,
else by a record that both reports complete or a cancel ends (R166, R168, R169, R170). -/
def Claim.SwitchesOfTheShredLot : Prop :=
  ∀ (q : Byte) (j : Fin 8) (s : State),
    let becomes := fun (p : Port) (c : Instr) (u : State) (body : List Byte) (shred : Option (Fin 8))
        (w : Option Switch) => ∃ t, exec c s = .next t ∧ Answers p c .ok body t ∧
      t = { u with
        lot := { u.lot with shredLot := shred, switch := w }
        feed := t.feed, banks := t.banks, out := t.out, ports := t.ports } ∧
      t.feed.inputs = { u.feed.inputs with shredLotSet := shred.isSome } ∧ PermitFrame u t
    (Ready .custody s →
      let u := touchPort .custody s
      let c := Instr.switchShredLot .custody q j.1
      let d := Instr.cancelSwitch .custody q
      (u.lot.switch ≠ none ∨ u.feed.lock.state ≠ .empty → exec c s = .next (answered .custody c .busy [] u)) ∧
      (u.lot.switch = none → u.feed.lock.state = .empty →
        ((u.lotAt j = none ∨ ∃ l, u.lotAt j = some l ∧ (l.state = .closed ∨ l.final = true)) →
          exec c s = .next (answered .custody c .wrongState [] u)) ∧
        (∀ l, u.lotAt j = some l → l.state ≠ .closed → l.final = false →
          (u.lot.shredLot = some j → exec c s = .next (answered .custody c .ok [] u)) ∧
          (u.lot.shredLot = none → becomes .custody c u (be 1 0) (some j) none) ∧
          (∀ o k, u.lot.shredLot = some o → o ≠ j → u.lotAt o = some k →
            (k.shredded = 0 → becomes .custody c u (be 1 0) (some j) none) ∧
            (0 < k.shredded → becomes .custody c u (be 1 1) (some o) (some ⟨o, j, false, false⟩))))) ∧
      (u.lot.switch = none → exec d s = .next (answered .custody d .wrongState [] u)) ∧
      (u.lot.switch ≠ none → becomes .custody d u [] u.lot.shredLot none)) ∧
    (Ready .line s →
      let u := touchPort .line s
      let c := Instr.chamberClear .line q
      (u.lot.switch = none → exec c s = .next (answered .line c .wrongState [] u)) ∧
      (∀ w, u.lot.switch = some w →
        (w.chamberClear = true → exec c s = .next (answered .line c .ok [] u)) ∧
        (w.chamberClear = false → w.finalSeen = false →
          becomes .line c u [] u.lot.shredLot (some { w with chamberClear := true })) ∧
        (w.chamberClear = false → w.finalSeen = true → becomes .line c u [] (some w.target) none)))

/-- OUTPUT_WEIGHT and the switching of the shred lot (R162, R163, R166 to R170). Where it rests on a choice of the model: log
entries 10, 13, 21 and 26. -/
def Obligations.OutputAndShredLot : Prop :=
  Claim.WeighableLotsAndFeedingLocks ∧ Claim.OutputWeightIsBooked ∧ Claim.SwitchesOfTheShredLot

/-- SET_RECOVERY_BOUNDS completes: a minimum above the maximum as sent is MALFORMED, others are clamped to 2,000 and
written together (R164). -/
def Claim.RecoveryBoundsAreClamped : Prop :=
  ∀ (q : Byte) (low high : Nat) (s : State), Ready .custody s → low ≤ 65535 → high ≤ 65535 →
    let u := touchPort .custody s
    let c := Instr.setRecoveryBounds .custody q low high
    (high < low → exec c s = .next (answered .custody c .malformed [] u)) ∧
    (low ≤ high → exec c s = .next (answered .custody c .ok (be 2 (min 2000 low) ++ be 2 (min 2000 high))
      { u with lot.boundLow := min 2000 low, lot.boundHigh := min 2000 high }))

/-- OPEN_LOT and SET_RECOVERY_BOUNDS (R158, R164). -/
def Obligations.LotsOpenAndBounds : Prop := Claim.OpenLotTakesTheLowestFreeSlot ∧ Claim.RecoveryBoundsAreClamped

/-! ### Classification -/

/-- WRITE_TREATMENT: a field out of range is refused with no change, times are clamped, the entry is written whole (R26,
R27). -/
def Claim.TreatmentEntriesAreWritten : Prop :=
  ∀ (q : Byte) (index : Nat) (f : TreatmentFields) (s : State), Ready .line s →
    let u := touchPort .line s
    let c := Instr.writeTreatment .line q index f
    let good := index ≤ 7 ∧ f.refuse ≤ 1 ∧ f.acceptDamaged ≤ 1 ∧ f.limit ≤ 1000 ∧ f.cap ≤ 100000 ∧ f.curve ≤ 3 ∧
      1000 ≤ f.current ∧ f.current ≤ 400000 ∧ 1500 ≤ f.stop ∧ f.stop ≤ 4500 ∧ f.retries ≤ 7 ∧ 200 ≤ f.maxTemp ∧
      f.maxTemp ≤ 800
    (¬good → exec c s = .next (answered .line c .malformed [] u)) ∧
    (good → ∀ (i : Fin 8) (k : Fin 4), i.1 = index → k.1 = f.curve →
      let e : Treatment :=
        { refuse := f.refuse == 1, acceptDamaged := f.acceptDamaged == 1, limit := f.limit, cap := f.cap, curve := k
          current := f.current, stop := f.stop, segment := max 10 (min 3600 f.segment), rest := max 60 (min 7200 f.rest)
          retries := f.retries, dwell := max 10 (min 1440 f.dwell), maxTemp := f.maxTemp }
      exec c s = .next (answered .line c .ok (wTreatment e) { u with
        cls := { u.cls with treatments := vset u.cls.treatments i e } }))

/-- WRITE_RANGE, WRITE_SLOT_MAP and SET_MAP write their entry whole or change nothing (R29, R30, R31). -/
def Claim.MapEntriesAreWritten : Prop :=
  ∀ (q : Byte) (index low high tr en : Nat) (s : State), Ready .line s →
    let u := touchPort .line s
    let a := Instr.writeRange .line q index low high tr en
    let b := Instr.writeSlotMap .line q index tr en
    let c := Instr.setMap .line q en tr
    (7 < index ∨ 16777215 < low ∨ 16777215 < high ∨ high < low ∨ 7 < tr ∨ 1 < en →
      exec a s = .next (answered .line a .malformed [] u)) ∧
    (15 < index ∨ 7 < tr ∨ 1 < en → exec b s = .next (answered .line b .malformed [] u)) ∧
    (7 < tr ∨ 1 < en → exec c s = .next (answered .line c .malformed [] u)) ∧
    (∀ k : Fin 8, k.1 = tr → en ≤ 1 →
      (∀ i : Fin 8, i.1 = index → high ≤ 16777215 → low ≤ high →
        exec a s = .next (answered .line a .ok (be 4 low ++ be 4 high ++ be 1 tr ++ be 1 en)
          { u with cls := { u.cls with ranges := vset u.cls.ranges i ⟨low, high, k, en == 1⟩ } })) ∧
      (∀ i : Fin 16, i.1 = index →
        exec b s = .next (answered .line b .ok (be 1 tr ++ be 1 en)
          { u with cls := { u.cls with slots := vset u.cls.slots i ⟨k, en == 1⟩ } })) ∧
      exec c s = .next (answered .line c .ok (be 1 en ++ be 1 tr)
        { u with cls := { u.cls with mapOn := en == 1, defaultTreatment := k } }))

/-- The writes of the treatment table and of the treatment map (R26, R27, R29, R30, R31). -/
def Obligations.ConfigurationIsWrittenWhole : Prop := Claim.TreatmentEntriesAreWritten ∧ Claim.MapEntriesAreWritten

/-- The treatment of a type code: the default with the map off, else the first chosen of those the enabled ranges name,
else the enabled slot of its family, else the default (R33, R34). -/
def Obligations.ClassificationPicksTheTreatment : Prop :=
  ∀ (c : Classification) (tc : Nat),
    let cand := fun t : Fin 8 => ∃ i : Fin 8, (vget c.ranges i).enabled = true ∧ (vget c.ranges i).low ≤ tc ∧
      tc ≤ (vget c.ranges i).high ∧ (vget c.ranges i).treatment = t
    let k := classify c tc
    (c.mapOn = false → k = c.defaultTreatment) ∧
    (c.mapOn = true →
      ((∃ t, cand t) → cand k ∧ ∀ t, cand t → t ≠ k → ChosenBefore c.treatments k t) ∧
      (¬(∃ t, cand t) →
        (∀ f : Fin 16, f.1 = tc / 1048576 →
          ((vget c.slots f).enabled = true → k = (vget c.slots f).treatment) ∧
          ((vget c.slots f).enabled = false → k = c.defaultTreatment)) ∧
        (16 ≤ tc / 1048576 → k = c.defaultTreatment)))

/-- CURVE_BEGIN and CURVE_POINT complete in the order of their checks (R37, R38). -/
def Claim.CurvesAreRewritten : Prop :=
  ∀ (q : Byte) (k : Fin 4) (mv frac : Nat) (s : State), Ready .line s →
    let u := touchPort .line s
    let b := Instr.curveBegin .line q k.1
    let p := Instr.curvePoint .line q k.1 mv frac
    let x := vget u.cls.curves k
    let written := fun y : Curve => { u with cls := { u.cls with curves := vset u.cls.curves k y } }
    ((∃ j, j ≠ k ∧ (vget u.cls.curves j).status = .rewriting) → exec b s = .next (answered .line b .busy [] u)) ∧
    ((∀ j, j ≠ k → (vget u.cls.curves j).status ≠ .rewriting) →
      exec b s = .next (answered .line b .ok [] (written ⟨.rewriting, []⟩))) ∧
    (65535 < mv ∨ 65535 < frac → exec p s = .next (answered .line p .malformed [] u)) ∧
    (mv ≤ 65535 → frac ≤ 65535 →
      (x.status ≠ .rewriting → exec p s = .next (answered .line p .wrongState [] u)) ∧
      (x.status = .rewriting →
        (12 ≤ x.points.length → exec p s = .next (answered .line p .full [] u)) ∧
        (x.points.length < 12 →
          exec p s = .next (answered .line p .ok (be 1 (x.points.length + 1))
            (written { x with points := x.points ++ [⟨mv, frac⟩] }))))) ∧
    (∀ n, 3 < n →
      exec (.curveBegin .line q n) s = .next (answered .line (.curveBegin .line q n) .malformed [] u) ∧
      exec (.curvePoint .line q n mv frac) s =
        .next (answered .line (.curvePoint .line q n mv frac) .malformed [] u) ∧
      exec (.curveEnd .line q n) s = .next (answered .line (.curveEnd .line q n) .malformed [] u))

/-- A fresh sample, and the check that a bay would run now: its pack's residual check on its last sample, where the sample is
fresh and the pack's curve VALID (R41, R62, R82). -/
def Claim.FreshSamplesAndReadyChecks : Prop :=
  ∀ (n : Fin 8) (s : State),
    let b := s.bay n
    (∀ clock, b.fresh clock = true ↔ ∃ x, b.lastSample = some x ∧ clock ≤ x.arrival + 2000) ∧
    (∀ i y k, readyCheck n s = some (i, y, k) ↔
      s.occupantPack n = some (i, y) ∧ b.fresh s.clock = true ∧ (vget s.cls.curves y.treatment.curve).status = .valid ∧
      ∃ x, b.lastSample = some x ∧ residualCheck y x.voltage (vget s.cls.curves y.treatment.curve).points = some k)

/-- CURVE_END completes: a curve that meets the four conditions becomes VALID, and each RESTING bay whose deferred check waits
for that curve runs it where its sample is fresh, the others waiting on; any other curve becomes INVALID, keeps its points
and is reported (R39, R40, R63 to R66). -/
def Claim.CurvesAreJudged : Prop :=
  ∀ (q : Byte) (k : Fin 4) (s : State), Ready .line s →
    let u := touchPort .line s
    let c := Instr.curveEnd .line q k.1
    let x := vget u.cls.curves k
    let good := 2 ≤ x.points.length ∧ x.points.length ≤ 12 ∧ x.points.Pairwise (fun a b => a.mv < b.mv) ∧
      x.points.Pairwise (fun a b => a.frac ≤ b.frac) ∧ (∀ p ∈ x.points, p.frac ≤ 1000)
    let written := fun st : CurveStatus => { u with cls := { u.cls with curves := vset u.cls.curves k ⟨st, x.points⟩ } }
    let waits := fun n : Fin 8 => (u.bay n).state = .resting ∧ (u.bay n).deferred = true ∧
      ∃ i y, u.occupantPack n = some (i, y) ∧ y.treatment.curve = k
    (x.status ≠ .rewriting → exec c s = .next (answered .line c .wrongState [] u)) ∧
    (x.status = .rewriting → good →
      ((∀ n, ¬waits n) → exec c s = .next (answered .line c .ok (be 1 0) (written .valid))) ∧
      (SiteLaw u →
        ∃ t, exec c s = .next t ∧ Answers .line c .ok (be 1 0) t ∧ t.cls = (written .valid).cls ∧ PortsQuiet u t ∧
          t.lot = u.lot ∧ t.atm = u.atm ∧ t.feed.queue = u.feed.queue ∧ t.fire.detectors = u.fire.detectors ∧
          (∀ n, waits n → ∀ i y, u.occupantPack n = some (i, y) →
            (∀ r, readyCheck n (written .valid) = some (i, y, r) → Checked n i y r u t) ∧
            (readyCheck n (written .valid) = none → t.bay n = u.bay n ∧ t.record i = u.record i)) ∧
          (∀ n, ¬waits n → t.bay n = u.bay n ∧ t.sup (.contactor n) = u.sup (.contactor n)) ∧
          (∀ i, (∀ n y, waits n → u.occupantPack n ≠ some (i, y)) → t.record i = u.record i))) ∧
    (x.status = .rewriting → ¬good → Told u →
      ∃ t, exec c s = .next t ∧ curveFault x.points ≠ none ∧
        (∀ f, curveFault x.points = some f → Answers .line c .ok (be 1 2 ++ be 1 f.1 ++ be 1 f.2) t) ∧
        PortsQuiet u t ∧
        t = { written .invalid with
          banks := { u.banks with discharge := t.banks.discharge }
          out := { u.out with lineFault := lineFaultLevel t.banks }, ports := t.ports } ∧
        Posted .discharge [{ code := .curveInvalid, severity := .advisory, detail := k.1 }] u t)

/-- The reason and position CURVE_END gives: the first of the four conditions that fails, and the first point that breaks
it (R39). -/
def Claim.CurveFaultsAreNamed : Prop :=
  ∀ points : List Point,
    let rising := fun n : Nat => ∀ i, i < n → ∀ a b, points[i]? = some a → points[i + 1]? = some b → a.mv < b.mv
    let even := fun n : Nat => ∀ i, i < n → ∀ a b, points[i]? = some a → points[i + 1]? = some b → a.frac ≤ b.frac
    let held := fun n : Nat => ∀ i, i < n → ∀ a, points[i]? = some a → a.frac ≤ 1000
    let enough := 2 ≤ points.length ∧ points.length ≤ 12
    (¬enough → curveFault points = some (0, points.length)) ∧
    (enough →
      (∀ i, i < 12 → ∀ a b, points[i]? = some a → points[i + 1]? = some b → b.mv ≤ a.mv → rising i →
        curveFault points = some (1, i + 2)) ∧
      (rising 12 →
        (∀ i, i < 12 → ∀ a b, points[i]? = some a → points[i + 1]? = some b → b.frac < a.frac → even i →
          curveFault points = some (2, i + 2)) ∧
        (even 12 →
          (∀ i, i < 12 → ∀ a, points[i]? = some a → 1000 < a.frac → held i → curveFault points = some (3, i + 1)) ∧
          (held 12 → curveFault points = none))))

/-- CURVE_BEGIN, CURVE_POINT and CURVE_END, with the deferred checks a VALID curve wakes (R37 to R41, R62 to R66, R82). Where
it rests on a choice of the model: log entries 13, 17, 19 and 21. -/
def Obligations.CurvesAreRewrittenAndJudged : Prop :=
  Claim.CurvesAreRewritten ∧ Claim.FreshSamplesAndReadyChecks ∧ Claim.CurvesAreJudged ∧ Claim.CurveFaultsAreNamed

/-! ### LINE_RESTART -/

/-- LINE_RESTART completes: bays and their packs go back to LOADED or DONE with the default profile, a working lock is
blocked with its pack, the monitor is VENTED, an open switch ends, and what R190 leaves is left (R25, R77, R107, R131,
R170, R190). Where it rests on a choice of the model: log entries 11 and 29. -/
def Obligations.LineRestartReturnsTheLine : Prop :=
  ∀ (q : Byte) (target : Nat) (s : State), Ready .line s → target ≤ 255 →
    let u := touchPort .line s
    let c := Instr.lineRestart .line q target (255 - target) 188
    (0 < target → exec c s = .next (answered .line c .malformed [] u)) ∧
    (target = 0 → SiteLaw u → PermitLaw u →
      ∃ t, exec c s = .next t ∧ Answers .line c .ok [] t ∧ PortsQuiet u t ∧
        t = { u with
          packs := t.packs, inventories := t.inventories, bays := t.bays, atm := t.atm, feed := t.feed, lot := t.lot
          banks := t.banks, out := t.out, link := t.link, ports := t.ports } ∧
        t.atm = (if u.atm.state = .purging ∨ u.atm.state = .holding ∨ u.atm.state = .inert then
          u.atm.entered .vented else u.atm) ∧
        t.lot.switch = none ∧ t.lot.shredLot = u.lot.shredLot ∧ t.feed.queue = u.feed.queue ∧
        t.feed.permit = permitHolds t.feed.inputs ∧ t.feed.inputs = { u.feed.inputs with inert := t.atm.state } ∧
        (u.feed.lock.working = false → t.feed.lock = ⟨u.feed.lock.state, u.feed.lock.occupant, false, false, none⟩ ∧
          t.banks = u.banks ∧ t.lot.lots = u.lot.lots) ∧
        (u.feed.lock.working = true → ∀ h x, u.feed.lock.occupant = some h → u.lookup h = some x →
          t.feed.lock = ⟨.blocked, some h, false, false, none⟩ ∧
          (t.record h.index).pack = (if x.state = .quarantined then some x
            else some { x with state := .quarantined, cause := some .feedUncertain }) ∧
          t.lotAt x.lot = (u.lotAt x.lot).map fun l => { l with uncertain := true }) ∧
        (∀ n i x, u.occupantPack n = some (i, x) →
          ((u.bay n).state = .faulted → (u.bay n).faultCause = some .outputMismatch →
            t.bay n = (u.bay n).defaultSlots x.treatment) ∧
          ((u.bay n).state ≠ .faulted ∨ (u.bay n).faultCause ≠ some .outputMismatch →
            (t.record i).pack =
              (match x.state with
                | .discharging | .resting => some { x with state := .loaded }
                | .discharged => some { x with recheck := true }
                | _ => some x) ∧
            (t.sup (.contactor n)).command = false ∧
            t.bay n = { ((u.bay n).defaultSlots x.treatment) with
              state := if x.state = .loaded ∨ x.state = .discharging ∨ x.state = .resting then .loaded else .done
              elapsed := 0, rest := none, deferred := false, pauseCause := none, faultCause := none, setpoint := 0
              overRef := 0, overEnd := none, confirmedOpen := (t.bay n).confirmedOpen })) ∧
        (∀ n, u.occupantPack n = none →
          t.bay n = if (u.bay n).state = .faulted ∧ (u.bay n).faultCause ≠ some .outputMismatch then (u.bay n).emptied
            else u.bay n))

/-! ### Fire zones -/

/-- The parts of the alarm condition, the lowest that holds being the one reported (R140). -/
def Obligations.AlarmCondition : Prop :=
  ∀ (s : State) (z : Fin 8),
    let mine := fun d : Fin 24 => (s.detector d).zone = some z
    let active := fun d : Fin 24 => mine d ∧ (s.detector d).state = .active
    let counted := fun d : Fin 24 => mine d ∧ ((s.detector d).state = .active ∨ (s.detector d).state = .rearming)
    let healthy := fun d : Fin 24 => mine d ∧ (s.detector d).state ≠ .faulted
    let one := ∃ d e, d ≠ e ∧ active d ∧ counted e
    let two := ∃ d, active d ∧ (s.detector d).kind = .flame
    let three := (¬∃ d e, d ≠ e ∧ healthy d ∧ healthy e) ∧ ∃ d, active d
    let part := alarmPart (zoneDetectors s z)
    (part = none ↔ ¬one ∧ ¬two ∧ ¬three) ∧ (part = some 1 ↔ one) ∧ (part = some 2 ↔ ¬one ∧ two) ∧
    (part = some 3 ↔ ¬one ∧ ¬two ∧ three)

/-- The commands of a detector's line complete: the detector follows its transitions, its zone is evaluated when it is
assigned and its state has changed (R133, R135 to R141). -/
def Claim.DetectorsFollowTheirLines : Prop :=
  ∀ (d : Fin 24) (l : LineState) (s : State), s.run = true →
    let x := s.detector d
    let c := Instr.detectorLineChange d l
    let dwell := s.fire.dwell
    let rearm := s.fire.rearm * 1000
    let becomes := fun y : Detector => ∃ t, exec c s = .next t ∧ t.detector d = y ∧ OnlyDetector d s t ∧
      ZoneFrame s t ∧ (x.state = y.state → t = s.setDetector d y) ∧
      (∀ z, x.zone ≠ some z ∨ x.state = y.state → t.zone z = s.zone z) ∧
      (∀ z, x.zone = some z → x.state ≠ y.state → Judged z (s.setDetector d y) t)
    let failing := { x with line := l, state := .confirmingFault, prior := some x.state, timer := some dwell }
    let proving := { x with line := l, state := .confirming, prior := none, timer := some dwell }
    let rearming := { x with line := l, state := .rearming, prior := none, timer := some rearm }
    let quiet : Detector := { x with line := l, state := .normal, prior := none, timer := none, faultShort := none }
    (l = x.line → exec c s = .next s) ∧
    (l ≠ x.line →
      ((l = .opened ∨ l = .short) →
        (x.state ≠ .confirmingFault → x.state ≠ .faulted → becomes failing) ∧
        (x.state = .confirmingFault → becomes { x with line := l }) ∧
        (x.state = .faulted → becomes { x with line := l, timer := none })) ∧
      (l = .active →
        (x.state = .normal ∨ x.state = .rearming → becomes proving) ∧
        (x.state = .confirmingFault → x.prior = some .active →
          becomes { x with line := l, state := .active, prior := none, timer := none }) ∧
        (x.state = .confirmingFault →
          x.prior = some .normal ∨ x.prior = some .confirming ∨ x.prior = some .rearming → becomes proving) ∧
        (x.state = .faulted → becomes { x with line := l, timer := none })) ∧
      (l = .normal →
        (x.state = .confirming → becomes quiet) ∧
        (x.state = .active → becomes rearming) ∧
        (x.state = .confirmingFault → x.prior = some .active ∨ x.prior = some .rearming → becomes rearming) ∧
        (x.state = .confirmingFault → x.prior = some .normal ∨ x.prior = some .confirming → becomes quiet) ∧
        (x.state = .faulted → becomes { x with line := l, timer := some rearm })))

/-- The expiries of a detector's timer complete; one that is not due changes nothing (R135 to R138; log entry 4: that an
expiry not due is no event). -/
def Claim.DetectorTimersAct : Prop :=
  ∀ (d : Fin 24) (s : State), s.run = true →
    let x := s.detector d
    let acts := fun (c : Instr) (st : DetectorState) (y : Detector) =>
      (x.state = st → x.timer = some 0 → ∃ t, exec c s = .next t ∧ t.detector d = y ∧ OnlyDetector d s t ∧
        ZoneFrame s t ∧ (∀ z, x.zone ≠ some z → t.zone z = s.zone z) ∧
        (∀ z, x.zone = some z → Judged z (s.setDetector d y) t)) ∧
      (¬(x.state = st ∧ x.timer = some 0) → exec c s = .next s)
    acts (.detectorDwellExpiry d) .confirming { x with state := .active, timer := none } ∧
    acts (.faultDwellExpiry d) .confirmingFault
      { x with state := .faulted, prior := none, timer := none, faultShort := some (x.line == .short) } ∧
    acts (.rearmExpiry d) .rearming { x with state := .normal, prior := none, timer := none, faultShort := none } ∧
    acts (.recoveryTimerExpiry d) .faulted { x with state := .normal, prior := none, timer := none, faultShort := none }

/-- A detector follows its line and its timers, and drives its zone (R133 to R143). -/
def Obligations.DetectorsDriveTheirZones : Prop := Claim.DetectorsFollowTheirLines ∧ Claim.DetectorTimersAct

/-- WRITE_DETECTOR completes: the map entry is replaced, the context kept, and the new and the old zone are evaluated
(R132). -/
def Claim.DetectorMapIsWritten : Prop :=
  ∀ (q : Byte) (d : Fin 24) (zn kn : Nat) (z : Option (Fin 8)) (k : DetectorKind) (s : State), Ready .fire s →
    zn = z.elim 0 (fun a => a.1 + 1) → kindOfNumber kn = some k →
    let u := touchPort .fire s
    let x := u.detector d
    let y := { x with zone := z, kind := k }
    let c := Instr.writeDetector .fire q (d.1 + 1) zn kn
    let frozen := ∃ a, (x.zone = some a ∨ z = some a) ∧ (u.zone a).state.escalated = true
    (frozen → exec c s = .next (answered .fire c .frozen [] u)) ∧
    (¬frozen → ∃ t, exec c s = .next t ∧ Answers .fire c .ok (be 1 zn ++ be 1 kn) t ∧ t.detector d = y ∧
      OnlyDetector d u t ∧ ZoneFrame u t ∧ (∀ a, x.zone ≠ some a → z ≠ some a → t.zone a = u.zone a) ∧
      (∀ a, x.zone = some a ∨ z = some a → Judged a (u.setDetector d y) t)) ∧
    (∀ n m j : Nat, n = 0 ∨ 24 < n ∨ 8 < m ∨ 3 < j →
      exec (.writeDetector .fire q n m j) s =
        .next (answered .fire (.writeDetector .fire q n m j) .malformed [] u))

/-- WRITE_FIRE_TIMES and WRITE_ZONE complete; a zone in ALARM is evaluated for release with its new threshold (R134,
R153). -/
def Claim.FireParametersAreWritten : Prop :=
  ∀ (q : Byte) (a b : Nat) (z : Fin 8) (s : State), Ready .fire s →
    let u := touchPort .fire s
    let c := Instr.writeFireTimes .fire q a b
    let w := Instr.writeZone .fire q (z.1 + 1) a b
    let dwell := max 100 (min 5000 a)
    let rearm := max 1 (min 120 b)
    let x := { u.zone z with threshold := a, delay := min 120 b }
    exec c s = .next (answered .fire c .ok (be 2 dwell ++ be 1 rearm)
      { u with fire := { u.fire with dwell := dwell, rearm := rearm } }) ∧
    (10000000 < a → exec w s = .next (answered .fire w .malformed [] u)) ∧
    (a ≤ 10000000 →
      (x.state ≠ .alarm →
        exec w s = .next (answered .fire w .ok (be 4 a ++ be 1 (min 120 b)) (u.setZone z x))) ∧
      (x.state = .alarm → ∃ t, exec w s = .next t ∧ Answers .fire w .ok (be 4 a ++ be 1 (min 120 b)) t ∧
        ReleaseJudged x u.ports.fire.present (t.zone z) ∧ OnlyZone z u t ∧ t.fire.detectors = u.fire.detectors ∧
        ZoneFrame u t)) ∧
    (∀ n, n = 0 ∨ 8 < n → exec (.writeZone .fire q n a b) s =
      .next (answered .fire (.writeZone .fire q n a b) .malformed [] u))

/-- WRITE_DETECTOR, WRITE_FIRE_TIMES and WRITE_ZONE (R132, R134, R153). -/
def Obligations.FireConfigurationIsWritten : Prop := Claim.DetectorMapIsWritten ∧ Claim.FireParametersAreWritten

/-- HOLD, HOLD_END, ISOLATE_ZONE and RESTORE_ZONE complete, each only in the zone states its rule gives (R145, R151,
R152). -/
def Claim.ZoneRequestsAct : Prop :=
  ∀ (q : Byte) (z : Fin 8) (s : State), Ready .fire s →
    let u := touchPort .fire s
    let x := u.zone z
    let n := z.1 + 1
    let refused := fun (c : Instr) (r : Result) => exec c s = .next (answered .fire c r [] u)
    let holds := fun (c : Instr) (on : Bool) =>
      (x.state ≠ .releasePending → refused c .wrongState) ∧
      (x.state = .releasePending → x.hold = on → exec c s = .next (answered .fire c .ok [] u)) ∧
      (x.state = .releasePending → x.hold ≠ on → ∃ t, exec c s = .next t ∧ Answers .fire c .ok [] t ∧
        PortsQuiet u t ∧ t = { u.setZone z { x with hold := on } with ports := t.ports })
    let i := Instr.isolateZone .fire q n
    let r := Instr.restoreZone .fire q n
    holds (.hold .fire q n) true ∧ holds (.holdEnd .fire q n) false ∧
    (x.state ≠ .normal → refused i .wrongState) ∧
    (x.state = .normal → (∃ k p, (u.record k).pack = some p ∧ p.zone = some z) → refused i .busy) ∧
    (x.state = .normal → (∀ k p, (u.record k).pack = some p → p.zone ≠ some z) →
      ∃ t, exec i s = .next t ∧ Answers .fire i .ok [] t ∧ PermitFrame u t ∧
        t = { u.setZone z { x with state := .isolated } with
          feed := t.feed, banks := t.banks, out := t.out, ports := t.ports } ∧
        (z = 5 ∨ z = 6 → t.feed.permit = false) ∧ (z ≠ 5 → z ≠ 6 → t.feed = u.feed ∧ t.banks = u.banks)) ∧
    (x.state ≠ .isolated → refused r .wrongState) ∧
    (x.state = .isolated → ∃ t, exec r s = .next t ∧ Answers .fire r .ok [] t ∧ OnlyZone z u t ∧
      t.fire.detectors = u.fire.detectors ∧ ZoneFrame u t ∧ Judged z (u.setZone z { x with state := .normal }) t) ∧
    (∀ k, k = 0 ∨ 8 < k → refused (.hold .fire q k) .malformed ∧ refused (.holdEnd .fire q k) .malformed ∧
      refused (.isolateZone .fire q k) .malformed ∧ refused (.restoreZone .fire q k) .malformed)

/-- RELEASE with its guard right, and the release timer's expiry, complete (R144, R147, R148). Where it rests on a
choice of the model: log entries 4 and 27. -/
def Obligations.ReleaseFiresTheOutput : Prop :=
  ∀ (q : Byte) (z : Fin 8) (s : State),
    (Ready .fire s →
      let u := touchPort .fire s
      let c := Instr.release .fire q (z.1 + 1) (254 - z.1) 170
      ((u.zone z).state = .released → exec c s = .next (answered .fire c .ok [] u)) ∧
      ((u.zone z).state = .isolated → exec c s = .next (answered .fire c .wrongState [] u)) ∧
      ((u.zone z).state ≠ .released → (u.zone z).state ≠ .isolated →
        ∃ t, exec c s = .next t ∧ Answers .fire c .ok [] t ∧ EntersReleased z 3 u t) ∧
      (∀ n, (n = 0 ∨ 8 < n) → n ≤ 255 →
        exec (.release .fire q n (255 - n) 170) s =
          .next (answered .fire (.release .fire q n (255 - n) 170) .malformed [] u))) ∧
    (s.run = true →
      let due := (s.zone z).state = .releasePending ∧ (s.zone z).hold = false ∧ (s.zone z).timer = some 0
      (due → ∃ t, exec (.releaseTimerExpiry z) s = .next t ∧ EntersReleased z 1 s t) ∧
      (¬due → exec (.releaseTimerExpiry z) s = .next s))

/-- ZONE_RESET with its guard right completes: the zone is NORMAL, its release output off, its incidents kept (R150). -/
def Claim.ZoneResetReturnsToNormal : Prop :=
  ∀ (q : Byte) (z : Fin 8) (s : State), Ready .fire s →
    let u := touchPort .fire s
    let x := u.zone z
    let c := Instr.zoneReset .fire q (z.1 + 1) (254 - z.1) 169
    let busy := ∃ d, (u.detector d).zone = some z ∧ ((u.detector d).state = .confirming ∨ (u.detector d).state = .active)
    (x.state ≠ .alarm → x.state ≠ .releasePending → x.state ≠ .released →
      exec c s = .next (answered .fire c .wrongState [] u)) ∧
    (x.state = .alarm ∨ x.state = .releasePending ∨ x.state = .released →
      (busy → exec c s = .next (answered .fire c .notPermitted [] u)) ∧
      (¬busy → ∃ t, exec c s = .next t ∧ Answers .fire c .ok [] t ∧
        t.zone z = { x with state := .normal, hold := false, timer := none } ∧ OnlyZone z u t ∧
        t.sup (.release z) = (u.sup (.release z)).setCommand false ∧
        (∀ y, y ≠ z → t.sup (.release y) = u.sup (.release y)) ∧ t.packs = u.packs ∧ t.bays = u.bays ∧
        t.inventories = u.inventories ∧ t.link = u.link ∧ t.lot = u.lot ∧ t.fire.detectors = u.fire.detectors ∧
        t.banks = { u.banks with feed := t.banks.feed } ∧
        t.atm = { u.atm with z7Released := if z = 6 ∧ x.state = .released then false else u.atm.z7Released } ∧
        ZoneFrame u t)) ∧
    (∀ n, (n = 0 ∨ 8 < n) → n ≤ 255 →
      exec (.zoneReset .fire q n (255 - n) 169) s =
        .next (answered .fire (.zoneReset .fire q n (255 - n) 169) .malformed [] u))

/-- HOLD, HOLD_END, ISOLATE_ZONE, RESTORE_ZONE and ZONE_RESET (R145, R150, R151, R152). -/
def Obligations.ZonesAreHeldResetAndIsolated : Prop := Claim.ZoneRequestsAct ∧ Claim.ZoneResetReturnsToNormal

/-! ### Incident banks -/

/-- How a bank takes a posting (R176), what follows from it (R177, R181), and what the Feed Controller is told (R180). -/
def Obligations.PostingsAreTakenByTheirBank : Prop :=
  ∀ (p : Posting) (s : State),
    let b := s.banks.get p.code.bank
    let t := postRaw p s
    let a := t.banks.get p.code.bank
    let i := p.incident s.now
    (b.enabled p.code = false → p.severity ≠ .uncontained → t = s) ∧
    (b.enabled p.code = true ∨ p.severity = .uncontained →
      a.number = (b.number + 1) % 2 ^ 32 ∧ a.enables = b.enables ∧
      (b.held = none → a.held = some i ∧ a.overflow = b.overflow) ∧
      (∀ h, b.held = some h → a.overflow = true ∧
        (h.severity.rank < p.severity.rank → a.held = some i) ∧
        (p.severity.rank ≤ h.severity.rank → a.held = some h)) ∧
      (∀ k, k ≠ p.code.bank → t.banks.get k = s.banks.get k) ∧ t.out.lineFault = lineFaultLevel t.banks ∧
      t = { s with banks := t.banks, out := { s.out with lineFault := t.out.lineFault }, ports := t.ports } ∧
      (∀ r, r ∉ p.code.bank.subscribers → t.port r = s.port r) ∧
      (∀ r ∈ p.code.bank.subscribers, t.port r = (s.port r).enqueue
        ⟨.incident p.code.bank p.code p.severity p.detail a.number (b.take i).2, s.now⟩)) ∧
    (post p s).feed.inputs.uncontained = bankAnswer (post p s).banks

/-- CLEAR_BANK in the order of its checks; a clear empties the record, keeps number and enables, and tells the Feed
Controller (R179, R180, R181). -/
def Claim.BanksAreCleared : Prop :=
  ∀ (q : Byte) (p : Port) (n number : Nat) (b : BankId) (s : State), Ready p s → allBanks[n]? = some b →
    let u := touchPort p s
    let x := u.banks.get b
    let c := Instr.clearBank p q n number
    let mine := match b with
      | .links => True
      | .records => p = .custody
      | .discharge => p = .line
      | .feed => p = .line
      | .atmosphere => p = .fire
      | .fire => p = .fire
    (2 ^ 32 ≤ number → exec c s = .next (answered p c .malformed [] u)) ∧
    (number < 2 ^ 32 →
      (¬mine → exec c s = .next (answered p c .denied [] u)) ∧
      (mine → x.held = none → exec c s = .next (answered p c .ok (be 4 x.number) u)) ∧
      (mine → x.held ≠ none → number ≠ x.number → exec c s = .next (answered p c .stale [] u)) ∧
      (mine → x.held ≠ none → number = x.number → Told u → u.feed.permit = permitHolds u.feed.inputs →
        ∃ t, exec c s = .next t ∧ Answers p c .ok (be 4 number) t ∧
          t.banks = u.banks.put b { x with held := none, overflow := false } ∧
          t.out.lineFault = lineFaultLevel t.banks ∧ t.feed.inputs.uncontained = bankAnswer t.banks ∧
          t.feed.permit = permitHolds t.feed.inputs ∧
          t.feed = { u.feed with permit := t.feed.permit, inputs := t.feed.inputs, lock := t.feed.lock } ∧
          (bankAnswer t.banks = bankAnswer u.banks → t.feed = u.feed) ∧
          t = { u with feed := t.feed, banks := t.banks, out := t.out, ports := t.ports } ∧
          OnlyFeedOutputs u t ∧ PortsQuiet u t)) ∧
    (∀ k, 5 < k → exec (.clearBank p q k number) s =
      .next (answered p (.clearBank p q k number) .malformed [] u))

/-- SET_REPORT_ENABLES writes the enables of a bank, keeping on those that cannot be disabled, and touches nothing else
(R175; log entries 13 and 14: that the enables are a list with a count byte is the model's choice). -/
def Claim.ReportEnablesAreWritten : Prop :=
  ∀ (q : Byte) (p : Port) (n : Nat) (b : BankId) (es : List Nat) (s : State), Ready p s → allBanks[n]? = some b →
    let u := touchPort p s
    let c := Instr.setReportEnables p q n es
    let good := es.length = b.codes.length ∧ ∀ e ∈ es, e ≤ 1
    let kept : List Code := [.retentionLost, .o2Trip, .zoneAlarm, .zoneReleased, .releaseOutputMismatch, .gateMismatch,
      .permitOutputMismatch]
    let v := (b.codes.zip es).map fun x => decide (x.1 ∈ kept ∨ x.2 = 1)
    (¬good → exec c s = .next (answered p c .malformed [] u)) ∧
    (good → p ∉ b.clearers → exec c s = .next (answered p c .denied [] u)) ∧
    (good → p ∈ b.clearers → exec c s = .next (answered p c .ok (wList wBool v)
      { u with banks := u.banks.put b { u.banks.get b with enables := v } }))

/-- CLEAR_BANK and SET_REPORT_ENABLES (R175, R179). Where it rests on a choice of the model: log entries 13 and 14. -/
def Obligations.BankRequestsAct : Prop := Claim.BanksAreCleared ∧ Claim.ReportEnablesAreWritten

/-! ### Station links -/

/-- A notice joins a port's queue at the tail, or finds 16 and is dropped; FETCH_NOTICES takes up to eight from the
head and resets the marker; SET_PRESENCE_TIME clamps and restarts (R192, R193, R194). Where it rests on a choice of
the model: log entry 13. -/
def Claim.NoticesAreQueuedAndFetched : Prop :=
  ∀ (q : Byte) (p : Port) (what : NoticeBody) (seconds : Nat) (s : State),
    (let x := s.port p
     let y := (notify [p] what s).port p
     (x.notices.length < 16 → y = { x with notices := x.notices ++ [⟨what, ⟨s.epoch, s.clock / 1000⟩⟩] }) ∧
     (16 ≤ x.notices.length → y = { x with overflowed := true })) ∧
    (Ready p s →
      let u := touchPort p s
      let x := u.port p
      let f := Instr.fetchNotices p q
      let c := Instr.setPresenceTime p q seconds
      let v := match p with
        | .line => max 1 (min 30 seconds)
        | .fire => max 1 (min 10 seconds)
        | .custody => max 10 (min 600 seconds)
      exec f s = .next (answered p f .ok
        (be 1 (min 8 x.notices.length) ++ be 1 (x.notices.length - 8) ++ wBool x.overflowed ++
          (x.notices.take 8).flatMap (·.entry))
        (u.setPort p { x with notices := x.notices.drop 8, overflowed := false })) ∧
      exec c s = .next (answered p c .ok (be (presenceWidth p) v)
        (u.setPort p { x with presenceTime := v, timer := some (v * 1000) })))

/-- The notices of packs and bays: the queue of each subscribed port gets them in the order given, and no other port gets any
(R23, R48; log entry 8: the order where no rule gives it is the model's choice). -/
def Claim.PackAndBayNotices : Prop :=
  ∀ (q : Byte) (h : Handle) (x : Pack) (n m : Fin 8) (s : State), Ready .line s → h.gen < 256 →
    let u := touchPort .line s
    let b := u.bay n
    let queues := fun (c : Instr) (ns : List (List Port × NoticeBody)) => ∃ t, exec c s = .next t ∧ Queued ns u t
    (b.state = .discharging →
      queues (.pause .line q (n.1 + 1)) [([.line], .bay n .paused (some .line) b.faultCause b.occupant)]) ∧
    (b.state = .loaded → (u.zone (bayZone n)).state = .normal → b.fresh u.clock = true → b.recheck = false →
      u.occupantPack n = some (h.index, x) →
      queues (.start .line q (n.1 + 1))
        [([.line], .pack (u.handle h.index) .discharging x.loc),
         ([.line], .bay n .discharging none b.faultCause b.occupant)]) ∧
    (u.lookup h = some x →
      (x.state = .received → x.loc = .intake → b.state = .empty →
        moveFrozen u (some 0) (some (bayZone n)) = false →
        queues (.assign .line q h.index.1 h.gen (n.1 + 1))
          [([.line], .pack h .loaded (.bay n)), ([.line], .bay n .loaded none none (some h))]) ∧
      (x.state = .discharged → x.loc = .bay m → m ≠ n → (u.bay m).state = .done → b.state = .empty →
        moveFrozen u (some (bayZone m)) (some (bayZone n)) = false →
        queues (.assign .line q h.index.1 h.gen (n.1 + 1))
          [([.line], .pack h .loaded (.bay n)), ([.line], .bay m .empty none none none),
           ([.line], .bay n .loaded none none (some h))]) ∧
      (x.state = .quarantined → x.loc = .intake → moveFrozen u (some 0) (some 7) = false →
        queues (.move .line q h.index.1 h.gen 12) [([.line], .pack h .quarantined .quarantine)]) ∧
      (x.state = .queued → x.loc = .buffer →
        queues (.quarantine .line q h.index.1 h.gen) [([.line, .custody], .pack h .quarantined .buffer)]) ∧
      (x.state = .discharged → x.loc = .bay n → b.state = .done → dwellExpired u x = false →
        u.feed.queueCount < 6 → moveFrozen u (some (bayZone n)) (some 5) = false →
        queues (.enqueue .line q h.index.1 h.gen)
          [([.line], .pack h .queued .buffer), ([.line], .bay n .empty none none none)]))

/-- The notices of the lock, the permit, the inert state, a zone's hold and a bank's clear (R97, R109, R117, R154, R177). -/
def Claim.LockPermitAndZoneNotices : Prop :=
  ∀ (q : Byte) (z : Fin 8) (s : State),
    (Ready .line s →
      let u := touchPort .line s
      let l := u.feed.lock
      let queues := fun (c : Instr) (ns : List (List Port × NoticeBody)) => ∃ t, exec c s = .next t ∧ Queued ns u t
      (l.state = .loading → l.returning = false →
        queues (.lockClosed .line q) [([.line], .lock .lockPurge l.occupant l.dropStarted false)]) ∧
      (u.atm.state = .vented → u.feed.permit = false → l.state ≠ .held →
        queues (.inertStart .line q) [([.line, .fire], .inert .purging u.atm.oxygen)]) ∧
      (u.atm.state = .inert → u.feed.permit = true → permitHolds u.feed.inputs = true → l.state = .empty →
        queues (.inertStop .line q)
          [([.line, .fire], .permit false [.inert]), ([.line, .fire], .inert .vented u.atm.oxygen)]) ∧
      (u.banks.links.held ≠ none → u.banks.links.number < 2 ^ 32 → Told u →
        queues (.clearBank .line q 0 u.banks.links.number) [([.fire], .bankCleared .links u.banks.links.number)])) ∧
    (Ready .fire s →
      let u := touchPort .fire s
      let x := u.zone z
      let queues := fun (c : Instr) (ns : List (List Port × NoticeBody)) => ∃ t, exec c s = .next t ∧ Queued ns u t
      (x.state = .releasePending → x.hold = false →
        queues (.hold .fire q (z.1 + 1)) [([.line, .fire], .zone z .releasePending true x.timer x.inventory)]) ∧
      (x.state = .releasePending → x.hold = true →
        queues (.holdEnd .fire q (z.1 + 1)) [([.line, .fire], .zone z .releasePending false x.timer x.inventory)]))

/-- The notices of lots, of the shred lot, of a detector's fault and of a port's presence (R139, R171, R177, R191; log entry 8:
that the incident's notice comes before the detector's is the model's choice). -/
def Claim.LotDetectorAndPresenceNotices : Prop :=
  ∀ (q : Byte) (j : Fin 8) (d : Fin 24) (number : Nat) (s : State),
    (Ready .custody s →
      let u := touchPort .custody s
      let queues := fun (c : Instr) (ns : List (List Port × NoticeBody)) => ∃ t, exec c s = .next t ∧ Queued ns u t
      (number < 2 ^ 32 → (∀ k l, u.lotAt k = some l → l.number ≠ number) → u.lotAt j = none →
        (∀ k, k < j → u.lotAt k ≠ none) →
        queues (.openLot .custody q number) [([.custody], .lot j (some .opened) number none)]) ∧
      (∀ l, u.lotAt j = some l →
        (l.state = .closed → queues (.releaseLot .custody q j.1) [([.custody], .lot j none l.number none)]) ∧
        (l.state = .opened → (∃ i x, (u.record i).pack = some x ∧ x.lot = j ∧ x.state.terminal = false) →
          queues (.closeLot .custody q j.1) [([.custody], .lot j (some .draining) l.number none)]) ∧
        (l.state = .opened → (∀ i x, (u.record i).pack = some x → x.lot = j → x.state.terminal = true) →
          l.shredded = 0 → l.shreddedMass = 0 → u.lot.shredLot ≠ some j → (∀ w, u.lot.switch = some w → w.target ≠ j) →
          queues (.closeLot .custody q j.1)
            [([.custody], .lot j (some .draining) l.number none),
             ([.custody], .lot j (some .closed) l.number (some (some .notApplicable, none, l.uncertain)))])) ∧
      (u.lot.switch ≠ none → u.feed.inputs.shredLotSet = u.lot.shredLot.isSome →
        queues (.cancelSwitch .custody q) [([.line, .custody], .shredLot u.lot.shredLot none)])) ∧
    (s.run = true →
      let x := s.detector d
      let y := s.port .custody
      let b := s.banks.fire
      let short := x.line == .short
      let i : Incident := ⟨.contained, .detectorFault, d.1 + 1 + (if short then 256 else 0), none, none, none, false, s.now⟩
      let queues := fun (c : Instr) (ns : List (List Port × NoticeBody)) => ∃ t, exec c s = .next t ∧ Queued ns s t
      (x.state = .faulted → x.timer = some 0 → x.zone = none →
        queues (.recoveryTimerExpiry d) [([.fire], .detectorFault d .normal none none)]) ∧
      (x.state = .confirmingFault → x.timer = some 0 → x.zone = none → b.enabled .detectorFault = true → Told s →
        queues (.faultDwellExpiry d)
          [([.fire], .incident .fire .detectorFault .contained i.detail ((b.number + 1) % 2 ^ 32) (b.take i).2),
           ([.fire], .detectorFault d .faulted (some short) none)]) ∧
      (y.present = false → y.receiver = .hunting → y.received.length < 4 →
        queues (.stationFrameValid .custody q q []) [([.line, .fire], .presence .custody true)]) ∧
      (y.present = true → y.timer = some 0 → s.banks.links.enabled .stationAbsent = false →
        s.feed.inputs.uncontained = bankAnswer s.banks →
        queues (.presenceTimerExpiry .custody) [([.line, .fire], .presence .custody false)]))

/-- Notices in their queues, the notices each kind of change queues, and presence times (R23, R48, R97, R109, R117, R139, R154,
R171, R177, R191 to R194). Where it rests on a choice of the model: log entries 8 and 13. -/
def Obligations.NoticesAndPresenceTimes : Prop :=
  Claim.NoticesAreQueuedAndFetched ∧ Claim.PackAndBayNotices ∧ Claim.LockPermitAndZoneNotices ∧
    Claim.LotDetectorAndPresenceNotices

/-- A valid frame joins the receive list and restarts presence, or is an overrun; a discarded frame is counted and
ends the hunt; an idle line is counted and the hunt goes on; FRAME_ERRORS comes at the hundreds (R185, R186, R191).
Where it rests on a choice of the model: log entries 1 and 28. -/
def Claim.StationFramesJoinTheListOrAreCounted : Prop :=
  ∀ (p : Port) (q code : Byte) (body : List Byte) (why : FrameFault) (s : State), s.run = true →
    let x := s.port p
    let v := Instr.stationFrameValid p q code body
    let d := Instr.stationFrameDiscard p why
    let i := Instr.stationLineIdleTimeout p
    let n := min (x.errors + 1) 65535
    let full := 4 ≤ x.received.length
    let plain := 65535 ≤ x.errors ∨ (x.errors + 1) % 100 ≠ 0
    let counts := fun (c : Instr) (y : PortCtx) => (plain → exec c s = .next (s.setPort p y)) ∧
      (¬plain → Told s → ∃ t, exec c s = .next t ∧
        t.port p = { y with notices := (t.port p).notices, overflowed := (t.port p).overflowed } ∧
        (∀ r, r ≠ p → t.port r = { s.port r with notices := (t.port r).notices, overflowed := (t.port r).overflowed }) ∧
        t = { s with
          banks := { s.banks with links := t.banks.links }, out := { s.out with lineFault := lineFaultLevel t.banks }
          ports := t.ports } ∧
        (s.banks.links.enabled .frameErrors = false → t.banks = s.banks) ∧
        (s.banks.links.enabled .frameErrors = true → t.banks.links =
          (s.banks.links.take ⟨.advisory, .frameErrors, portNumber p, none, none, none, false, s.now⟩).1))
    exec (.stationPortHuntsAgain p) s = .next (s.setPort p { x with receiver := .hunting }) ∧
    (x.receiver = .ignoring → exec v s = .next s ∧ exec d s = .next s ∧ exec i s = .next s) ∧
    (x.receiver = .hunting →
      (¬full → x.present = true → exec v s = .next (s.setPort p { x with
        received := x.received ++ [⟨q, code, body⟩], timer := some (x.presenceTime * 1000) })) ∧
      (¬full → x.present = false → ∃ t, exec v s = .next t ∧ PermitFrame (s.setPort p (t.port p)) t ∧
        t.port p = { x with
          received := x.received ++ [⟨q, code, body⟩], timer := some (x.presenceTime * 1000), present := true
          notices := (t.port p).notices, overflowed := (t.port p).overflowed } ∧
        t = { s with feed := t.feed, banks := t.banks, out := t.out, ports := t.ports }) ∧
      (full → x.present = true →
        counts v { x with errors := n, receiver := .ignoring, timer := some (x.presenceTime * 1000) }) ∧
      (why ≠ .overrun → counts d { x with errors := n, receiver := .ignoring }) ∧
      (why = .overrun → ¬full → exec d s = .next s) ∧
      (why = .overrun → full → x.present = true →
        counts d { x with errors := n, receiver := .ignoring, timer := some (x.presenceTime * 1000) }) ∧
      counts i { x with errors := n })

/-- A request is carried out by its one owner in the same way whether its frame arrives at an empty list or stands at the head
of the list, which it leaves; where its port may not issue it, it is DENIED; behind another frame it is a valid frame like
any other (R186, R191; log entry 1: the model's choice). -/
def Claim.RequestsAreTakenFromTheList : Prop :=
  ∀ (i : Instr) (p : Port) (q : Byte) (c : Nat), i.head = some (p, q, c) →
    ∃ owner : State → Reply, ∀ s : State, s.run = true →
      let x := s.port p
      let taken := fun v : State =>
        let u := touchPort p v
        let r := owner u
        exec i s = .next (if mayIssue p c then answered p i r.result (if r.result = .ok then r.body else []) r.st
          else answered p i .denied [] u)
      (x.received = [] → x.receiver = .hunting → taken s) ∧
      (∀ rest, x.received = i.frame :: rest → taken (s.setPort p { x with received := rest })) ∧
      (∀ f rest, x.received = f :: rest → f ≠ i.frame →
        exec i s = exec (.stationFrameValid p i.frame.seq i.frame.code i.frame.body) s)

/-- An idle step answers the frame at the head of a list that is no request: DENIED where the port may not issue its code,
MALFORMED where the code is unknown or the body of another length; a frame that is a request it puts into the queue of
commands (R186; log entries 2 and 15: the model's choice). -/
def Claim.FramesOfNoRequestAreAnswered : Prop :=
  ∀ (p : Port) (f : Frame) (rest : List Frame) (s : State), s.run = true → s.pending = [] →
    (s.port p).received = f :: rest → (∀ r, r ≠ p → (s.port r).received = []) →
    let known := ∃ ports, rolesOf f.code.toNat = some ports
    (∀ i, decodeRequest p f = some i → ∃ t, step s = .next t ∧ i ∈ t.pending ∧ (t.port p).received = f :: rest) ∧
    (decodeRequest p f = none →
      let v := advance s
      let u := touchPort p (v.setPort p { v.port p with received := rest })
      let answers := fun r : Result => ∃ t, step s = .next t ∧
        t = { u.setPort p { u.port p with response := some ⟨f.seq, f.code, r, []⟩ } with pending := t.pending }
      (known → mayIssue p f.code.toNat = false → answers .denied) ∧
      (¬known ∨ mayIssue p f.code.toNat = true → answers .malformed))

/-- Station frames taken, discarded and counted, requests taken from the list, and frames that are no request (R185, R186,
R191). Where it rests on a choice of the model: log entries 1, 2, 15 and 28. -/
def Obligations.StationFramesAreTakenOrCounted : Prop :=
  Claim.StationFramesJoinTheListOrAreCounted ∧ Claim.RequestsAreTakenFromTheList ∧ Claim.FramesOfNoRequestAreAnswered

/-- The presence timer's expiry completes: STATION_ABSENT is posted, the others are told; the line port's absence
pauses the discharging bays and holds a moving lock, the fire port's takes the permit off and sends the zones in ALARM
to release (R74, R122, R146, R191). Where it rests on a choice of the model: log entry 30. -/
def Obligations.AbsenceReachesTheBlocks : Prop :=
  ∀ (p : Port) (s : State), s.run = true → Told s →
    let x := s.port p
    let due := x.present = true ∧ x.timer = some 0
    let c := Instr.presenceTimerExpiry p
    (¬due → exec c s = .next s) ∧
    (due → ∃ t, exec c s = .next t ∧
      t.port p = { x with
        present := false, timer := none, notices := (t.port p).notices, overflowed := (t.port p).overflowed } ∧
      (∀ r, r ≠ p → t.port r = { s.port r with notices := (t.port r).notices, overflowed := (t.port r).overflowed }) ∧
      (s.banks.links.enabled .stationAbsent = false → t.banks.links = s.banks.links) ∧
      (s.banks.links.enabled .stationAbsent = true → t.banks.links =
        (s.banks.links.take ⟨if p = .fire then .contained else .advisory, .stationAbsent, portNumber p, none, none, none,
          false, s.now⟩).1) ∧
      (p = .custody → t = { s with
        banks := { s.banks with links := t.banks.links }, out := { s.out with lineFault := t.out.lineFault }
        ports := t.ports }) ∧
      (p = .line →
        t = { s with
          bays := t.bays, feed := { s.feed with lock := t.feed.lock }, out := t.out, link := t.link, ports := t.ports
          banks := { s.banks with links := t.banks.links, feed := t.banks.feed } } ∧
        (∀ n, (s.bay n).state ≠ .discharging → t.bay n = s.bay n) ∧
        (∀ n, (s.bay n).state = .discharging → t.bay n = { (s.bay n).unloaded (s.sup (.contactor n)) with
          state := .paused, pauseCause := some .link } ∧ (t.sup (.contactor n)).command = false) ∧
        t.feed.lock = if s.feed.lock.movesByPermit = true ∨ s.feed.lock.movesBack = true then
          { s.feed.lock with state := .held, purgeTimer := none } else s.feed.lock) ∧
      (p = .fire → t.feed.inputs.firePresent = false ∧ t.feed.permit = false ∧
        t.fire.detectors = s.fire.detectors ∧ t.feed.queue = s.feed.queue ∧ t.cls = s.cls ∧
        ∀ z, ((s.zone z).state = .alarm → ReleaseJudged (s.zone z) false (t.zone z)) ∧
          ((s.zone z).state = .releasePending → t.zone z = { s.zone z with hold := false }) ∧
          ((s.zone z).state ≠ .alarm → (s.zone z).state ≠ .releasePending → t.zone z = s.zone z)))

/-! ### Faults and incidents -/

/-- An accepted sample in a RESTING or PAUSED bay is recorded and its energy booked; a pack too hot, or a current above 500 mA
once the contactor is confirmed open, faults the bay and quarantines the pack with its incident; else a deferred check that
can run now runs, and before the contactor is confirmed open the current is not judged (R41, R61, R63, R70, R81 to R88). -/
def Claim.RestingAndPausedSamplesAreChecked : Prop :=
  ∀ (n : Fin 8) (q v : Nat) (i temp : Int) (iv : Nat) (s : State) (j : Fin 256) (x : Pack), s.run = true →
    s.link.receiver = .hunting →
    let b := s.bay n
    let c := Instr.baySample (n.1 + 1) q v i temp iv
    let k := classifySeq b.lastSeq q
    sampleRanges q v i temp iv = true → k ≠ .duplicate → k ≠ .stale → b.state = .resting ∨ b.state = .paused →
    s.occupantPack n = some (j, x) → x.loc = .bay n → x.state = .resting ∨ x.state = .discharging → Counted x s →
    (s.zone (bayZone n)).state ≠ .alarm →
    let y := x.integrate (increment v i iv k.missing) k.missing (k == .resync)
    let z := s.zone (bayZone n)
    let inv := vset s.inventories (bayZone n) (vget s.inventories (bayZone n) - x.standing + y.standing)
    let w := { s.setZone (bayZone n) { z with inventory := vget inv (bayZone n) } with
      packs := vset s.packs j ⟨(s.record j).gen, some y⟩
      inventories := inv
      bays := vset s.bays n { b with
        lastSeq := some q, lastSample := some ⟨v, i, temp, s.clock⟩, tally := b.tally.accept k true } }
    let faults := fun (f : FaultCause) (qc : QuarantineCause) (code : Code) (detail : Nat) => ∃ t, exec c s = .next t ∧
      BayFaulted n f j { y with state := .quarantined, cause := some qc } w t ∧ PortsQuiet s t ∧
      Posted .discharge [{ code := code, severity := .contained, detail := detail, pack := b.occupant
                           place := some (n.1 + 1) }] s t ∧
      t = { w with
        packs := t.packs, inventories := t.inventories, bays := t.bays
        feed := { s.feed with permit := t.feed.permit, inputs := t.feed.inputs, lock := t.feed.lock }
        banks := { s.banks with discharge := t.banks.discharge, feed := t.banks.feed }, out := t.out, link := t.link
        ports := t.ports }
    let high := b.confirmedOpen = true ∧ 500 < i.natAbs
    ((x.treatment.maxTemp : Int) < temp → faults .overTemperature .overTemperature .overTemperature temp.toNat) ∧
    (temp ≤ x.treatment.maxTemp →
      (high → faults .restCurrent .restCurrent .restCurrent (i.natAbs / 10)) ∧
      (¬high → b.state = .paused ∨ b.deferred = false → exec c s = .next w) ∧
      (¬high → b.state = .resting → b.deferred = true →
        (readyCheck n w = none → exec c s = .next w) ∧
        (∀ r, readyCheck n w = some (j, y, r) → ∃ t, exec c s = .next t ∧ Checked n j y r w t ∧ OnlyBay n s t ∧
          OnlyRecord j s t ∧ PortsQuiet s t)))

/-- What the bays post: the faults of a DISCHARGING bay, sample loss and the limit of retries, each with its detail, its pack
and its bay (R60, R66, R70, R75). -/
def Claim.BaysPostTheirIncidents : Prop :=
  ∀ (n : Fin 8) (s : State) (j : Fin 256) (x : Pack), s.run = true →
    let b := s.bay n
    let v := s.sup (.contactor n)
    let posts := fun (c : Instr) (code : Code) (severity : Severity) (detail : Nat) => ∃ t, exec c s = .next t ∧
      Posted .discharge [{ code := code, severity := severity, detail := detail, pack := b.occupant
                           place := some (n.1 + 1) }] s t
    (∀ (q volt : Nat) (i temp : Int) (iv : Nat), s.link.receiver = .hunting → sampleRanges q volt i temp iv = true →
      let c := Instr.baySample (n.1 + 1) q volt i temp iv
      let k := classifySeq b.lastSeq q
      k ≠ .duplicate → k ≠ .stale → b.state = .discharging → s.occupantPack n = some (j, x) →
      ((x.treatment.maxTemp : Int) < temp → posts c .overTemperature .contained temp.toNat) ∧
      (temp ≤ x.treatment.maxTemp → i < -1000 → posts c .reverseCurrent .contained (i.natAbs / 10)) ∧
      (temp ≤ x.treatment.maxTemp → (overLimit b.overRef : Int) < i → posts c .overCurrent .contained (i.toNat / 10))) ∧
    (∀ y, b.state = .discharging → b.lastSample = some y → y.arrival + 2000 ≤ s.clock →
      posts (.sampleLoss n) .sampleLoss .contained 0) ∧
    (∀ r, b.state = .resting → b.rest = some 0 → b.occupant = some (s.handle j) → readyCheck n s = some (j, x, r) →
      r.pass = false → x.treatment.retries ≤ x.retries →
      posts (.restTimerExpiry n) .reboundLimit .contained (min r.residual 65535)) ∧
    (v.disagree = some 0 → v.window ≠ some 0 → v.command = false →
      posts (.disagreementTimerExpiry (.contactor n)) .contactorMismatch .uncontained 1) ∧
    (v.disagree = some 0 → v.window ≠ some 0 → v.command = true →
      posts (.disagreementTimerExpiry (.contactor n)) .contactorMismatch .contained 2)

/-- What the Atmosphere Monitor posts at an age expiry or a reading, in order: the discrepancy, the loss, and the trip that the
new oxygen brings (R95, R96, R99, R100). -/
def Claim.MonitorPostsItsIncidents : Prop :=
  ∀ (k : AnalyzerId) (ox st : Nat) (status : AnalyzerStatus) (s : State), s.run = true → s.link.receiver = .hunting →
    let m := s.atm
    let posts := fun (c : Instr) (x : Analyzer) =>
      let a := if k = .a then x else m.a
      let b := if k = .a then m.b else x
      let gap := ((a.latest.elim 0 (·.value) : Int) - b.latest.elim 0 (·.value)).natAbs
      let before := (if m.a.valid then 1 else 0) + if m.b.valid then 1 else 0
      let after := (if a.valid then 1 else 0) + if b.valid then 1 else 0
      ∃ t, exec c s = .next t ∧ Posted .atmosphere
        ((if a.valid = true ∧ b.valid = true ∧ 50 < gap ∧ m.discrepancy = false then
            [{ code := .analyzerDiscrepancy, severity := .advisory, detail := gap }] else []) ++
          (if after < before then
            [{ code := .analyzerLoss, severity := if after = 0 then .uncontained else .contained
               detail := if k = .a then 1 else 2 }] else []) ++
          if (m.state = .holding ∨ m.state = .inert) ∧ m.limits.trip ≤ t.atm.oxygen then
            [{ code := .o2Trip, severity := .uncontained, detail := t.atm.oxygen }] else []) s t
    (∀ r, (m.analyzer k).latest = some r → (m.analyzer k).valid = true → r.arrival + 5000 ≤ s.clock →
      posts (.analyzerAgeExpiry k) { m.analyzer k with valid := false }) ∧
    (statusAt st = some status → ox ≤ 2500 →
      posts (.analyzerReading (if k = .a then 9 else 10) ox st)
        ⟨some ⟨min ox 2100, decide (2100 < ox), status, s.clock⟩, decide (status = .ok)⟩)

/-- What the detectors and the zones post when a dwell ends, in order: the detector's fault, the zone's PRE_ALARM with the
detector's number or its ALARM with the part, and the release that an alarm with no delay brings (R137, R140 to R143,
R148; log entry 8: that the detector's fault comes before the zone's incidents is the model's choice). -/
def Claim.ZonesPostTheirIncidents : Prop :=
  ∀ (d : Fin 24) (s : State), s.run = true →
    let x := s.detector d
    let posts := fun (c : Instr) (y : Detector) (first : List Posting) => ∃ t, exec c s = .next t ∧
      (x.zone = none → Posted .fire first s t) ∧
      (∀ z, x.zone = some z →
        let q := s.zone z
        let ds := zoneDetectors (s.setDetector d y) z
        let place := some (z.1 + 1)
        let goes := (s.ports.fire.present = false ∨ q.threshold ≤ q.inventory) ∧ q.delay = 0
        (q.state ≠ .normal → q.state ≠ .preAlarm → Posted .fire first s t) ∧
        (q.state = .normal ∨ q.state = .preAlarm →
          (alarmPart ds = none → Posted .fire
            (first ++ if q.state = .normal ∧ 1 ≤ activeCount ds then
              [{ code := .zonePreAlarm, severity := .advisory, detail := d.1 + 1, place := place }] else []) s t) ∧
          (∀ part, alarmPart ds = some part → Posted .fire
            (first ++ [{ code := .zoneAlarm, severity := .uncontained, detail := part, place := place }] ++
              if goes then [{ code := .zoneReleased, severity := .uncontained, detail := 2, place := place }] else [])
            s t)))
    (x.state = .confirming → x.timer = some 0 →
      posts (.detectorDwellExpiry d) { x with state := .active, timer := none } []) ∧
    (x.state = .confirmingFault → x.timer = some 0 →
      let short := x.line == .short
      posts (.faultDwellExpiry d)
        { x with state := .faulted, prior := none, timer := none, faultShort := some short }
        [{ code := .detectorFault, severity := .contained, detail := d.1 + 1 + (if short then 256 else 0)
           place := x.zone.map fun z => z.1 + 1 }])

/-- A zone that reaches ALARM stops its occupied bays: each pack is QUARANTINED with cause ZONE_ALARM unless it already was,
each bay FAULTED with cause ZONE_ALARM unless it already was; other bays stay (R10, R73, R142). -/
def Claim.AlarmStopsItsBays : Prop :=
  ∀ (d : Fin 24) (z : Fin 8) (s : State), s.run = true → SiteLaw s →
    let x := s.detector d
    x.state = .confirming → x.timer = some 0 → x.zone = some z → (s.zone z).state = .normal ∨ (s.zone z).state = .preAlarm →
    alarmPart (zoneDetectors (s.setDetector d { x with state := .active, timer := none }) z) ≠ none →
    ∃ t, exec (.detectorDwellExpiry d) s = .next t ∧ (t.zone z).state.alarmed = true ∧
      ∀ n,
        (bayZone n ≠ z ∨ (s.bay n).occupant = none → t.bay n = s.bay n ∧ t.sup (.contactor n) = s.sup (.contactor n)) ∧
        (bayZone n = z → ∀ i p, s.occupantPack n = some (i, p) →
          (t.record i).pack = (if p.state = .quarantined then some p
            else some { p with state := .quarantined, cause := some .zoneAlarm }) ∧
          (t.sup (.contactor n)).command = false ∧
          t.bay n = { (s.bay n).unloaded (s.sup (.contactor n)) with
            state := .faulted, elapsed := 0, rest := none, deferred := false, pauseCause := none
            faultCause := if (s.bay n).state = .faulted then (s.bay n).faultCause else some .zoneAlarm })

/-- A contactor stuck closed: a RESTING or DISCHARGING occupant becomes LOADED, a DISCHARGED one must be checked again, any
other keeps its record (R12, R13, R75). -/
def Claim.StuckContactorMovesItsPack : Prop :=
  ∀ (n : Fin 8) (s : State) (i : Fin 256) (x : Pack), s.run = true → s.occupantPack n = some (i, x) →
    let v := s.sup (.contactor n)
    let moves := fun c : Instr => ∃ t, exec c s = .next t ∧ OnlyRecord i s t ∧
      (t.record i).pack = some (match x.state with
        | .resting | .discharging => { x with state := .loaded }
        | .discharged => { x with recheck := true }
        | _ => x)
    v.command = false →
    (v.disagree = some 0 → v.window ≠ some 0 → moves (.disagreementTimerExpiry (.contactor n))) ∧
    (v.window = some 0 → v.readback = true → moves (.readbackWindowExpiry (.contactor n)))

/-- Samples of RESTING and PAUSED bays, what stops a bay from outside, and the incidents of bays, monitor and zones with their
contents (R41, R60, R61, R63, R66, R70, R73, R75, R95, R96, R99, R100, R137, R141, R142, R148). Where it rests on a choice of
the model: log entries 4, 8, 11, 17 and 21. -/
def Obligations.FaultsAndIncidentsSayWhatHappened : Prop :=
  Claim.RestingAndPausedSamplesAreChecked ∧ Claim.BaysPostTheirIncidents ∧ Claim.MonitorPostsItsIncidents ∧
    Claim.ZonesPostTheirIncidents ∧ Claim.AlarmStopsItsBays ∧ Claim.StuckContactorMovesItsPack
end

