-- ==== Sys2Proof/Laws/State.lean ====
section
/-! SUPPORT. Reading and writing one part of the state: what each update leaves, and what a read finds after a write. -/

namespace Sys2Proof

/-! ### Fixed tables -/

@[simp] theorem vget_vset_same {α : Type} {n : Nat} (v : Vector α n) (i : Fin n) (x : α) : vget (vset v i x) i = x := by
  simp [vget, vset]

@[simp] theorem vget_vset_other {α : Type} {n : Nat} (v : Vector α n) {i j : Fin n} (h : j ≠ i) (x : α) :
    vget (vset v i x) j = vget v j := by
  have : i.1 ≠ j.1 := fun e => h (Fin.ext e.symm)
  simp [vget, vset, this]

theorem vget_vset {α : Type} {n : Nat} (v : Vector α n) (i j : Fin n) (x : α) :
    vget (vset v i x) j = if j = i then x else vget v j := by
  split
  · subst_vars; simp
  · simp [*]

@[simp] theorem vget_vmap {α β : Type} {n : Nat} (f : α → β) (v : Vector α n) (i : Fin n) :
    vget (vmap f v) i = f (vget v i) := by
  simp [vget, vmap]

@[simp] theorem vget_replicate {α : Type} {n : Nat} (x : α) (i : Fin n) : vget (Vector.replicate n x) i = x := by
  simp [vget]

@[simp] theorem vset_vget {α : Type} {n : Nat} (v : Vector α n) (i : Fin n) : vset v i (vget v i) = v := by
  simp [vget, vset]

/-- Two fixed tables with the same entries are the same. -/
theorem vext {α : Type} {n : Nat} {v w : Vector α n} (h : ∀ i, vget v i = vget w i) : v = w :=
  Vector.ext fun i hi => h ⟨i, hi⟩

namespace Machine

/-! ### Ports -/

@[simp] theorem State.port_setPort_same (s : State) (p : Port) (c : PortCtx) : (s.setPort p c).port p = c := by
  cases p <;> rfl

@[simp] theorem State.port_setPort_other (s : State) {p q : Port} (h : q ≠ p) (c : PortCtx) :
    (s.setPort p c).port q = s.port q := by
  cases p <;> cases q <;> first | rfl | exact absurd rfl h

theorem State.port_setPort (s : State) (p q : Port) (c : PortCtx) :
    (s.setPort p c).port q = if q = p then c else s.port q := by
  cases p <;> cases q <;> rfl

@[simp] theorem State.setPort_port (s : State) (p : Port) : s.setPort p (s.port p) = s := by cases p <;> rfl

@[simp] theorem State.setPort_setPort (s : State) (p : Port) (c d : PortCtx) :
    (s.setPort p c).setPort p d = s.setPort p d := by cases p <;> rfl

@[simp] theorem State.setPort_run (s : State) (p : Port) (c : PortCtx) : (s.setPort p c).run = s.run := by cases p <;> rfl
@[simp] theorem State.setPort_clock (s : State) (p : Port) (c : PortCtx) : (s.setPort p c).clock = s.clock := by
  cases p <;> rfl
@[simp] theorem State.setPort_epoch (s : State) (p : Port) (c : PortCtx) : (s.setPort p c).epoch = s.epoch := by
  cases p <;> rfl
@[simp] theorem State.setPort_retentionFound (s : State) (p : Port) (c : PortCtx) :
    (s.setPort p c).retentionFound = s.retentionFound := by cases p <;> rfl
@[simp] theorem State.setPort_checkAgrees (s : State) (p : Port) (c : PortCtx) :
    (s.setPort p c).checkAgrees = s.checkAgrees := by cases p <;> rfl
@[simp] theorem State.setPort_straps (s : State) (p : Port) (c : PortCtx) : (s.setPort p c).straps = s.straps := by
  cases p <;> rfl
@[simp] theorem State.setPort_packs (s : State) (p : Port) (c : PortCtx) : (s.setPort p c).packs = s.packs := by
  cases p <;> rfl
@[simp] theorem State.setPort_inventories (s : State) (p : Port) (c : PortCtx) :
    (s.setPort p c).inventories = s.inventories := by cases p <;> rfl
@[simp] theorem State.setPort_cls (s : State) (p : Port) (c : PortCtx) : (s.setPort p c).cls = s.cls := by cases p <;> rfl
@[simp] theorem State.setPort_bays (s : State) (p : Port) (c : PortCtx) : (s.setPort p c).bays = s.bays := by
  cases p <;> rfl
@[simp] theorem State.setPort_atm (s : State) (p : Port) (c : PortCtx) : (s.setPort p c).atm = s.atm := by cases p <;> rfl
@[simp] theorem State.setPort_feed (s : State) (p : Port) (c : PortCtx) : (s.setPort p c).feed = s.feed := by
  cases p <;> rfl
@[simp] theorem State.setPort_fire (s : State) (p : Port) (c : PortCtx) : (s.setPort p c).fire = s.fire := by
  cases p <;> rfl
@[simp] theorem State.setPort_lot (s : State) (p : Port) (c : PortCtx) : (s.setPort p c).lot = s.lot := by cases p <;> rfl
@[simp] theorem State.setPort_banks (s : State) (p : Port) (c : PortCtx) : (s.setPort p c).banks = s.banks := by
  cases p <;> rfl
@[simp] theorem State.setPort_out (s : State) (p : Port) (c : PortCtx) : (s.setPort p c).out = s.out := by cases p <;> rfl
@[simp] theorem State.setPort_link (s : State) (p : Port) (c : PortCtx) : (s.setPort p c).link = s.link := by
  cases p <;> rfl
@[simp] theorem State.setPort_pending (s : State) (p : Port) (c : PortCtx) : (s.setPort p c).pending = s.pending := by
  cases p <;> rfl

/-! ### Outputs -/

@[simp] theorem State.sup_setSup_same (s : State) (o : Output) (v : Supervision) : (s.setSup o v).sup o = v := by
  cases o <;> simp [State.sup, State.setSup]

@[simp] theorem State.sup_setSup_other (s : State) {o q : Output} (h : q ≠ o) (v : Supervision) :
    (s.setSup o v).sup q = s.sup q := by
  cases o <;> cases q <;> simp_all [State.sup, State.setSup]

@[simp] theorem State.setSup_run (s : State) (o : Output) (v : Supervision) : (s.setSup o v).run = s.run := by
  cases o <;> rfl
@[simp] theorem State.setSup_clock (s : State) (o : Output) (v : Supervision) : (s.setSup o v).clock = s.clock := by
  cases o <;> rfl
@[simp] theorem State.setSup_epoch (s : State) (o : Output) (v : Supervision) : (s.setSup o v).epoch = s.epoch := by
  cases o <;> rfl
@[simp] theorem State.setSup_retentionFound (s : State) (o : Output) (v : Supervision) :
    (s.setSup o v).retentionFound = s.retentionFound := by cases o <;> rfl
@[simp] theorem State.setSup_checkAgrees (s : State) (o : Output) (v : Supervision) :
    (s.setSup o v).checkAgrees = s.checkAgrees := by cases o <;> rfl
@[simp] theorem State.setSup_straps (s : State) (o : Output) (v : Supervision) : (s.setSup o v).straps = s.straps := by
  cases o <;> rfl
@[simp] theorem State.setSup_packs (s : State) (o : Output) (v : Supervision) : (s.setSup o v).packs = s.packs := by
  cases o <;> rfl
@[simp] theorem State.setSup_inventories (s : State) (o : Output) (v : Supervision) :
    (s.setSup o v).inventories = s.inventories := by cases o <;> rfl
@[simp] theorem State.setSup_cls (s : State) (o : Output) (v : Supervision) : (s.setSup o v).cls = s.cls := by
  cases o <;> rfl
@[simp] theorem State.setSup_bays (s : State) (o : Output) (v : Supervision) : (s.setSup o v).bays = s.bays := by
  cases o <;> rfl
@[simp] theorem State.setSup_atm (s : State) (o : Output) (v : Supervision) : (s.setSup o v).atm = s.atm := by
  cases o <;> rfl
@[simp] theorem State.setSup_feed (s : State) (o : Output) (v : Supervision) : (s.setSup o v).feed = s.feed := by
  cases o <;> rfl
@[simp] theorem State.setSup_fire (s : State) (o : Output) (v : Supervision) : (s.setSup o v).fire = s.fire := by
  cases o <;> rfl
@[simp] theorem State.setSup_lot (s : State) (o : Output) (v : Supervision) : (s.setSup o v).lot = s.lot := by
  cases o <;> rfl
@[simp] theorem State.setSup_banks (s : State) (o : Output) (v : Supervision) : (s.setSup o v).banks = s.banks := by
  cases o <;> rfl
@[simp] theorem State.setSup_ports (s : State) (o : Output) (v : Supervision) : (s.setSup o v).ports = s.ports := by
  cases o <;> rfl
@[simp] theorem State.setSup_link (s : State) (o : Output) (v : Supervision) : (s.setSup o v).link = s.link := by
  cases o <;> rfl
@[simp] theorem State.setSup_pending (s : State) (o : Output) (v : Supervision) : (s.setSup o v).pending = s.pending := by
  cases o <;> rfl
@[simp] theorem State.setSup_lineFault (s : State) (o : Output) (v : Supervision) :
    (s.setSup o v).out.lineFault = s.out.lineFault := by cases o <;> rfl

/-! ### Bays, zones, detectors, records, lots, banks -/

@[simp] theorem State.bay_setBay_same (s : State) (n : Fin 8) (b : Bay) : (s.setBay n b).bay n = b := by
  simp [State.bay, State.setBay]

@[simp] theorem State.bay_setBay_other (s : State) {n m : Fin 8} (h : m ≠ n) (b : Bay) :
    (s.setBay n b).bay m = s.bay m := by
  simp [State.bay, State.setBay, h]

@[simp] theorem State.zone_setZone_same (s : State) (z : Fin 8) (q : Zone) : (s.setZone z q).zone z = q := by
  simp [State.zone, State.setZone]

@[simp] theorem State.zone_setZone_other (s : State) {z y : Fin 8} (h : y ≠ z) (q : Zone) :
    (s.setZone z q).zone y = s.zone y := by
  simp [State.zone, State.setZone, h]

@[simp] theorem State.detector_setDetector_same (s : State) (d : Fin 24) (x : Detector) :
    (s.setDetector d x).detector d = x := by
  simp [State.detector, State.setDetector]

@[simp] theorem State.detector_setDetector_other (s : State) {d e : Fin 24} (h : e ≠ d) (x : Detector) :
    (s.setDetector d x).detector e = s.detector e := by
  simp [State.detector, State.setDetector, h]

@[simp] theorem State.record_setPack_same (s : State) (i : Fin 256) (p : Option Pack) :
    (s.setPack i p).record i = ⟨(s.record i).gen, p⟩ := by
  simp [State.record, State.setPack]

@[simp] theorem State.record_setPack_other (s : State) {i j : Fin 256} (h : j ≠ i) (p : Option Pack) :
    (s.setPack i p).record j = s.record j := by
  simp [State.record, State.setPack, h]

/-- Writing a record's pack keeps its generation, so every handle still names the same record. -/
@[simp] theorem State.handle_setPack (s : State) (i j : Fin 256) (p : Option Pack) :
    (s.setPack i p).handle j = s.handle j := by
  by_cases h : j = i
  · subst h; simp [State.handle]
  · simp [State.handle, h]

@[simp] theorem State.lotAt_setLot_same (s : State) (j : Fin 8) (l : Option Lot) : (s.setLot j l).lotAt j = l := by
  simp [State.lotAt, State.setLot]

@[simp] theorem State.lotAt_setLot_other (s : State) {j k : Fin 8} (h : k ≠ j) (l : Option Lot) :
    (s.setLot j l).lotAt k = s.lotAt k := by
  simp [State.lotAt, State.setLot, h]

@[simp] theorem Banks.get_put_same (b : Banks) (k : BankId) (x : Bank) : (b.put k x).get k = x := by cases k <;> rfl

@[simp] theorem Banks.get_put_other (b : Banks) {k m : BankId} (h : m ≠ k) (x : Bank) :
    (b.put k x).get m = b.get m := by
  cases k <;> cases m <;> first | rfl | exact absurd rfl h

/-! ### What these updates leave: every other field -/

@[simp] theorem State.setBay_run (s : State) (n : Fin 8) (b : Bay) : (s.setBay n b).run = s.run := rfl
@[simp] theorem State.setBay_clock (s : State) (n : Fin 8) (b : Bay) : (s.setBay n b).clock = s.clock := rfl
@[simp] theorem State.setBay_epoch (s : State) (n : Fin 8) (b : Bay) : (s.setBay n b).epoch = s.epoch := rfl
@[simp] theorem State.setBay_retentionFound (s : State) (n : Fin 8) (b : Bay) : (s.setBay n b).retentionFound = s.retentionFound := rfl
@[simp] theorem State.setBay_checkAgrees (s : State) (n : Fin 8) (b : Bay) : (s.setBay n b).checkAgrees = s.checkAgrees := rfl
@[simp] theorem State.setBay_straps (s : State) (n : Fin 8) (b : Bay) : (s.setBay n b).straps = s.straps := rfl
@[simp] theorem State.setBay_packs (s : State) (n : Fin 8) (b : Bay) : (s.setBay n b).packs = s.packs := rfl
@[simp] theorem State.setBay_inventories (s : State) (n : Fin 8) (b : Bay) : (s.setBay n b).inventories = s.inventories := rfl
@[simp] theorem State.setBay_cls (s : State) (n : Fin 8) (b : Bay) : (s.setBay n b).cls = s.cls := rfl
@[simp] theorem State.setBay_atm (s : State) (n : Fin 8) (b : Bay) : (s.setBay n b).atm = s.atm := rfl
@[simp] theorem State.setBay_feed (s : State) (n : Fin 8) (b : Bay) : (s.setBay n b).feed = s.feed := rfl
@[simp] theorem State.setBay_fire (s : State) (n : Fin 8) (b : Bay) : (s.setBay n b).fire = s.fire := rfl
@[simp] theorem State.setBay_lot (s : State) (n : Fin 8) (b : Bay) : (s.setBay n b).lot = s.lot := rfl
@[simp] theorem State.setBay_banks (s : State) (n : Fin 8) (b : Bay) : (s.setBay n b).banks = s.banks := rfl
@[simp] theorem State.setBay_ports (s : State) (n : Fin 8) (b : Bay) : (s.setBay n b).ports = s.ports := rfl
@[simp] theorem State.setBay_out (s : State) (n : Fin 8) (b : Bay) : (s.setBay n b).out = s.out := rfl
@[simp] theorem State.setBay_link (s : State) (n : Fin 8) (b : Bay) : (s.setBay n b).link = s.link := rfl
@[simp] theorem State.setBay_pending (s : State) (n : Fin 8) (b : Bay) : (s.setBay n b).pending = s.pending := rfl

@[simp] theorem State.setZone_run (s : State) (z : Fin 8) (q : Zone) : (s.setZone z q).run = s.run := rfl
@[simp] theorem State.setZone_clock (s : State) (z : Fin 8) (q : Zone) : (s.setZone z q).clock = s.clock := rfl
@[simp] theorem State.setZone_epoch (s : State) (z : Fin 8) (q : Zone) : (s.setZone z q).epoch = s.epoch := rfl
@[simp] theorem State.setZone_retentionFound (s : State) (z : Fin 8) (q : Zone) : (s.setZone z q).retentionFound = s.retentionFound := rfl
@[simp] theorem State.setZone_checkAgrees (s : State) (z : Fin 8) (q : Zone) : (s.setZone z q).checkAgrees = s.checkAgrees := rfl
@[simp] theorem State.setZone_straps (s : State) (z : Fin 8) (q : Zone) : (s.setZone z q).straps = s.straps := rfl
@[simp] theorem State.setZone_packs (s : State) (z : Fin 8) (q : Zone) : (s.setZone z q).packs = s.packs := rfl
@[simp] theorem State.setZone_inventories (s : State) (z : Fin 8) (q : Zone) : (s.setZone z q).inventories = s.inventories := rfl
@[simp] theorem State.setZone_cls (s : State) (z : Fin 8) (q : Zone) : (s.setZone z q).cls = s.cls := rfl
@[simp] theorem State.setZone_bays (s : State) (z : Fin 8) (q : Zone) : (s.setZone z q).bays = s.bays := rfl
@[simp] theorem State.setZone_atm (s : State) (z : Fin 8) (q : Zone) : (s.setZone z q).atm = s.atm := rfl
@[simp] theorem State.setZone_feed (s : State) (z : Fin 8) (q : Zone) : (s.setZone z q).feed = s.feed := rfl
@[simp] theorem State.setZone_lot (s : State) (z : Fin 8) (q : Zone) : (s.setZone z q).lot = s.lot := rfl
@[simp] theorem State.setZone_banks (s : State) (z : Fin 8) (q : Zone) : (s.setZone z q).banks = s.banks := rfl
@[simp] theorem State.setZone_ports (s : State) (z : Fin 8) (q : Zone) : (s.setZone z q).ports = s.ports := rfl
@[simp] theorem State.setZone_out (s : State) (z : Fin 8) (q : Zone) : (s.setZone z q).out = s.out := rfl
@[simp] theorem State.setZone_link (s : State) (z : Fin 8) (q : Zone) : (s.setZone z q).link = s.link := rfl
@[simp] theorem State.setZone_pending (s : State) (z : Fin 8) (q : Zone) : (s.setZone z q).pending = s.pending := rfl

@[simp] theorem State.setDetector_run (s : State) (d : Fin 24) (x : Detector) : (s.setDetector d x).run = s.run := rfl
@[simp] theorem State.setDetector_clock (s : State) (d : Fin 24) (x : Detector) : (s.setDetector d x).clock = s.clock := rfl
@[simp] theorem State.setDetector_epoch (s : State) (d : Fin 24) (x : Detector) : (s.setDetector d x).epoch = s.epoch := rfl
@[simp] theorem State.setDetector_retentionFound (s : State) (d : Fin 24) (x : Detector) : (s.setDetector d x).retentionFound = s.retentionFound := rfl
@[simp] theorem State.setDetector_checkAgrees (s : State) (d : Fin 24) (x : Detector) : (s.setDetector d x).checkAgrees = s.checkAgrees := rfl
@[simp] theorem State.setDetector_straps (s : State) (d : Fin 24) (x : Detector) : (s.setDetector d x).straps = s.straps := rfl
@[simp] theorem State.setDetector_packs (s : State) (d : Fin 24) (x : Detector) : (s.setDetector d x).packs = s.packs := rfl
@[simp] theorem State.setDetector_inventories (s : State) (d : Fin 24) (x : Detector) : (s.setDetector d x).inventories = s.inventories := rfl
@[simp] theorem State.setDetector_cls (s : State) (d : Fin 24) (x : Detector) : (s.setDetector d x).cls = s.cls := rfl
@[simp] theorem State.setDetector_bays (s : State) (d : Fin 24) (x : Detector) : (s.setDetector d x).bays = s.bays := rfl
@[simp] theorem State.setDetector_atm (s : State) (d : Fin 24) (x : Detector) : (s.setDetector d x).atm = s.atm := rfl
@[simp] theorem State.setDetector_feed (s : State) (d : Fin 24) (x : Detector) : (s.setDetector d x).feed = s.feed := rfl
@[simp] theorem State.setDetector_lot (s : State) (d : Fin 24) (x : Detector) : (s.setDetector d x).lot = s.lot := rfl
@[simp] theorem State.setDetector_banks (s : State) (d : Fin 24) (x : Detector) : (s.setDetector d x).banks = s.banks := rfl
@[simp] theorem State.setDetector_ports (s : State) (d : Fin 24) (x : Detector) : (s.setDetector d x).ports = s.ports := rfl
@[simp] theorem State.setDetector_out (s : State) (d : Fin 24) (x : Detector) : (s.setDetector d x).out = s.out := rfl
@[simp] theorem State.setDetector_link (s : State) (d : Fin 24) (x : Detector) : (s.setDetector d x).link = s.link := rfl
@[simp] theorem State.setDetector_pending (s : State) (d : Fin 24) (x : Detector) : (s.setDetector d x).pending = s.pending := rfl

@[simp] theorem State.setPack_run (s : State) (i : Fin 256) (p : Option Pack) : (s.setPack i p).run = s.run := rfl
@[simp] theorem State.setPack_clock (s : State) (i : Fin 256) (p : Option Pack) : (s.setPack i p).clock = s.clock := rfl
@[simp] theorem State.setPack_epoch (s : State) (i : Fin 256) (p : Option Pack) : (s.setPack i p).epoch = s.epoch := rfl
@[simp] theorem State.setPack_retentionFound (s : State) (i : Fin 256) (p : Option Pack) : (s.setPack i p).retentionFound = s.retentionFound := rfl
@[simp] theorem State.setPack_checkAgrees (s : State) (i : Fin 256) (p : Option Pack) : (s.setPack i p).checkAgrees = s.checkAgrees := rfl
@[simp] theorem State.setPack_straps (s : State) (i : Fin 256) (p : Option Pack) : (s.setPack i p).straps = s.straps := rfl
@[simp] theorem State.setPack_inventories (s : State) (i : Fin 256) (p : Option Pack) : (s.setPack i p).inventories = s.inventories := rfl
@[simp] theorem State.setPack_cls (s : State) (i : Fin 256) (p : Option Pack) : (s.setPack i p).cls = s.cls := rfl
@[simp] theorem State.setPack_bays (s : State) (i : Fin 256) (p : Option Pack) : (s.setPack i p).bays = s.bays := rfl
@[simp] theorem State.setPack_atm (s : State) (i : Fin 256) (p : Option Pack) : (s.setPack i p).atm = s.atm := rfl
@[simp] theorem State.setPack_feed (s : State) (i : Fin 256) (p : Option Pack) : (s.setPack i p).feed = s.feed := rfl
@[simp] theorem State.setPack_fire (s : State) (i : Fin 256) (p : Option Pack) : (s.setPack i p).fire = s.fire := rfl
@[simp] theorem State.setPack_lot (s : State) (i : Fin 256) (p : Option Pack) : (s.setPack i p).lot = s.lot := rfl
@[simp] theorem State.setPack_banks (s : State) (i : Fin 256) (p : Option Pack) : (s.setPack i p).banks = s.banks := rfl
@[simp] theorem State.setPack_ports (s : State) (i : Fin 256) (p : Option Pack) : (s.setPack i p).ports = s.ports := rfl
@[simp] theorem State.setPack_out (s : State) (i : Fin 256) (p : Option Pack) : (s.setPack i p).out = s.out := rfl
@[simp] theorem State.setPack_link (s : State) (i : Fin 256) (p : Option Pack) : (s.setPack i p).link = s.link := rfl
@[simp] theorem State.setPack_pending (s : State) (i : Fin 256) (p : Option Pack) : (s.setPack i p).pending = s.pending := rfl

@[simp] theorem State.setLot_run (s : State) (j : Fin 8) (l : Option Lot) : (s.setLot j l).run = s.run := rfl
@[simp] theorem State.setLot_clock (s : State) (j : Fin 8) (l : Option Lot) : (s.setLot j l).clock = s.clock := rfl
@[simp] theorem State.setLot_epoch (s : State) (j : Fin 8) (l : Option Lot) : (s.setLot j l).epoch = s.epoch := rfl
@[simp] theorem State.setLot_retentionFound (s : State) (j : Fin 8) (l : Option Lot) : (s.setLot j l).retentionFound = s.retentionFound := rfl
@[simp] theorem State.setLot_checkAgrees (s : State) (j : Fin 8) (l : Option Lot) : (s.setLot j l).checkAgrees = s.checkAgrees := rfl
@[simp] theorem State.setLot_straps (s : State) (j : Fin 8) (l : Option Lot) : (s.setLot j l).straps = s.straps := rfl
@[simp] theorem State.setLot_packs (s : State) (j : Fin 8) (l : Option Lot) : (s.setLot j l).packs = s.packs := rfl
@[simp] theorem State.setLot_inventories (s : State) (j : Fin 8) (l : Option Lot) : (s.setLot j l).inventories = s.inventories := rfl
@[simp] theorem State.setLot_cls (s : State) (j : Fin 8) (l : Option Lot) : (s.setLot j l).cls = s.cls := rfl
@[simp] theorem State.setLot_bays (s : State) (j : Fin 8) (l : Option Lot) : (s.setLot j l).bays = s.bays := rfl
@[simp] theorem State.setLot_atm (s : State) (j : Fin 8) (l : Option Lot) : (s.setLot j l).atm = s.atm := rfl
@[simp] theorem State.setLot_feed (s : State) (j : Fin 8) (l : Option Lot) : (s.setLot j l).feed = s.feed := rfl
@[simp] theorem State.setLot_fire (s : State) (j : Fin 8) (l : Option Lot) : (s.setLot j l).fire = s.fire := rfl
@[simp] theorem State.setLot_banks (s : State) (j : Fin 8) (l : Option Lot) : (s.setLot j l).banks = s.banks := rfl
@[simp] theorem State.setLot_ports (s : State) (j : Fin 8) (l : Option Lot) : (s.setLot j l).ports = s.ports := rfl
@[simp] theorem State.setLot_out (s : State) (j : Fin 8) (l : Option Lot) : (s.setLot j l).out = s.out := rfl
@[simp] theorem State.setLot_link (s : State) (j : Fin 8) (l : Option Lot) : (s.setLot j l).link = s.link := rfl
@[simp] theorem State.setLot_pending (s : State) (j : Fin 8) (l : Option Lot) : (s.setLot j l).pending = s.pending := rfl

/-- A lookup that finds a pack finds it in the record its handle names, at the handle's generation. -/
theorem State.lookup_eq_some {s : State} {h : Handle} {p : Pack} :
    s.lookup h = some p ↔ (s.record h.index).gen = h.gen ∧ (s.record h.index).pack = some p := by
  unfold State.lookup
  split <;> simp_all

/-- The handle of an allocated record names its pack. -/
theorem State.lookup_handle (s : State) (i : Fin 256) : s.lookup (s.handle i) = (s.record i).pack := by
  simp [State.lookup, State.handle]

end Machine

end Sys2Proof
end

