-- ==== Sys2Proof/Laws/Frames.lean ====
section
/-! SUPPORT. What each shared operation leaves alone. A frame is a function that blanks the fields an operation may write:
an operation keeps the frame when the blanked states are equal, so frames compose by rewriting, and every field that is
not blanked is equal by `congrArg`. -/

namespace Sys2Proof.Machine

/-! ### The frames -/

/-- A port without what a notice may change. -/
def PortCtx.mute (c : PortCtx) : PortCtx := { c with notices := [], overflowed := false }

/-- The state without the notice queues. -/
def State.mute (s : State) : State := { s with ports := ⟨s.ports.line.mute, s.ports.fire.mute, s.ports.custody.mute⟩ }

/-- The state without notices and supervised outputs. -/
def State.lessOut (s : State) : State := { s.mute with out := Outputs.initial }

/-- The state without notices, the Feed Controller, the banks, and the permit, gate and line fault outputs. -/
def State.lessFeed (s : State) : State :=
  { s.mute with
    feed := Feed.initial
    banks := Banks.initial
    out := { s.out with permit := Supervision.initial false, upperGate := Supervision.initial false,
                        lowerGate := Supervision.initial false, lineFault := false } }

/-- The state without notices, the bays, their contactors and the field link. -/
def State.lessBays (s : State) : State :=
  { s.mute with
    bays := Vector.replicate 8 Bay.initial
    link := FieldLink.initial
    out := { s.out with contactors := Vector.replicate 8 (Supervision.initial false) } }

/-- The state without notices, the pack records and the inventories. -/
def State.lessPacks (s : State) : State :=
  { s.mute with packs := Vector.replicate 256 ⟨0, none⟩, inventories := Vector.replicate 8 0 }

/-- What no event of the plant writes: the run, the clock, the classification, the queue of commands, and of the ports
all but their notices. -/
def State.core (s : State) : State :=
  { s.mute with
    packs := Vector.replicate 256 ⟨0, none⟩
    inventories := Vector.replicate 8 0
    bays := Vector.replicate 8 Bay.initial
    atm := Atmosphere.initial
    feed := Feed.initial
    fire := Fire.initial
    lot := LotTable.initial
    banks := Banks.initial
    out := Outputs.initial
    link := FieldLink.initial }

/-! A finer frame kept is a coarser one kept. -/

theorem State.lessFeed_of_mute {s t : State} (h : t.mute = s.mute) : t.lessFeed = s.lessFeed := by
  have e : t.out = s.out := by simpa [State.mute] using congrArg State.out h
  simp [State.lessFeed, h, e]

theorem State.lessBays_of_mute {s t : State} (h : t.mute = s.mute) : t.lessBays = s.lessBays := by
  have e : t.out = s.out := by simpa [State.mute] using congrArg State.out h
  simp [State.lessBays, h, e]

theorem State.lessPacks_of_mute {s t : State} (h : t.mute = s.mute) : t.lessPacks = s.lessPacks := by
  simp [State.lessPacks, h]

/-- The core of a state is the core of any of its frames. -/
theorem State.core_mute (s : State) : s.mute.core = s.core := rfl
theorem State.core_lessOut (s : State) : s.lessOut.core = s.core := rfl
theorem State.core_lessFeed (s : State) : s.lessFeed.core = s.core := rfl
theorem State.core_lessBays (s : State) : s.lessBays.core = s.core := rfl
theorem State.core_lessPacks (s : State) : s.lessPacks.core = s.core := rfl

theorem State.core_of_mute {s t : State} (h : t.mute = s.mute) : t.core = s.core := by
  have e := congrArg State.core h
  exact e
theorem State.core_of_lessOut {s t : State} (h : t.lessOut = s.lessOut) : t.core = s.core := by
  have e := congrArg State.core h
  exact e
theorem State.core_of_lessFeed {s t : State} (h : t.lessFeed = s.lessFeed) : t.core = s.core := by
  have e := congrArg State.core h
  exact e
theorem State.core_of_lessBays {s t : State} (h : t.lessBays = s.lessBays) : t.core = s.core := by
  have e := congrArg State.core h
  exact e
theorem State.core_of_lessPacks {s t : State} (h : t.lessPacks = s.lessPacks) : t.core = s.core := by
  have e := congrArg State.core h
  exact e

/-! ### Updates -/

@[simp] theorem PortCtx.mute_enqueue (c : PortCtx) (n : Notice) : (c.enqueue n).mute = c.mute := by
  unfold PortCtx.enqueue
  split <;> rfl

@[simp] theorem State.core_setSup (s : State) (o : Output) (v : Supervision) : (s.setSup o v).core = s.core := by
  cases o <;> rfl
@[simp] theorem State.core_setBay (s : State) (n : Fin 8) (b : Bay) : (s.setBay n b).core = s.core := rfl
@[simp] theorem State.core_setZone (s : State) (z : Fin 8) (q : Zone) : (s.setZone z q).core = s.core := rfl
@[simp] theorem State.core_setDetector (s : State) (d : Fin 24) (x : Detector) : (s.setDetector d x).core = s.core := rfl
@[simp] theorem State.core_setPack (s : State) (i : Fin 256) (p : Option Pack) : (s.setPack i p).core = s.core := rfl
@[simp] theorem State.core_setLot (s : State) (j : Fin 8) (l : Option Lot) : (s.setLot j l).core = s.core := rfl
@[simp] theorem State.lessBays_setBay (s : State) (n : Fin 8) (b : Bay) : (s.setBay n b).lessBays = s.lessBays := rfl
@[simp] theorem State.lessPacks_setPack (s : State) (i : Fin 256) (p : Option Pack) :
    (s.setPack i p).lessPacks = s.lessPacks := rfl

/-! ### Notices -/

theorem State.mute_setPort_enqueue (s : State) (p : Port) (n : Notice) :
    (s.setPort p ((s.port p).enqueue n)).mute = s.mute := by
  cases p <;> simp [State.mute, State.setPort, State.port]

@[simp] theorem mute_notify (ps : List Port) (w : NoticeBody) (s : State) : (notify ps w s).mute = s.mute := by
  have h : ∀ (ps : List Port) (n : Notice) (t : State),
      (ps.foldl (fun t p => t.setPort p ((t.port p).enqueue n)) t).mute = t.mute := by
    intro ps n
    induction ps with
    | nil => intro t; rfl
    | cons p ps ih => intro t; rw [List.foldl_cons, ih, State.mute_setPort_enqueue]
  exact h ps ⟨w, s.now⟩ s

@[simp] theorem lessFeed_notify (ps : List Port) (w : NoticeBody) (s : State) :
    (notify ps w s).lessFeed = s.lessFeed := State.lessFeed_of_mute (mute_notify ps w s)
@[simp] theorem lessBays_notify (ps : List Port) (w : NoticeBody) (s : State) :
    (notify ps w s).lessBays = s.lessBays := State.lessBays_of_mute (mute_notify ps w s)
@[simp] theorem lessPacks_notify (ps : List Port) (w : NoticeBody) (s : State) :
    (notify ps w s).lessPacks = s.lessPacks := State.lessPacks_of_mute (mute_notify ps w s)
@[simp] theorem core_notify (ps : List Port) (w : NoticeBody) (s : State) : (notify ps w s).core = s.core :=
  State.core_of_mute (mute_notify ps w s)

@[simp] theorem mute_noticePack (ps : List Port) (i : Fin 256) (s : State) : (noticePack ps i s).mute = s.mute := by
  unfold noticePack
  split <;> simp

/-! ### Outputs -/

@[simp] theorem core_command (o : Output) (on : Bool) (s : State) : (command o on s).core = s.core := by
  simp [command]

@[simp] theorem lessFeed_permit (on : Bool) (s : State) : (command .permit on s).lessFeed = s.lessFeed := rfl
@[simp] theorem lessFeed_upperGate (on : Bool) (s : State) : (command .upperGate on s).lessFeed = s.lessFeed := rfl
@[simp] theorem lessFeed_lowerGate (on : Bool) (s : State) : (command .lowerGate on s).lessFeed = s.lessFeed := rfl
@[simp] theorem lessFeed_relight (s : State) : (relight s).lessFeed = s.lessFeed := rfl
@[simp] theorem lessBays_contactor (n : Fin 8) (on : Bool) (s : State) :
    (command (.contactor n) on s).lessBays = s.lessBays := rfl

/-- A command writes its own output only. -/
theorem command_sup_other (o : Output) (on : Bool) (s : State) {q : Output} (h : q ≠ o) :
    (command o on s).sup q = s.sup q := by
  simp [command, h]

/-- A command sets its output to the level commanded. -/
theorem command_sup_same (o : Output) (on : Bool) (s : State) : ((command o on s).sup o).command = on := by
  simp only [command, State.sup_setSup_same, Supervision.setCommand]
  split <;> simp_all

/-! ### Incidents, the lock and the permit -/

@[simp] theorem lessFeed_postRaw (p : Posting) (s : State) : (postRaw p s).lessFeed = s.lessFeed := by
  unfold postRaw
  dsimp only
  split
  · rfl
  · simp only [lessFeed_notify, lessFeed_relight]; rfl

@[simp] theorem lessFeed_setLock (l : Lock) (s : State) : (setLock l s).lessFeed = s.lessFeed := by
  unfold setLock
  dsimp only
  split <;> simp <;> rfl

@[simp] theorem lessFeed_holdLock (c : Nat) (s : State) : (holdLock c s).lessFeed = s.lessFeed := by
  simp [holdLock]

@[simp] theorem lessFeed_resumeLock (s : State) : (resumeLock s).lessFeed = s.lessFeed := by
  unfold resumeLock
  dsimp only
  repeat' split
  all_goals simp

@[simp] theorem lessFeed_evalPermit (s : State) : (evalPermit s).lessFeed = s.lessFeed := by
  unfold evalPermit
  dsimp only
  simp only [lessFeed_resumeLock]
  split
  · rfl
  · split <;> simp <;> rfl

@[simp] theorem lessFeed_deliverBanks (s : State) : (deliverBanks s).lessFeed = s.lessFeed := by
  unfold deliverBanks
  dsimp only
  split
  · rfl
  · rw [lessFeed_evalPermit]; rfl

@[simp] theorem lessFeed_post (p : Posting) (s : State) : (post p s).lessFeed = s.lessFeed := by simp [post]

@[simp] theorem lessFeed_deliverInert (s : State) : (deliverInert s).lessFeed = s.lessFeed := by
  unfold deliverInert; rw [lessFeed_evalPermit]; rfl

@[simp] theorem lessFeed_deliverShred (s : State) : (deliverShred s).lessFeed = s.lessFeed := by
  unfold deliverShred
  dsimp only
  split
  · rfl
  · rw [lessFeed_evalPermit]; rfl

@[simp] theorem lessFeed_deliverFirePort (s : State) : (deliverFirePort s).lessFeed = s.lessFeed := by
  unfold deliverFirePort; rw [lessFeed_evalPermit]; rfl

@[simp] theorem lessFeed_deliverFeedZone (z : Fin 8) (st : ZoneState) (s : State) :
    (deliverFeedZone z st s).lessFeed = s.lessFeed := by
  unfold deliverFeedZone
  simp only [lessFeed_evalPermit]
  split <;> split <;> first | rfl | (rw [lessFeed_holdLock]; rfl)

@[simp] theorem core_postRaw (p : Posting) (s : State) : (postRaw p s).core = s.core :=
  State.core_of_lessFeed (lessFeed_postRaw p s)
@[simp] theorem core_setLock (l : Lock) (s : State) : (setLock l s).core = s.core :=
  State.core_of_lessFeed (lessFeed_setLock l s)
@[simp] theorem core_holdLock (c : Nat) (s : State) : (holdLock c s).core = s.core :=
  State.core_of_lessFeed (lessFeed_holdLock c s)
@[simp] theorem core_resumeLock (s : State) : (resumeLock s).core = s.core :=
  State.core_of_lessFeed (lessFeed_resumeLock s)
@[simp] theorem core_evalPermit (s : State) : (evalPermit s).core = s.core :=
  State.core_of_lessFeed (lessFeed_evalPermit s)
@[simp] theorem core_deliverBanks (s : State) : (deliverBanks s).core = s.core :=
  State.core_of_lessFeed (lessFeed_deliverBanks s)
@[simp] theorem core_post (p : Posting) (s : State) : (post p s).core = s.core :=
  State.core_of_lessFeed (lessFeed_post p s)
@[simp] theorem core_deliverInert (s : State) : (deliverInert s).core = s.core :=
  State.core_of_lessFeed (lessFeed_deliverInert s)
@[simp] theorem core_deliverShred (s : State) : (deliverShred s).core = s.core :=
  State.core_of_lessFeed (lessFeed_deliverShred s)
@[simp] theorem core_deliverFirePort (s : State) : (deliverFirePort s).core = s.core :=
  State.core_of_lessFeed (lessFeed_deliverFirePort s)
@[simp] theorem core_deliverFeedZone (z : Fin 8) (st : ZoneState) (s : State) :
    (deliverFeedZone z st s).core = s.core :=
  State.core_of_lessFeed (lessFeed_deliverFeedZone z st s)

/-! ### Packs -/

@[simp] theorem lessPacks_noticePack (ps : List Port) (i : Fin 256) (s : State) :
    (noticePack ps i s).lessPacks = s.lessPacks := State.lessPacks_of_mute (mute_noticePack ps i s)

@[simp] theorem lessPacks_storePack (i : Fin 256) (p : Pack) (s : State) :
    (storePack i p s).lessPacks = s.lessPacks := rfl

@[simp] theorem lessPacks_transition (i : Fin 256) (p : Pack) (s : State) :
    (transition i p s).lessPacks = s.lessPacks := by simp [transition]

@[simp] theorem lessPacks_quarantinePack (i : Fin 256) (c : QuarantineCause) (s : State) :
    (quarantinePack i c s).lessPacks = s.lessPacks := by
  unfold quarantinePack
  split
  · rfl
  · split <;> simp

@[simp] theorem lessPacks_onOccupant (n : Fin 8) (f : Pack → Pack) (s : State) :
    (onOccupant n f s).lessPacks = s.lessPacks := by
  unfold onOccupant
  split <;> simp

@[simp] theorem core_noticePack (ps : List Port) (i : Fin 256) (s : State) : (noticePack ps i s).core = s.core :=
  State.core_of_lessPacks (lessPacks_noticePack ps i s)
@[simp] theorem core_storePack (i : Fin 256) (p : Pack) (s : State) : (storePack i p s).core = s.core := rfl
@[simp] theorem core_transition (i : Fin 256) (p : Pack) (s : State) : (transition i p s).core = s.core :=
  State.core_of_lessPacks (lessPacks_transition i p s)
@[simp] theorem core_quarantinePack (i : Fin 256) (c : QuarantineCause) (s : State) :
    (quarantinePack i c s).core = s.core := State.core_of_lessPacks (lessPacks_quarantinePack i c s)
@[simp] theorem core_onOccupant (n : Fin 8) (f : Pack → Pack) (s : State) : (onOccupant n f s).core = s.core :=
  State.core_of_lessPacks (lessPacks_onOccupant n f s)

/-! ### The lock's pack -/

@[simp] theorem core_feedUncertain (d : Nat) (h : Handle) (p : Pack) (s : State) :
    (feedUncertain d h p s).core = s.core := by simp [feedUncertain]

@[simp] theorem core_blockLock (c : QuarantineCause) (d : Option Nat) (s : State) : (blockLock c d s).core = s.core := by
  unfold blockLock
  split
  · rfl
  · simp only [core_setLock]
    split <;> simp

@[simp] theorem core_releaseLock (s : State) : (releaseLock s).core = s.core := by
  unfold releaseLock
  split <;> simp

/-! ### Bays -/

@[simp] theorem lessBays_putBay (n : Fin 8) (b : Bay) (s : State) : (putBay n b s).lessBays = s.lessBays := by
  unfold putBay
  dsimp only
  split <;> simp

@[simp] theorem lessBays_commandContactor (n : Fin 8) (on : Bool) (s : State) :
    (commandContactor n on s).lessBays = s.lessBays := by
  unfold commandContactor
  dsimp only
  split <;> simp

@[simp] theorem lessBays_sendLoadSet (n : Fin 8) (s : State) : (sendLoadSet n s).lessBays = s.lessBays := rfl

@[simp] theorem lessBays_setSetpoint (n : Fin 8) (ma : Nat) (s : State) :
    (setSetpoint n ma s).lessBays = s.lessBays := by
  unfold setSetpoint
  split <;> simp

@[simp] theorem lessBays_stopLoad (n : Fin 8) (s : State) : (stopLoad n s).lessBays = s.lessBays := by simp [stopLoad]
@[simp] theorem lessBays_startLoad (n : Fin 8) (s : State) : (startLoad n s).lessBays = s.lessBays := by simp [startLoad]
@[simp] theorem lessBays_enterDischarging (n : Fin 8) (ms : Nat) (s : State) :
    (enterDischarging n ms s).lessBays = s.lessBays := by simp [enterDischarging]
@[simp] theorem lessBays_pauseBay (n : Fin 8) (c : PauseCause) (s : State) :
    (pauseBay n c s).lessBays = s.lessBays := by simp [pauseBay]
@[simp] theorem lessBays_faultBay (n : Fin 8) (c : FaultCause) (s : State) :
    (faultBay n c s).lessBays = s.lessBays := by simp [faultBay]
@[simp] theorem lessBays_followSlot (n : Fin 8) (s : State) : (followSlot n s).lessBays = s.lessBays := by simp [followSlot]
@[simp] theorem lessBays_takeBoundary (n : Fin 8) (s : State) : (takeBoundary n s).lessBays = s.lessBays := by
  simp [takeBoundary]
@[simp] theorem lessBays_occupyBay (n : Fin 8) (h : Handle) (t : Treatment) (r : Bool) (s : State) :
    (occupyBay n h t r s).lessBays = s.lessBays := by simp [occupyBay]
@[simp] theorem lessBays_emptyBay (n : Fin 8) (s : State) : (emptyBay n s).lessBays = s.lessBays := by simp [emptyBay]
@[simp] theorem lessBays_leaveLoc (l : Loc) (s : State) : (leaveLoc l s).lessBays = s.lessBays := by
  unfold leaveLoc
  split <;> simp

@[simp] theorem core_putBay (n : Fin 8) (b : Bay) (s : State) : (putBay n b s).core = s.core :=
  State.core_of_lessBays (lessBays_putBay n b s)
@[simp] theorem core_stopLoad (n : Fin 8) (s : State) : (stopLoad n s).core = s.core :=
  State.core_of_lessBays (lessBays_stopLoad n s)
@[simp] theorem core_enterDischarging (n : Fin 8) (ms : Nat) (s : State) : (enterDischarging n ms s).core = s.core :=
  State.core_of_lessBays (lessBays_enterDischarging n ms s)
@[simp] theorem core_pauseBay (n : Fin 8) (c : PauseCause) (s : State) : (pauseBay n c s).core = s.core :=
  State.core_of_lessBays (lessBays_pauseBay n c s)
@[simp] theorem core_faultBay (n : Fin 8) (c : FaultCause) (s : State) : (faultBay n c s).core = s.core :=
  State.core_of_lessBays (lessBays_faultBay n c s)
@[simp] theorem core_takeBoundary (n : Fin 8) (s : State) : (takeBoundary n s).core = s.core :=
  State.core_of_lessBays (lessBays_takeBoundary n s)
@[simp] theorem core_occupyBay (n : Fin 8) (h : Handle) (t : Treatment) (r : Bool) (s : State) :
    (occupyBay n h t r s).core = s.core := State.core_of_lessBays (lessBays_occupyBay n h t r s)
@[simp] theorem core_emptyBay (n : Fin 8) (s : State) : (emptyBay n s).core = s.core :=
  State.core_of_lessBays (lessBays_emptyBay n s)
@[simp] theorem core_leaveLoc (l : Loc) (s : State) : (leaveLoc l s).core = s.core :=
  State.core_of_lessBays (lessBays_leaveLoc l s)

@[simp] theorem core_alarmBay (n : Fin 8) (s : State) : (alarmBay n s).core = s.core := by
  unfold alarmBay
  split <;> simp

/-! ### Zones -/

/-- An operation that keeps the core keeps it when folded over a list. -/
theorem core_foldl {α : Type} (f : State → α → State) (h : ∀ s a, (f s a).core = s.core) (l : List α) (s : State) :
    (l.foldl f s).core = s.core := by
  induction l generalizing s with
  | nil => rfl
  | cons a l ih => rw [List.foldl_cons, ih, h]

@[simp] theorem core_noticeZone (z : Fin 8) (s : State) : (noticeZone z s).core = s.core := by simp [noticeZone]
@[simp] theorem core_commandPurge (s : State) : (commandPurge s).core = s.core := by simp [commandPurge]
@[simp] theorem core_deliverPurge (b : Bool) (s : State) : (deliverPurge b s).core = s.core := by
  simp only [deliverPurge, core_commandPurge]; rfl

@[simp] theorem core_deliverZone (z : Fin 8) (old : ZoneState) (s : State) : (deliverZone z old s).core = s.core := by
  have alarms : ∀ l : List (Fin 8), ∀ s : State, (l.foldl (fun t n => alarmBay n t) s).core = s.core :=
    core_foldl _ fun s n => core_alarmBay n s
  unfold deliverZone
  dsimp only
  rw [core_noticeZone]
  repeat' split
  all_goals simp [alarms]

@[simp] theorem core_changeZone (z : Fin 8) (q : Zone) (s : State) : (changeZone z q s).core = s.core := by
  simp [changeZone]
@[simp] theorem core_enterReleased (z : Fin 8) (d : Nat) (s : State) : (enterReleased z d s).core = s.core := by
  simp [enterReleased]
@[simp] theorem core_evalRelease (z : Fin 8) (s : State) : (evalRelease z s).core = s.core := by
  unfold evalRelease
  dsimp only
  repeat' split
  all_goals simp
@[simp] theorem core_enterAlarm (z : Fin 8) (part : Nat) (s : State) : (enterAlarm z part s).core = s.core := by
  simp [enterAlarm]
@[simp] theorem core_enterPreAlarm (z : Fin 8) (d : Nat) (s : State) : (enterPreAlarm z d s).core = s.core := by
  simp [enterPreAlarm]
@[simp] theorem core_evalZone (z : Fin 8) (d : Nat) (s : State) : (evalZone z d s).core = s.core := by
  unfold evalZone
  dsimp only
  repeat' split
  all_goals simp
@[simp] theorem core_deliverInventory (z : Fin 8) (s : State) : (deliverInventory z s).core = s.core := by
  unfold deliverInventory
  split <;> simp
@[simp] theorem core_deliverPlaces (a b : Option (Fin 8)) (s : State) : (deliverPlaces a b s).core = s.core := by
  cases a <;> cases b <;> simp [deliverPlaces]

/-! ### Residual check, inert state, lots -/

@[simp] theorem core_actOnCheck (n : Fin 8) (i : Fin 256) (p : Pack) (c : Check) (s : State) :
    (actOnCheck n i p c s).core = s.core := by
  unfold actOnCheck
  dsimp only
  rw [core_deliverPlaces]
  repeat' split
  all_goals simp

@[simp] theorem core_runCheck (n : Fin 8) (s : State) : (runCheck n s).core = s.core := by
  unfold runCheck
  split <;> simp

@[simp] theorem core_setInert (st : InertState) (s : State) : (setInert st s).core = s.core := by
  simp only [setInert, core_commandPurge]; rfl
@[simp] theorem core_noticeInert (s : State) : (noticeInert s).core = s.core := by simp [noticeInert]
@[simp] theorem core_changeInert (st : InertState) (s : State) : (changeInert st s).core = s.core := by
  unfold changeInert
  dsimp only
  rw [core_noticeInert, core_deliverInert]
  split <;> simp
@[simp] theorem core_evalInert (s : State) : (evalInert s).core = s.core := by
  unfold evalInert
  split <;> simp
@[simp] theorem core_checkPurgeTimeout (s : State) : (checkPurgeTimeout s).core = s.core := by
  unfold checkPurgeTimeout
  split
  · rfl
  · split
    · rw [core_post]; rfl
    · rfl

@[simp] theorem core_setShred (a : Option (Fin 8)) (w : Option Switch) (s : State) : (setShred a w s).core = s.core := by
  unfold setShred
  split
  · rfl
  · simp only [core_notify, core_deliverShred]; rfl
@[simp] theorem core_closeLot (j : Fin 8) (l : Lot) (s : State) : (closeLot j l s).core = s.core := by
  unfold closeLot noticeLot
  dsimp only
  rw [core_notify, core_setShred]
  split <;> simp
@[simp] theorem core_testClosing (j : Fin 8) (s : State) : (testClosing j s).core = s.core := by
  unfold testClosing
  repeat' split
  all_goals simp
@[simp] theorem core_reportTerminal (p : Pack) (s : State) : (reportTerminal p s).core = s.core := rfl

end Sys2Proof.Machine
end

