-- ==== Sys2Proof/Laws/PerInstr.lean ====
section
/-! SUPPORT. For every command: a request has a code of the catalogue that some port may issue, its frame carries that
code and its sequence byte, and its body has exactly the widths the decoder cuts it by; an event has no request frame. -/

namespace Sys2Proof

/-- `k` bytes spell a number of width `k`. -/
theorem be_length (k v : Nat) : (be k v).length = k := by
  induction k with
  | zero => rfl
  | succ k ih => simp [be, ih]

/-- A body is as long as its fields are wide. -/
theorem Instr.body_length (i : Instr) : i.body.length = (i.fields.map (·.width)).sum := by
  simp only [Instr.body, List.length_flatMap]
  congr 1
  simp [be_length]

namespace Laws.Framed

/-- What the family says of one command. -/
def Statement (i : Instr) : Prop :=
  match i.head with
  | none => encodeRequest i = none ∧ i.body = []
  | some (p, q, c) =>
    (rolesOf c).isSome = true ∧ i.frame.seq = q ∧ i.frame.code.toNat = c ∧
      i.body.length = (i.fields.map (·.width)).sum ∧
      ∀ ws, requestWidths p c = some ws → i.fields.map (·.width) = ws

theorem of_event {i : Instr} (h : i.head = none) (f : i.fields = []) : Statement i := by
  simp [Statement, h, f, encodeRequest, Instr.body]

theorem of_request {i : Instr} {p : Port} {q : Byte} {c : Nat} (h : i.head = some (p, q, c)) (k : c < 256)
    (r : (rolesOf c).isSome = true) (w : ∀ ws, requestWidths p c = some ws → i.fields.map (·.width) = ws) :
    Statement i := by
  have e : i.frame = ⟨q, BitVec.ofNat 8 c, i.body⟩ := by simp [Instr.frame, h]
  simp only [Statement, h, e, BitVec.toNat_ofNat]
  refine ⟨r, trivial, Nat.mod_eq_of_lt k, i.body_length, w⟩

theorem hardwareReset : ∀ a b, Statement (Instr.hardwareReset a b) := fun _ _ => of_event rfl rfl
theorem stationFrameValid : ∀ a b c d, Statement (Instr.stationFrameValid a b c d) := fun _ _ _ _ => of_event rfl rfl
theorem stationFrameDiscard : ∀ a b, Statement (Instr.stationFrameDiscard a b) := fun _ _ => of_event rfl rfl
theorem stationLineIdleTimeout : ∀ x, Statement (Instr.stationLineIdleTimeout x) := fun _ => of_event rfl rfl
theorem presenceTimerExpiry : ∀ x, Statement (Instr.presenceTimerExpiry x) := fun _ => of_event rfl rfl
theorem readStatus : ∀ a b c, Statement (Instr.readStatus a b c) :=
  fun _ _ _ => of_request rfl (by decide) rfl fun _ h => Option.some.inj h
theorem readPack : ∀ a b c d, Statement (Instr.readPack a b c d) :=
  fun _ _ _ _ => of_request rfl (by decide) rfl fun _ h => Option.some.inj h
theorem listPacks : ∀ a b c d, Statement (Instr.listPacks a b c d) :=
  fun _ _ _ _ => of_request rfl (by decide) rfl fun _ h => by cases h
theorem setCursor : ∀ a b c, Statement (Instr.setCursor a b c) :=
  fun _ _ _ => of_request rfl (by decide) rfl fun _ h => Option.some.inj h
theorem readBay : ∀ a b c, Statement (Instr.readBay a b c) :=
  fun _ _ _ => of_request rfl (by decide) rfl fun _ h => Option.some.inj h
theorem readZone : ∀ a b c, Statement (Instr.readZone a b c) :=
  fun _ _ _ => of_request rfl (by decide) rfl fun _ h => Option.some.inj h
theorem readLot : ∀ a b c, Statement (Instr.readLot a b c) :=
  fun _ _ _ => of_request rfl (by decide) rfl fun _ h => Option.some.inj h
theorem readBank : ∀ a b c, Statement (Instr.readBank a b c) :=
  fun _ _ _ => of_request rfl (by decide) rfl fun _ h => Option.some.inj h
theorem readConfig : ∀ a b c d, Statement (Instr.readConfig a b c d) :=
  fun _ _ _ _ => of_request rfl (by decide) rfl fun _ h => Option.some.inj h
theorem fetchNotices : ∀ a b, Statement (Instr.fetchNotices a b) :=
  fun _ _ => of_request rfl (by decide) rfl fun _ h => Option.some.inj h
theorem setPresenceTime : ∀ a b c, Statement (Instr.setPresenceTime a b c) :=
  fun _ _ _ => of_request rfl (by decide) rfl fun _ h => Option.some.inj h
theorem clearBank : ∀ a b c d, Statement (Instr.clearBank a b c d) :=
  fun _ _ _ _ => of_request rfl (by decide) rfl fun _ h => Option.some.inj h
theorem setReportEnables : ∀ a b c d, Statement (Instr.setReportEnables a b c d) :=
  fun _ _ _ _ => of_request rfl (by decide) rfl fun _ h => by cases h
theorem admitPack : ∀ a b c d e f g h i, Statement (Instr.admitPack a b c d e f g h i) :=
  fun _ _ _ _ _ _ _ _ _ => of_request rfl (by decide) rfl fun _ h => Option.some.inj h
theorem withdraw : ∀ a b c d, Statement (Instr.withdraw a b c d) :=
  fun _ _ _ _ => of_request rfl (by decide) rfl fun _ h => Option.some.inj h
theorem openLot : ∀ a b c, Statement (Instr.openLot a b c) :=
  fun _ _ _ => of_request rfl (by decide) rfl fun _ h => Option.some.inj h
theorem closeLot : ∀ a b c, Statement (Instr.closeLot a b c) :=
  fun _ _ _ => of_request rfl (by decide) rfl fun _ h => Option.some.inj h
theorem releaseLot : ∀ a b c, Statement (Instr.releaseLot a b c) :=
  fun _ _ _ => of_request rfl (by decide) rfl fun _ h => Option.some.inj h
theorem outputWeight : ∀ a b c d e, Statement (Instr.outputWeight a b c d e) :=
  fun _ _ _ _ _ => of_request rfl (by decide) rfl fun _ h => Option.some.inj h
theorem switchShredLot : ∀ a b c, Statement (Instr.switchShredLot a b c) :=
  fun _ _ _ => of_request rfl (by decide) rfl fun _ h => Option.some.inj h
theorem cancelSwitch : ∀ a b, Statement (Instr.cancelSwitch a b) :=
  fun _ _ => of_request rfl (by decide) rfl fun _ h => Option.some.inj h
theorem setRecoveryBounds : ∀ a b c d, Statement (Instr.setRecoveryBounds a b c d) :=
  fun _ _ _ _ => of_request rfl (by decide) rfl fun _ h => Option.some.inj h
theorem assign : ∀ a b c d e, Statement (Instr.assign a b c d e) :=
  fun _ _ _ _ _ => of_request rfl (by decide) rfl fun _ h => Option.some.inj h
theorem move : ∀ a b c d e, Statement (Instr.move a b c d e) :=
  fun _ _ _ _ _ => of_request rfl (by decide) rfl fun _ h => Option.some.inj h
theorem quarantine : ∀ a b c d, Statement (Instr.quarantine a b c d) :=
  fun _ _ _ _ => of_request rfl (by decide) rfl fun _ h => Option.some.inj h
theorem start : ∀ a b c, Statement (Instr.start a b c) :=
  fun _ _ _ => of_request rfl (by decide) rfl fun _ h => Option.some.inj h
theorem pause : ∀ a b c, Statement (Instr.pause a b c) :=
  fun _ _ _ => of_request rfl (by decide) rfl fun _ h => Option.some.inj h
theorem resume : ∀ a b c, Statement (Instr.resume a b c) :=
  fun _ _ _ => of_request rfl (by decide) rfl fun _ h => Option.some.inj h
theorem abort : ∀ a b c, Statement (Instr.abort a b c) :=
  fun _ _ _ => of_request rfl (by decide) rfl fun _ h => Option.some.inj h
theorem writeSlot : ∀ a b c d e f g, Statement (Instr.writeSlot a b c d e f g) :=
  fun _ _ _ _ _ _ _ => of_request rfl (by decide) rfl fun _ h => Option.some.inj h
theorem clearBay : ∀ a b c, Statement (Instr.clearBay a b c) :=
  fun _ _ _ => of_request rfl (by decide) rfl fun _ h => Option.some.inj h
theorem enqueue : ∀ a b c d, Statement (Instr.enqueue a b c d) :=
  fun _ _ _ _ => of_request rfl (by decide) rfl fun _ h => Option.some.inj h
theorem remove : ∀ a b c d e, Statement (Instr.remove a b c d e) :=
  fun _ _ _ _ _ => of_request rfl (by decide) rfl fun _ h => Option.some.inj h
theorem feed : ∀ a b c d, Statement (Instr.feed a b c d) :=
  fun _ _ _ _ => of_request rfl (by decide) rfl fun _ h => Option.some.inj h
theorem lockClosed : ∀ a b, Statement (Instr.lockClosed a b) :=
  fun _ _ => of_request rfl (by decide) rfl fun _ h => Option.some.inj h
theorem returnPack : ∀ a b c d, Statement (Instr.returnPack a b c d) :=
  fun _ _ _ _ => of_request rfl (by decide) rfl fun _ h => Option.some.inj h
theorem dropDone : ∀ a b c d, Statement (Instr.dropDone a b c d) :=
  fun _ _ _ _ => of_request rfl (by decide) rfl fun _ h => Option.some.inj h
theorem lockEmptied : ∀ a b, Statement (Instr.lockEmptied a b) :=
  fun _ _ => of_request rfl (by decide) rfl fun _ h => Option.some.inj h
theorem chamberClear : ∀ a b, Statement (Instr.chamberClear a b) :=
  fun _ _ => of_request rfl (by decide) rfl fun _ h => Option.some.inj h
theorem inertStart : ∀ a b, Statement (Instr.inertStart a b) :=
  fun _ _ => of_request rfl (by decide) rfl fun _ h => Option.some.inj h
theorem inertStop : ∀ a b, Statement (Instr.inertStop a b) :=
  fun _ _ => of_request rfl (by decide) rfl fun _ h => Option.some.inj h
theorem writeFeed : ∀ a b c, Statement (Instr.writeFeed a b c) :=
  fun _ _ _ => of_request rfl (by decide) rfl fun _ h => Option.some.inj h
theorem writeTreatment : ∀ a b c d, Statement (Instr.writeTreatment a b c d) :=
  fun _ _ _ _ => of_request rfl (by decide) rfl fun _ h => Option.some.inj h
theorem writeRange : ∀ a b c d e f g, Statement (Instr.writeRange a b c d e f g) :=
  fun _ _ _ _ _ _ _ => of_request rfl (by decide) rfl fun _ h => Option.some.inj h
theorem writeSlotMap : ∀ a b c d e, Statement (Instr.writeSlotMap a b c d e) :=
  fun _ _ _ _ _ => of_request rfl (by decide) rfl fun _ h => Option.some.inj h
theorem setMap : ∀ a b c d, Statement (Instr.setMap a b c d) :=
  fun _ _ _ _ => of_request rfl (by decide) rfl fun _ h => Option.some.inj h
theorem curveBegin : ∀ a b c, Statement (Instr.curveBegin a b c) :=
  fun _ _ _ => of_request rfl (by decide) rfl fun _ h => Option.some.inj h
theorem curvePoint : ∀ a b c d e, Statement (Instr.curvePoint a b c d e) :=
  fun _ _ _ _ _ => of_request rfl (by decide) rfl fun _ h => Option.some.inj h
theorem curveEnd : ∀ a b c, Statement (Instr.curveEnd a b c) :=
  fun _ _ _ => of_request rfl (by decide) rfl fun _ h => Option.some.inj h
theorem lineRestart : ∀ a b c d e, Statement (Instr.lineRestart a b c d e) :=
  fun _ _ _ _ _ => of_request rfl (by decide) rfl fun _ h => Option.some.inj h
theorem writeDetector : ∀ a b c d e, Statement (Instr.writeDetector a b c d e) :=
  fun _ _ _ _ _ => of_request rfl (by decide) rfl fun _ h => Option.some.inj h
theorem writeFireTimes : ∀ a b c d, Statement (Instr.writeFireTimes a b c d) :=
  fun _ _ _ _ => of_request rfl (by decide) rfl fun _ h => Option.some.inj h
theorem writeZone : ∀ a b c d e, Statement (Instr.writeZone a b c d e) :=
  fun _ _ _ _ _ => of_request rfl (by decide) rfl fun _ h => Option.some.inj h
theorem hold : ∀ a b c, Statement (Instr.hold a b c) :=
  fun _ _ _ => of_request rfl (by decide) rfl fun _ h => Option.some.inj h
theorem holdEnd : ∀ a b c, Statement (Instr.holdEnd a b c) :=
  fun _ _ _ => of_request rfl (by decide) rfl fun _ h => Option.some.inj h
theorem release : ∀ a b c d e, Statement (Instr.release a b c d e) :=
  fun _ _ _ _ _ => of_request rfl (by decide) rfl fun _ h => Option.some.inj h
theorem zoneReset : ∀ a b c d e, Statement (Instr.zoneReset a b c d e) :=
  fun _ _ _ _ _ => of_request rfl (by decide) rfl fun _ h => Option.some.inj h
theorem isolateZone : ∀ a b c, Statement (Instr.isolateZone a b c) :=
  fun _ _ _ => of_request rfl (by decide) rfl fun _ h => Option.some.inj h
theorem restoreZone : ∀ a b c, Statement (Instr.restoreZone a b c) :=
  fun _ _ _ => of_request rfl (by decide) rfl fun _ h => Option.some.inj h
theorem inertReset : ∀ a b c d e, Statement (Instr.inertReset a b c d e) :=
  fun _ _ _ _ _ => of_request rfl (by decide) rfl fun _ h => Option.some.inj h
theorem writeInertLimits : ∀ a b c d e f g, Statement (Instr.writeInertLimits a b c d e f g) :=
  fun _ _ _ _ _ _ _ => of_request rfl (by decide) rfl fun _ h => Option.some.inj h
theorem baySample : ∀ a b c d e f, Statement (Instr.baySample a b c d e f) := fun _ _ _ _ _ _ => of_event rfl rfl
theorem analyzerReading : ∀ a b c, Statement (Instr.analyzerReading a b c) := fun _ _ _ => of_event rfl rfl
theorem fieldFrameDiscard : ∀ x, Statement (Instr.fieldFrameDiscard x) := fun _ => of_event rfl rfl
theorem loadSetTransmit : Statement (Instr.loadSetTransmit) := of_event rfl rfl
theorem loadSetRefreshExpiry : ∀ x, Statement (Instr.loadSetRefreshExpiry x) := fun _ => of_event rfl rfl
theorem segmentTimerExpiry : ∀ x, Statement (Instr.segmentTimerExpiry x) := fun _ => of_event rfl rfl
theorem sampleLoss : ∀ x, Statement (Instr.sampleLoss x) := fun _ => of_event rfl rfl
theorem overCurrentReferenceDrop : ∀ x, Statement (Instr.overCurrentReferenceDrop x) := fun _ => of_event rfl rfl
theorem restTimerExpiry : ∀ x, Statement (Instr.restTimerExpiry x) := fun _ => of_event rfl rfl
theorem analyzerAgeExpiry : ∀ x, Statement (Instr.analyzerAgeExpiry x) := fun _ => of_event rfl rfl
theorem purgeTimeout : Statement (Instr.purgeTimeout) := of_event rfl rfl
theorem holdTimerExpiry : Statement (Instr.holdTimerExpiry) := of_event rfl rfl
theorem lockPurgeTimerExpiry : Statement (Instr.lockPurgeTimerExpiry) := of_event rfl rfl
theorem detectorLineChange : ∀ a b, Statement (Instr.detectorLineChange a b) := fun _ _ => of_event rfl rfl
theorem detectorDwellExpiry : ∀ x, Statement (Instr.detectorDwellExpiry x) := fun _ => of_event rfl rfl
theorem faultDwellExpiry : ∀ x, Statement (Instr.faultDwellExpiry x) := fun _ => of_event rfl rfl
theorem rearmExpiry : ∀ x, Statement (Instr.rearmExpiry x) := fun _ => of_event rfl rfl
theorem recoveryTimerExpiry : ∀ x, Statement (Instr.recoveryTimerExpiry x) := fun _ => of_event rfl rfl
theorem releaseTimerExpiry : ∀ x, Statement (Instr.releaseTimerExpiry x) := fun _ => of_event rfl rfl
theorem readbackChange : ∀ a b, Statement (Instr.readbackChange a b) := fun _ _ => of_event rfl rfl
theorem readbackWindowExpiry : ∀ x, Statement (Instr.readbackWindowExpiry x) := fun _ => of_event rfl rfl
theorem disagreementTimerExpiry : ∀ x, Statement (Instr.disagreementTimerExpiry x) := fun _ => of_event rfl rfl
theorem mainSupplyLoss : ∀ x, Statement (Instr.mainSupplyLoss x) := fun _ => of_event rfl rfl
theorem stationPortHuntsAgain : ∀ x, Statement (Instr.stationPortHuntsAgain x) := fun _ => of_event rfl rfl
theorem fieldLinkHuntsAgain : Statement (Instr.fieldLinkHuntsAgain) := of_event rfl rfl

end Laws.Framed

end Sys2Proof
end

