-- ==== Sys2Proof/Laws/Requests.lean ====
section
/-! SUPPORT. How a port takes a request: one lemma for a request the port may issue, one for a request it may not, and
what presence leaves alone. -/

namespace Sys2Proof.Machine

/-- A ready port that may issue the request answers it with its owner's reply, presence restarted first. -/
theorem serve_ready {p : Port} {f : Frame} {owner : State → Reply} {s : State} (h : Ready p s)
    (m : mayIssue p f.code.toNat = true) : serve p f owner s = respond p f (owner (touchPort p s)) := by
  obtain ⟨run, empty, hunting⟩ := h
  simp [serve, run, empty, hunting, takeRequest, m]

/-- A ready port that may not issue the request answers DENIED. -/
theorem serve_denied {p : Port} {f : Frame} {owner : State → Reply} {s : State} (h : Ready p s)
    (m : mayIssue p f.code.toNat = false) :
    serve p f owner s = respond p f (refuse .denied (touchPort p s)) := by
  obtain ⟨run, empty, hunting⟩ := h
  simp [serve, run, empty, hunting, takeRequest, m]

/-- A granted reply is the owner's state with the response on the port. -/
theorem respond_reply (p : Port) (i : Instr) (u : State) (body : List Byte) :
    respond p i.frame (reply u body) = answered p i .ok body u := rfl

/-- A refusal is the untouched state with the result on the port. -/
theorem respond_refuse (p : Port) (i : Instr) (r : Result) (u : State) (h : r ≠ .ok) :
    respond p i.frame (refuse r u) = answered p i r [] u := by
  simp [respond, refuse, answered, h]

/-- A stopped part takes no request. -/
theorem serve_stopped {p : Port} {f : Frame} {owner : State → Reply} {s : State} (h : s.run = false) :
    serve p f owner s = s := by simp [serve, h]

theorem whenRunning_on {f : State → State} {s : State} (h : s.run = true) : whenRunning f s = f s := by
  simp [whenRunning, h]

theorem whenRunning_off {f : State → State} {s : State} (h : s.run = false) : whenRunning f s = s := by
  simp [whenRunning, h]

/-- A guarded request with its guard right is its owner's reply. -/
theorem guarded_right {code target g1 g2 : Nat} {owner : State → Reply} {s : State} (h1 : target + g1 = 255)
    (h2 : g2 + code = 255) : guarded code target g1 g2 owner s = owner s := by
  simp [guarded, h1, h2]

/-- A guarded request with its guard wrong changes nothing. -/
theorem guarded_wrong {code target g1 g2 : Nat} {owner : State → Reply} {s : State}
    (h : ¬(target + g1 = 255 ∧ g2 + code = 255)) :
    guarded code target g1 g2 owner s = refuse .guardMismatch s := if_neg h

/-- On a PRESENT port a request restarts the presence timer and changes nothing else (R191). -/
theorem touchPort_present {p : Port} {s : State} (h : (s.port p).present = true) :
    touchPort p s = s.setPort p { s.port p with timer := some ((s.port p).presenceTime * 1000) } := by
  simp [touchPort, h]

theorem index1_succ {n : Nat} (i : Fin n) : index1 n (i.1 + 1) = some i := by simp [index1, index0]

theorem index0_val {n : Nat} (i : Fin n) : index0 n i.1 = some i := by simp [index0]

theorem handleOf_val (h : Handle) (g : h.gen < 256) : handleOf h.index.1 h.gen = some h := by
  simp [handleOf, g, index0_val]

end Sys2Proof.Machine
end

