-- ==== Sys2Proof/Tests/Slice0.lean ====
section
/-! SUPPORT. Tests of the model on small states: an ill-formed command for each check, the manual's worked figures, and for
each statement with hypotheses a state and operands that meet them, clause by clause, at boundary values. -/

namespace Sys2Proof.Tests

open Sys2Proof Sys2Proof.Machine

set_option maxRecDepth 4000
set_option Elab.async false

/-! ### Well-formed commands -/

theorem test_wellFormed_accepts : (Instr.readPack .line 7 255 255).wellFormed = true := by decide

/-- A generation of 256 does not fit its byte. -/
theorem test_fieldsFit_refuses : (Instr.readPack .line 7 0 256).fieldsFit = false := by decide

theorem test_fieldsFit_refused : (Instr.readPack .line 7 0 256).wellFormed = false := by decide

/-- A body of 241 bytes: a bank, a count and 239 enables. -/
theorem test_bodyFits_refuses :
    (Instr.setReportEnables .line 0 2 (List.replicate 239 0)).fieldsFit = true ∧
      (Instr.setReportEnables .line 0 2 (List.replicate 239 0)).wellFormed = false := by decide +kernel

theorem test_bodyFits_accepts : (Instr.setReportEnables .line 0 2 (List.replicate 238 0)).wellFormed = true := by
  decide +kernel

theorem test_eventFits_refuses :
    (Instr.analyzerReading 256 0 0).wellFormed = false ∧ (Instr.baySample 1 0 (2 ^ 32) 0 0 1).wellFormed = false ∧
      (Instr.stationFrameValid .fire 0 1 (List.replicate 241 0)).wellFormed = false := by decide +kernel

/-! ### Worked figures of the manual -/

/-- The check value of R184: the nine ASCII digits give 29B1. -/
theorem test_crc : crc16 [0x31, 0x32, 0x33, 0x34, 0x35, 0x36, 0x37, 0x38, 0x39] = 0x29B1 := by decide +kernel

/-- The worked wrap of R80: 65,530 and 3 give d = 9, 8 missing. -/
theorem test_sequence_wrap : classifySeq (some 65530) 3 = .next 8 := by decide

theorem test_sequence_edges :
    classifySeq (some 0) 50 = .next 49 ∧ classifySeq (some 0) 51 = .resync ∧ classifySeq (some 0) 32767 = .resync ∧
      classifySeq (some 0) 32768 = .stale ∧ classifySeq (some 9) 9 = .duplicate := by decide

/-- The worked balance: 318,900 g out of 412,000 g is 774 per mille. -/
theorem test_balance :
    lotBalance ⟨.draining, 40220, 1, 1, 0, 412000, 412000, 0, 318900, 8280000000, 77, true, false, none, none, ⟨12, 990⟩,
      none⟩ 550 1020 = (.within, some 774) := by decide

/-! ### States for the witnesses -/

def sampleTreatment : Treatment :=
  { Treatment.initial with refuse := false, limit := 100, cap := 10, retries := 1, current := 2000 }

/-- A pack of lot slot 0 in a state and a place. -/
def samplePack (st : PackState) (loc : Loc) : Pack :=
  { state := st, tag := 101, lot := 0, typeCode := 1, damaged := false, mass := 1000, nominal := 100, cells := 12
    treatmentIndex := 0, treatment := sampleTreatment, loc := loc, removed := 0, remainder := 0, estimated := 0
    basis := 100, removedSince := 0, residual := none, retries := 0, dischargedAt := none, recheck := false
    residualAtFeed := none, cause := none, admittedAt := ⟨0, 0⟩ }

/-- Its handle. -/
def sampleHandle : Handle := ⟨0, 0⟩

def sampleLot (st : LotState) : Lot :=
  ⟨st, 11, 1, 0, 0, 1000, 0, 0, 0, 0, 0, false, false, none, none, ⟨0, 0⟩, none⟩

/-- Every port PRESENT. -/
def presentPorts : Ports :=
  let on (p : PortCtx) : PortCtx := { p with present := true, timer := some 1000 }
  ⟨on Ports.initial.line, on Ports.initial.fire, on Ports.initial.custody⟩

/-- The part with every port PRESENT, its banks empty, and lot slot 0 in a state. -/
def opened (st : LotState) : State :=
  { State.initial with
    ports := presentPorts
    feed := { Feed.initial with inputs := { PermitInputs.initial with firePresent := true } }
    lot := { LotTable.initial with lots := vset LotTable.initial.lots 0 (some (sampleLot st)) } }

/-- The same with a curve 0 that is VALID. -/
def curved (st : LotState) : State :=
  { opened st with
    cls := { Classification.initial with
      curves := vset Classification.initial.curves 0 ⟨.valid, [⟨2000, 0⟩, ⟨3000, 50⟩, ⟨4200, 1000⟩]⟩ } }

/-- One pack in record 0, its zone's inventory to match. -/
def holding (st : PackState) (loc : Loc) : State :=
  { curved .opened with
    packs := vset State.initial.packs 0 ⟨0, some (samplePack st loc)⟩
    inventories := creditZone (samplePack st loc).zone (samplePack st loc).standing State.initial.inventories }

/-- The pack in bay 1, with a fresh sample of 3,000 mV a cell. -/
def inBay (bs : BayState) (ps : PackState) : State :=
  let b : Bay :=
    { Bay.initial with
      state := bs, occupant := some sampleHandle, slotA := ⟨2000, 2500, 600, true⟩, lastSeq := some 7
      lastSample := some ⟨36000, 0, 200, 0⟩, setpoint := if bs = .discharging then 2000 else 0
      overRef := if bs = .discharging then 2000 else 0 }
  let s := holding ps (.bay 0)
  { s with bays := vset s.bays 0 b, out := s.out.contactorTo 0 (bs == .discharging) }

/-- The pack in the feed lock. -/
def inLock (ls : LockState) (started returning : Bool) (ps : PackState) : State :=
  let s := holding ps .feedLock
  { s with
    feed := { s.feed with lock := ⟨ls, some sampleHandle, started, returning, if ls = .lockPurge then some 0 else none⟩ }
    out := { s.out with upperGate := s.out.upperGate.setCommand (ls == .loading)
                        lowerGate := s.out.lowerGate.setCommand (ls == .dropping) } }

/-- The pack at the head of the shred queue. -/
def inQueue : State :=
  let s := holding .queued .buffer
  { s with feed := { s.feed with queue := [sampleHandle] } }

/-! ### Witnesses: the machine -/

theorem test_hypotheses_StepRunsTheFrontCommand :
    ({ opened .opened with pending := [.fetchNotices .line 0, .loadSetTransmit] } : State).pending =
      .fetchNotices .line 0 :: [.loadSetTransmit] := rfl

theorem test_hypotheses_IdleStep :
    (opened .opened).pending = [] ∧ (∀ p, ((opened .opened).port p).received = []) ∧ (opened .opened).run = true ∧
      ({ opened .opened with run := false } : State).run = false :=
  ⟨rfl, fun p => by cases p <;> rfl, rfl, rfl⟩

theorem test_hypotheses_EveryCommandCompletes : ∀ a b, Instr.loadSetTransmit ≠ .hardwareReset a b := by
  intro a b; exact Instr.noConfusion

theorem test_hypotheses_AStoppedPartWaits :
    ({ opened .opened with run := false } : State).run = false ∧
      (∀ a b, Instr.loadSetTransmit ≠ .hardwareReset a b) ∧ (∀ c, Instr.loadSetTransmit ≠ .mainSupplyLoss c) ∧
      (∀ d l, Instr.loadSetTransmit ≠ .detectorLineChange d l) ∧ (∀ o b, Instr.loadSetTransmit ≠ .readbackChange o b) :=
  ⟨rfl, fun _ _ => Instr.noConfusion, fun _ => Instr.noConfusion, fun _ _ => Instr.noConfusion,
    fun _ _ => Instr.noConfusion⟩

/-! ### Witnesses: invariants -/

/-- The one pack of `holding`. -/
theorem holding_record {st : PackState} {loc : Loc} {i : Fin 256} {p : Pack}
    (h : ((holding st loc).record i).pack = some p) : i = 0 ∧ p = samplePack st loc := by
  by_cases e : i = 0
  · subst e; simp [holding, State.record] at h; exact ⟨rfl, h.symm⟩
  · simp [holding, State.record, e, State.initial] at h

theorem holding_inventory_bay (st : PackState) : InventoryLaw (holding st (.bay 0)) := by
  unfold InventoryLaw; cases st <;> decide +kernel

theorem holding_inventory_lock (st : PackState) : InventoryLaw (holding st .feedLock) := by
  unfold InventoryLaw; cases st <;> decide +kernel

/-- The law of the site on a part whose one pack stands in bay 1. -/
theorem siteLaw_inBay {bs : BayState} {ps : PackState} (occupied : bs ≠ .empty)
    (placed : (samplePack ps (.bay 0)).placed = true) : SiteLaw (inBay bs ps) := by
  refine ⟨?_, ?_, ⟨by simp [inBay, holding, curved, opened, Feed.initial, Lock.initial], nofun, ?_⟩, ?_,
    holding_inventory_bay ps⟩
  · intro i p h; obtain ⟨rfl, rfl⟩ := holding_record h; exact placed
  · intro n
    by_cases k : n = 0
    · subst k
      refine ⟨fun e => absurd e occupied, ?_, ?_⟩
      · intro h e; injection e with e; subst e; exact ⟨_, rfl, rfl⟩
      · intro i p h l; obtain ⟨rfl, rfl⟩ := holding_record h; rfl
    · refine ⟨?_, ?_, ?_⟩
      · intro _; simp [inBay, State.bay, k, holding, curved, opened, State.initial, Bay.initial]
      · intro h e; simp [inBay, State.bay, k, holding, curved, opened, State.initial, Bay.initial] at e
      · intro i p h l; obtain ⟨rfl, rfl⟩ := holding_record h
        injection l with l; exact absurd l.symm k
  · intro i p h l; obtain ⟨rfl, rfl⟩ := holding_record h; cases l
  · intro i p l h e c; obtain ⟨rfl, rfl⟩ := holding_record h
    injection e with e; subst e; cases c

/-- The law of the site on a part whose one pack stands in the lock: QUARANTINED in a BLOCKED one, else FEEDING. -/
theorem siteLaw_inLock {ls : LockState} {ps : PackState} (a b : Bool) (occupied : ls ≠ .empty)
    (fits : ps = if ls = .blocked then .quarantined else .feeding) : SiteLaw (inLock ls a b ps) := by
  refine ⟨?_, ?_, ⟨by simp [inLock, occupied], ?_, ?_⟩, ?_, holding_inventory_lock ps⟩
  · intro i p h; obtain ⟨rfl, rfl⟩ := holding_record h
    rw [fits]; by_cases e : ls = .blocked <;> simp only [e, if_true, if_false] <;> rfl
  · intro n
    refine ⟨?_, ?_, ?_⟩
    · intro _; simp [inLock, State.bay, holding, curved, opened, State.initial, Bay.initial]
    · intro h e; simp [inLock, State.bay, holding, curved, opened, State.initial, Bay.initial] at e
    · intro i p h l; obtain ⟨rfl, rfl⟩ := holding_record h; cases l
  · intro h e; injection e with e; subst e; exact ⟨_, rfl, rfl, fits⟩
  · intro i p h _; obtain ⟨rfl, rfl⟩ := holding_record h; rfl
  · intro i p l h e c; obtain ⟨rfl, rfl⟩ := holding_record h
    injection e with e; subst e; cases c

theorem test_hypotheses_SiteLaw :
    SiteLaw (inBay .discharging .discharging) ∧ SiteLaw (inLock .blocked false false .quarantined) ∧
      SiteLaw (inLock .dropping true false .feeding) :=
  ⟨siteLaw_inBay (by decide) rfl, siteLaw_inLock _ _ (by decide) rfl, siteLaw_inLock _ _ (by decide) rfl⟩

/-- A reset of a part that discharges a pack in bay 1, and of one that drops its pack, which the lock then holds; memory that
agrees and memory that does not. -/
theorem test_hypotheses_HardwareReset :
    let sole := fun (s : State) (l : Loc) (i : Fin 256) (p : Pack) => (s.record i).pack = some p ∧ p.loc = l ∧
      ∀ j q, (s.record j).pack = some q → q.loc = l → j = i
    let b := inBay .discharging .discharging
    let k := inLock .dropping true false .feeding
    (b.checkAgrees && false) = false ∧ b.checkAgrees = true ∧ k.checkAgrees = true ∧
      sole b (.bay 0) 0 (samplePack .discharging (.bay 0)) ∧ sole k .feedLock 0 (samplePack .feeding .feedLock) ∧
      (∀ i p, (b.record i).pack = some p → p.loc ≠ .bay 7) ∧ (∀ i p, (b.record i).pack = some p → p.loc ≠ .feedLock) ∧
      (∀ i p, (b.record i).pack = some p → p.loc = .feedLock → p.state ≠ .feeding) := by
  refine ⟨rfl, rfl, rfl, ⟨rfl, rfl, fun j q h _ => (holding_record h).1⟩, ⟨rfl, rfl, fun j q h _ => (holding_record h).1⟩,
    ?_, ?_, ?_⟩ <;>
  · intro i p h; obtain ⟨rfl, rfl⟩ := holding_record h; decide

theorem test_hypotheses_QueueLaw : QueueLaw inQueue := by
  refine ⟨by decide, by decide, ?_, ?_⟩
  · intro h e
    rcases List.mem_singleton.1 e with rfl
    exact ⟨_, rfl, rfl⟩
  · intro i p h _; obtain ⟨rfl, rfl⟩ := holding_record h
    exact List.mem_singleton.2 rfl

theorem test_hypotheses_SiteLaw_queue : SiteLaw inQueue := by
  refine ⟨?_, ?_, ?_, ?_, ?_⟩
  · intro i p h; obtain ⟨rfl, rfl⟩ := holding_record h; rfl
  · intro n
    refine ⟨?_, ?_, ?_⟩
    · revert n; decide +kernel
    · intro h e
      simp [inQueue, State.bay, holding, curved, opened, State.initial, Bay.initial] at e
    · intro i p h l
      obtain ⟨rfl, rfl⟩ := holding_record h; cases l
  · refine ⟨by decide, nofun, ?_⟩
    intro i p h l; obtain ⟨rfl, rfl⟩ := holding_record h; cases l
  · intro i p l h e c; obtain ⟨rfl, rfl⟩ := holding_record h
    injection e with e; subst e; cases c
  · unfold InventoryLaw; decide +kernel

theorem test_hypotheses_LotLaw : LotLaw inQueue := by
  intro j
  by_cases e : j = 0
  · subst e; show (1 : Nat) = 0 + 0 + liveCount inQueue 0; decide +kernel
  · have : inQueue.lotAt j = none := by
      simp [inQueue, holding, curved, opened, State.lotAt, e, LotTable.initial]
    rw [this]
    intro i p h; obtain ⟨rfl, rfl⟩ := holding_record h; exact fun x => e x.symm

theorem test_hypotheses_OutputLaws :
    PermitLaw (inBay .discharging .discharging) ∧ ContactorLaw (inBay .discharging .discharging) ∧
      ReleaseLaw (inBay .discharging .discharging) ∧ LineFaultLaw (inBay .discharging .discharging) ∧
      CurveLaw (inBay .discharging .discharging) := by
  unfold PermitLaw InputsTold ContactorLaw ReleaseLaw LineFaultLaw CurveLaw; decide +kernel

theorem test_hypotheses_LinksBounded : LinksBounded (inBay .discharging .discharging) :=
  ⟨fun p => by cases p <;> decide, by decide⟩

/-- Each port of `opened` takes a request at once. -/
theorem opened_ready (st : LotState) (p : Port) : Ready p (opened st) := by cases p <;> exact ⟨rfl, rfl, rfl⟩

/-- Each port of a state that differs from `opened` outside its ports and its run. -/
theorem ready_of_ports {s : State} (r : s.run = true) (e : s.ports = presentPorts) (p : Port) : Ready p s := by
  refine ⟨r, ?_, ?_⟩ <;> cases p <;> simp [State.port, e, presentPorts, Ports.initial, PortCtx.initial]

/-! ### Witnesses: every request -/

theorem test_hypotheses_RequestsRoundTrip :
    (Instr.admitPack .custody 9 1 7 16777215 1 100 100000 240).wellFormed = true ∧
      encodeRequest (.admitPack .custody 9 1 7 16777215 1 100 100000 240) =
        some (.custody, (Instr.admitPack .custody 9 1 7 16777215 1 100 100000 240).frame) := ⟨by decide +kernel, rfl⟩

theorem test_hypotheses_RefusedAtThePort :
    Ready .fire (opened .opened) ∧ mayIssue .fire 20 = false ∧ (Instr.admitPack .fire 0 1 0 0 0 100 1 1).head =
      some (.fire, 0, 20) ∧ ¬((1 : Nat) + 255 = 255 ∧ 67 + 188 = 255) ∧ ¬((0 : Nat) + 255 = 255 ∧ 67 + 187 = 255) ∧
      (touchPort .line (opened .opened)).lookup ⟨255, 255⟩ = none ∧
      (touchPort .line (holding .received .intake)).lookup ⟨0, 1⟩ = none :=
  ⟨opened_ready _ _, by decide, rfl, by decide, by decide, by decide +kernel, by decide +kernel⟩

theorem test_hypotheses_ReadsChangeNothing :
    Ready .custody (opened .opened) ∧
      (touchPort .custody (holding .received .intake)).lookup sampleHandle = some (samplePack .received .intake) ∧
      (touchPort .custody (opened .opened)).lotAt 1 = none ∧
      (touchPort .custody (opened .opened)).lotAt 0 = some (sampleLot .opened) ∧
      (configBody (touchPort .custody (opened .opened)) 0 7).isSome = true ∧
      configBody (touchPort .custody (opened .opened)) 0 8 = none ∧
      (listFilters (some 10) (some 7)).isSome = true ∧ listFilters (some 11) none = none ∧ listFilters none (some 8) = none := by
  unfold Ready; decide +kernel

/-! ### Witnesses: the register -/

theorem test_hypotheses_StandingEnergyRule :
    (samplePack .loaded .intake).state ≠ .shredded ∧ (samplePack .loaded .intake).state ≠ .withdrawn ∧
      (samplePack .shredded .shredder).state = .shredded := by decide

/-- The part with the range of Z1 open, as ADMIT finds it; and with 256 packs, with Z1 in ALARM, with a tag taken. -/
theorem test_hypotheses_AdmitTakesARecord :
    let full : State := { opened .opened with packs := Vector.replicate 256 ⟨0, some (samplePack .received .intake)⟩ }
    let hot := (opened .opened).setZone 0 { Zone.initial with state := .alarm }
    Ready .custody (opened .opened) ∧ Ready .custody full ∧ Ready .custody hot ∧
      admitRanges 1 16777215 100 1 240 = true ∧ admitRanges (2 ^ 64 - 1) 0 2000000 100000 1 = true ∧
      admitRanges 0 0 100 1 1 = false ∧ admitRanges 1 0 99 1 1 = false ∧ admitRanges 1 0 100 1 241 = false ∧
      lotIn (touchPort .custody (opened .opened)) 0 .opened = true ∧
      lotIn (touchPort .custody (opened .closed)) 0 .opened = false ∧
      (touchPort .custody (opened .opened)).lotAt 0 = some (sampleLot .opened) ∧
      (∀ k x, ((touchPort .custody (opened .opened)).record k).pack = some x → x.tag ≠ 101) ∧
      (∃ i x, ((touchPort .custody full).record i).pack = some x ∧ x.tag = 101) ∧
      (∀ i x, ((touchPort .custody full).record i).pack = some x → x.tag ≠ 7) ∧
      (∀ i, ((touchPort .custody full).record i).pack ≠ none) ∧
      ((touchPort .custody (opened .opened)).record 0).pack = none ∧
      ((touchPort .custody (opened .opened)).zone 0).state = .normal ∧
      ((touchPort .custody hot).zone 0).state ≠ .normal ∧ lotIn (touchPort .custody hot) 0 .opened = true := by
  intro full hot
  refine ⟨opened_ready _ _, ready_of_ports rfl rfl _, ready_of_ports rfl rfl _, by decide, by decide, by decide, by decide,
    by decide, by decide +kernel, by decide +kernel, rfl, ?_, ⟨0, _, rfl, rfl⟩, ?_, ?_, by decide +kernel,
    by decide +kernel, by decide +kernel, by decide +kernel⟩
  · intro k x h
    have : ((opened .opened).record k).pack = some x := h
    simp [opened, State.record, State.initial] at this
  · intro i x h
    have e : (full.record i).pack = some x := h
    simp only [full, State.record, vget_replicate, Option.some.injEq] at e
    subst e; decide
  · intro i h
    have e : (full.record i).pack = none := h
    simp [full, State.record] at e

/-- A DRAINING lot of one more pack shredded, its output final or not. -/
def draining (final : Bool) : Lot :=
  { sampleLot .draining with shredded := 1, shreddedMass := 1000, outputMass := 600, final := final }

/-- WITHDRAW from the store, with the store in ALARM, of a pack that is elsewhere or in another state, and of the last pack of
a DRAINING lot with its output final and not. -/
theorem test_hypotheses_WithdrawTakesThePackOut :
    let s := holding .quarantined .quarantine
    let hot := s.setZone 7 { Zone.initial with state := .alarm }
    let last := fun final => s.setLot 0 (some (draining final))
    Ready .custody s ∧ Ready .custody hot ∧ Ready .custody (last true) ∧ Ready .custody (last false) ∧
      (touchPort .custody s).lookup sampleHandle = some (samplePack .quarantined .quarantine) ∧
      (touchPort .custody hot).lookup sampleHandle = some (samplePack .quarantined .quarantine) ∧
      (touchPort .custody (holding .quarantined .buffer)).lookup sampleHandle = some (samplePack .quarantined .buffer) ∧
      (touchPort .custody (holding .received .intake)).lookup sampleHandle = some (samplePack .received .intake) ∧
      (touchPort .custody s).lotAt 0 = some (sampleLot .opened) ∧
      (touchPort .custody (last true)).lotAt 0 = some (draining true) ∧
      (touchPort .custody (last false)).lotAt 0 = some (draining false) ∧
      moveFrozen (touchPort .custody s) (some 7) none = false ∧ moveFrozen (touchPort .custody hot) (some 7) none = true := by
  unfold Ready; decide +kernel

/-- From INTAKE to bay 8, from a DONE bay 1 to bay 2, to an occupied bay, and with the target's zone in ALARM. -/
theorem test_hypotheses_AssignPlacesThePack :
    let s := holding .received .intake
    let d := inBay .done .discharged
    let hot := s.setZone 1 { Zone.initial with state := .alarm }
    let busy := { s with bays := d.bays }
    Ready .line s ∧ Ready .line d ∧ Ready .line hot ∧ Ready .line busy ∧
      (touchPort .line s).lookup sampleHandle = some (samplePack .received .intake) ∧
      (touchPort .line d).lookup sampleHandle = some (samplePack .discharged (.bay 0)) ∧
      ((touchPort .line d).bay 0).state = .done ∧ ((touchPort .line s).bay 7).state = .empty ∧
      ((touchPort .line d).bay 1).state = .empty ∧ ((touchPort .line busy).bay 0).state ≠ .empty ∧
      moveFrozen (touchPort .line s) (samplePack .received .intake).zone (some (bayZone 7)) = false ∧
      moveFrozen (touchPort .line hot) (samplePack .received .intake).zone (some (bayZone 0)) = true := by
  unfold Ready; decide +kernel

/-- MOVE from a LOADED bay to INTAKE, of a QUARANTINED pack to the store, and of a pack already there; QUARANTINE of a
QUARANTINED, a FEEDING, a LOADED, a QUEUED and a DISCHARGING pack. -/
theorem test_hypotheses_MoveAndQuarantine :
    let a := inBay .loaded .loaded
    let b := holding .quarantined .buffer
    let c := holding .received .intake
    let d := inLock .loading false false .feeding
    let e := inBay .discharging .discharging
    Ready .line a ∧ Ready .line b ∧ Ready .line c ∧ Ready .line d ∧ Ready .line e ∧ Ready .line inQueue ∧
      (touchPort .line a).lookup sampleHandle = some (samplePack .loaded (.bay 0)) ∧
      ((touchPort .line a).bay 0).state = .loaded ∧
      moveFrozen (touchPort .line a) (samplePack .loaded (.bay 0)).zone (zoneOf .intake) = false ∧
      (touchPort .line b).lookup sampleHandle = some (samplePack .quarantined .buffer) ∧
      moveFrozen (touchPort .line b) (samplePack .quarantined .buffer).zone (zoneOf .quarantine) = false ∧
      (touchPort .line c).lookup sampleHandle = some (samplePack .received .intake) ∧
      (touchPort .line d).lookup sampleHandle = some (samplePack .feeding .feedLock) ∧
      (touchPort .line e).lookup sampleHandle = some (samplePack .discharging (.bay 0)) ∧
      (touchPort .line inQueue).lookup sampleHandle = some (samplePack .queued .buffer) ∧
      Counted (samplePack .loaded (.bay 0)) (touchPort .line a) ∧
      Counted (samplePack .discharging (.bay 0)) (touchPort .line e) ∧
      Counted (samplePack .queued .buffer) (touchPort .line inQueue) ∧
      ((touchPort .line e).bay 0).steerable = true ∧ ((touchPort .line a).bay 0).steerable = true := by
  unfold Ready Counted; decide +kernel

/-! ### Witnesses: bays -/

/-- Bay 1 of `inBay` with its context changed. -/
def bayWith (bs : BayState) (ps : PackState) (f : Bay → Bay) : State :=
  (inBay bs ps).setBay 0 (f ((inBay bs ps).bay 0))

/-- START with recheck no and yes, on a sample 2,000 ms old; on a bay of another state, with the zone in PRE_ALARM, and
with a sample 2,001 ms old. -/
theorem test_hypotheses_StartBeginsTheBay :
    let a := { inBay .loaded .loaded with clock := 2000 }
    let r := bayWith .loaded .loaded fun b => { b with recheck := true }
    let hot := a.setZone 1 { Zone.initial with state := .preAlarm }
    let late := { a with clock := 2001 }
    Ready .line a ∧ Ready .line r ∧ Ready .line hot ∧ Ready .line late ∧
      ((touchPort .line a).bay 0).state = .loaded ∧ ((touchPort .line a).bay 7).state ≠ .loaded ∧
      ((touchPort .line a).zone (bayZone 0)).state = .normal ∧ ((touchPort .line hot).zone (bayZone 0)).state ≠ .normal ∧
      ((touchPort .line a).bay 0).fresh (touchPort .line a).clock = true ∧
      ((touchPort .line late).bay 0).fresh (touchPort .line late).clock = false ∧
      (touchPort .line a).occupantPack 0 = some (0, samplePack .loaded (.bay 0)) ∧
      (touchPort .line r).occupantPack 0 = some (0, samplePack .loaded (.bay 0)) ∧
      Counted (samplePack .loaded (.bay 0)) (touchPort .line a) ∧
      ((touchPort .line a).bay 0).recheck = false ∧ ((touchPort .line r).bay 0).recheck = true := by
  unfold Ready Counted; decide +kernel

/-- PAUSE; RESUME one millisecond before the end of a segment and at its end; ABORT from RESTING. -/
theorem test_hypotheses_PauseResumeAbort :
    let d := inBay .discharging .discharging
    let p := bayWith .paused .discharging fun b => { b with elapsed := 599999, pauseCause := some .line }
    let e := bayWith .paused .discharging fun b => { b with elapsed := 600000, pauseCause := some .line }
    let r := bayWith .resting .resting fun b => { b with rest := some 600000 }
    Ready .line d ∧ Ready .line p ∧ Ready .line e ∧ Ready .line r ∧
      ((touchPort .line d).bay 0).state = .discharging ∧ ((touchPort .line p).bay 0).state = .paused ∧
      ((touchPort .line p).zone (bayZone 0)).state = .normal ∧
      ((touchPort .line p).bay 0).fresh (touchPort .line p).clock = true ∧
      ((touchPort .line p).bay 0).segmentOver = false ∧ ((touchPort .line e).bay 0).segmentOver = true ∧
      ((touchPort .line e).bay 0).fresh (touchPort .line e).clock = true ∧
      ((touchPort .line r).bay 0).state = .resting ∧
      (touchPort .line r).occupantPack 0 = some (0, samplePack .resting (.bay 0)) ∧
      Counted (samplePack .resting (.bay 0)) (touchPort .line r) := by
  unfold Ready Counted; decide +kernel

/-- WRITE_SLOT staged, direct, and direct to a segment that it ends; CLEAR_BAY of a bay with and without an occupant, and
with its contactor stuck closed. -/
theorem test_hypotheses_SlotsAndClearBay :
    let d := bayWith .discharging .discharging fun b => { b with elapsed := 10000 }
    let f := bayWith .faulted .quarantined fun b => { b with faultCause := some .overTemperature }
    let stuck := f.setSup (.contactor 0) { f.sup (.contactor 0) with readback := true }
    let gone := (opened .opened).setBay 0 { Bay.initial with state := .faulted, faultCause := some .outputMismatch }
    Ready .line d ∧ Ready .line f ∧ Ready .line stuck ∧ Ready .line gone ∧
      slotOfNumber 0 = some .a ∧ slotOfNumber 1 = some .b ∧ ((touchPort .line d).bay 0).steerable = true ∧
      ((touchPort .line d).bay 1).steerable = false ∧ ((touchPort .line d).bay 0).active = .a ∧
      ((touchPort .line d).bay 0).state = .discharging ∧
      (((touchPort .line d).bay 0).setSlot .a ⟨1000, 1500, max 10 (min 3600 9), true⟩).segmentOver = true ∧
      (((touchPort .line d).bay 0).setSlot .a ⟨400000, 4500, max 10 (min 3600 11), true⟩).segmentOver = false ∧
      ((touchPort .line f).bay 0).state = .faulted ∧ ((touchPort .line f).sup (.contactor 0)).readback = false ∧
      ((touchPort .line stuck).bay 0).state = .faulted ∧ ((touchPort .line stuck).sup (.contactor 0)).readback = true ∧
      (touchPort .line f).occupantPack 0 = some (0, samplePack .quarantined (.bay 0)) ∧
      ((touchPort .line gone).bay 0).state = .faulted ∧ ((touchPort .line gone).bay 0).occupant = none := by
  unfold Ready; decide +kernel

/-! ### Witnesses: samples -/

/-- Samples to an empty bay, out of range, a duplicate, a stale one; accepted in a LOADED bay, and accepted and integrated
under load, at the edges of the ranges. -/
theorem test_hypotheses_SamplesAreTaken :
    let s := inBay .discharging .discharging
    s.run = true ∧ s.link.receiver = .hunting ∧ (s.bay 7).occupant = none ∧ (s.bay 0).occupant ≠ none ∧
      sampleRanges 65535 200000 500000 1500 1000 = true ∧ sampleRanges 0 0 (-500000) (-400) 1 = true ∧
      sampleRanges 0 0 0 0 0 = false ∧ sampleRanges 0 200001 0 0 1 = false ∧
      classifySeq (s.bay 0).lastSeq 7 = .duplicate ∧ classifySeq (s.bay 0).lastSeq 32775 = .stale ∧
      classifySeq (s.bay 0).lastSeq 8 = .next 0 ∧ classifySeq (s.bay 0).lastSeq 32774 = .resync ∧
      ((inBay .loaded .loaded).bay 0).state = .loaded ∧ (s.bay 0).state = .discharging ∧
      s.occupantPack 0 = some (0, samplePack .discharging (.bay 0)) ∧ (s.zone (bayZone 0)).state ≠ .alarm ∧
      (450 : Int) ≤ (samplePack .discharging (.bay 0)).treatment.maxTemp ∧ (4200 : Int) ≤ overLimit (s.bay 0).overRef ∧
      (s.bay 0).activeSlot.stop < 30012 / (samplePack .discharging (.bay 0)).cells := by decide +kernel

/-- The four outcomes of the checks of R58 and R59 on one bay, each at its edge. -/
theorem test_hypotheses_DischargeChecksInOrder :
    let s := inBay .discharging .discharging
    s.run = true ∧ s.link.receiver = .hunting ∧ sampleRanges 8 30011 4201 451 200 = true ∧
      classifySeq (s.bay 0).lastSeq 8 ≠ .duplicate ∧ classifySeq (s.bay 0).lastSeq 8 ≠ .stale ∧
      (s.bay 0).state = .discharging ∧ s.occupantPack 0 = some (0, samplePack .discharging (.bay 0)) ∧
      (s.zone (bayZone 0)).state ≠ .alarm ∧ ((samplePack .discharging (.bay 0)).treatment.maxTemp : Int) < 451 ∧
      (-1001 : Int) < -1000 ∧ (overLimit (s.bay 0).overRef : Int) < 4201 ∧
      30011 / (samplePack .discharging (.bay 0)).cells ≤ (s.bay 0).activeSlot.stop := by decide +kernel

theorem test_hypotheses_ResidualCheckArithmetic :
    ([⟨2000, 0⟩, ⟨3000, 50⟩, ⟨4200, 1000⟩] : List Point).Pairwise (fun a b => a.mv < b.mv) ∧
      curveFraction 2000 [⟨2000, 0⟩, ⟨3000, 50⟩, ⟨4200, 1000⟩] = some 0 ∧
      curveFraction 2001 [⟨2000, 0⟩, ⟨3000, 50⟩, ⟨4200, 1000⟩] = some 1 ∧
      curveFraction 3000 [⟨2000, 0⟩, ⟨3000, 50⟩, ⟨4200, 1000⟩] = some 50 ∧
      curveFraction 4200 [⟨2000, 0⟩, ⟨3000, 50⟩, ⟨4200, 1000⟩] = some 1000 := by decide +kernel

/-- The end of a rest: a pass, a failure with a retry left and with none, and a check that must wait for its curve. -/
theorem test_hypotheses_RestEndsWithTheResidualCheck :
    let rest := fun (v retries : Nat) =>
      let s := bayWith .resting .resting fun b => { b with rest := some 0, lastSample := some ⟨v, 0, 200, 0⟩ }
      s.setPack 0 (some { samplePack .resting (.bay 0) with retries := retries })
    let wait := { rest 36000 0 with cls := Classification.initial }
    (rest 36000 0).run = true ∧ ((rest 36000 0).bay 0).state = .resting ∧ ((rest 36000 0).bay 0).rest = some 0 ∧
      (rest 36000 0).occupantPack 0 = some (0, samplePack .resting (.bay 0)) ∧
      ((rest 36000 0).zone (bayZone 0)).state ≠ .alarm ∧
      (readyCheck 0 (rest 36000 0)).map (·.2.2) = some ⟨3000, 50, 5, 10, true⟩ ∧
      (readyCheck 0 (rest 50400 0)).map (·.2.2) = some ⟨4200, 1000, 100, 10, false⟩ ∧
      (readyCheck 0 (rest 50400 1)).map (·.2.2) = some ⟨4200, 1000, 100, 10, false⟩ ∧
      (wait.bay 0).rest = some 0 ∧ readyCheck 0 wait = none := by decide +kernel

/-- Each bay timer due at its very millisecond, and one millisecond short. -/
theorem test_hypotheses_BayTimersAct :
    let d := bayWith .discharging .discharging fun b => { b with elapsed := 600000, overEnd := some 2000 }
    let s := { d with clock := 2000 }
    let early := { bayWith .discharging .discharging fun b => { b with elapsed := 599999, overEnd := some 2000 } with
      clock := 1999 }
    s.run = true ∧ (s.bay 0).state = .discharging ∧ (s.bay 0).activeSlot.segment * 1000 ≤ (s.bay 0).elapsed ∧
      (s.bay 0).lastSample = some ⟨36000, 0, 200, 0⟩ ∧ 0 + 2000 ≤ s.clock ∧ Told s ∧ (s.bay 0).overEnd = some 2000 ∧
      ¬((early.bay 0).state = .discharging ∧ (early.bay 0).activeSlot.segment * 1000 ≤ (early.bay 0).elapsed) ∧
      ¬((early.bay 0).state = .discharging ∧ ∃ x, (early.bay 0).lastSample = some x ∧ x.arrival + 2000 ≤ early.clock) ∧
      ¬(∃ e, (early.bay 0).overEnd = some e ∧ e ≤ early.clock) := by
  refine ⟨rfl, rfl, by decide, rfl, by decide, by unfold Told; decide +kernel, rfl, by decide, ?_, ?_⟩
  · rintro ⟨-, x, h, l⟩; injection h with h; subst h; revert l; decide
  · rintro ⟨e, h, l⟩; injection h with h; subst h; revert l; decide

/-! ### Witnesses: field link and read-backs -/

theorem test_hypotheses_FieldLinkActs :
    let s := opened .opened
    let due := { s with link := { s.link with waiting := [], refresh := vset s.link.refresh 7 (some 0) } }
    s.run = true ∧ s.link.waiting ≠ [] ∧ due.link.waiting = [] ∧ vget due.link.refresh 7 = some 0 ∧
      vget s.link.refresh 7 ≠ some 0 ∧ s.link.receiver = .hunting ∧
      ({ s with link := { s.link with receiver := .ignoring } } : State).link.receiver = .ignoring ∧
      (s.link.waiting.map (·.bay)).Nodup := by decide +kernel

/-- Each clause of the supervision: a change in the window, after it to agreement and to disagreement; a window and a timer
that end. -/
theorem test_hypotheses_ReadbacksAreSupervised :
    let s := opened .opened
    let on := s.setSup .upperGate ⟨true, false, none, some 0, false⟩
    let told := s.setSup .purge ⟨false, true, none, none, true⟩
    let ends := s.setSup (.contactor 0) ⟨true, false, some 0, none, false⟩
    let agrees := s.setSup (.release 7) ⟨false, false, some 0, none, false⟩
    s.run = true ∧ (s.sup .permit).window ≠ none ∧ (s.sup .permit).readback ≠ true ∧
      (on.sup .upperGate).window = none ∧ (on.sup .upperGate).disagree = some 0 ∧ (on.sup .upperGate).window ≠ some 0 ∧
      true = (on.sup .upperGate).command ∧ (told.sup .purge).reported = true ∧ (told.sup .purge).window = none ∧
      Told on ∧ Told ends ∧ Told agrees ∧ (ends.sup (.contactor 0)).window = some 0 ∧
      (ends.sup (.contactor 0)).readback ≠ (ends.sup (.contactor 0)).command ∧
      (ends.sup (.contactor 0)).disagree ≠ some 0 ∧ (agrees.sup (.release 7)).window = some 0 ∧
      (agrees.sup (.release 7)).readback = (agrees.sup (.release 7)).command := by
  unfold Told; decide +kernel

/-! ### Witnesses: shred queue and feed lock -/

/-- Every input of the permit as it must be, and the permit on. -/
def permitted (s : State) : State :=
  { s with
    atm := { s.atm with state := .inert, oxygen := 300 }
    lot := { s.lot with shredLot := some 0 }
    feed := { s.feed with permit := true, inputs := ⟨.inert, .normal, .normal, true, false, true⟩ }
    out := { s.out with permit := s.out.permit.setCommand true, purge := s.out.purge.setCommand true } }

/-- A pack DISCHARGED at second 0 in a DONE bay, `seconds` later. -/
def dwelling (seconds : Nat) : State :=
  let s := inBay .done .discharged
  { s.setPack 0 (some { samplePack .discharged (.bay 0) with dischargedAt := some ⟨0, 0⟩ }) with
    clock := seconds * 1000 }

/-- A dwell at its limit of 60 minutes and one second past it, and ENQUEUE on each; a full queue; Z6 in ALARM. -/
theorem test_hypotheses_EnqueueUnderDwell :
    let x := { samplePack .discharged (.bay 0) with dischargedAt := some ⟨0, 0⟩ }
    let u := touchPort .line (dwelling 3600)
    let late := touchPort .line (dwelling 3601)
    let full := touchPort .line { dwelling 0 with feed := { Feed.initial with queue := List.replicate 6 ⟨9, 0⟩ } }
    let hot := touchPort .line ((dwelling 0).setZone 5 { Zone.initial with state := .alarm })
    Ready .line (dwelling 3600) ∧ Ready .line (dwelling 3601) ∧ u.lookup sampleHandle = some x ∧
      late.lookup sampleHandle = some x ∧ x.recheck = false ∧ x.dischargedAt = some ⟨0, 0⟩ ∧
      (u.bay 0).state = .done ∧ dwellExpired u x = false ∧ dwellExpired late x = true ∧
      u.feed.queueCount < 6 ∧ moveFrozen u x.zone (some 5) = false ∧ 6 ≤ full.feed.queueCount ∧
      dwellExpired full x = false ∧ hot.feed.queueCount < 6 ∧ moveFrozen hot x.zone (some 5) = true := by
  unfold Ready; decide +kernel

theorem test_hypotheses_RemoveTakesThePackOut :
    let hot := inQueue.setZone 5 { Zone.initial with state := .alarm }
    let busy := { inQueue with bays := (inBay .loaded .loaded).bays }
    Ready .line inQueue ∧ Ready .line hot ∧ Ready .line busy ∧
      (touchPort .line inQueue).lookup sampleHandle = some (samplePack .queued .buffer) ∧
      ((touchPort .line inQueue).bay 7).state = .empty ∧ ((touchPort .line busy).bay 0).state ≠ .empty ∧
      moveFrozen (touchPort .line inQueue) (some 5) (some (bayZone 7)) = false ∧
      moveFrozen (touchPort .line inQueue) (some 5) (some 7) = false ∧
      moveFrozen (touchPort .line hot) (some 5) (some 7) = true ∧
      moveFrozen (touchPort .line hot) (some 5) (some (bayZone 0)) = true := by
  unfold Ready; decide +kernel

/-- A FEED that passes, and one state for each of its refusals. -/
theorem test_hypotheses_FeedChecksInOrderAndLoadsTheLock :
    let x := { samplePack .queued .buffer with dischargedAt := some ⟨0, 0⟩ }
    let s := permitted (inQueue.setPack 0 (some x))
    let u := touchPort .line s
    let late := touchPort .line { s with clock := 3601000 }
    let off := touchPort .line { s with feed := { s.feed with permit := false } }
    let other := touchPort .line { s with lot := { s.lot with shredLot := some 1 } }
    let switching := touchPort .line { s with lot := { s.lot with switch := some ⟨0, 1, false, false⟩ } }
    let locked := touchPort .line { s with feed := { s.feed with lock := ⟨.blocked, some ⟨9, 0⟩, false, false, none⟩ } }
    let hot := touchPort .line (s.setZone 5 { Zone.initial with state := .alarm })
    Ready .line s ∧ u.lookup sampleHandle = some x ∧ u.feed.queue.head? = some sampleHandle ∧
      u.feed.lock.state = .empty ∧ u.lot.switch = none ∧ u.lot.shredLot = some x.lot ∧ u.feed.permit = true ∧
      dwellExpired u x = false ∧ moveFrozen u (some 5) (some 6) = false ∧
      u.feed.queue.head? ≠ some ⟨0, 1⟩ ∧ locked.feed.lock.state ≠ .empty ∧ switching.lot.switch ≠ none ∧
      other.lot.shredLot ≠ some x.lot ∧ off.feed.permit = false ∧ dwellExpired late x = true ∧
      moveFrozen hot (some 5) (some 6) = true := by
  unfold Ready; decide +kernel

/-- DROP_DONE while DROPPING, of the last pack of a DRAINING lot with its output final and not, and refused; LOCK_EMPTIED from
a return, from a BLOCKED lock, from a DROPPING one and from an EMPTY one. -/
theorem test_hypotheses_LockGivesUpItsPack :
    let d := inLock .dropping true false .feeding
    let r := inLock .loading false true .feeding
    let b := inLock .blocked false false .quarantined
    let last := fun final => d.setLot 0 (some (draining final))
    let u := fun s => touchPort .line s
    Ready .line d ∧ Ready .line r ∧ Ready .line b ∧ Ready .line (last true) ∧ Ready .line (last false) ∧
      (u d).lookup sampleHandle = some (samplePack .feeding .feedLock) ∧ (u d).lotAt 0 = some (sampleLot .opened) ∧
      (u (last true)).lotAt 0 = some (draining true) ∧ (u (last false)).lotAt 0 = some (draining false) ∧
      (u d).feed.lock.occupant = some sampleHandle ∧ (u d).feed.lock.dropStarted = true ∧
      (u d).feed.lock.state = .dropping ∧ Settled 6 (u d) ∧ Settled 6 (u (last true)) ∧
      (u r).lookup sampleHandle = some (samplePack .feeding .feedLock) ∧
      (u r).feed.lock.occupant = some sampleHandle ∧ (u r).feed.lock.returning = true ∧ (u r).feed.lock.state = .loading ∧
      (u r).feed.lock.dropStarted = false ∧ ((u r).zone 6).state ≠ .alarm ∧ ((u r).zone 5).state ≠ .alarm ∧
      (u b).lookup sampleHandle = some (samplePack .quarantined .feedLock) ∧
      (u b).feed.lock.state = .blocked ∧ ((u b).zone 7).state ≠ .alarm ∧
      (u (opened .opened)).feed.lock.occupant = none := by
  unfold Ready Settled; decide +kernel

/-- A lock that drops its pack under the permit, with its lower gate's mismatch due at a timer and at a window; and the same
part as a RELEASE of Z7 finds it. -/
theorem test_hypotheses_GateMismatchAndZ7BlockTheLock :
    let d := permitted (inLock .dropping true false .feeding)
    let held := fun u : State => SiteLaw u ∧ PermitLaw u ∧ Told u ∧ u.feed.lock.occupant = some sampleHandle ∧
      u.feed.lock.state ≠ .blocked ∧ u.lookup sampleHandle = some (samplePack .feeding .feedLock)
    let timer := d.setSup .lowerGate ⟨true, false, none, some 0, false⟩
    let window := d.setSup .lowerGate ⟨true, false, some 0, none, false⟩
    let u := touchPort .fire d
    held timer ∧ (timer.sup .lowerGate).disagree = some 0 ∧ (timer.sup .lowerGate).window ≠ some 0 ∧
      held window ∧ (window.sup .lowerGate).window = some 0 ∧
      (window.sup .lowerGate).readback ≠ (window.sup .lowerGate).command ∧
      Ready .fire d ∧ held u ∧ (u.zone 6).state = .normal := by
  have law : SiteLaw (inLock .dropping true false .feeding) := siteLaw_inLock _ _ (by decide) rfl
  have same : touchPort .fire (permitted (inLock .dropping true false .feeding)) = _ := touchPort_present rfl
  intro d held timer window u
  refine ⟨⟨law, ?_, ?_, rfl, by decide, rfl⟩, rfl, by decide, ⟨law, ?_, ?_, rfl, by decide, rfl⟩, rfl, by decide,
    ready_of_ports rfl rfl _, ⟨?_, ?_, ?_, rfl, by decide, rfl⟩, rfl⟩
  case refine_5 => show SiteLaw (touchPort .fire (permitted (inLock .dropping true false .feeding))); rw [same]; exact law
  all_goals first
    | unfold Told; decide +kernel
    | unfold PermitLaw InputsTold; decide +kernel

/-- LOCK_CLOSED, RETURN with room, with a full queue and with Z6 in ALARM, and the purge timer at 0. -/
theorem test_hypotheses_LockMovesToTheDrop :
    let l := inLock .loading false false .feeding
    let p := inLock .lockPurge false false .feeding
    let full := touchPort .line { l with feed := { l.feed with queue := List.replicate 6 ⟨9, 0⟩ } }
    let hot := touchPort .line (l.setZone 5 { Zone.initial with state := .alarm })
    Ready .line l ∧ (touchPort .line l).feed.lock.state = .loading ∧ (touchPort .line l).feed.lock.returning = false ∧
      (touchPort .line l).lookup sampleHandle = some (samplePack .feeding .feedLock) ∧
      (touchPort .line l).feed.lock.occupant = some sampleHandle ∧
      (touchPort .line l).feed.lock.dropStarted = false ∧ (touchPort .line l).feed.queue.length < 6 ∧
      moveFrozen (touchPort .line l) (some 6) (some 5) = false ∧ 6 ≤ full.feed.queue.length ∧
      moveFrozen hot (some 6) (some 5) = true ∧ p.run = true ∧ p.feed.lock.state = .lockPurge ∧
      p.feed.lock.purgeTimer = some 0 ∧ Ready .line p := by
  unfold Ready; decide +kernel

/-- A permit that goes off over a moving lock, and a HELD lock whose conditions are back. -/
theorem test_hypotheses_PermitEvaluation :
    let s := permitted (inLock .dropping true false .feeding)
    let off := { s with feed := { s.feed with inputs := { s.feed.inputs with inert := .purging } } }
    let held := permitted (inLock .held false false .feeding)
    let back := permitted (inLock .held false true .feeding)
    s.feed.permit = true ∧ (evalPermit off).feed.permit = false ∧ off.feed.lock.movesByPermit = true ∧
      off.feed.lock.returning = false ∧ held.feed.lock.state = .held ∧ held.feed.lock.returning = false ∧
      (evalPermit held).feed.permit = true ∧ held.ports.line.present = true ∧ back.feed.lock.returning = true ∧
      back.feed.inputs.z6 = .normal ∧ back.feed.inputs.z7 = .normal ∧ back.feed.lock.state = .held := by decide +kernel

/-- The permit's law on a part that is dropping a pack under the permit. -/
theorem test_hypotheses_PermitLaw_dropping : PermitLaw (permitted (inLock .dropping true false .feeding)) := by
  intro _; unfold InputsTold; decide +kernel

/-! ### Witnesses: atmosphere -/

def airAt (st : InertState) (oxygen : Nat) : State :=
  { opened .opened with
    atm := { Atmosphere.initial with
      state := st, oxygen := oxygen, purgeClock := if st = .purging then some 900000 else none
      holdTimer := if st = .holding then some 0 else none } }

/-- Each row of the table of R97 at the edge of its range, and each request and timer that changes the state. -/
theorem test_hypotheses_InertStateChanges :
    let l := Atmosphere.initial.limits
    l.purge < l.run ∧ l.run < l.trip ∧ (airAt .purging 400).atm.oxygen ≤ l.purge ∧ l.purge < (airAt .purging 401).atm.oxygen ∧
      l.trip ≤ (airAt .holding 800).atm.oxygen ∧ (airAt .holding 799).atm.oxygen < l.trip ∧
      l.run < (airAt .inert 501).atm.oxygen ∧ (airAt .inert 500).atm.oxygen ≤ l.run ∧
      Ready .line (airAt .vented 2100) ∧ Ready .fire (airAt .tripped 400) ∧
      (touchPort .line (airAt .vented 2100)).atm.state = .vented ∧
      (touchPort .line (airAt .inert 300)).feed.lock.state = .empty ∧
      (touchPort .line (airAt .inert 300)).atm.state ≠ .vented ∧
      (touchPort .fire (airAt .tripped 400)).atm.oxygen ≤ (touchPort .fire (airAt .tripped 400)).atm.limits.purge ∧
      (touchPort .fire (airAt .tripped 401)).atm.limits.purge < (touchPort .fire (airAt .tripped 401)).atm.oxygen ∧
      (airAt .holding 300).atm.holdTimer = some 0 ∧ (airAt .purging 600).atm.purgeClock = some 900000 ∧
      (airAt .purging 600).atm.limits.maxPurge * 1000 ≤ 900000 ∧ (airAt .purging 600).atm.timeoutReported = false ∧
      899999 < (airAt .purging 600).atm.limits.maxPurge * 1000 := by
  unfold Ready; decide +kernel

theorem test_hypotheses_InertLimitsAreEvaluatedAtOnce :
    Ready .fire (airAt .purging 600) ∧ ((1198 : Nat) ≤ 1200 ∧ 1199 ≤ 1200 ∧ 1200 ≤ 1200 ∧ 1198 < 1199 ∧ 1199 < 1200) ∧
      ¬((400 : Nat) ≤ 1200 ∧ 400 ≤ 1200 ∧ 800 ≤ 1200 ∧ 400 < 400 ∧ 400 < 800) ∧
      inertOutcome { (airAt .purging 600).atm with limits := ⟨600, 700, 800, 60, 900⟩ } ≠ .purging ∧
      inertOutcome { (airAt .purging 600).atm with limits := ⟨599, 700, 800, 60, 900⟩ } = .purging := by
  unfold Ready; decide +kernel

/-- Readings of both analyzers at 2,500, one too high, one of no analyzer, one of no status; an analyzer 5,000 ms old. -/
theorem test_hypotheses_AnalyzerEventsMoveTheOxygen :
    let s := airAt .inert 400
    let r : Reading := ⟨400, false, .ok, 0⟩
    let old := { s with clock := 5000, atm := { s.atm with a := ⟨some r, true⟩, b := ⟨some r, true⟩ } }
    s.run = true ∧ s.link.receiver = .hunting ∧ statusAt 0 = some .ok ∧ statusAt 2 = some .fault ∧ statusAt 3 = none ∧
      s.atm.b.valid = false ∧ old.atm.a.latest = some r ∧ old.atm.a.valid = true ∧ r.arrival + 5000 ≤ old.clock ∧
      old.atm.b.latest = some r ∧ old.atm.b.valid = true := by decide +kernel

/-! ### Witnesses: lots -/

/-- A lot that keeps its pack on site, one whose packs are gone, a CLOSED one, and one with the balance at both bounds. -/
theorem test_hypotheses_LotsCloseAndRelease :
    let s := holding .received .intake
    let gone := holding .withdrawn .out
    let l := { sampleLot .draining with shreddedMass := 1000, outputMass := 550 }
    Ready .custody s ∧ Ready .custody gone ∧ Ready .custody (opened .closed) ∧
      (touchPort .custody s).lotAt 0 = some (sampleLot .opened) ∧ (touchPort .custody s).lotAt 7 = none ∧
      ¬((∀ i x, ((touchPort .custody s).record i).pack = some x → x.lot = 0 → x.state.terminal = true) ∧
        (0 < (sampleLot .opened).shredded → (sampleLot .opened).final = true)) ∧
      ((∀ i x, ((touchPort .custody gone).record i).pack = some x → x.lot = 0 → x.state.terminal = true) ∧
        (0 < (sampleLot .opened).shredded → (sampleLot .opened).final = true)) ∧
      (touchPort .custody (opened .closed)).lotAt 0 = some (sampleLot .closed) ∧
      (sampleLot .opened).shreddedMass = 0 ∧ 0 < l.shreddedMass ∧ 550 ≤ l.outputMass * 1000 / l.shreddedMass ∧
      ({ l with outputMass := 549 } : Lot).outputMass * 1000 / l.shreddedMass < 550 := by
  intro s gone l
  refine ⟨ready_of_ports rfl rfl _, ready_of_ports rfl rfl _, opened_ready _ _, rfl, rfl, ?_, ⟨?_, by decide⟩, rfl, by decide,
    by decide, by decide, by decide⟩
  · intro h; exact absurd (h.1 0 (samplePack .received .intake) rfl rfl) (by decide)
  · intro i x h _
    have e : ((holding .withdrawn .out).record i).pack = some x := h
    obtain ⟨rfl, rfl⟩ := holding_record e; rfl

theorem test_hypotheses_LotsOpenAndBounds :
    let full : State := { opened .opened with
      lot := { LotTable.initial with lots := Vector.replicate 8 (some (sampleLot .opened)) } }
    Ready .custody (opened .opened) ∧ Ready .custody full ∧ (2 ^ 32 - 1 : Nat) < 2 ^ 32 ∧
      (touchPort .custody (opened .opened)).lotAt 0 = some (sampleLot .opened) ∧ (sampleLot .opened).number = 11 ∧
      (∀ j, (touchPort .custody full).lotAt j ≠ none) ∧
      (∀ j, ((touchPort .custody full).lotAt j).map (·.number) ≠ some 12) ∧
      (touchPort .custody (opened .opened)).lotAt 1 = none ∧
      (∀ k, k < 1 → (touchPort .custody (opened .opened)).lotAt k ≠ none) ∧ (65534 : Nat) < 65535 := by
  unfold Ready; decide +kernel

/-- OUTPUT_WEIGHT taken, full at 2^48, busy, for another lot, and after the final; the final weight of a DRAINING lot, alone and
with a switch whose chamber is clear; the switch immediate, open, refused; both orders of its two reports. -/
theorem test_hypotheses_OutputAndShredLot :
    let lots := fun (a : Lot) (shred : Option (Fin 8)) (w : Option Switch) =>
      let s := opened .opened
      { s with lot := { s.lot with
        lots := vset (vset s.lot.lots 0 (some a)) 1 (some { sampleLot .opened with number := 12 })
        shredLot := shred, switch := w } }
    let a := { sampleLot .opened with shredded := 1, shreddedMass := 1000, outputMass := 2 ^ 48 - 100000000 }
    let u := fun s => touchPort .custody s
    let s := lots a (some 0) none
    let feeding := permitted (inLock .loading false false .feeding)
    Ready .custody s ∧ (u s).lotAt 0 = some a ∧ a.final = false ∧ weighable (u s) 0 = true ∧ lockFeeding (u s) = false ∧
      2 ^ 48 ≤ a.outputMass + 100000000 ∧ a.outputMass + 99999999 < 2 ^ 48 ∧ weighable (u s) 1 = false ∧
      Ready .custody feeding ∧ weighable (u feeding) 0 = true ∧ (u feeding).lot.shredLot = some 0 ∧
      lockFeeding (u feeding) = true ∧ (u s).lot.switch = none ∧ (u s).feed.lock.state = .empty ∧
      (u s).lotAt 1 = some { sampleLot .opened with number := 12 } ∧ 0 < a.shredded ∧
      (u (lots (sampleLot .opened) (some 0) none)).lotAt 0 = some (sampleLot .opened) ∧
      (u (lots a none none)).lot.shredLot = none ∧ (u (lots a none none)).lotAt 7 = none ∧
      (u (lots a (some 0) (some ⟨0, 1, true, false⟩))).lot.switch = some ⟨0, 1, true, false⟩ ∧
      (touchPort .line (lots a (some 0) (some ⟨0, 1, false, false⟩))).lot.switch = some ⟨0, 1, false, false⟩ ∧
      (touchPort .line (lots a none (some ⟨0, 1, false, true⟩))).lot.switch = some ⟨0, 1, false, true⟩ ∧
      Ready .line (lots a (some 0) (some ⟨0, 1, false, false⟩)) ∧ 7 < 8 ∧ 100000000 < 100000001 ∧
      (u (lots { a with final := true } (some 0) none)).lotAt 0 = some { a with final := true } ∧
      Ready .custody (lots (draining false) (some 0) none) ∧ weighable (u (lots (draining false) (some 0) none)) 0 = true ∧
      (u (lots (draining false) (some 0) none)).lotAt 0 = some (draining false) ∧
      Ready .custody (lots (draining false) none (some ⟨0, 1, true, false⟩)) ∧
      weighable (u (lots (draining false) none (some ⟨0, 1, true, false⟩))) 0 = true := by
  unfold Ready; decide +kernel

/-! ### Witnesses: classification -/

/-- Fields at their edges, and one past each of two. -/
theorem test_hypotheses_ConfigurationIsWrittenWhole :
    let f : TreatmentFields := ⟨1, 0, 1000, 100000, 3, 400000, 1500, 9, 7201, 7, 9, 800⟩
    Ready .line (opened .opened) ∧
      (7 ≤ 7 ∧ f.refuse ≤ 1 ∧ f.acceptDamaged ≤ 1 ∧ f.limit ≤ 1000 ∧ f.cap ≤ 100000 ∧ f.curve ≤ 3 ∧ 1000 ≤ f.current ∧
        f.current ≤ 400000 ∧ 1500 ≤ f.stop ∧ f.stop ≤ 4500 ∧ f.retries ≤ 7 ∧ 200 ≤ f.maxTemp ∧ f.maxTemp ≤ 800) ∧
      ((7 : Fin 8).1 = 7 ∧ (3 : Fin 4).1 = f.curve) ∧ ((16777215 : Nat) ≤ 16777215 ∧ 0 ≤ 16777215) ∧
      ((15 : Fin 16).1 = 15) := ⟨opened_ready _ _, by decide, by decide, by decide, by decide⟩

/-- Two overlapping ranges at their common edge, a slot of the last family, and the map off. -/
theorem test_hypotheses_ClassificationPicksTheTreatment :
    let c : Classification := { Classification.initial with
      mapOn := true
      ranges := vset (vset Classification.initial.ranges 0 ⟨1, 9, 2, true⟩) 1 ⟨9, 20, 1, true⟩
      slots := vset Classification.initial.slots 15 ⟨3, true⟩ }
    c.mapOn = true ∧ Classification.initial.mapOn = false ∧
      (∃ i : Fin 8, (vget c.ranges i).enabled = true ∧ (vget c.ranges i).low ≤ 9 ∧ 9 ≤ (vget c.ranges i).high) ∧
      classify c 9 = 1 ∧ classify c 8 = 2 ∧
      ¬(∃ i : Fin 8, (vget c.ranges i).enabled = true ∧ (vget c.ranges i).low ≤ 21 ∧ 21 ≤ (vget c.ranges i).high) ∧
      (15 : Fin 16).1 = 16777215 / 1048576 ∧ (vget c.slots 15).enabled = true ∧ (vget c.slots 0).enabled = false ∧
      classify c 16777215 = 3 := by decide +kernel

def rewriting (points : List Point) : State :=
  let s := opened .opened
  { s with cls := { s.cls with curves := vset s.cls.curves 1 ⟨.rewriting, points⟩ } }

theorem siteLaw_setPort (s : State) (p : Port) (c : PortCtx) (h : SiteLaw s) : SiteLaw (s.setPort p c) := by
  cases p <;> exact h

/-- A curve open with 11 and with 12 points, another curve while it is open; a good curve, and one for each fault. -/
theorem test_hypotheses_CurvesAreRewrittenAndJudged :
    let u := fun points => touchPort .line (rewriting points)
    Ready .line (rewriting []) ∧ (vget (u []).cls.curves 1).status = .rewriting ∧
      (∃ j, j ≠ (0 : Fin 4) ∧ (vget (u []).cls.curves j).status = .rewriting) ∧
      (∀ j, j ≠ (1 : Fin 4) → (vget (u []).cls.curves j).status ≠ .rewriting) ∧
      (vget (u (List.replicate 11 ⟨1, 1⟩)).cls.curves 1).points.length < 12 ∧
      12 ≤ (vget (u (List.replicate 12 ⟨1, 1⟩)).cls.curves 1).points.length ∧
      ([⟨2000, 0⟩, ⟨2001, 1000⟩] : List Point).Pairwise (fun a b => a.mv < b.mv) ∧
      ([⟨2000, 0⟩, ⟨2001, 1000⟩] : List Point).Pairwise (fun a b => a.frac ≤ b.frac) ∧ Told (u [⟨2000, 0⟩]) ∧
      curveFault [⟨2000, 0⟩] = some (0, 1) ∧ curveFault [⟨2000, 0⟩, ⟨2000, 1⟩] = some (1, 2) ∧
      curveFault [⟨2000, 2⟩, ⟨2001, 1⟩] = some (2, 2) ∧ curveFault [⟨2000, 0⟩, ⟨2001, 1001⟩] = some (3, 2) ∧
      curveFault [⟨2000, 0⟩, ⟨2001, 1000⟩] = none ∧ (vget (u []).cls.curves 0).status ≠ .rewriting ∧
      (∀ n, ¬(((u []).bay n).state = .resting ∧ ((u []).bay n).deferred = true)) := by
  unfold Ready Told; decide +kernel

/-- A curve that becomes VALID while a RESTING bay waits for it, with a sample 2,000 ms old, which is fresh, and 2,001 ms old. -/
theorem test_hypotheses_CurvesAreJudged :
    let s := fun clock =>
      let b := bayWith .resting .resting fun x => { x with deferred := true }
      { b with clock := clock, cls := { b.cls with curves := vset b.cls.curves 0 ⟨.rewriting, [⟨2000, 0⟩, ⟨3000, 50⟩]⟩ } }
    let u := fun clock => touchPort .line (s clock)
    let valid := fun clock =>
      let v := u clock
      { v with cls := { v.cls with curves := vset v.cls.curves 0 ⟨.valid, [⟨2000, 0⟩, ⟨3000, 50⟩]⟩ } }
    Ready .line (s 2000) ∧ SiteLaw (u 2000) ∧ (vget (u 2000).cls.curves 0).status = .rewriting ∧
      (((u 2000).bay 0).state = .resting ∧ ((u 2000).bay 0).deferred = true ∧
        (u 2000).occupantPack 0 = some (0, samplePack .resting (.bay 0)) ∧
        (samplePack .resting (.bay 0)).treatment.curve = 0) ∧
      readyCheck 0 (valid 2000) = some (0, samplePack .resting (.bay 0), ⟨3000, 50, 5, 10, true⟩) ∧
      readyCheck 0 (valid 2001) = none ∧ ((u 2000).bay 7).state ≠ .resting := by
  have law : SiteLaw (inBay .resting .resting) := siteLaw_inBay (by decide) rfl
  intro s u valid
  have same : u 2000 = (s 2000).setPort .line
      { (s 2000).port .line with timer := some (((s 2000).port .line).presenceTime * 1000) } := touchPort_present rfl
  refine ⟨ready_of_ports rfl rfl _, ?_, by decide +kernel⟩
  rw [same]
  refine siteLaw_setPort _ _ _ ⟨law.1, fun n => ?_, law.2.2.1, law.2.2.2.1, law.2.2.2.2⟩
  by_cases e : n = 0
  · subst e; exact law.2.1 0
  · have b : (s 2000).bay n = (inBay .resting .resting).bay n := by
      simp [s, bayWith, State.setBay, State.bay, e]
    rw [b]; exact law.2.1 n

/-! ### Witnesses: LINE_RESTART -/

/-- LINE_RESTART of a part that discharges a pack; the presence of the line port leaves the laws as they stand. -/
theorem test_hypotheses_LineRestartReturnsTheLine :
    let s := inBay .discharging .discharging
    let u := touchPort .line s
    Ready .line s ∧ SiteLaw u ∧ PermitLaw u ∧ u.occupantPack 0 = some (0, samplePack .discharging (.bay 0)) ∧
      (u.bay 0).state ≠ .faulted ∧ u.occupantPack 7 = none ∧ u.feed.lock.working = false := by
  intro s u
  have same : u = s.setPort .line { s.port .line with timer := some ((s.port .line).presenceTime * 1000) } :=
    touchPort_present rfl
  refine ⟨ready_of_ports rfl rfl _, ?_, ?_, rfl, by decide +kernel, by decide +kernel, by decide +kernel⟩
  · rw [same]; exact siteLaw_setPort _ _ _ (siteLaw_inBay (by decide) rfl)
  · intro _; unfold InputsTold; decide +kernel

/-! ### Witnesses: fire zones -/

/-- Detector `d` of zone 2 in a state, on a line. -/
def watching (st : DetectorState) (line : LineState) (timer : Option Nat) : State :=
  let s := opened .opened
  { s.setDetector 23 ⟨some 1, .smoke, line, st, if st = .confirmingFault then some .active else none, timer, none⟩ with
    clock := 0 }

/-- Every change of a line to another, from each state it can find. -/
theorem test_hypotheses_DetectorsDriveTheirZones :
    (watching .normal .normal none).run = true ∧
      LineState.short ≠ ((watching .normal .normal none).detector 23).line ∧
      ((watching .normal .normal none).detector 23).state = .normal ∧
      ((watching .confirmingFault .opened (some 0)).detector 23).prior = some .active ∧
      ((watching .confirmingFault .opened (some 0)).detector 23).timer = some 0 ∧
      ((watching .confirming .active (some 0)).detector 23).timer = some 0 ∧
      ((watching .rearming .normal (some 0)).detector 23).state = .rearming ∧
      ((watching .faulted .normal (some 0)).detector 23).state = .faulted ∧
      ((watching .faulted .normal (some 1)).detector 23).timer ≠ some 0 ∧
      ((watching .active .active none).detector 23).zone = some 1 := by decide +kernel

theorem test_hypotheses_FireConfigurationIsWritten :
    let s := watching .active .active none
    let hot := s.setZone 1 { Zone.initial with state := .released }
    let alarm := s.setZone 1 { Zone.initial with state := .alarm }
    Ready .fire s ∧ Ready .fire hot ∧ Ready .fire alarm ∧ (8 : Nat) = (some (7 : Fin 8)).elim 0 (fun a => a.1 + 1) ∧
      kindOfNumber 3 = some .flame ∧
      (∃ a, ((touchPort .fire hot).detector 23).zone = some a ∧ ((touchPort .fire hot).zone a).state.escalated = true) ∧
      ¬(∃ a, (((touchPort .fire s).detector 23).zone = some a ∨ some (7 : Fin 8) = some a) ∧
        ((touchPort .fire s).zone a).state.escalated = true) ∧
      ((touchPort .fire alarm).zone 1).state = .alarm ∧ ((touchPort .fire s).zone 1).state ≠ .alarm ∧
      (10000000 : Nat) ≤ 10000000 ∧ (10000000 : Nat) < 10000001 := by
  unfold Ready; decide +kernel

/-- A RELEASE of a zone that is NORMAL, RELEASED, ISOLATED; a release timer due, held, and not due. -/
theorem test_hypotheses_ReleaseFiresTheOutput :
    let z := fun (st : ZoneState) (hold : Bool) (timer : Option Nat) =>
      (opened .opened).setZone 7 { Zone.initial with state := st, hold := hold, timer := timer }
    Ready .fire (z .normal false none) ∧ ((touchPort .fire (z .released false none)).zone 7).state = .released ∧
      ((touchPort .fire (z .isolated false none)).zone 7).state = .isolated ∧
      ((touchPort .fire (z .normal false none)).zone 7).state ≠ .released ∧
      ((touchPort .fire (z .normal false none)).zone 7).state ≠ .isolated ∧
      (((z .releasePending false (some 0)).zone 7).state = .releasePending ∧
        ((z .releasePending false (some 0)).zone 7).hold = false ∧
        ((z .releasePending false (some 0)).zone 7).timer = some 0) ∧
      ¬(((z .releasePending true (some 0)).zone 7).state = .releasePending ∧
        ((z .releasePending true (some 0)).zone 7).hold = false ∧
        ((z .releasePending true (some 0)).zone 7).timer = some 0) := by
  unfold Ready; decide +kernel

/-- HOLD of a pending zone; ISOLATE of an empty zone and of one with a pack; RESTORE; ZONE_RESET with its detectors quiet
and with one ACTIVE. -/
theorem test_hypotheses_ZonesAreHeldResetAndIsolated :
    let z := fun (st : ZoneState) => (watching .rearming .normal (some 9)).setZone 1 { Zone.initial with state := st }
    let loud := (watching .active .active none).setZone 1 { Zone.initial with state := .released }
    Ready .fire (z .normal) ∧ ((touchPort .fire (z .releasePending)).zone 1).state = .releasePending ∧
      ((touchPort .fire (z .releasePending)).zone 1).hold ≠ true ∧
      ((touchPort .fire (z .normal)).zone 1).state = .normal ∧
      (∀ k p, ((touchPort .fire (z .normal)).record k).pack = some p → p.zone ≠ some 1) ∧
      (∃ k p, ((touchPort .fire (inBay .loaded .loaded)).record k).pack = some p ∧ p.zone = some 1) ∧
      ((touchPort .fire (z .isolated)).zone 1).state = .isolated ∧
      ((touchPort .fire (z .released)).zone 1).state = .released ∧
      ¬(∃ d, ((touchPort .fire (z .released)).detector d).zone = some 1 ∧
        (((touchPort .fire (z .released)).detector d).state = .confirming ∨
          ((touchPort .fire (z .released)).detector d).state = .active)) ∧
      (∃ d, ((touchPort .fire loud).detector d).zone = some 1 ∧ ((touchPort .fire loud).detector d).state = .active) := by
  intro z loud
  refine ⟨ready_of_ports rfl rfl _, by decide +kernel, by decide +kernel, by decide +kernel, ?_, ⟨0, _, rfl, rfl⟩,
    by decide +kernel, by decide +kernel, by decide +kernel, by decide +kernel⟩
  intro k p h
  have e : ((opened .opened).record k).pack = some p := h
  simp [opened, State.record, State.initial] at e

/-! ### Witnesses: banks and ports -/

/-- A bank that holds an incident of each rank against each posting, and a code whose enable is off. -/
theorem test_hypotheses_PostingsAreTakenByTheirBank :
    let b := (Bank.initial 8).take ⟨.contained, .sampleLoss, 0, none, none, none, false, ⟨0, 0⟩⟩
    let off := { Bank.initial 8 with enables := List.replicate 8 false }
    off.enabled .sampleLoss = false ∧ (Bank.initial 8).enabled .sampleLoss = true ∧
      Severity.advisory ≠ .uncontained ∧ (Bank.initial 8).held = none ∧ b.1.held.isSome = true ∧
      Severity.contained.rank < Severity.uncontained.rank ∧ Severity.contained.rank ≤ Severity.contained.rank := by decide

/-- CLEAR_BANK of a held bank by its number, by another, of an empty bank, from a port that may not; enables of every bank's
length. -/
theorem test_hypotheses_BankRequestsAct :
    let s := opened .opened
    let held := { s with banks := { s.banks with feed := ⟨some ⟨.advisory, .lockHeld, 1, none, none, none, false, ⟨0, 0⟩⟩,
      true, 2 ^ 32 - 1, [true, true, true]⟩ } }
    let u := touchPort .line held
    Ready .line held ∧ Ready .fire held ∧ allBanks[5]? = some .feed ∧ u.banks.feed.held ≠ none ∧
      u.banks.feed.number = 2 ^ 32 - 1 ∧ Told u ∧ u.feed.permit = permitHolds u.feed.inputs ∧
      u.banks.discharge.held = none ∧ ([1, 0, 1] : List Nat).length = BankId.feed.codes.length ∧
      Port.line ∈ BankId.feed.clearers ∧ Port.fire ∉ BankId.feed.clearers ∧
      ¬(([1, 0] : List Nat).length = BankId.feed.codes.length) := by
  unfold Ready Told; decide +kernel

theorem test_hypotheses_NoticesAndPresenceTimes :
    let n : Notice := ⟨.presence .fire true, ⟨0, 0⟩⟩
    let s := opened .opened
    let at15 := s.setPort .line { s.port .line with notices := List.replicate 15 n }
    let at16 := s.setPort .line { s.port .line with notices := List.replicate 16 n }
    Ready .line at15 ∧ (at15.port .line).notices.length < 16 ∧ 16 ≤ (at16.port .line).notices.length :=
  ⟨⟨rfl, rfl, rfl⟩, by decide, by decide⟩

/-- What each command of the pack and bay notices finds: a segment to pause, a bay to start, packs to assign from INTAKE and
from a DONE bay, to move, to quarantine and to enqueue. -/
theorem test_hypotheses_PackAndBayNotices :
    let u := fun s => touchPort .line s
    let a := u { inBay .loaded .loaded with clock := 2000 }
    let d := u (inBay .done .discharged)
    let x := { samplePack .discharged (.bay 0) with dischargedAt := some ⟨0, 0⟩ }
    let e := u (dwelling 3600)
    (∀ s ∈ [inBay .discharging .discharging, { inBay .loaded .loaded with clock := 2000 }, inBay .done .discharged,
      holding .received .intake, holding .quarantined .intake, inQueue, dwelling 3600], Ready .line s) ∧
      ((u (inBay .discharging .discharging)).bay 0).state = .discharging ∧
      (a.bay 0).state = .loaded ∧ (a.zone (bayZone 0)).state = .normal ∧ (a.bay 0).fresh a.clock = true ∧
      (a.bay 0).recheck = false ∧ a.occupantPack 0 = some (0, samplePack .loaded (.bay 0)) ∧
      (u (holding .received .intake)).lookup sampleHandle = some (samplePack .received .intake) ∧
      ((u (holding .received .intake)).bay 7).state = .empty ∧
      moveFrozen (u (holding .received .intake)) (some 0) (some (bayZone 7)) = false ∧
      d.lookup sampleHandle = some (samplePack .discharged (.bay 0)) ∧ (d.bay 0).state = .done ∧ (d.bay 1).state = .empty ∧
      moveFrozen d (some (bayZone 0)) (some (bayZone 1)) = false ∧
      (u (holding .quarantined .intake)).lookup sampleHandle = some (samplePack .quarantined .intake) ∧
      moveFrozen (u (holding .quarantined .intake)) (some 0) (some 7) = false ∧
      (u inQueue).lookup sampleHandle = some (samplePack .queued .buffer) ∧
      e.lookup sampleHandle = some x ∧ (e.bay 0).state = .done ∧ dwellExpired e x = false ∧ e.feed.queueCount < 6 ∧
      moveFrozen e (some (bayZone 0)) (some 5) = false := by
  unfold Ready; decide +kernel

/-- A lock to close, a chamber to start and to stop under the permit, a bank to clear, and a pending zone held and not. -/
theorem test_hypotheses_LockPermitAndZoneNotices :
    let l := touchPort .line (inLock .loading false false .feeding)
    let v := touchPort .line (airAt .vented 2100)
    let i := touchPort .line (permitted (opened .opened))
    let s := opened .opened
    let held := { s with banks := { s.banks with
      links := ⟨some ⟨.advisory, .stationAbsent, 1, none, none, none, false, ⟨0, 0⟩⟩, true, 2 ^ 32 - 1, [true, true]⟩ } }
    let z := fun hold => touchPort .fire (s.setZone 7 ⟨.releasePending, hold, some 9000, 0, 20000, 30⟩)
    (∀ s ∈ [inLock .loading false false .feeding, airAt .vented 2100, permitted (opened .opened), held], Ready .line s) ∧
      Ready .fire (s.setZone 7 ⟨.releasePending, true, some 9000, 0, 20000, 30⟩) ∧ l.feed.lock.state = .loading ∧ l.feed.lock.returning = false ∧
      v.atm.state = .vented ∧ v.feed.permit = false ∧ v.feed.lock.state ≠ .held ∧
      i.atm.state = .inert ∧ i.feed.permit = true ∧ permitHolds i.feed.inputs = true ∧ i.feed.lock.state = .empty ∧
      (touchPort .line held).banks.links.held ≠ none ∧ (touchPort .line held).banks.links.number < 2 ^ 32 ∧
      Told (touchPort .line held) ∧ ((z false).zone 7).state = .releasePending ∧ ((z false).zone 7).hold = false ∧
      ((z true).zone 7).state = .releasePending ∧ ((z true).zone 7).hold = true := by
  unfold Ready Told; decide +kernel

/-- A lot to open, to release, to drain and to close at once; a switch to cancel; a detector that recovers and one that
faults; a port that appears and one that goes. -/
theorem test_hypotheses_LotDetectorAndPresenceNotices :
    let u := touchPort .custody (opened .opened)
    let on := touchPort .custody (holding .received .intake)
    let s := opened .opened
    let switching := { s with
      lot := { s.lot with shredLot := some 0, switch := some ⟨0, 1, false, false⟩ }
      feed := { s.feed with inputs := { s.feed.inputs with shredLotSet := true } } }
    let watched := fun st line => s.setDetector 23 ⟨none, .smoke, line, st, none, some 0, none⟩
    let absent := s.setPort .custody { s.port .custody with present := false }
    let late := s.setPort .custody { s.port .custody with timer := some 0 }
    let quiet := { late with banks := { late.banks with links := { late.banks.links with enables := [false, false] } } }
    Ready .custody s ∧ Ready .custody (holding .received .intake) ∧ Ready .custody (opened .closed) ∧
      Ready .custody switching ∧ (∀ k, (u.lotAt k).map (·.number) ≠ some 12) ∧ u.lotAt 1 = none ∧
      (∀ k : Fin 8, k < 1 → u.lotAt k ≠ none) ∧
      (touchPort .custody (opened .closed)).lotAt 0 = some (sampleLot .closed) ∧
      on.lotAt 0 = some (sampleLot .opened) ∧ (on.record 0).pack = some (samplePack .received .intake) ∧
      u.lotAt 0 = some (sampleLot .opened) ∧ (∀ i, (u.record i).pack = none) ∧
      (sampleLot .opened).shredded = 0 ∧ (sampleLot .opened).shreddedMass = 0 ∧ u.lot.shredLot ≠ some 0 ∧
      u.lot.switch = none ∧ (touchPort .custody switching).lot.switch ≠ none ∧
      (touchPort .custody switching).feed.inputs.shredLotSet = (touchPort .custody switching).lot.shredLot.isSome ∧
      ((watched .faulted .normal).detector 23).timer = some 0 ∧ ((watched .faulted .normal).detector 23).zone = none ∧
      ((watched .confirmingFault .short).detector 23).state = .confirmingFault ∧
      (watched .confirmingFault .short).banks.fire.enabled .detectorFault = true ∧ Told (watched .confirmingFault .short) ∧
      (absent.port .custody).present = false ∧ (absent.port .custody).receiver = .hunting ∧
      (absent.port .custody).received.length < 4 ∧ (quiet.port .custody).present = true ∧
      (quiet.port .custody).timer = some 0 ∧ quiet.banks.links.enabled .stationAbsent = false ∧
      quiet.feed.inputs.uncontained = bankAnswer quiet.banks := by
  unfold Ready Told; decide +kernel

/-- A request at an empty list, at the head of a list and behind another frame; frames that are no request: one the port may
not send, one of an unknown code, one with a body too long; and a frame that is a request. -/
theorem test_hypotheses_RequestsAreTakenFromTheList :
    let i := Instr.start .line 5 1
    let list := fun fs => (opened .opened).setPort .line { (opened .opened).port .line with received := fs }
    let denied : Frame := ⟨0, 20, [0]⟩
    i.head = some (.line, 5, i.frame.code.toNat) ∧ ((list []).port .line).receiver = .hunting ∧
      ((list [i.frame, denied]).port .line).received = [i.frame, denied] ∧ denied ≠ i.frame ∧
      (list [i.frame]).run = true ∧ (list [i.frame]).pending = [] ∧
      (∀ r, r ≠ .line → ((list [i.frame]).port r).received = []) ∧
      decodeRequest .line i.frame = some i ∧ decodeRequest .line denied = none ∧ mayIssue .line 20 = false ∧
      decodeRequest .line ⟨0, i.frame.code, [1, 1]⟩ = none ∧ mayIssue .line i.frame.code.toNat = true ∧
      decodeRequest .line ⟨0, 255, []⟩ = none ∧ rolesOf 255 = none := by
  intro i list denied
  exact ⟨rfl, rfl, rfl, by decide, rfl, rfl, fun r h => by cases r <;> first | exact absurd rfl h | rfl, by decide +kernel⟩

/-- A frame that finds a place, the fourth place, none; an error count that is plain, reaches a hundred, is saturated. -/
theorem test_hypotheses_StationFramesAreTakenOrCounted :
    let f : Frame := ⟨0, 1, [0]⟩
    let s := opened .opened
    let with_ := fun (k errors : Nat) => s.setPort .fire { s.port .fire with
      received := List.replicate k f, errors := errors }
    let deaf := s.setPort .fire { s.port .fire with receiver := .ignoring }
    let absent := s.setPort .fire { s.port .fire with present := false }
    s.run = true ∧ Told s ∧ (s.port .fire).receiver = .hunting ∧ (deaf.port .fire).receiver = .ignoring ∧
      (absent.port .fire).present = false ∧ ¬(4 ≤ ((with_ 3 0).port .fire).received.length) ∧
      4 ≤ ((with_ 4 0).port .fire).received.length ∧ ((with_ 4 0).port .fire).present = true ∧
      (((with_ 0 98).port .fire).errors + 1) % 100 ≠ 0 ∧ 65535 ≤ ((with_ 0 65535).port .fire).errors ∧
      ¬(65535 ≤ ((with_ 0 99).port .fire).errors ∨ (((with_ 0 99).port .fire).errors + 1) % 100 ≠ 0) := by
  unfold Told; decide

theorem test_hypotheses_AbsenceReachesTheBlocks :
    let s := inBay .discharging .discharging
    let late := fun p => s.setPort p { s.port p with timer := some 0 }
    (late .line).run = true ∧ Told (late .line) ∧ ((late .line).port .line).present = true ∧
      ((late .line).port .line).timer = some 0 ∧ Told (late .fire) ∧ ((late .fire).port .fire).timer = some 0 ∧
      ((late .custody).port .custody).timer = some 0 ∧ Told (late .custody) ∧
      ¬((s.port .line).present = true ∧ (s.port .line).timer = some 0) := by
  unfold Told; decide +kernel

/-! ### Witnesses: faults and incidents -/

/-- The sample 8 of `RestingAndPausedSamplesAreChecked` as it is booked in bay 1. -/
def sampled (s : State) (i : Int) : State :=
  let x := samplePack .resting (.bay 0)
  let y := x.integrate (increment 36000 i 200 0) 0 false
  let inv := vset s.inventories 1 (vget s.inventories 1 - x.standing + y.standing)
  { s.setZone 1 { s.zone 1 with inventory := vget inv 1 } with
    packs := vset s.packs 0 ⟨(s.record 0).gen, some y⟩
    inventories := inv
    bays := vset s.bays 0 { s.bay 0 with
      lastSeq := some 8, lastSample := some ⟨36000, i, 200, s.clock⟩
      tally := (s.bay 0).tally.accept (.next 0) true } }

/-- A resting and a paused bay under a sample: at the temperature limit and over it, at 500 mA and over it, with the contactor
confirmed open and not, with the check deferred where it can run and where its curve is not VALID. -/
theorem test_hypotheses_RestingAndPausedSamplesAreChecked :
    let s := bayWith .resting .resting fun b => { b with deferred := true, confirmedOpen := true }
    let p := bayWith .paused .discharging fun b => { b with confirmedOpen := false }
    let blind := { s with cls := Classification.initial }
    let x := samplePack .resting (.bay 0)
    s.run = true ∧ s.link.receiver = .hunting ∧ sampleRanges 8 36000 501 451 200 = true ∧
      sampleRanges 8 36000 (-500) 450 200 = true ∧ classifySeq (s.bay 0).lastSeq 8 = .next 0 ∧
      (s.bay 0).state = .resting ∧ (p.bay 0).state = .paused ∧ s.occupantPack 0 = some (0, x) ∧
      p.occupantPack 0 = some (0, samplePack .discharging (.bay 0)) ∧ Counted x s ∧
      Counted (samplePack .discharging (.bay 0)) p ∧ (s.zone (bayZone 0)).state ≠ .alarm ∧
      (x.treatment.maxTemp : Int) < 451 ∧ (450 : Int) ≤ x.treatment.maxTemp ∧
      (s.bay 0).confirmedOpen = true ∧ 500 < (-501 : Int).natAbs ∧ ¬500 < (500 : Int).natAbs ∧
      (p.bay 0).confirmedOpen = false ∧ (s.bay 0).deferred = true ∧ (p.bay 0).deferred = false ∧
      (readyCheck 0 (sampled s 0)).map (·.1) = some 0 ∧ readyCheck 0 (sampled blind 0) = none := by
  unfold Counted; decide +kernel

/-- A bay's faults at their edges, its sample loss, its last retry, and its contactor's two mismatches. -/
theorem test_hypotheses_BaysPostTheirIncidents :
    let s := inBay .discharging .discharging
    let x := samplePack .discharging (.bay 0)
    let r := (bayWith .resting .resting fun b => { b with rest := some 0, lastSample := some ⟨50400, 0, 200, 0⟩ }).setPack 0
      (some { samplePack .resting (.bay 0) with retries := 1 })
    let stuck := fun command => s.setSup (.contactor 0) ⟨command, !command, none, some 0, false⟩
    s.run = true ∧ s.link.receiver = .hunting ∧ sampleRanges 8 36000 4201 451 200 = true ∧
      classifySeq (s.bay 0).lastSeq 8 = .next 0 ∧ (s.bay 0).state = .discharging ∧ s.occupantPack 0 = some (0, x) ∧
      (x.treatment.maxTemp : Int) < 451 ∧ (450 : Int) ≤ x.treatment.maxTemp ∧ (-1001 : Int) < -1000 ∧
      (overLimit (s.bay 0).overRef : Int) < 4201 ∧ (s.bay 0).lastSample = some ⟨36000, 0, 200, 0⟩ ∧
      0 + 2000 ≤ { s with clock := 2000 }.clock ∧ (r.bay 0).state = .resting ∧ (r.bay 0).rest = some 0 ∧
      (r.bay 0).occupant = some (r.handle 0) ∧ (readyCheck 0 r).map (·.2.2.pass) = some false ∧
      (samplePack .resting (.bay 0)).treatment.retries ≤ 1 ∧ ((stuck false).sup (.contactor 0)).disagree = some 0 ∧
      ((stuck true).sup (.contactor 0)).window ≠ some 0 := by decide +kernel

/-- An analyzer 5,000 ms old, and readings at both edges of their range. -/
theorem test_hypotheses_MonitorPostsItsIncidents :
    let s := airAt .inert 400
    let r : Reading := ⟨400, false, .ok, 0⟩
    let old := { s with clock := 5000, atm := { s.atm with a := ⟨some r, true⟩ } }
    s.run = true ∧ s.link.receiver = .hunting ∧ (old.atm.analyzer .a).latest = some r ∧
      (old.atm.analyzer .a).valid = true ∧ r.arrival + 5000 ≤ old.clock ∧ statusAt 0 = some .ok ∧
      statusAt 2 = some .fault ∧ 2500 ≤ 2500 := by decide +kernel

/-- Detector 24, of `kind`, about to become ACTIVE or FAULTED in zone `z`. -/
def dueDetector (z : Option (Fin 8)) (kind : DetectorKind) (st : DetectorState) (s : State) : State :=
  s.setDetector 23 ⟨z, kind, if st = .confirming then .active else .short, st, none, some 0, none⟩

/-- A detector of no zone, of a zone that goes to PRE_ALARM, of one that goes to ALARM and is released at once, and of one
already in ALARM; and a bay under an alarm. -/
theorem test_hypotheses_ZonesPostTheirIncidents :
    let s := inBay .discharging .discharging
    let other := s.setDetector 0 ⟨some 1, .heat, .normal, .normal, none, none, none⟩
    let heat := dueDetector (some 1) .heat .confirming other
    let flame := dueDetector (some 1) .flame .confirming s
    let active := fun v : State => v.setDetector 23 { v.detector 23 with state := .active, timer := none }
    s.run = true ∧ ((dueDetector none .heat .confirming s).detector 23).zone = none ∧
      ((dueDetector none .heat .confirmingFault s).detector 23).timer = some 0 ∧
      (heat.detector 23).zone = some 1 ∧ (heat.zone 1).state = .normal ∧ alarmPart (zoneDetectors (active heat) 1) = none ∧
      1 ≤ activeCount (zoneDetectors (active heat) 1) ∧ alarmPart (zoneDetectors (active flame) 1) = some 2 ∧
      ((heat.setZone 1 { Zone.initial with state := .preAlarm }).zone 1).state = .preAlarm ∧
      ((heat.setZone 1 { Zone.initial with state := .alarm }).zone 1).state = .alarm ∧
      (s.setZone 1 { Zone.initial with threshold := 100, inventory := 100, delay := 0 }).ports.fire.present = true := by
  decide +kernel

theorem test_hypotheses_AlarmStopsItsBays :
    let s := dueDetector (some 1) .flame .confirming (inBay .discharging .discharging)
    s.run = true ∧ SiteLaw s ∧ (s.detector 23).state = .confirming ∧ (s.detector 23).timer = some 0 ∧
      (s.detector 23).zone = some 1 ∧ (s.zone 1).state = .normal ∧
      alarmPart (zoneDetectors (s.setDetector 23 { s.detector 23 with state := .active, timer := none }) 1) ≠ none ∧
      bayZone 0 = 1 ∧ s.occupantPack 0 = some (0, samplePack .discharging (.bay 0)) := by
  intro s
  have law : SiteLaw (inBay .discharging .discharging) := siteLaw_inBay (by decide) rfl
  exact ⟨rfl, law, by decide +kernel⟩

/-- A contactor commanded off that reads closed, at the end of its timer and of its window, under each kind of occupant. -/
theorem test_hypotheses_StuckContactorMovesItsPack :
    let due := fun (s : State) (window disagree : Option Nat) => s.setSup (.contactor 0) ⟨false, true, window, disagree, false⟩
    let a := due (inBay .resting .resting) none (some 0)
    let b := due (inBay .done .discharged) (some 0) none
    let c := due (inBay .done .quarantined) none (some 0)
    a.run = true ∧ a.occupantPack 0 = some (0, samplePack .resting (.bay 0)) ∧
      b.occupantPack 0 = some (0, samplePack .discharged (.bay 0)) ∧
      c.occupantPack 0 = some (0, samplePack .quarantined (.bay 0)) ∧ (a.sup (.contactor 0)).command = false ∧
      (a.sup (.contactor 0)).disagree = some 0 ∧ (a.sup (.contactor 0)).window ≠ some 0 ∧
      (b.sup (.contactor 0)).window = some 0 ∧ (b.sup (.contactor 0)).readback = true := by decide +kernel

/-! ### One command on a small state -/

/-- A reading of the state a command leaves. -/
def sees {α : Type} (i : Instr) (s : State) (f : State → α) : Option α :=
  match exec i s with
  | .next t => some (f t)
  | _ => none

theorem test_step_takes_the_front :
    (match step { opened .opened with pending := [.setCursor .line 1 9, .loadSetTransmit] } with
      | .next t => some ((t.port .line).cursor, t.pending)
      | _ => none) = some (9, [.loadSetTransmit]) := by decide +kernel

theorem test_admit :
    sees (.admitPack .custody 1 9120 0 7 0 412000 2400 12) (opened .opened)
      (fun t => ((t.record 0).pack.map (fun x => (x.state, x.standing)), vget t.inventories 0,
        (t.lotAt 0).map (·.admitted), (t.port .custody).response.map (·.body))) =
      some (some (.quarantined, 2400), 2400, some 2, some [0, 0, 0]) := by decide +kernel

theorem test_start :
    sees (.start .line 1 1) (inBay .loaded .loaded)
      (fun t => ((t.bay 0).state, (t.sup (.contactor 0)).command, (t.bay 0).setpoint, t.link.waiting.head?)) =
      some (.discharging, true, 2000, some ⟨0, 2000⟩) := by decide +kernel

/-- 36,000 mV by 2,000 mA for 200 ms are 14,400 mJ. -/
theorem test_sample_integrates :
    sees (.baySample 1 8 36000 2000 200 200) (inBay .discharging .discharging)
      (fun t => (t.record 0).pack.map (fun x => (x.removed, x.removedSince, x.remainder))) =
      some (some (14400, 14400, 0)) := by decide +kernel

theorem test_sample_too_hot :
    sees (.baySample 1 8 36000 2000 451 200) (inBay .discharging .discharging)
      (fun t => ((t.bay 0).faultCause, (t.record 0).pack.map (·.state), (t.sup (.contactor 0)).command,
        t.banks.discharge.held.map (·.code))) =
      some (some .overTemperature, some .quarantined, false, some .overTemperature) := by decide +kernel

theorem test_rest_passes :
    sees (.restTimerExpiry 0) (bayWith .resting .resting fun b => { b with rest := some 0 })
      (fun t => ((t.bay 0).state, (t.record 0).pack.map (·.state), (t.record 0).pack.bind (·.residual),
        vget t.inventories 1)) = some (.done, some .discharged, some 5, 5) := by decide +kernel

theorem test_feed :
    sees (.feed .line 1 0 0) (permitted (inQueue.setPack 0
        (some { samplePack .queued .buffer with dischargedAt := some ⟨0, 0⟩ })))
      (fun t => (t.feed.lock.state, t.feed.queue, t.out.upperGate.command, vget t.inventories 5, vget t.inventories 6)) =
      some (.loading, [], true, 0, 100) := by decide +kernel

theorem test_drop_done :
    sees (.dropDone .line 1 0 0) (permitted (inLock .dropping true false .feeding))
      (fun t => (t.feed.lock.state, (t.record 0).pack.map (·.state), (t.lotAt 0).map (·.shredded),
        t.out.lowerGate.command)) = some (.empty, some .shredded, some 1, false) := by decide +kernel

/-- The last pack of a DRAINING lot leaves: with the output final the lot closes with its balance, 600 per mille, else it
waits. -/
theorem test_withdraw_closes_the_lot :
    let last := fun final => (holding .quarantined .quarantine).setLot 0 (some (draining final))
    let see := fun final => sees (.withdraw .custody 1 0 0) (last final)
      (fun t => (t.lotAt 0).map fun l => (l.state, l.balance, l.recovery))
    see true = some (some (.closed, some .within, some 600)) ∧ see false = some (some (.draining, none, none)) := by
  decide +kernel

/-- The presence bytes of an analyzer that has sent nothing: three for its reading, its validity, one for its age. -/
theorem test_analyzer_fields : wAnalyzer 0 ⟨none, false⟩ = [0, 0, 0, 0, 0] := by decide +kernel

theorem test_straps_set_the_rate :
    sees (.hardwareReset ⟨true, true⟩ true) (opened .opened) (·.portBaud) = some 460800 := by decide +kernel

/-- 8.00 % and more trips an INERT chamber and takes the permit off. -/
theorem test_reading_trips :
    sees (.analyzerReading 9 800 0) (permitted (opened .opened))
      (fun t => (t.atm.state, t.feed.permit, t.out.permit.command, t.banks.atmosphere.held.map (·.code))) =
      some (.tripped, false, false, some .o2Trip) := by decide +kernel

/-- The worked Z7 alarm: a flame detector's dwell ends, Z7 passes ALARM and is RELEASED, the working lock is BLOCKED. -/
theorem test_z7_release :
    sees (.detectorDwellExpiry 16)
      ((permitted (inLock .lockPurge false false .feeding)).setDetector 16
        ⟨some 6, .flame, .active, .confirming, none, some 0, none⟩)
      (fun t => ((t.zone 6).state, t.feed.lock.state, (t.record 0).pack.bind (·.cause), (t.sup (.release 6)).command,
        t.banks.fire.number)) = some (.released, .blocked, some .lockReleased, true, 2) := by decide +kernel

theorem test_supply_loss :
    sees (.mainSupplyLoss (.supplyLost false)) (inBay .discharging .discharging)
      (fun t => (t.run, t.checkAgrees, (t.sup (.contactor 0)).command)) = some (false, false, false) := by decide +kernel

/-- A reset with memory not intact forgets the pack; one with memory intact finds it LOADED. -/
theorem test_reset :
    sees (.hardwareReset ⟨false, false⟩ false) (inBay .discharging .discharging)
        (fun t => ((t.record 0).pack.isSome, t.banks.records.held.map (·.code))) = some (false, some .retentionLost) ∧
      sees (.hardwareReset ⟨false, false⟩ true) (inBay .discharging .discharging)
        (fun t => ((t.record 0).pack.map (·.state), (t.bay 0).state, t.epoch, vget t.inventories 1)) =
        some (some .loaded, .loaded, 1, 100) := by
  constructor <;> decide +kernel

theorem test_presence_expiry :
    sees (.presenceTimerExpiry .line) (let s := inBay .discharging .discharging
        s.setPort .line { s.port .line with timer := some 0 })
      (fun t => ((t.port .line).present, (t.bay 0).state, (t.bay 0).pauseCause)) = some (false, .paused, some .link) := by
  decide +kernel

end Sys2Proof.Tests
end

