-- ==== Sys2Proof/Proofs/Effects.lean ====
section
/-! PROOFS, layer 1. Each shared operation as one update of the state, the case in which it acts given as a hypothesis:
later proofs run an operation by rewriting with its equation. -/

namespace Sys2Proof.Machine

/-! ### Fixed tables -/

@[simp] theorem vset_vset {α : Type} {n : Nat} (v : Vector α n) (i : Fin n) (x y : α) :
    vset (vset v i x) i y = vset v i y := by
  simp [vset]

/-- A table written in one place is known by that entry and the others. -/
theorem vset_eq_iff {α : Type} {n : Nat} {v w : Vector α n} {i : Fin n} {x : α} :
    w = vset v i x ↔ vget w i = x ∧ ∀ j, j ≠ i → vget w j = vget v j := by
  refine ⟨fun h => h ▸ ⟨vget_vset_same .., fun j hj => vget_vset_other _ hj _⟩, fun ⟨hi, hj⟩ => vext fun j => ?_⟩
  rw [vget_vset]
  split
  case isTrue h => rw [h, hi]
  case isFalse h => exact hj j h

/-! ### Ports: notices and answers -/

/-- The ports after a notice for the ports `ps` (R193). -/
def Ports.tell (ps : List Port) (n : Notice) (P : Ports) : Ports :=
  ps.foldl (fun P p => match p with
    | .line => { P with line := P.line.enqueue n }
    | .fire => { P with fire := P.fire.enqueue n }
    | .custody => { P with custody := P.custody.enqueue n }) P

/-- A port without what a notice or a response may change. -/
def PortCtx.quiet (c : PortCtx) : PortCtx := { c.mute with response := none }

/-- The ports without what a notice or a response may change. -/
def Ports.quiet (P : Ports) : Ports := ⟨P.line.quiet, P.fire.quiet, P.custody.quiet⟩

/-- The ports after a response on port `p`. -/
def Ports.answer (p : Port) (r : Response) (P : Ports) : Ports :=
  match p with
  | .line => { P with line.response := some r }
  | .fire => { P with fire.response := some r }
  | .custody => { P with custody.response := some r }

theorem notify_eq (ps : List Port) (w : NoticeBody) (s : State) :
    notify ps w s = { s with ports := s.ports.tell ps ⟨w, s.now⟩ } := by
  have h : ∀ (n : Notice) (t : State), ps.foldl (fun t p => t.setPort p ((t.port p).enqueue n)) t =
      { t with ports := t.ports.tell ps n } := by
    intro n
    induction ps with
    | nil => intro t; rfl
    | cons p ps ih => intro t; rw [List.foldl_cons, ih]; cases p <;> rfl
  exact h _ s

theorem PortCtx.quiet_eq_iff {c d : PortCtx} : c.quiet = d.quiet ↔
    c = { d with notices := c.notices, overflowed := c.overflowed, response := c.response } := by
  cases c; cases d; simp [PortCtx.quiet, PortCtx.mute]

@[simp] theorem PortCtx.quiet_enqueue (c : PortCtx) (n : Notice) : (c.enqueue n).quiet = c.quiet := by
  simp [PortCtx.quiet]

@[simp] theorem Ports.quiet_tell (ps : List Port) (n : Notice) (P : Ports) : (P.tell ps n).quiet = P.quiet := by
  unfold Ports.tell
  induction ps generalizing P with
  | nil => rfl
  | cons p ps ih => rw [List.foldl_cons, ih]; cases p <;> simp [Ports.quiet]

@[simp] theorem Ports.quiet_answer (p : Port) (r : Response) (P : Ports) : (P.answer p r).quiet = P.quiet := by
  cases p <;> rfl

/-- Ports that agree but for notices and responses are what PortsQuiet allows. -/
theorem portsQuiet_iff {u t : State} : PortsQuiet u t ↔ t.ports.quiet = u.ports.quiet := by
  have split : t.ports.quiet = u.ports.quiet ↔ ∀ p, (t.port p).quiet = (u.port p).quiet := by
    refine ⟨fun h p => ?_, fun h => ?_⟩
    · cases p
      · exact congrArg Ports.line h
      · exact congrArg Ports.fire h
      · exact congrArg Ports.custody h
    · have hl : t.ports.line.quiet = u.ports.line.quiet := h .line
      have hf : t.ports.fire.quiet = u.ports.fire.quiet := h .fire
      have hc : t.ports.custody.quiet = u.ports.custody.quiet := h .custody
      simp only [Ports.quiet, hl, hf, hc]
  exact (split.trans (forall_congr' fun _ => PortCtx.quiet_eq_iff)).symm

theorem answered_eq (p : Port) (i : Instr) (r : Result) (body : List Byte) (u : State) :
    answered p i r body u =
      { u with ports := u.ports.answer p ⟨i.frame.seq, i.frame.code, r, body⟩ } := by cases p <;> rfl

/-- The response of an answered request is the one last produced. -/
theorem answers_answered (p : Port) (i : Instr) (r : Result) (body : List Byte) (u : State) :
    Answers p i r body (answered p i r body u) := by cases p <;> rfl

/-! ### Outputs and load setpoints -/

theorem Supervision.setCommand_command (v : Supervision) (on : Bool) : (v.setCommand on).command = on := by
  unfold Supervision.setCommand
  split <;> simp_all

theorem Supervision.setCommand_of_eq {v : Supervision} {on : Bool} (h : v.command = on) : v.setCommand on = v :=
  if_pos h

@[simp] theorem Supervision.setCommand_readback (v : Supervision) (on : Bool) :
    (v.setCommand on).readback = v.readback := by
  unfold Supervision.setCommand
  split <;> rfl

theorem commandContactor_on (n : Fin 8) (s : State) :
    commandContactor n true s = { s with out := s.out.contactorTo n true } := by
  simp [commandContactor, command, State.setSup, State.sup, Outputs.contactorTo]

theorem commandContactor_off (n : Fin 8) (s : State) : commandContactor n false s =
    { s with
      bays := vset s.bays n { s.bay n with
        confirmedOpen := if (s.sup (.contactor n)).command then !(s.sup (.contactor n)).readback
          else (s.bay n).confirmedOpen }
      out := s.out.contactorTo n false } := by
  cases h : (s.sup (.contactor n)).command
  · have keep : vset s.bays n (s.bay n) = s.bays := vset_vget ..
    simp [commandContactor, command, State.setSup, State.sup, Outputs.contactorTo, keep] at h ⊢
    simp [h]
  · simp [commandContactor, command, State.setSup, State.setBay, State.bay, Outputs.contactorTo, h]
    simp [State.sup]

theorem setSetpoint_eq (n : Fin 8) (ma : Nat) (s : State) : setSetpoint n ma s =
    { s with
      bays := vset s.bays n { s.bay n with setpoint := ma }
      link := s.link.setpointTo n (s.bay n).setpoint ma } := by
  unfold setSetpoint
  split
  case isTrue h =>
    subst h
    have keep : vset s.bays n (s.bay n) = s.bays := vset_vget ..
    simp [keep, FieldLink.setpointTo]
  case isFalse h =>
    simp [sendLoadSet, State.setBay, State.bay, FieldLink.setpointTo]
    simp_all [State.bay]

/-! ### Bays -/

/-- The ports after the notice of a bay's state, where it changed (R48). -/
def bayTold (n : Fin 8) (old : BayState) (b : Bay) (t : Stamp) (P : Ports) : Ports :=
  if old = b.state then P else P.tell [.line] ⟨.bay n b.state b.pauseCause b.faultCause b.occupant, t⟩

@[simp] theorem quiet_bayTold (n : Fin 8) (old : BayState) (b : Bay) (t : Stamp) (P : Ports) :
    (bayTold n old b t P).quiet = P.quiet := by
  unfold bayTold
  split <;> simp

theorem putBay_eq (n : Fin 8) (b : Bay) (s : State) : putBay n b s =
    { s with bays := vset s.bays n b, ports := bayTold n (s.bay n).state b s.now s.ports } := by
  unfold putBay bayTold
  dsimp only
  split
  · rfl
  · rw [notify_eq]; rfl

theorem stopLoad_eq (n : Fin 8) (s : State) : stopLoad n s =
    { s with
      bays := vset s.bays n ((s.bay n).unloaded (s.sup (.contactor n)))
      out := s.out.contactorTo n false
      link := s.link.setpointTo n (s.bay n).setpoint 0 } := by
  simp [stopLoad, commandContactor_off, setSetpoint_eq, State.setBay, State.bay, Bay.unloaded]

theorem startLoad_eq (n : Fin 8) (s : State) : startLoad n s =
    { s with
      bays := vset s.bays n ((s.bay n).loadedAt (s.bay n).activeSlot.current)
      out := s.out.contactorTo n true
      link := s.link.setpointTo n (s.bay n).setpoint (s.bay n).activeSlot.current } := by
  simp [startLoad, commandContactor_on, setSetpoint_eq, State.setBay, State.bay, Bay.loadedAt]

/-- A bay that has begun a segment at elapsed `ms` (R57). -/
def Bay.started (b : Bay) (ms : Nat) : Bay :=
  { b.loadedAt b.activeSlot.current with state := .discharging, elapsed := ms, pauseCause := none }

theorem enterDischarging_eq (n : Fin 8) (ms : Nat) (s : State) : enterDischarging n ms s =
    { s with
      bays := vset s.bays n ((s.bay n).started ms)
      out := s.out.contactorTo n true
      link := s.link.setpointTo n (s.bay n).setpoint (s.bay n).activeSlot.current
      ports := bayTold n (s.bay n).state ((s.bay n).started ms) s.now s.ports } := by
  simp [enterDischarging, startLoad_eq, putBay_eq, State.bay, Bay.started, Bay.loadedAt, State.now]

/-- A bay PAUSED by `cause`, its load stopped (R60, R67). -/
def Bay.pausedBy (b : Bay) (v : Supervision) (cause : PauseCause) : Bay :=
  { b.unloaded v with state := .paused, pauseCause := some cause }

theorem pauseBay_eq (n : Fin 8) (cause : PauseCause) (s : State) : pauseBay n cause s =
    { s with
      bays := vset s.bays n ((s.bay n).pausedBy (s.sup (.contactor n)) cause)
      out := s.out.contactorTo n false
      link := s.link.setpointTo n (s.bay n).setpoint 0
      ports := bayTold n (s.bay n).state ((s.bay n).pausedBy (s.sup (.contactor n)) cause) s.now s.ports } := by
  simp [pauseBay, stopLoad_eq, putBay_eq, State.bay, Bay.pausedBy, Bay.unloaded, State.now]

/-- A bay FAULTED by `cause`, unless it was FAULTED already (R70). -/
def Bay.faultedBy (b : Bay) (v : Supervision) (cause : FaultCause) : Bay :=
  { (b.unloaded v).cleared .faulted with
    faultCause := if b.state = .faulted then b.faultCause else some cause }

theorem faultBay_eq (n : Fin 8) (cause : FaultCause) (s : State) : faultBay n cause s =
    { s with
      bays := vset s.bays n ((s.bay n).faultedBy (s.sup (.contactor n)) cause)
      out := s.out.contactorTo n false
      link := s.link.setpointTo n (s.bay n).setpoint 0
      ports := bayTold n (s.bay n).state ((s.bay n).faultedBy (s.sup (.contactor n)) cause) s.now s.ports } := by
  simp [faultBay, stopLoad_eq, putBay_eq, State.bay, Bay.faultedBy, Bay.unloaded, Bay.cleared, State.now]
  exact ⟨rfl, rfl⟩

theorem emptyBay_eq (n : Fin 8) (s : State) : emptyBay n s =
    { s with
      bays := vset s.bays n (s.bay n).emptied
      ports := bayTold n (s.bay n).state (s.bay n).emptied s.now s.ports } := by
  simp [emptyBay, putBay_eq, Bay.emptied]

/-- The ports after a pack has left location `l`: the bay it names is told EMPTY (R51). -/
def leftTold (l : Loc) (bays : Vector Bay 8) (t : Stamp) (P : Ports) : Ports :=
  match l with
  | .bay m => bayTold m (vget bays m).state (vget bays m).emptied t P
  | _ => P

@[simp] theorem quiet_leftTold (l : Loc) (bays : Vector Bay 8) (t : Stamp) (P : Ports) :
    (leftTold l bays t P).quiet = P.quiet := by
  cases l <;> simp [leftTold]

theorem leaveLoc_eq (l : Loc) (s : State) : leaveLoc l s =
    { s with bays := baysLeft l s.bays, ports := leftTold l s.bays s.now s.ports } := by
  cases l <;> simp [leaveLoc, baysLeft, leftTold, emptyBay_eq, State.bay]

/-- A bay newly taken by a pack of treatment `t` (R50). -/
def Bay.taken (h : Handle) (t : Treatment) (recheck closed : Bool) : Bay :=
  { Bay.initial with
    state := .loaded, occupant := some h, recheck := recheck
    slotA := ⟨t.current, t.stop, t.segment, true⟩
    confirmedOpen := !closed }

theorem occupyBay_eq (n : Fin 8) (h : Handle) (t : Treatment) (recheck : Bool) (s : State) :
    occupyBay n h t recheck s =
      { s with
        bays := vset s.bays n (Bay.taken h t recheck (s.sup (.contactor n)).readback)
        out := s.out.contactorTo n false
        link := { s.link with waiting := queueSetpoint s.link.waiting ⟨n, 0⟩ }
        ports := bayTold n (s.bay n).state (Bay.taken h t recheck (s.sup (.contactor n)).readback) s.now s.ports } := by
  simp [occupyBay, commandContactor_off, putBay_eq, sendLoadSet, State.bay, State.sup, Outputs.contactorTo, Bay.taken,
    Bay.defaultSlots, Bay.initial, Slot.none, State.now]

/-! ### Packs and inventories -/

/-- The inventories after record `i` is written with `p`, in place of `old` (R19). -/
def invStored (old : Option Pack) (p : Pack) (inv : Vector Nat 8) : Vector Nat 8 :=
  creditZone p.zone p.standing (match old with
    | none => inv
    | some o => debitZone o.zone o.standing inv)

/-- The ports after the pack state notice of record `i` (R23). -/
def packTold (ps : List Port) (h : Handle) (p : Pack) (t : Stamp) (P : Ports) : Ports :=
  P.tell ps ⟨.pack h p.state p.loc, t⟩

@[simp] theorem quiet_packTold (ps : List Port) (h : Handle) (p : Pack) (t : Stamp) (P : Ports) :
    (packTold ps h p t P).quiet = P.quiet := by simp [packTold]

theorem storePack_eq (i : Fin 256) (p : Pack) (s : State) : storePack i p s =
    { s with
      packs := vset s.packs i ⟨(s.record i).gen, some p⟩
      inventories := invStored (s.record i).pack p s.inventories } := by
  cases h : (s.record i).pack <;> simp [storePack, invStored, State.setPack, h]

theorem noticePack_eq {ps : List Port} {i : Fin 256} {s : State} {p : Pack} (h : (s.record i).pack = some p) :
    noticePack ps i s = { s with ports := packTold ps (s.handle i) p s.now s.ports } := by
  simp only [noticePack, h, notify_eq, packTold]

/-- A record written and noticed. -/
theorem noticePack_storePack (ps : List Port) (i : Fin 256) (p : Pack) (s : State) :
    noticePack ps i (storePack i p s) =
      { s with
        packs := vset s.packs i ⟨(s.record i).gen, some p⟩
        inventories := invStored (s.record i).pack p s.inventories
        ports := packTold ps (s.handle i) p s.now s.ports } := by
  rw [storePack_eq, noticePack_eq (p := p) (by simp [State.record])]
  simp [State.handle, State.record, State.now]

theorem transition_eq (i : Fin 256) (p : Pack) (s : State) : transition i p s =
    { s with
      packs := vset s.packs i ⟨(s.record i).gen, some p⟩
      inventories := invStored (s.record i).pack p s.inventories
      ports := packTold p.state.noticePorts (s.handle i) p s.now s.ports } :=
  noticePack_storePack ..

theorem quarantinePack_eq {i : Fin 256} {p : Pack} {s : State} (h : (s.record i).pack = some p)
    (q : p.state ≠ .quarantined) (cause : QuarantineCause) : quarantinePack i cause s =
      transition i { p with state := .quarantined, cause := some cause } s := by
  simp [quarantinePack, h, q]

/-- A pack already QUARANTINED stays as it is (R10). -/
theorem quarantinePack_quarantined {i : Fin 256} {p : Pack} {s : State} (h : (s.record i).pack = some p)
    (q : p.state = .quarantined) (cause : QuarantineCause) : quarantinePack i cause s = s := by
  simp [quarantinePack, h, q]

theorem onOccupant_eq {n : Fin 8} {f : Pack → Pack} {s : State} {i : Fin 256} {p : Pack}
    (h : s.occupantPack n = some (i, p)) : onOccupant n f s = transition i (f p) s := by
  simp [onOccupant, h]

/-- The occupant's pack stands in the record that the bay's handle names. -/
theorem occupantPack_eq_some {s : State} {n : Fin 8} {i : Fin 256} {p : Pack} :
    s.occupantPack n = some (i, p) ↔ (s.bay n).occupant = some (s.handle i) ∧ (s.record i).pack = some p := by
  unfold State.occupantPack
  cases e : (s.bay n).occupant with
  | none => simp
  | some h =>
    simp only [Option.map_eq_some_iff, State.lookup_eq_some, Prod.mk.injEq, Option.some.injEq]
    constructor
    · rintro ⟨_, ⟨hg, hp⟩, rfl, rfl⟩
      exact ⟨by cases h; simp_all [State.handle], hp⟩
    · rintro ⟨rfl, hp⟩
      exact ⟨p, ⟨rfl, hp⟩, rfl, rfl⟩

/-- A pack that keeps its place and standing leaves counted inventories as they are (R19). -/
theorem invStored_same {o p : Pack} {inv : Vector Nat 8} (hz : p.zone = o.zone) (hs : p.standing = o.standing)
    (c : ∀ z, o.zone = some z → o.standing ≤ vget inv z) : invStored (some o) p inv = inv := by
  simp only [invStored, hz, hs]
  cases e : o.zone with
  | none => rfl
  | some z => simp [creditZone, debitZone, Nat.sub_add_cancel (c z e)]

/-- Standing energy and place of a pack whose state alone changes, off the terminal states (R18). -/
theorem Pack.standing_of_live {p q : Pack} (hp : p.state.terminal = false) (hq : q.state.terminal = false)
    (hb : q.basis = p.basis) (hr : q.removedSince = p.removedSince) : q.standing = p.standing := by
  simp [Pack.standing, hp, hq, hb, hr]

/-! ### Inventories told to the Fire Zone Controller -/

/-- The zones after zone `z` is told its inventory (R19). -/
def tellZone (z : Option (Fin 8)) (inv : Vector Nat 8) (zones : Vector Zone 8) : Vector Zone 8 :=
  match z with
  | none => zones
  | some z => vset zones z { vget zones z with inventory := vget inv z }

theorem vget_tellZone (z : Option (Fin 8)) (inv : Vector Nat 8) (zones : Vector Zone 8) (y : Fin 8) :
    vget (tellZone z inv zones) y =
      { vget zones y with inventory := if z = some y then vget inv y else (vget zones y).inventory } := by
  cases z with
  | none => simp [tellZone]
  | some z =>
    by_cases h : y = z
    · subst h; simp [tellZone]
    · simp [tellZone, h, Ne.symm h]

theorem deliverInventory_settled {z : Fin 8} {s : State} (h : Settled z s) : deliverInventory z s =
    { s with fire.zones := tellZone (some z) s.inventories s.fire.zones } := by
  have keep : vset s.fire.zones z (vget s.fire.zones z) = s.fire.zones := vset_vget ..
  unfold deliverInventory
  split
  case isTrue e => simp only [State.zone] at e; simp [tellZone, ← e, keep]
  case isFalse =>
    have stays : evalRelease z (s.setZone z { s.zone z with inventory := vget s.inventories z }) =
        s.setZone z { s.zone z with inventory := vget s.inventories z } := by
      unfold evalRelease
      refine if_neg fun ⟨alarm, goes⟩ => ?_
      simp only [State.zone_setZone_same] at alarm
      obtain ⟨present, below⟩ := h alarm
      simp [goesToRelease, State.setZone, State.zone, present] at goes
      simp only [State.zone] at below
      omega
    rw [stays]
    rfl

/-- Inventories delivered to zones none of which goes to release (R19, R143). -/
theorem deliverPlaces_settled {src dst : Option (Fin 8)} {s : State} (hs : ∀ z, src = some z → Settled z s)
    (hd : ∀ z, dst = some z → Settled z s) : deliverPlaces src dst s =
      { s with fire.zones := tellZone dst s.inventories (tellZone src s.inventories s.fire.zones) } := by
  have told : ∀ z, Settled z s → ∀ y, Settled y s →
      Settled y { s with fire.zones := tellZone (some z) s.inventories s.fire.zones } := by
    intro z _ y hy
    simpa [Settled, State.zone, vget_tellZone] using hy
  cases src with
  | none =>
    cases dst with
    | none => rfl
    | some d => exact deliverInventory_settled (hd d rfl)
  | some z =>
    have first := deliverInventory_settled (hs z rfl)
    cases dst with
    | none => exact first
    | some d =>
      simp only [deliverPlaces, first]
      rw [deliverInventory_settled (told z (hs z rfl) d (hd d rfl))]

/-- A zone that is not in ALARM takes any inventory (R143). -/
theorem settled_of_not_alarm {z : Fin 8} {s : State} (h : (s.zone z).state ≠ .alarm) : Settled z s :=
  fun e => absurd e h

/-- The energy has moved when the inventories are debited and credited and both zones told. -/
theorem energyMoved_of {src dst : Option (Fin 8)} {wh : Nat} {u t : State}
    (hi : t.inventories = creditZone dst wh (debitZone src wh u.inventories))
    (hf : t.fire = { u.fire with zones := tellZone dst t.inventories (tellZone src t.inventories u.fire.zones) }) :
    EnergyMoved src dst wh u t := by
  refine ⟨hi, by rw [hf], fun z => ?_⟩
  simp only [State.zone, hf, vget_tellZone]
  by_cases h : dst = some z <;> simp [h]

end Sys2Proof.Machine
end

