-- ==== Sys2Proof/Proofs/Requests.lean ====
section
/-! PROOFS, layer 2. How a request reaches its owner and how its answer is known, and the statements about requests that
change nothing: refusals at the port and reads (chapters 01 and 10). -/

namespace Sys2Proof.Machine

/-! ### A request as its owner's reply -/

/-- Every request of the catalogue has one owner, and is served to it as its frame. -/
theorem exec_request {i : Instr} {p : Port} {q : Byte} {c : Nat} (h : i.head = some (p, q, c)) :
    ∃ owner : State → Reply, ∀ s, exec i s = .next (serve p i.frame owner s) := by
  cases i <;> first | (cases h; exact ⟨_, fun _ => rfl⟩) | cases h

/-- The code in a request's frame is its code in the catalogue. -/
theorem frame_code {i : Instr} {p : Port} {q : Byte} {c : Nat} (h : i.head = some (p, q, c)) :
    i.frame.code.toNat = c := by
  have small : c < 256 := by cases i <;> cases h <;> decide
  simp [Instr.frame, h, Nat.mod_eq_of_lt small]

section Served

variable {p : Port} {q : Byte} {k : Nat} {c : Instr} {owner : State → Reply} {s : State}

/-- A request that the owner grants is answered OK on the state the owner leaves. -/
theorem served_ok {v : State} {body : List Byte} (e : exec c s = .next (serve p c.frame owner s)) (r : Ready p s)
    (hd : c.head = some (p, q, k))
    (m : mayIssue p k = true) (o : owner (touchPort p s) = reply v body) :
    exec c s = .next (answered p c .ok body v) := by
  rw [e, serve_ready r (by rw [frame_code hd]; exact m), o, respond_reply]

/-- A request that the owner refuses changes nothing but the port's last response. -/
theorem served_refused {x : Result} (e : exec c s = .next (serve p c.frame owner s)) (r : Ready p s)
    (hd : c.head = some (p, q, k))
    (m : mayIssue p k = true) (o : owner (touchPort p s) = refuse x (touchPort p s)) (hx : x ≠ .ok) :
    exec c s = .next (answered p c x [] (touchPort p s)) := by
  rw [e, serve_ready r (by rw [frame_code hd]; exact m), o, respond_refuse _ _ _ _ hx]

/-- Every port may issue the requests 1 to 13. -/
theorem mayIssue_open (p : Port) {k : Nat} (h : 1 ≤ k ∧ k ≤ 13) : mayIssue p k = true := by
  simp only [mayIssue, rolesOf, if_pos h]
  cases p <;> rfl

theorem read_ok {v : State} {body : List Byte} (e : exec c s = .next (serve p c.frame owner s)) (r : Ready p s)
    (hd : c.head = some (p, q, k)) (hk : 1 ≤ k ∧ k ≤ 13) (o : owner (touchPort p s) = reply v body) :
    exec c s = .next (answered p c .ok body v) :=
  served_ok e r hd (mayIssue_open p hk) o

theorem read_refused {x : Result} (e : exec c s = .next (serve p c.frame owner s)) (r : Ready p s)
    (hd : c.head = some (p, q, k)) (hk : 1 ≤ k ∧ k ≤ 13) (o : owner (touchPort p s) = refuse x (touchPort p s))
    (hx : x ≠ .ok) : exec c s = .next (answered p c x [] (touchPort p s)) :=
  served_refused e r hd (mayIssue_open p hk) o hx

end Served

theorem withPack_found {h : Handle} {u : State} {x : Pack} (g : h.gen < 256) (f : u.lookup h = some x)
    (k : Handle → Pack → Reply) : withPack h.index.1 h.gen u k = k h x := by
  simp [withPack, handleOf_val h g, f]

theorem withPack_missing {h : Handle} {u : State} (g : h.gen < 256) (f : u.lookup h = none)
    (k : Handle → Pack → Reply) : withPack h.index.1 h.gen u k = refuse .noPack u := by
  simp [withPack, handleOf_val h g, f]

/-- A pack found by its handle stands in the handle's record, at the handle's generation. -/
theorem record_of_lookup {h : Handle} {u : State} {x : Pack} (f : u.lookup h = some x) :
    u.record h.index = ⟨h.gen, some x⟩ := by
  obtain ⟨hg, hp⟩ := State.lookup_eq_some.1 f
  rw [← hg, ← hp]

/-- The handle of a record found by it is the one that found it. -/
theorem handle_of_lookup {h : Handle} {u : State} {x : Pack} (f : u.lookup h = some x) : u.handle h.index = h := by
  simp [State.handle, record_of_lookup f]

theorem index0_none {n k : Nat} (h : n ≤ k) : index0 n k = none := by simp [index0, Nat.not_lt.2 h]

theorem index1_none {n k : Nat} (h : k = 0 ∨ n < k) : index1 n k = none := by
  rcases h with rfl | h
  · rfl
  · simp only [index1, index0]
    rw [if_neg (by omega), dif_neg (by omega)]

end Sys2Proof.Machine

open Sys2Proof Sys2Proof.Machine

/-! ### Refusals at the port -/

theorem deniedChangesNothing : Claim.DeniedChangesNothing := by
  intro i p q c s h r m
  obtain ⟨owner, e⟩ := exec_request h
  rw [e, serve_denied r (by rw [frame_code h]; exact m), respond_refuse _ _ _ _ (by decide)]

theorem guardMismatchChangesNothing : Claim.GuardMismatchChangesNothing := by
  intro q target g1 g2 s
  refine ⟨fun r h => ?_, fun r => ⟨fun h => ?_, fun h => ?_, fun h => ?_⟩⟩ <;>
    exact served_refused rfl r rfl rfl (guarded_wrong (by omega)) (by decide)

theorem noPackChangesNothing : Claim.NoPackChangesNothing := by
  intro p q h n s g r u b missing
  have gone : ∀ k, withPack h.index.1 h.gen u k = refuse .noPack u := withPack_missing g missing
  refine ⟨served_refused rfl r rfl (by cases p <;> rfl) (gone _) (by decide), ?_, ?_⟩
  · rintro rfl
    exact served_refused rfl r rfl rfl (gone _) (by decide)
  · rintro rfl c hc
    simp only [List.mem_cons, List.not_mem_nil, or_false] at hc
    rcases hc with rfl | rfl | rfl | rfl | rfl | rfl | rfl | rfl | rfl | rfl
    · exact served_refused rfl r rfl rfl (by simp only [assignReply, index1_succ]; exact gone _) (by decide)
    · exact served_refused rfl r rfl rfl (gone _) (by decide)
    · exact served_refused rfl r rfl rfl (gone _) (by decide)
    · exact served_refused rfl r rfl rfl (gone _) (by decide)
    · exact served_refused rfl r rfl rfl (gone _) (by decide)
    · exact served_refused rfl r rfl rfl (gone _) (by decide)
    · have dest : removeDest (n.1 + 1) = some (some n) := by simp [removeDest, index1_succ]
      exact served_refused rfl r rfl rfl (by simp only [removeReply, dest]; exact gone _) (by decide)
    · exact served_refused rfl r rfl rfl (gone _) (by decide)
    · exact served_refused rfl r rfl rfl (gone _) (by decide)
    · exact served_refused rfl r rfl rfl (gone _) (by decide)

/-- Settles O16: at each of the three refusals the owner's reply is a refusal of the state the port found. -/
theorem refusedAtThePort : Obligations.RefusedAtThePort :=
  ⟨deniedChangesNothing, guardMismatchChangesNothing, noPackChangesNothing⟩

/-! ### Reads -/

theorem readLotReply_free {u : State} {j : Fin 8} (h : u.lotAt j = none) : readLotReply j.1 u = reply u (be 1 0) := by
  simp only [readLotReply, index0_val, h]

theorem readLotReply_used {u : State} {j : Fin 8} {l : Lot} (h : u.lotAt j = some l) :
    readLotReply j.1 u = reply u (wLotRecord l ++ wOpt wLot u.lot.shredLot ++ wOpt wSwitch u.lot.switch) := by
  simp only [readLotReply, index0_val, h]

theorem readConfigReply_eq {u : State} {item index : Nat} {body : List Byte}
    (h : configBody u item index = some body) : readConfigReply item index u = reply u body := by
  simp only [readConfigReply, h]

theorem readConfigReply_none {u : State} {item index : Nat} (h : configBody u item index = none) :
    readConfigReply item index u = refuse .malformed u := by
  simp only [readConfigReply, h]

theorem readsAnswerAndChangeNothing : Claim.ReadsAnswerAndChangeNothing := by
  intro p q s r u ok
  have out8 : ∀ n : Nat, n = 0 ∨ 8 < n → index1 8 n = none := fun n => index1_none
  refine ⟨read_ok rfl r rfl (by decide) rfl, read_ok rfl r rfl (by decide) rfl,
    read_ok rfl r rfl (by decide) rfl, read_ok rfl r rfl (by decide) rfl,
    read_ok rfl r rfl (by decide) rfl, read_ok rfl r rfl (by decide) rfl,
    ?_, ?_, ?_, ?_, ?_, ?_, ?_, ?_, ?_, ?_, ?_, ?_⟩
  · intro h x g f
    exact read_ok rfl r rfl (by decide) (withPack_found g f _)
  · intro n
    exact read_ok rfl r rfl (by decide) (by simp only [readBayReply, index1_succ]; rfl)
  · intro z
    exact read_ok rfl r rfl (by decide) (by simp only [readZoneReply, index1_succ]; rfl)
  · intro j free
    exact read_ok rfl r rfl (by decide) (readLotReply_free free)
  · intro j l used
    exact read_ok rfl r rfl (by decide) (readLotReply_used used)
  · intro k b hk
    exact read_ok rfl r rfl (by decide) (by simp only [readBankReply, bankOfNumber, hk]; rfl)
  · intro item index body hb
    exact read_ok rfl r rfl (by decide) (readConfigReply_eq hb)
  · intro n hn
    have refused : statusReply n u = refuse .malformed u := by
      match n, hn with
      | _ + 6, _ => rfl
    exact read_refused rfl r rfl (by decide) refused (by decide)
  · intro n hn
    exact ⟨read_refused rfl r rfl (by decide) (by simp only [readBayReply, out8 n hn]) (by decide),
      read_refused rfl r rfl (by decide) (by simp only [readZoneReply, out8 n hn]) (by decide)⟩
  · intro n hn
    exact read_refused rfl r rfl (by decide)
      (by simp only [readLotReply, index0_none (show 8 ≤ n by omega)]) (by decide)
  · intro n hn
    have no : bankOfNumber n = none := by simp [bankOfNumber, allBanks]; omega
    exact read_refused rfl r rfl (by decide) (by simp only [readBankReply, no]) (by decide)
  · intro item index hb
    exact read_refused rfl r rfl (by decide) (readConfigReply_none hb) (by decide)

/-! ### The scan of LIST_PACKS -/

namespace Sys2Proof.Machine

/-- A record that a LIST_PACKS selects, with its pack. -/
def selected (s : State) (fs : Option PackState × Option (Fin 8)) (i : Fin 256) : Option (Fin 256 × Pack) :=
  (s.record i).pack.bind fun x => if listMatch fs x then some (i, x) else none

theorem fst_of_selected {s : State} {fs : Option PackState × Option (Fin 8)} {i : Fin 256} {y : Fin 256 × Pack}
    (h : selected s fs i = some y) : y.1 = i := by
  obtain ⟨x, _, hx⟩ := Option.bind_eq_some_iff.1 h
  split at hx
  · cases hx; rfl
  · cases hx

/-- One record of a scan. -/
theorem scanPacks_cons (s : State) (fs : Option PackState × Option (Fin 8)) (k : Nat) (i : Fin 256)
    (is : List (Fin 256)) : scanPacks s fs (k + 1) (i :: is) =
      match selected s fs i with
      | some y => (y :: (scanPacks s fs k is).1, (scanPacks s fs k is).2)
      | none => scanPacks s fs (k + 1) is := by
  rw [scanPacks]
  cases h : (s.record i).pack with
  | none => simp [selected, h]
  | some x => by_cases m : listMatch fs x <;> simp [selected, h, m]

/-- A scan takes the first `k` selected records. -/
theorem scanPacks_fst (s : State) (fs : Option PackState × Option (Fin 8)) (k : Nat) (is : List (Fin 256)) :
    (scanPacks s fs k is).1 = (is.filterMap (selected s fs)).take k := by
  induction is generalizing k with
  | nil => cases k <;> simp [scanPacks]
  | cons i is ih =>
    cases k with
    | zero => simp [scanPacks]
    | succ k =>
      rw [scanPacks_cons, List.filterMap_cons]
      cases selected s fs i <;> simp [ih]

/-- What a scan leaves: nothing where it runs out of records, else what follows the last record it took. -/
theorem scanPacks_snd (s : State) (fs : Option PackState × Option (Fin 8)) (k : Nat) (is : List (Fin 256)) :
    match (is.filterMap (selected s fs))[k]? with
    | none => (scanPacks s fs (k + 1) is).2 = []
    | some y => ∃ pre, is = pre ++ y.1 :: (scanPacks s fs (k + 1) is).2 := by
  induction is generalizing k with
  | nil => simp [scanPacks]
  | cons i is ih =>
    rw [scanPacks_cons, List.filterMap_cons]
    cases h : selected s fs i with
    | none =>
      dsimp only
      have tail := ih k
      split
      · simp_all
      · simp_all only
        obtain ⟨pre, hp⟩ := tail
        exact ⟨i :: pre, by rw [List.cons_append, ← hp]⟩
    | some y =>
      cases k with
      | zero =>
        refine ⟨[], ?_⟩
        simp [fst_of_selected h, scanPacks]
      | succ k =>
        have tail := ih k
        simp only [List.getElem?_cons_succ]
        split
        · simp_all
        · simp_all only
          obtain ⟨pre, hp⟩ := tail
          exact ⟨i :: pre, by rw [List.cons_append, ← hp]⟩

/-- What follows record `j` in the register. -/
theorem allRecords_after {m : Nat} {pre post : List (Fin 256)} {j : Fin 256}
    (h : allRecords.drop m = pre ++ j :: post) : post = allRecords.drop (j.1 + 1) := by
  have tail : post = allRecords.drop (m + (pre.length + 1)) := by
    rw [← List.drop_drop, h]; simp [List.drop_append]
  have at_j : allRecords[m + pre.length]? = some j := by
    rw [← List.getElem?_drop, h]; simp
  have val : m + pre.length = j.1 := by
    obtain ⟨hl, e⟩ := List.getElem?_eq_some_iff.1 at_j
    simpa [allRecords] using congrArg Fin.val e
  rw [tail, ← val, Nat.add_assoc]

theorem head_allRecords_drop (k : Nat) : (allRecords.drop k).head? = index0 256 k := by
  rw [List.head?_drop]
  simp only [allRecords, index0]
  split
  · rw [List.getElem?_eq_getElem (by simpa)]; simp
  · rw [List.getElem?_eq_none (by simp; omega)]

/-- The whole scan of eight from record `m`, as R21 words it: what is found, where the next scan begins, and whether the
register is at its end. -/
theorem scanPacks_eight (s : State) (fs : Option PackState × Option (Fin 8)) (m : Nat) :
    let r := scanPacks s fs 8 (allRecords.drop m)
    let found := ((allRecords.drop m).filterMap (selected s fs)).take 8
    let eighth := found[7]?.map (·.1.1)
    r.1 = found ∧ r.2.head?.getD 0 = (eighth.bind fun k => index0 256 (k + 1)).getD 0 ∧
      r.2.isEmpty = eighth.all fun k => k == 255 := by
  intro r found eighth
  have seventh : found[7]? = ((allRecords.drop m).filterMap (selected s fs))[7]? := List.getElem?_take_of_lt (by decide)
  have rest := scanPacks_snd s fs 7 (allRecords.drop m)
  refine ⟨scanPacks_fst .., ?_⟩
  rw [← seventh] at rest
  cases e : found[7]? with
  | none =>
    rw [e] at rest
    have nil : r.2 = [] := rest
    simp [eighth, e, nil]
  | some y =>
    rw [e] at rest
    obtain ⟨pre, hp⟩ := rest
    have after : r.2 = allRecords.drop (y.1.1 + 1) := allRecords_after hp
    have last : (allRecords.drop (y.1.1 + 1)).isEmpty = (y.1.1 == 255) := by
      rw [Bool.eq_iff_iff]
      simp [allRecords]
      omega
    refine ⟨?_, ?_⟩
    · rw [after, head_allRecords_drop]; simp [eighth, e]
    · rw [after, last]; simp [eighth, e]

end Sys2Proof.Machine

theorem listAndCursorWalkTheRegister : Claim.ListAndCursorWalkTheRegister := by
  intro p q s r u
  refine ⟨fun st lot fs hf => ?_, fun st lot hf => ?_, fun i => ?_, fun n hn => ?_⟩
  · intro found eighth next
    obtain ⟨hfound, hnext, hend⟩ := scanPacks_eight u fs (u.port p).cursor.1
    refine read_ok rfl r rfl (by decide) ?_
    simp only [listReply, hf]
    exact congr (congrArg reply (by rw [hnext]; rfl)) (by rw [hfound, hend]; rfl)
  · exact read_refused rfl r rfl (by decide) (by simp only [listReply, hf]) (by decide)
  · exact read_ok rfl r rfl (by decide) (by simp only [cursorReply, index0_val]; rfl)
  · exact read_refused rfl r rfl (by decide)
      (by simp only [cursorReply, index0_none (show 256 ≤ n by omega)]) (by decide)

/-- Settles O17: each read is a reply of the untouched state, and the scan of LIST_PACKS is the first eight selected records
with what follows the eighth. -/
theorem readsChangeNothing : Obligations.ReadsChangeNothing :=
  ⟨readsAnswerAndChangeNothing, listAndCursorWalkTheRegister⟩

end

