-- ==== Sys2Proof/Proofs/Reset.lean ====
section
/-! PROOFS: standing energy, and the laws at reset (chapters 01 and 10). -/

open Sys2Proof Sys2Proof.Machine

namespace Sys2Proof.Machine

theorem Pack.standing_live {p : Pack} (h : p.state.terminal = false) :
    p.standing = p.basis - p.removedSince / Config.mjPerWh := by simp [Pack.standing, h]

theorem Pack.standing_terminal {p : Pack} (h : p.state.terminal = true) : p.standing = 0 := by
  simp [Pack.standing, h]

theorem terminal_iff (st : PackState) : st.terminal = true ↔ st = .shredded ∨ st = .withdrawn := by
  cases st <;> simp [PackState.terminal]

theorem not_terminal_iff (st : PackState) : st.terminal = false ↔ st ≠ .shredded ∧ st ≠ .withdrawn := by
  cases st <;> simp [PackState.terminal]

/-- An admitted pack is RECEIVED or QUARANTINED (R7). -/
theorem admitState_live (t : Treatment) (d : Bool) : (admitState t d).1.terminal = false := by
  unfold admitState
  split
  · rfl
  · split <;> rfl

end Sys2Proof.Machine

/-- Settles O18: the two cases of standing energy, read at each rule that books energy. -/
theorem standingEnergyRule : Obligations.StandingEnergyRule := by
  have live : ∀ st : PackState, st ≠ .shredded → st ≠ .withdrawn → st.terminal = false :=
    fun st h k => (not_terminal_iff st).2 ⟨h, k⟩
  refine ⟨fun p h k => ?_, fun p h => Pack.standing_terminal ((terminal_iff _).2 h), fun s tag j tc d mass nominal cells => ?_,
    fun p r h k => ?_, fun p inc missing resync h k => ?_, fun p => ⟨rfl, rfl⟩⟩
  · rw [Nat.zero_max, Pack.standing_live (live _ h k), Config.mjPerWh]
  · rw [Pack.standing_live (admitState_live ..)]; simp [admitted]
  · rw [Pack.standing_live (p := p.rebased r) (live p.state h k)]; simp [Pack.rebased]
  · rw [Nat.zero_max, Pack.standing_live (p := p.integrate inc missing resync) (live p.state h k)]; rfl

/-! ### The laws at reset -/

namespace Sys2Proof.Machine.State.reset

theorem no_pack (i : Fin 256) : (State.reset.record i).pack = none := by
  simp [State.reset, State.initial, State.record]

theorem bay_initial (n : Fin 8) : State.reset.bay n = Bay.initial := by simp [State.reset, State.initial, State.bay]

theorem zone_normal : ∀ z, (State.reset.zone z).state = .normal := by decide +kernel

theorem sup_initial (o : Output) : State.reset.sup o = Supervision.initial false := by
  cases o <;> simp [State.reset, State.initial, State.sup, Outputs.initial]

theorem lot_free (j : Fin 8) : State.reset.lotAt j = none := by
  simp [State.reset, State.initial, State.lotAt, LotTable.initial]

theorem no_energy (z : Fin 8) : zoneSum State.reset.packs z = 0 := by
  have free : State.reset.packs.toList = List.replicate 256 ⟨0, none⟩ := Vector.toList_replicate
  rw [zoneSum, free, List.map_replicate, List.sum_replicate]
  rfl

theorem permitLaw : PermitLaw State.reset := fun _ => by
  refine ⟨?_, ?_, ?_, ?_, ?_, ?_⟩
  · simp only [InputsTold]; decide +kernel
  all_goals decide +kernel

theorem contactorLaw : ContactorLaw State.reset := fun _ n => by
  rw [sup_initial, bay_initial]; exact ⟨rfl, rfl⟩

theorem releaseLaw : ReleaseLaw State.reset := fun _ => by
  refine ⟨fun z => ?_, by decide +kernel⟩
  rw [sup_initial, zone_normal]; rfl

theorem linksBounded : LinksBounded State.reset :=
  ⟨fun p => by cases p <;> decide, by decide⟩

theorem siteLaw : SiteLaw State.reset := by
  refine ⟨fun i p h => ?_, fun n => ?_, ⟨by decide, fun _ h => (nomatch h), fun i p h => ?_⟩, fun i p _ h => ?_, fun z => ?_⟩
  · rw [no_pack] at h; cases h
  · rw [bay_initial]
    refine ⟨fun _ => rfl, fun h e => (nomatch e), fun i p h => ?_⟩
    rw [no_pack] at h; cases h
  · rw [no_pack] at h; cases h
  · rw [no_pack] at h; cases h
  · rw [no_energy]; simp [State.reset, State.initial]

theorem queueLaw : QueueLaw State.reset := by
  refine ⟨by decide, List.nodup_nil, fun _ h => (nomatch h), fun i p h => ?_⟩
  rw [no_pack] at h; cases h

theorem lotLaw : LotLaw State.reset := fun j => by
  rw [lot_free]
  intro i p h
  rw [no_pack] at h; cases h

theorem curveLaw : CurveLaw State.reset := fun j _ h => by
  simp [State.reset, State.initial, Classification.initial] at h

end Sys2Proof.Machine.State.reset

open Sys2Proof.Machine.State.reset in
/-- Settles O7: at reset no record holds a pack, every bay is EMPTY, every zone NORMAL and every output off. -/
theorem lawsHoldAtReset : Obligations.LawsHoldAtReset :=
  ⟨permitLaw, contactorLaw, releaseLaw, fun _ => by decide, linksBounded, siteLaw, queueLaw, lotLaw, curveLaw⟩

end

