-- ==== Sys2Proof/Proofs/Register.lean ====
section
/-! PROOFS: the requests of the pack register (chapter 01). Each owner's work is first put as one update of the state. -/

namespace Sys2Proof.Machine

/-! ### Frozen moves -/

theorem escalated_iff (st : ZoneState) : st.escalated = true ↔
    st = .preAlarm ∨ st = .alarm ∨ st = .releasePending ∨ st = .released := by
  cases st <;> simp [ZoneState.escalated]

theorem moveFrozen_iff (s : State) (src dst : Option (Fin 8)) : moveFrozen s src dst = true ↔
    (∃ z, src = some z ∧ (s.zone z).state.escalated = true) ∨
      ∃ z, dst = some z ∧ ((s.zone z).state.escalated = true ∨ (s.zone z).state = .isolated) := by
  cases src <;> cases dst <;> simp [moveFrozen]

/-- The zones of a move that is not frozen are not in ALARM (R5). -/
theorem not_alarm_of_not_frozen {s : State} {src dst : Option (Fin 8)} (h : moveFrozen s src dst = false) :
    (∀ z, src = some z → (s.zone z).state ≠ .alarm) ∧ ∀ z, dst = some z → (s.zone z).state ≠ .alarm := by
  have no := mt (moveFrozen_iff s src dst).2 (by simp [h])
  refine ⟨fun z hz e => no (.inl ⟨z, hz, ?_⟩), fun z hz e => no (.inr ⟨z, hz, .inl ?_⟩)⟩ <;> rw [e] <;> rfl

/-! ### A pack into a bay -/

/-- The pack of `p` as it stands LOADED in bay `n` (R8). -/
def Pack.loadedIn (p : Pack) (n : Fin 8) : Pack := { p with state := .loaded, loc := .bay n }

/-- Record, bays, contactor and link after a pack has been placed in bay `n`; its energy is not yet told. -/
theorem placed_eq {h : Handle} {p : Pack} {s : State} (f : s.lookup h = some p) (n : Fin 8) (recheck : Bool) :
    let b := Bay.taken h p.treatment recheck (s.sup (.contactor n)).readback
    occupyBay n h p.treatment recheck (leaveLoc p.loc (transition h.index (p.loadedIn n) s)) =
      { s with
        packs := vset s.packs h.index ⟨h.gen, some (p.loadedIn n)⟩
        inventories := invStored (some p) (p.loadedIn n) s.inventories
        bays := vset (baysLeft p.loc s.bays) n b
        out := s.out.contactorTo n false
        link := { s.link with waiting := queueSetpoint s.link.waiting ⟨n, 0⟩ }
        ports := bayTold n (vget (baysLeft p.loc s.bays) n).state b s.now
          (leftTold p.loc s.bays s.now (packTold [.line] h (p.loadedIn n) s.now s.ports)) } := by
  intro b
  rw [transition_eq, leaveLoc_eq, occupyBay_eq, record_of_lookup f, handle_of_lookup f]
  rfl

theorem placeInBay_settled {h : Handle} {p : Pack} {s : State} {n : Fin 8} {recheck : Bool} (f : s.lookup h = some p)
    (hs : ∀ z, p.zone = some z → (s.zone z).state ≠ .alarm)
    (hd : ∀ z, some (bayZone n) = some z → (s.zone z).state ≠ .alarm) :
    let inv := invStored (some p) (p.loadedIn n) s.inventories
    let b := Bay.taken h p.treatment recheck (s.sup (.contactor n)).readback
    placeInBay h p n recheck s =
      { s with
        packs := vset s.packs h.index ⟨h.gen, some (p.loadedIn n)⟩
        inventories := inv
        bays := vset (baysLeft p.loc s.bays) n b
        fire := { s.fire with zones := tellZone (some (bayZone n)) inv (tellZone p.zone inv s.fire.zones) }
        out := s.out.contactorTo n false
        link := { s.link with waiting := queueSetpoint s.link.waiting ⟨n, 0⟩ }
        ports := bayTold n (vget (baysLeft p.loc s.bays) n).state b s.now
          (leftTold p.loc s.bays s.now (packTold [.line] h (p.loadedIn n) s.now s.ports)) } := by
  intro inv b
  show deliverPlaces p.zone (some (bayZone n)) (occupyBay n h p.treatment recheck
    (leaveLoc p.loc (transition h.index (p.loadedIn n) s))) = _
  rw [placed_eq f n, deliverPlaces_settled]
  · exact fun z hz => settled_of_not_alarm (hs z hz)
  · exact fun z hz => settled_of_not_alarm (hd z hz)

/-- A move that keeps a pack's standing energy debits its old zone and credits its new one (R19). -/
theorem invStored_move {o p : Pack} {inv : Vector Nat 8} (hs : p.standing = o.standing) :
    invStored (some o) p inv = creditZone p.zone o.standing (debitZone o.zone o.standing inv) := by
  simp [invStored, hs]

end Sys2Proof.Machine

open Sys2Proof Sys2Proof.Machine

theorem escalatedZonesFreezeMoves : Claim.EscalatedZonesFreezeMoves := by
  intro s src dst closed
  simp only [moveFrozen_iff, escalated_iff]
  rfl

/-- Settles O21: ASSIGN's checks in order, then the register, the bay left, the bay taken and the two inventories. -/
theorem assignPlacesThePack : Obligations.AssignPlacesThePack := by
  intro q h n s x r g u f able c
  have isAble : assignable u x n = true := by
    rcases able with ⟨hs, hl⟩ | ⟨hs, m, hl, hm, hd⟩
    · simp [assignable, hs, hl]
    · simp [assignable, hs, hl, hm, hd]
  have owner : assignReply h.index.1 h.gen (n.1 + 1) u =
      if (u.bay n).state ≠ .empty then refuse .busy u
      else if moveFrozen u x.zone (some (bayZone n)) then refuse .frozen u
      else reply (placeInBay h x n (x.state == .discharged) u) [] := by
    simp only [assignReply, index1_succ, withPack_found g f, isAble]
    rfl
  have live : x.state.terminal = false := by
    rcases able with ⟨hs, _⟩ | ⟨hs, _⟩ <;> rw [hs] <;> rfl
  refine ⟨fun full => ?_, fun empty frozen => ?_, fun empty free => ?_⟩
  · exact served_refused rfl r rfl rfl (owner.trans (if_pos full)) (by decide)
  · exact served_refused rfl r rfl rfl (owner.trans (by simp [empty, frozen]; rfl)) (by decide)
  · have ok : assignReply h.index.1 h.gen (n.1 + 1) u = reply (placeInBay h x n (x.state == .discharged) u) [] := by
      rw [owner]; simp [empty, free]
    obtain ⟨hsrc, hdst⟩ := not_alarm_of_not_frozen free
    refine ⟨_, served_ok rfl r rfl rfl ok, answers_answered .., ?_⟩
    rw [answered_eq, placeInBay_settled f hsrc hdst]
    have moved : invStored (some x) (x.loadedIn n) u.inventories =
        creditZone (some (bayZone n)) x.standing (debitZone x.zone x.standing u.inventories) :=
      invStored_move (Pack.standing_of_live live rfl rfl rfl)
    refine ⟨?_, energyMoved_of moved rfl, portsQuiet_iff.2 (by simp)⟩
    simp only [(State.lookup_eq_some.1 f).1]
    rfl

/-! ### ADMIT -/

namespace Sys2Proof.Machine

theorem yesNo_of_le {k : Nat} (h : k ≤ 1) : ∃ b, yesNo k = some b := by
  match k, h with
  | 0, _ => exact ⟨_, rfl⟩
  | 1, _ => exact ⟨_, rfl⟩

theorem yesNo_none {k : Nat} (h : ¬k ≤ 1) : yesNo k = none := by
  match k, h with
  | _ + 2, _ => rfl

theorem yesNo_bit (b : Bool) : yesNo (if b then 1 else 0) = some b := by cases b <;> rfl

theorem tagHeld_iff (s : State) (tag : Nat) :
    tagHeld s tag = true ↔ ∃ i x, (s.record i).pack = some x ∧ x.tag = tag := by
  simp only [tagHeld, List.any_eq_true, Vector.mem_toList_iff, Option.any_eq_true, beq_iff_eq]
  constructor
  · rintro ⟨r, hr, x, hx, ht⟩
    obtain ⟨i, hi, rfl⟩ := Vector.mem_iff_getElem.1 hr
    exact ⟨⟨i, hi⟩, x, hx, ht⟩
  · rintro ⟨i, x, hx, ht⟩
    exact ⟨_, Vector.getElem_mem i.2, x, hx, ht⟩

theorem freeRecord_none {s : State} : freeRecord s = none ↔ ∀ i, (s.record i).pack ≠ none := by
  simp [freeRecord, allRecords, Option.isNone_iff_eq_none]

/-- The record ADMIT takes is the lowest that is FREE (R7). -/
theorem freeRecord_eq {s : State} {i : Fin 256} (free : (s.record i).pack = none)
    (lowest : ∀ k, k < i → (s.record k).pack ≠ none) : freeRecord s = some i := by
  rw [freeRecord, List.find?_eq_some_iff_getElem]
  refine ⟨by simp [free], i.1, by simp [allRecords], by simp [allRecords], fun j hj => ?_⟩
  simpa [allRecords, Option.isSome_iff_ne_none] using lowest ⟨j, by omega⟩ hj

/-- ADMIT with its fields in range, check by check (R6). -/
theorem admitReply_inRange {tag tc mass nominal cells dam : Nat} {j : Fin 8} {d : Bool}
    (hr : admitRanges tag tc mass nominal cells = true) (hd : yesNo dam = some d) (u : State) :
    admitReply tag j.1 tc dam mass nominal cells u =
      if lotIn u j .opened = false then refuse .wrongState u
      else if tagHeld u tag then refuse .duplicate u
      else match freeRecord u with
        | none => refuse .full u
        | some i =>
          if (u.zone 0).state ≠ .normal then refuse .frozen u
          else reply (admitAt i (admitted u tag j tc d mass nominal cells) u)
            (wHandle (u.handle i) ++ be 1 (classify u.cls tc).1) := by
  simp only [admitReply, index0_val, hd, hr, Bool.not_true, Bool.false_eq_true, if_false, Bool.not_eq_eq_eq_not]
  rfl

/-- Record, inventory and lot after an admission, Z1 not in ALARM (R7, R19). -/
theorem admitAt_eq {i : Fin 256} {p : Pack} {s : State} {l : Lot} (free : (s.record i).pack = none)
    (used : s.lotAt p.lot = some l) (z1 : p.zone = some 0) (calm : (s.zone 0).state ≠ .alarm) :
    let inv := creditZone (some 0) p.standing s.inventories
    admitAt i p s =
      { s with
        packs := vset s.packs i ⟨(s.record i).gen, some p⟩
        inventories := inv
        lot := { s.lot with
          lots := vset s.lot.lots p.lot
            (some { l with admitted := l.admitted + 1, intakeMass := l.intakeMass + p.mass }) }
        fire := { s.fire with zones := tellZone (some 0) inv s.fire.zones }
        ports := packTold [.line, .custody] (s.handle i) p s.now s.ports } := by
  intro inv
  have credited : invStored (s.record i).pack p s.inventories = inv := by simp [invStored, free, z1, inv]
  unfold admitAt
  rw [noticePack_storePack, credited, z1, deliverPlaces_settled]
  · simp only [State.setLot, State.lotAt] at used ⊢
    rw [used]
    rfl
  · exact fun z hz => nomatch hz
  · intro z hz
    cases hz
    exact settled_of_not_alarm calm

end Sys2Proof.Machine

theorem admitChecksInOrder : Claim.AdmitChecksInOrder := by
  intro q tag lot tc dam mass nominal cells s r u c refused inRange
  have refuses : ∀ {k : Result}, admitReply tag lot tc dam mass nominal cells u = refuse k u → k ≠ .ok → refused k :=
    fun o hk => served_refused rfl r rfl rfl o hk
  refine ⟨fun out => refuses ?_ (by decide), fun inside j hj => ?_⟩
  · by_cases hl : lot < 8
    · by_cases hd : dam ≤ 1
      · obtain ⟨d, hd'⟩ := yesNo_of_le hd
        have ranges : admitRanges tag tc mass nominal cells = false := by
          simp only [admitRanges, decide_eq_false_iff_not]
          intro h
          exact out (by omega)
        simp [admitReply, index0, hl, hd', ranges]
      · simp [admitReply, index0, hl, yesNo_none hd]
    · simp [admitReply, index0_none (Nat.le_of_not_lt hl)]
  · subst hj
    obtain ⟨d, hd⟩ := yesNo_of_le (show dam ≤ 1 by omega)
    have ranges : admitRanges tag tc mass nominal cells = true := by
      simp only [admitRanges, decide_eq_true_eq]; omega
    have owner := admitReply_inRange ranges hd u (j := j)
    refine ⟨fun shut => refuses (owner.trans (if_pos shut)) (by decide), fun isOpen => ⟨fun held => ?_, fun fresh => ?_⟩⟩
    · refine refuses (owner.trans ?_) (by decide)
      simp [isOpen, (tagHeld_iff u tag).2 held]
    · have notHeld : tagHeld u tag = false := by
        rw [Bool.eq_false_iff, Ne, tagHeld_iff]
        rintro ⟨i, x, hx, ht⟩
        exact fresh i x hx ht
      refine ⟨fun allHeld => refuses (owner.trans ?_) (by decide),
        fun ⟨i, hi⟩ busy => refuses (owner.trans ?_) (by decide)⟩
      · simp [isOpen, notHeld, freeRecord_none.2 allHeld]
      · obtain ⟨k, hk⟩ := Option.ne_none_iff_exists'.1 (mt freeRecord_none.1 fun h => h i hi)
        simp [isOpen, notHeld, hk, busy]

theorem admitTakesTheLowestFreeRecord : Claim.AdmitTakesTheLowestFreeRecord := by
  intro q tag j tc d mass nominal cells s i l r ranges u used opened fresh free lowest normal k e x c
  have admits : admitted u tag j tc d mass nominal cells = x := by
    simp only [admitted, admitState, x, e, k]
    cases (vget u.cls.treatments (classify u.cls tc)).refuse <;> cases d <;>
      cases (vget u.cls.treatments (classify u.cls tc)).acceptDamaged <;> rfl
  have owner : admitReply tag j.1 tc (if d then 1 else 0) mass nominal cells u =
      reply (admitAt i x u) (wHandle (u.handle i) ++ be 1 k.1) := by
    have isOpen : lotIn u j .opened = true := by simp [lotIn, used, opened]
    have notHeld : tagHeld u tag = false := by
      rw [Bool.eq_false_iff, Ne, tagHeld_iff]
      rintro ⟨i, x, hx, ht⟩
      exact fresh i x hx ht
    rw [admitReply_inRange ranges (yesNo_bit d)]
    simp [isOpen, notHeld, freeRecord_eq free lowest, normal, admits, k]
  have live : x.state.terminal = false := admits ▸ admitState_live _ d
  have stands : x.standing = nominal := by rw [Pack.standing_live live]; simp [x]
  refine ⟨_, served_ok rfl r rfl rfl owner, answers_answered .., ?_⟩
  rw [answered_eq, admitAt_eq free (p := x) used rfl (by simp [normal]), stands]
  refine ⟨rfl, energyMoved_of rfl rfl, portsQuiet_iff.2 (by simp), ?_⟩
  simp [packTold, Ports.tell, Ports.answer, State.port, x]

/-- Settles O19: the checks of ADMIT in their order, and the one update of a passed admission. -/
theorem admitTakesARecord : Obligations.AdmitTakesARecord := ⟨admitChecksInOrder, admitTakesTheLowestFreeRecord⟩

end

