-- ==== Sys2Proof/Proofs/MoveStart.lean ====
section
/-! PROOFS: MOVE, QUARANTINE and START (chapters 01 and 03). -/

namespace Sys2Proof.Machine

/-! ### MOVE -/

/-- A pack moved out of its place with its energy told, neither zone in ALARM (R9, R19). -/
theorem moveState_settled {h : Handle} {p : Pack} {dest : Loc} {s : State} (f : s.lookup h = some p)
    (hs : ∀ z, p.zone = some z → (s.zone z).state ≠ .alarm)
    (hd : ∀ z, zoneOf dest = some z → (s.zone z).state ≠ .alarm) :
    let inv := invStored (some p) (movedPack p dest) s.inventories
    moveState h p dest s =
      { s with
        packs := vset s.packs h.index ⟨h.gen, some (movedPack p dest)⟩
        inventories := inv
        bays := baysLeft p.loc s.bays
        fire := { s.fire with zones := tellZone (zoneOf dest) inv (tellZone p.zone inv s.fire.zones) }
        ports := leftTold p.loc s.bays s.now (packTold [.line] h (movedPack p dest) s.now s.ports) } := by
  intro inv
  unfold moveState
  rw [noticePack_storePack, leaveLoc_eq, record_of_lookup f, handle_of_lookup f, deliverPlaces_settled]
  · rfl
  · exact fun z hz => settled_of_not_alarm (hs z hz)
  · exact fun z hz => settled_of_not_alarm (hd z hz)

/-! ### QUARANTINE -/

/-- A bay's part of a quarantine: its load stops and its work is cleared (R72). -/
theorem quarantineBay_eq {n : Fin 8} {s : State} (h : (s.bay n).steerable = true) :
    let b := ((s.bay n).unloaded (s.sup (.contactor n))).cleared .done
    quarantineBay n s =
      { s with
        bays := vset s.bays n b
        out := s.out.contactorTo n false
        link := s.link.setpointTo n (s.bay n).setpoint 0
        ports := bayTold n (s.bay n).state b s.now s.ports } := by
  intro b
  unfold quarantineBay
  rw [if_pos h, stopLoad_eq, putBay_eq]
  simp [State.bay, Bay.unloaded, b, State.now]

theorem quarantineBay_idle {n : Fin 8} {s : State} (h : (s.bay n).steerable = false) : quarantineBay n s = s := by
  simp [quarantineBay, h]

theorem quarantinePlace_bay {h : Handle} {p : Pack} {n : Fin 8} {s : State} (hl : p.loc = .bay n) :
    quarantinePlace h p s = quarantineBay n s := by
  simp [quarantinePlace, hl]

theorem quarantinePlace_elsewhere {h : Handle} {p : Pack} {s : State} (hl : ∀ n, p.loc ≠ .bay n) :
    quarantinePlace h p s =
      if p.state = .queued then { s with feed.queue := s.feed.queue.filter (· != h) } else s := by
  cases e : p.loc with
  | bay n => exact absurd e (hl n)
  | _ => simp [quarantinePlace, e]

/-- A counted pack that keeps its place and stays live leaves the inventories as they are (R19). -/
theorem invStored_counted {o p : Pack} {s : State} (c : Counted o s) (ho : o.state.terminal = false)
    (hp : p.state.terminal = false) (hl : p.loc = o.loc) (hb : p.basis = o.basis)
    (hr : p.removedSince = o.removedSince) : invStored (some o) p s.inventories = s.inventories :=
  invStored_same (by simp only [Pack.zone, hl]) (Pack.standing_of_live ho hp hb hr) c

/-- A transition of a counted pack that keeps its place and stays live changes the record and tells its notice (R19, R23). -/
theorem transition_counted {i : Fin 256} {o p : Pack} {s : State} (f : (s.record i).pack = some o) (c : Counted o s)
    (ho : o.state.terminal = false) (hp : p.state.terminal = false) (hl : p.loc = o.loc) (hb : p.basis = o.basis)
    (hr : p.removedSince = o.removedSince) : transition i p s =
      { s with
        packs := vset s.packs i ⟨(s.record i).gen, some p⟩
        ports := packTold p.state.noticePorts (s.handle i) p s.now s.ports } := by
  rw [transition_eq, f, invStored_counted c ho hp hl hb hr]

/-- A pack QUARANTINED with a cause where it is (R10). -/
def Pack.quarantinedBy (p : Pack) (cause : QuarantineCause) : Pack :=
  { p with state := .quarantined, cause := some cause }

/-- A counted live pack is quarantined: its record and its notice, no inventory (R10, R19, R23). -/
theorem quarantinePack_counted {i : Fin 256} {p : Pack} {s : State} (f : (s.record i).pack = some p)
    (q : p.state ≠ .quarantined) (live : p.state.terminal = false) (c : Counted p s) (cause : QuarantineCause) :
    quarantinePack i cause s =
      { s with
        packs := vset s.packs i ⟨(s.record i).gen, some (p.quarantinedBy cause)⟩
        ports := packTold [.line, .custody] (s.handle i) (p.quarantinedBy cause) s.now s.ports } :=
  (quarantinePack_eq f q cause).trans (transition_counted f c live rfl rfl rfl rfl)

/-! ### START -/

/-- A bay resting its pack before the recheck (R56). -/
def Bay.resting (b : Bay) (ms : Nat) : Bay := { b with state := .resting, rest := some ms, deferred := false }

/-- START's recheck path on a counted live occupant (R56). -/
theorem startRecheck_eq {n : Fin 8} {i : Fin 256} {p : Pack} {s : State} (occ : s.occupantPack n = some (i, p))
    (live : p.state.terminal = false) (c : Counted p s) :
    let b := (s.bay n).resting (p.treatment.rest * 1000)
    let y : Pack := { p with state := .resting }
    startRecheck n s =
      { s with
        packs := vset s.packs i ⟨(s.record i).gen, some y⟩
        bays := vset s.bays n b
        ports := bayTold n (s.bay n).state b s.now (packTold [.line] (s.handle i) y s.now s.ports) } := by
  intro b y
  obtain ⟨hocc, f⟩ := occupantPack_eq_some.1 occ
  have stored : onOccupant n (fun p => { p with state := .resting }) s = _ :=
    (onOccupant_eq occ).trans (transition_counted (p := y) f c live rfl rfl rfl rfl)
  have rests : restMs n (onOccupant n (fun p => { p with state := .resting }) s) = p.treatment.rest * 1000 := by
    have still : State.occupantPack (onOccupant n (fun p => { p with state := .resting }) s) n = some (i, y) := by
      rw [stored, occupantPack_eq_some]
      exact ⟨hocc.trans (by simp [State.handle, State.record]), by simp [State.record]⟩
    rw [restMs, still]
    rfl
  unfold startRecheck
  rw [putBay_eq, rests, stored]
  rfl

/-- START's discharge path on a counted live occupant (R57). -/
theorem startDischarge_eq {n : Fin 8} {i : Fin 256} {p : Pack} {s : State} (occ : s.occupantPack n = some (i, p))
    (live : p.state.terminal = false) (c : Counted p s) :
    let b := (s.bay n).started 0
    let y : Pack := { p with state := .discharging }
    startDischarge n s =
      { s with
        packs := vset s.packs i ⟨(s.record i).gen, some y⟩
        bays := vset s.bays n b
        out := s.out.contactorTo n true
        link := s.link.setpointTo n (s.bay n).setpoint (s.bay n).activeSlot.current
        ports := bayTold n (s.bay n).state b s.now (packTold [.line] (s.handle i) y s.now s.ports) } := by
  intro b y
  obtain ⟨_, f⟩ := occupantPack_eq_some.1 occ
  have stored : onOccupant n (fun p => { p with state := .discharging }) s = _ :=
    (onOccupant_eq occ).trans (transition_counted (p := y) f c live rfl rfl rfl rfl)
  unfold startDischarge
  rw [stored, enterDischarging_eq]
  rfl

/-- A started bay's checks (R56). -/
theorem startReply_eq (n : Fin 8) (u : State) : startReply (n.1 + 1) u =
    if (u.bay n).state ≠ .loaded then refuse .wrongState u
    else if (u.zone (bayZone n)).state ≠ .normal then refuse .frozen u
    else if (u.bay n).fresh u.clock = false then refuse .notPermitted u
    else reply (if (u.bay n).recheck then startRecheck n u else startDischarge n u) [] := by
  simp only [startReply, withBay, index1_succ, bayReady, Bool.not_eq_true']

end Sys2Proof.Machine

open Sys2Proof Sys2Proof.Machine

theorem moveChangesThePlace : Claim.MoveChangesThePlace := by
  intro q h s x d k r g dest u f c
  have hk : moveDest k = some d := by rcases dest with ⟨rfl, rfl⟩ | ⟨rfl, rfl⟩ <;> rfl
  have owner : moveReply h.index.1 h.gen k u =
      if x.loc = d then reply u []
      else if !movable x d || !bayLetsGo u x.loc then refuse .wrongState u
      else if moveFrozen u x.zone (zoneOf d) then refuse .frozen u
      else reply (moveState h x d u) [] := by
    simp only [moveReply, hk, withPack_found g f]
  refine ⟨fun there => served_ok rfl r rfl rfl (owner.trans (if_pos there)), fun kinds lets free => ?_⟩
  have away : x.loc ≠ d := by
    rcases kinds with ⟨_, rfl, n, hl⟩ | ⟨_, rfl, ⟨n, hl⟩ | hl | hl⟩ <;> rw [hl] <;> exact nofun
  have isMovable : movable x d = true := by
    rcases kinds with ⟨hs, rfl, n, hl⟩ | ⟨hs, rfl, ⟨n, hl⟩ | hl | hl⟩ <;> simp [movable, hs, hl]
  have letsGo : bayLetsGo u x.loc = true := by
    cases hl : x.loc with
    | bay n => simpa [bayLetsGo] using lets n hl
    | _ => rfl
  have ok : moveReply h.index.1 h.gen k u = reply (moveState h x d u) [] := by
    rw [owner]; simp [away, isMovable, letsGo, free]
  obtain ⟨hsrc, hdst⟩ := not_alarm_of_not_frozen free
  have after : movedPack x d = { x with loc := d, state := if d = .intake then .received else .quarantined } := by
    rcases kinds with ⟨hs, rfl, _⟩ | ⟨hs, rfl, _⟩ <;> simp [movedPack, hs]
  have live : x.state.terminal = false := by
    rcases kinds with ⟨hs, _⟩ | ⟨hs, _⟩ <;> rw [hs] <;> rfl
  have live' : (movedPack x d).state.terminal = false := by
    rw [after]; split <;> rfl
  have moved : invStored (some x) (movedPack x d) u.inventories =
      creditZone (zoneOf d) x.standing (debitZone x.zone x.standing u.inventories) :=
    invStored_move (Pack.standing_of_live live live' rfl rfl)
  refine ⟨_, served_ok rfl r rfl rfl ok, answers_answered .., ?_⟩
  rw [answered_eq, moveState_settled f hsrc hdst]
  exact ⟨by simp only [after], energyMoved_of moved rfl, portsQuiet_iff.2 (by simp)⟩

theorem quarantineStopsThePack : Claim.QuarantineStopsThePack := by
  intro q h s x r g u f c
  have owner : quarantineReply h.index.1 h.gen u =
      match x.state with
      | .feeding | .shredded | .withdrawn => refuse .wrongState u
      | .quarantined => reply u []
      | _ => reply (quarantinePlace h x (quarantinePack h.index .operator u)) [] := withPack_found g f _
  refine ⟨fun hs => ?_, fun hs => ?_, fun notQ notF live counted => ?_⟩
  · exact served_ok rfl r rfl rfl (by rw [owner, hs])
  · exact served_refused rfl r rfl rfl (by rcases hs with hs | hs | hs <;> rw [owner, hs]) (by decide)
  · have ok : quarantineReply h.index.1 h.gen u =
        reply (quarantinePlace h x (quarantinePack h.index .operator u)) [] := by
      rw [owner]
      cases hs : x.state <;> simp_all [PackState.terminal]
    refine ⟨_, served_ok rfl r rfl rfl ok, answers_answered .., ?_⟩
    rw [answered_eq, quarantinePack_counted (by rw [record_of_lookup f]) notQ live counted, record_of_lookup f]
    by_cases inBay : ∃ n, x.loc = .bay n
    · obtain ⟨n, hl⟩ := inBay
      have isBay : ∀ m, x.loc = .bay m → m = n := fun m hm => by rw [hl] at hm; cases hm; rfl
      rw [quarantinePlace_bay hl]
      cases hst : (u.bay n).steerable with
      | false =>
        rw [quarantineBay_idle]
        · refine ⟨portsQuiet_iff.2 (by simp), rfl, ?_, fun hb => absurd hl (hb n)⟩
          intro m hm
          cases isBay m hm
          exact ⟨rfl, fun _ => ⟨rfl, rfl, rfl⟩, fun hs => by simp [hst] at hs⟩
        · exact hst
      | true =>
        rw [quarantineBay_eq]
        · refine ⟨portsQuiet_iff.2 (by simp), rfl, ?_, fun hb => absurd hl (hb n)⟩
          intro m hm
          cases isBay m hm
          exact ⟨rfl, fun hs => by simp [hst] at hs, fun _ => ⟨rfl, rfl, rfl⟩⟩
        · exact hst
    · have noBay : ∀ n, x.loc ≠ .bay n := fun n hn => inBay ⟨n, hn⟩
      rw [quarantinePlace_elsewhere noBay]
      split <;>
        exact ⟨portsQuiet_iff.2 (by simp), rfl, fun n hn => absurd hn (noBay n), fun _ => ⟨rfl, rfl, rfl, by simp [*]⟩⟩

/-- Settles O22: the checks of MOVE and QUARANTINE, then the record, the bay left or stopped, and the queue. -/
theorem moveAndQuarantine : Obligations.MoveAndQuarantine := ⟨moveChangesThePlace, quarantineStopsThePack⟩

theorem startChecksInOrder : Claim.StartChecksInOrder := by
  intro q bay s r u c refused
  refine ⟨fun out => ?_, ?_⟩
  · exact served_refused rfl r rfl rfl (by simp only [startReply, withBay, index1_none out]) (by decide)
  · rintro n rfl
    have refuses : ∀ {k : Result}, startReply (n.1 + 1) u = refuse k u → k ≠ .ok → refused k :=
      fun o hk => served_refused rfl r rfl rfl o hk
    have owner := startReply_eq n u
    refine ⟨fun idle => refuses (owner.trans (if_pos idle)) (by decide), fun loaded => ⟨fun zone => ?_, fun zone stale => ?_⟩⟩
    · exact refuses (owner.trans (by simp [loaded, zone])) (by decide)
    · exact refuses (owner.trans (by simp [loaded, zone, stale])) (by decide)

theorem startRestsOrDischarges : Claim.StartRestsOrDischarges := by
  intro q n s i x r u b loaded zone fresh occ live counted c
  obtain ⟨_, f⟩ := occupantPack_eq_some.1 occ
  have ok : ∀ v, (if b.recheck then startRecheck n u else startDischarge n u) = v →
      exec c s = .next (answered .line c .ok [] v) := fun v hv =>
    served_ok rfl r rfl rfl ((startReply_eq n u).trans (by simp only [b] at *; simp [loaded, zone, fresh, hv]))
  refine ⟨fun again => ?_, fun first => ?_⟩
  · refine ⟨_, ok (startRecheck n u) (if_pos again), answers_answered .., ?_⟩
    rw [answered_eq, startRecheck_eq occ live counted]
    exact ⟨portsQuiet_iff.2 (by simp), rfl⟩
  · refine ⟨_, ok (startDischarge n u) (if_neg (by simp [first])), answers_answered .., ?_⟩
    rw [answered_eq, startDischarge_eq occ live counted]
    exact ⟨portsQuiet_iff.2 (by simp), rfl⟩

/-- Settles O23: the checks of START, then the occupant's transition and the bay at rest or under load. -/
theorem startBeginsTheBay : Obligations.StartBeginsTheBay := ⟨startChecksInOrder, startRestsOrDischarges⟩

end

