-- ==== Sys2Proof/Proofs/Site.lean ====
section
/-! PROOFS, layer 3. What the laws of the register read of the state (`State.site`), and the operations that leave it alone.
An operation that keeps the site keeps every law that is read off it. -/

namespace Sys2Proof.Machine

/-! ### The site -/

/-- What the laws of the register read: records, inventories, for each occupied bay its occupant and whether it is EMPTY, the
lock's occupant and whether it is EMPTY or BLOCKED, and each lot's state and counts. -/
structure Site where
  packs : Vector Rec 256
  inventories : Vector Nat 8
  bays : Vector (Option (Handle × Bool)) 8
  lock : Option Handle × Bool × Bool
  lots : Vector (Option (LotState × Nat × Nat × Nat)) 8

def Bay.kind (b : Bay) : Option (Handle × Bool) := b.occupant.map (·, b.state == .empty)

def Lock.kind (l : Lock) : Option Handle × Bool × Bool := (l.occupant, l.state == .empty, l.state == .blocked)

def Lot.ledger (l : Lot) : LotState × Nat × Nat × Nat := (l.state, l.admitted, l.shredded, l.withdrawn)

def State.site (s : State) : Site :=
  ⟨s.packs, s.inventories, vmap (·.kind) s.bays, s.feed.lock.kind, vmap (·.map (·.ledger)) s.lot.lots⟩

theorem vmap_vset_same {α β : Type} {n : Nat} {f : α → β} {v : Vector α n} {i : Fin n} {x : α}
    (h : f x = f (vget v i)) : vmap f (vset v i x) = vmap f v := by
  refine vext fun j => ?_
  simp only [vget_vmap, vget_vset]
  split
  case isTrue e => rw [e, h]
  case isFalse => rfl

/-- A bay that stays occupied as it was, and off EMPTY, is of the same kind. -/
theorem Bay.kind_eq {b c : Bay} (ho : b.occupant = c.occupant) (hb : b.state ≠ .empty)
    (hc : c.state = .empty → c.occupant = none) : b.kind = c.kind := by
  unfold Bay.kind
  rw [ho]
  cases e : c.occupant with
  | none => rfl
  | some h =>
    have filled : c.state ≠ .empty := fun k => by simp [hc k] at e
    simp [hb, filled]

/-- A lot whose state and counts are as they were leaves the site as it was. -/
theorem site_setLot {j : Fin 8} {l : Option Lot} {s : State} (h : l.map (·.ledger) = (s.lotAt j).map (·.ledger)) :
    (s.setLot j l).site = s.site := by
  simp only [State.site, State.setLot]
  rw [vmap_vset_same h]

theorem site_setBay {n : Fin 8} {b : Bay} {s : State} (h : b.kind = (s.bay n).kind) : (s.setBay n b).site = s.site := by
  simp only [State.site, State.setBay]
  rw [vmap_vset_same h]

/-! ### Notices, outputs, ports -/

@[simp] theorem site_notify (ps : List Port) (w : NoticeBody) (s : State) : (notify ps w s).site = s.site := by
  rw [notify_eq]; rfl

@[simp] theorem site_setSup (s : State) (o : Output) (v : Supervision) : (s.setSup o v).site = s.site := by
  cases o <;> rfl

@[simp] theorem site_command (o : Output) (on : Bool) (s : State) : (command o on s).site = s.site := by simp [command]

@[simp] theorem site_setPort (s : State) (p : Port) (c : PortCtx) : (s.setPort p c).site = s.site := by cases p <;> rfl
@[simp] theorem site_setZone (s : State) (z : Fin 8) (q : Zone) : (s.setZone z q).site = s.site := rfl
@[simp] theorem site_setDetector (s : State) (d : Fin 24) (x : Detector) : (s.setDetector d x).site = s.site := rfl

/-! ### Incidents, the lock and the permit -/

@[simp] theorem site_relight (s : State) : (relight s).site = s.site := rfl

@[simp] theorem site_postRaw (p : Posting) (s : State) : (postRaw p s).site = s.site := by
  unfold postRaw
  dsimp only
  split
  · rfl
  · simp only [site_notify, site_relight]; rfl

theorem site_setLock {l : Lock} {s : State} (h : l.kind = s.feed.lock.kind) : (setLock l s).site = s.site := by
  have kept : ({ s with feed.lock := l } : State).site = s.site := by simp only [State.site, h]
  unfold setLock
  dsimp only
  split <;> simp [kept]

/-- A lock that is neither EMPTY nor BLOCKED stays of the same kind in another such state. -/
theorem Lock.kind_moved {l k : Lock} (ho : k.occupant = l.occupant) (hl : l.state ≠ .empty ∧ l.state ≠ .blocked)
    (hk : k.state ≠ .empty ∧ k.state ≠ .blocked) : k.kind = l.kind := by
  simp [Lock.kind, ho, hl.1, hl.2, hk.1, hk.2]

theorem Lock.moving_of_movesByPermit {l : Lock} (h : l.movesByPermit = true) :
    l.state ≠ .empty ∧ l.state ≠ .blocked := by
  refine ⟨fun e => ?_, fun e => ?_⟩ <;> simp [Lock.movesByPermit, e] at h

theorem Lock.moving_of_movesBack {l : Lock} (h : l.movesBack = true) : l.state ≠ .empty ∧ l.state ≠ .blocked := by
  refine ⟨fun e => ?_, fun e => ?_⟩ <;> simp [Lock.movesBack, e] at h

theorem site_holdLock (c : Nat) {s : State} (h : s.feed.lock.state ≠ .empty ∧ s.feed.lock.state ≠ .blocked) :
    (holdLock c s).site = s.site := by
  simp only [holdLock, site_postRaw]
  exact site_setLock (Lock.kind_moved rfl h (by simp))

@[simp] theorem site_resumeLock (s : State) : (resumeLock s).site = s.site := by
  unfold resumeLock
  dsimp only
  split
  · rfl
  · rename_i held
    have moving : s.feed.lock.state ≠ .empty ∧ s.feed.lock.state ≠ .blocked := by
      rw [not_not.1 held]; decide
    repeat' split
    all_goals first | rfl | exact site_setLock (Lock.kind_moved rfl moving (by simp))

@[simp] theorem site_evalPermit (s : State) : (evalPermit s).site = s.site := by
  unfold evalPermit
  dsimp only
  rw [site_resumeLock]
  split
  · rfl
  · split
    case isTrue h =>
      rw [site_holdLock _ (Lock.moving_of_movesByPermit (Bool.and_eq_true_iff.1 h).2)]
      simp only [site_notify, site_command]; rfl
    case isFalse => simp only [site_notify, site_command]; rfl

@[simp] theorem site_deliverBanks (s : State) : (deliverBanks s).site = s.site := by
  unfold deliverBanks
  dsimp only
  split
  · rfl
  · rw [site_evalPermit]; rfl

@[simp] theorem site_post (p : Posting) (s : State) : (post p s).site = s.site := by simp [post]

@[simp] theorem site_deliverInert (s : State) : (deliverInert s).site = s.site := by
  unfold deliverInert; rw [site_evalPermit]; rfl

@[simp] theorem site_deliverShred (s : State) : (deliverShred s).site = s.site := by
  unfold deliverShred
  dsimp only
  split
  · rfl
  · rw [site_evalPermit]; rfl

@[simp] theorem site_deliverFirePort (s : State) : (deliverFirePort s).site = s.site := by
  unfold deliverFirePort; rw [site_evalPermit]; rfl

@[simp] theorem site_deliverFeedZone (z : Fin 8) (st : ZoneState) (s : State) :
    (deliverFeedZone z st s).site = s.site := by
  have held : ∀ t : State, (if t.feed.lock.movesBack ∧ st ≠ .normal then holdLock 3 t else t).site = t.site := by
    intro t
    split
    case isTrue h => exact site_holdLock _ (Lock.moving_of_movesBack h.1)
    case isFalse => rfl
  unfold deliverFeedZone
  dsimp only
  rw [site_evalPermit, held]
  split <;> rfl

/-! ### Bays -/

/-- A bay's part of the law: an EMPTY bay has no occupant (R47). -/
def Filled (n : Fin 8) (s : State) : Prop := (s.bay n).state = .empty → (s.bay n).occupant = none

theorem site_of_vset_bays {n : Fin 8} {b : Bay} {s t : State} (hb : t.bays = vset s.bays n b)
    (hk : b.kind = (s.bay n).kind) (hp : t.packs = s.packs) (hi : t.inventories = s.inventories)
    (hl : t.feed.lock = s.feed.lock) (hj : t.lot.lots = s.lot.lots) : t.site = s.site := by
  simp only [State.site, hb, hp, hi, hl, hj]
  rw [vmap_vset_same hk]

theorem site_putBay {n : Fin 8} {b : Bay} {s : State} (h : b.kind = (s.bay n).kind) : (putBay n b s).site = s.site := by
  rw [putBay_eq]
  exact site_of_vset_bays rfl h rfl rfl rfl rfl

@[simp] theorem site_commandContactor (n : Fin 8) (on : Bool) (s : State) :
    (commandContactor n on s).site = s.site := by
  cases on
  · rw [commandContactor_off]
    refine site_of_vset_bays (n := n) rfl ?_ rfl rfl rfl rfl
    rfl
  · rw [commandContactor_on]
    rfl

@[simp] theorem site_sendLoadSet (n : Fin 8) (s : State) : (sendLoadSet n s).site = s.site := rfl

@[simp] theorem site_setSetpoint (n : Fin 8) (ma : Nat) (s : State) : (setSetpoint n ma s).site = s.site := by
  rw [setSetpoint_eq]
  refine site_of_vset_bays (n := n) rfl ?_ rfl rfl rfl rfl
  rfl

@[simp] theorem site_stopLoad (n : Fin 8) (s : State) : (stopLoad n s).site = s.site := by
  rw [stopLoad_eq]
  refine site_of_vset_bays (n := n) rfl ?_ rfl rfl rfl rfl
  rfl

theorem site_enterDischarging {n : Fin 8} {s : State} (h : Filled n s) (ms : Nat) :
    (enterDischarging n ms s).site = s.site := by
  rw [enterDischarging_eq]
  refine site_of_vset_bays rfl ?_ rfl rfl rfl rfl
  exact Bay.kind_eq rfl (by simp [Bay.started]) h

theorem site_pauseBay {n : Fin 8} {s : State} (h : Filled n s) (c : PauseCause) : (pauseBay n c s).site = s.site := by
  rw [pauseBay_eq]
  refine site_of_vset_bays rfl ?_ rfl rfl rfl rfl
  exact Bay.kind_eq rfl (by simp [Bay.pausedBy]) h

theorem site_faultBay {n : Fin 8} {s : State} (h : Filled n s) (c : FaultCause) : (faultBay n c s).site = s.site := by
  rw [faultBay_eq]
  refine site_of_vset_bays rfl ?_ rfl rfl rfl rfl
  exact Bay.kind_eq rfl (by simp [Bay.faultedBy, Bay.cleared]) h

@[simp] theorem site_followSlot (n : Fin 8) (s : State) : (followSlot n s).site = s.site := by
  unfold followSlot
  dsimp only
  rw [site_setSetpoint]
  refine site_setBay ?_
  repeat' split
  all_goals rfl

@[simp] theorem site_takeBoundary (n : Fin 8) (s : State) : (takeBoundary n s).site = s.site := by
  unfold takeBoundary
  rw [site_followSlot]
  refine site_setBay ?_
  unfold Bay.swapSlot
  split <;> rfl

/-! ### Inert state, shred lot, zones' notices -/

@[simp] theorem site_noticeZone (z : Fin 8) (s : State) : (noticeZone z s).site = s.site := by simp [noticeZone]
@[simp] theorem site_commandPurge (s : State) : (commandPurge s).site = s.site := by simp [commandPurge]
@[simp] theorem site_deliverPurge (b : Bool) (s : State) : (deliverPurge b s).site = s.site := by
  simp only [deliverPurge, site_commandPurge]; rfl

@[simp] theorem site_setInert (st : InertState) (s : State) : (setInert st s).site = s.site := by
  simp only [setInert, site_commandPurge]; rfl
@[simp] theorem site_noticeInert (s : State) : (noticeInert s).site = s.site := by simp [noticeInert]
@[simp] theorem site_changeInert (st : InertState) (s : State) : (changeInert st s).site = s.site := by
  unfold changeInert
  dsimp only
  rw [site_noticeInert, site_deliverInert]
  split <;> simp
@[simp] theorem site_evalInert (s : State) : (evalInert s).site = s.site := by
  unfold evalInert
  split <;> simp
@[simp] theorem site_checkPurgeTimeout (s : State) : (checkPurgeTimeout s).site = s.site := by
  unfold checkPurgeTimeout
  split
  · rfl
  · split
    · rw [site_post]; rfl
    · rfl

@[simp] theorem site_noticeLot (j : Fin 8) (st : Option LotState) (k : Nat)
    (c : Option (Option Balance × Option Nat × Bool)) (s : State) : (noticeLot j st k c s).site = s.site := by
  simp [noticeLot]
@[simp] theorem site_setShred (a : Option (Fin 8)) (w : Option Switch) (s : State) : (setShred a w s).site = s.site := by
  unfold setShred
  split
  · rfl
  · simp only [site_notify, site_deliverShred]; rfl

@[simp] theorem site_noticePack (ps : List Port) (i : Fin 256) (s : State) : (noticePack ps i s).site = s.site := by
  unfold noticePack
  split <;> simp

@[simp] theorem site_feedUncertain (d : Nat) (h : Handle) (p : Pack) (s : State) :
    (feedUncertain d h p s).site = s.site := by
  simp only [feedUncertain, site_postRaw]
  refine site_setLot ?_
  cases s.lotAt p.lot <;> rfl

end Sys2Proof.Machine
end

