-- ==== Sys2Proof/Proofs/Laws.lean ====
section
/-! PROOFS, layer 4. The law of the site and the count law of the lots under one written record. `Stores` says what a
composite operation of the register has done once its bay, its lock and its record agree again. -/

namespace Sys2Proof.Machine

/-! ### Sums and counts over the register -/

/-- A sum over a fixed table is the sum over its places. -/
theorem sum_toList {α : Type} {n : Nat} (f : α → Nat) (v : Vector α n) :
    (v.toList.map f).sum = ∑ i, f (vget v i) := by
  have ofFn : v.toList.map f = List.ofFn fun i => f (vget v i) := by
    refine List.ext_getElem (by simp) fun k h1 h2 => ?_
    simp [vget]
  rw [ofFn, List.sum_ofFn]

/-- A count over a fixed table is a sum of zeros and ones. -/
theorem countP_toList {α : Type} {n : Nat} (f : α → Bool) (v : Vector α n) :
    v.toList.countP f = ∑ i, (f (vget v i)).toNat := by
  rw [← sum_toList fun a => (f a).toNat]
  induction v.toList with
  | nil => rfl
  | cons a l ih => rw [List.countP_cons, ih, List.map_cons, List.sum_cons]; cases f a <;> simp [Nat.add_comm]

/-- Writing one place of a table moves a sum by that place's share. -/
theorem sum_vset {α : Type} {n : Nat} (f : α → Nat) (v : Vector α n) (i : Fin n) (x : α) :
    (∑ j, f (vget (vset v i x) j)) + f (vget v i) = (∑ j, f (vget v j)) + f x := by
  rw [← Finset.add_sum_erase _ _ (Finset.mem_univ i), ← Finset.add_sum_erase _ (fun j => f (vget v j)) (Finset.mem_univ i)]
  have rest : ∑ j ∈ Finset.univ.erase i, f (vget (vset v i x) j) = ∑ j ∈ Finset.univ.erase i, f (vget v j) :=
    Finset.sum_congr rfl fun j hj => by rw [vget_vset_other _ (Finset.ne_of_mem_erase hj)]
  rw [rest, vget_vset_same]
  omega

theorem le_sum_place {α : Type} {n : Nat} (f : α → Nat) (v : Vector α n) (i : Fin n) :
    f (vget v i) ≤ ∑ j, f (vget v j) :=
  Finset.single_le_sum (f := fun j => f (vget v j)) (fun _ _ => Nat.zero_le _) (Finset.mem_univ i)

theorem zoneSum_eq (packs : Vector Rec 256) (z : Fin 8) : zoneSum packs z = ∑ i, (vget packs i).energyIn z := sum_toList ..

/-- A pack counts in its zone's sum (R19). -/
theorem energyIn_le_zoneSum (packs : Vector Rec 256) (i : Fin 256) (z : Fin 8) :
    (vget packs i).energyIn z ≤ zoneSum packs z := by
  rw [zoneSum_eq]
  exact le_sum_place (fun r => r.energyIn z) packs i

theorem vget_debitZone (z : Option (Fin 8)) (wh : Nat) (inv : Vector Nat 8) (y : Fin 8) :
    vget (debitZone z wh inv) y = vget inv y - if z = some y then wh else 0 := by
  cases z with
  | none => simp [debitZone]
  | some z =>
    rw [debitZone, vget_vset]
    by_cases h : y = z <;> simp [h, Ne.symm, eq_comm]

theorem vget_creditZone (z : Option (Fin 8)) (wh : Nat) (inv : Vector Nat 8) (y : Fin 8) :
    vget (creditZone z wh inv) y = vget inv y + if z = some y then wh else 0 := by
  cases z with
  | none => simp [creditZone]
  | some z =>
    rw [creditZone, vget_vset]
    by_cases h : y = z <;> simp [h, Ne.symm, eq_comm]

theorem energyIn_some (g : Nat) (p : Pack) (z : Fin 8) :
    (Rec.mk g (some p)).energyIn z = if p.zone = some z then p.standing else 0 := rfl

theorem energyIn_none (g : Nat) (z : Fin 8) : (Rec.mk g none).energyIn z = 0 := rfl

/-- The inventories follow a written record (R19). -/
theorem inventoryLaw_stored {s t : State} {i : Fin 256} {p : Pack} (law : InventoryLaw s)
    (hp : t.packs = vset s.packs i ⟨(s.record i).gen, some p⟩)
    (hi : t.inventories = invStored (s.record i).pack p s.inventories) : InventoryLaw t := by
  intro z
  have moved := sum_vset (fun r => r.energyIn z) s.packs i ⟨(s.record i).gen, some p⟩
  have share := energyIn_le_zoneSum s.packs i z
  rw [← zoneSum_eq, ← zoneSum_eq, ← hp] at moved
  have was : (vget s.packs i).energyIn z = match (s.record i).pack with
      | none => 0
      | some o => if o.zone = some z then o.standing else 0 := by
    show (s.record i).energyIn z = _
    cases e : s.record i with
    | mk g o => cases o <;> rfl
  rw [energyIn_some] at moved
  have inv := law z
  cases e : (s.record i).pack with
  | none => simp only [hi, e, invStored, vget_creditZone] at was ⊢; omega
  | some o => simp only [hi, e, invStored, vget_creditZone, vget_debitZone] at was ⊢; omega

/-! ### The law of the site, clause by clause -/

/-- The places that hold one pack at most: the bays and the lock (R4). -/
def Loc.single : Loc → Bool
  | .bay _ | .feedLock => true
  | _ => false

/-- The handle a bay or the lock holds. -/
def State.holds (s : State) : Loc → Option Handle
  | .bay n => (s.bay n).occupant
  | .feedLock => s.feed.lock.occupant
  | _ => none

/-- The state the lock requires of its pack (R117). -/
def Lock.packState (l : Lock) : PackState := if l.state = .blocked then .quarantined else .feeding

/-- The clauses of the law of the site, bays and lock in one. -/
structure SiteClauses (s : State) : Prop where
  placed : ∀ i p, (s.record i).pack = some p → p.placed = true
  held : ∀ l h, s.holds l = some h → ∃ p, s.lookup h = some p ∧ p.loc = l
  holder : ∀ i p, (s.record i).pack = some p → p.loc.single = true → s.holds p.loc = some (s.handle i)
  filled : ∀ n, Filled n s
  lockEmpty : s.feed.lock.occupant = none ↔ s.feed.lock.state = .empty
  lockPack : ∀ i p, (s.record i).pack = some p → p.loc = .feedLock → p.state = s.feed.lock.packState
  closed : ClosedLaw s
  inventory : InventoryLaw s

theorem siteLaw_iff (s : State) : SiteLaw s ↔ SiteClauses s := by
  constructor
  · rintro ⟨placed, bays, ⟨lockEmpty, lockHeld, lockHolder⟩, closed, inventory⟩
    refine ⟨placed, fun l h e => ?_, fun i p hp hs => ?_, fun n => (bays n).1, lockEmpty, fun i p hp hl => ?_, closed,
      inventory⟩
    · cases l with
      | bay n => exact (bays n).2.1 h e
      | feedLock => obtain ⟨p, hp, hl, _⟩ := lockHeld h e; exact ⟨p, hp, hl⟩
      | _ => exact nomatch e
    · cases hl : p.loc with
      | bay n => exact (bays n).2.2 i p hp hl
      | feedLock => exact lockHolder i p hp hl
      | _ => simp [hl, Loc.single] at hs
    · obtain ⟨q, hq, _, hst⟩ := lockHeld _ (lockHolder i p hp hl)
      rw [State.lookup_handle, hp] at hq
      cases hq
      exact hst
  · intro c
    refine ⟨c.placed, fun n => ⟨c.filled n, fun h e => c.held (.bay n) h e, fun i p hp hl => ?_⟩,
      ⟨c.lockEmpty, fun h e => ?_, fun i p hp hl => ?_⟩, c.closed, c.inventory⟩
    · have := c.holder i p hp (by rw [hl]; rfl)
      rwa [hl] at this
    · obtain ⟨p, hp, hl⟩ := c.held .feedLock h e
      exact ⟨p, hp, hl, c.lockPack _ p (State.lookup_eq_some.1 hp).2 hl⟩
    · have := c.holder i p hp (by rw [hl]; rfl)
      rwa [hl] at this

/-! ### Laws read off the site -/

theorem record_of_site {s t : State} (h : t.site = s.site) (i : Fin 256) : t.record i = s.record i :=
  congrArg (fun σ : Site => vget σ.packs i) h

theorem kind_of_site {s t : State} (h : t.site = s.site) (n : Fin 8) : (t.bay n).kind = (s.bay n).kind := by
  simpa [State.site, State.bay] using congrArg (fun σ : Site => vget σ.bays n) h

theorem ledger_of_site {s t : State} (h : t.site = s.site) (j : Fin 8) :
    (t.lotAt j).map (·.ledger) = (s.lotAt j).map (·.ledger) := by
  simpa [State.site, State.lotAt] using congrArg (fun σ : Site => vget σ.lots j) h

theorem Bay.occupant_of_kind {b c : Bay} (h : b.kind = c.kind) : b.occupant = c.occupant := by
  simpa [Bay.kind, Function.comp_def] using congrArg (Option.map Prod.fst) h

/-- A bay is filled when its kind is not that of an occupied EMPTY bay. -/
theorem filled_iff (n : Fin 8) (s : State) : Filled n s ↔ ∀ h, (s.bay n).kind ≠ some (h, true) := by
  unfold Filled Bay.kind
  cases (s.bay n).occupant <;> simp

theorem Lock.kind_eq_iff {l k : Lock} : l.kind = k.kind ↔
    l.occupant = k.occupant ∧ (l.state = .empty ↔ k.state = .empty) ∧ (l.state = .blocked ↔ k.state = .blocked) := by
  simp [Lock.kind]

/-- The clauses of a state whose records, inventories, bays and lock read as those of another. -/
theorem siteClauses_of_parts {s t : State} (packs : t.packs = s.packs) (inv : t.inventories = s.inventories)
    (bays : ∀ n, (t.bay n).kind = (s.bay n).kind) (lock : t.feed.lock.kind = s.feed.lock.kind) (closed : ClosedLaw t)
    (c : SiteClauses s) : SiteClauses t := by
  have recs : ∀ i, t.record i = s.record i := fun i => by simp only [State.record, packs]
  have handles : ∀ i, t.handle i = s.handle i := fun i => by simp [State.handle, recs]
  have lookups : ∀ k, t.lookup k = s.lookup k := fun k => by simp [State.lookup, recs]
  obtain ⟨lockOcc, lockEmpty, lockBlocked⟩ := Lock.kind_eq_iff.1 lock
  have holds : ∀ l, t.holds l = s.holds l := fun l => by
    cases l with
    | bay n => exact Bay.occupant_of_kind (bays n)
    | feedLock => exact lockOcc
    | _ => rfl
  refine ⟨fun i p => ?_, fun l k => ?_, fun i p => ?_, fun n => ?_, ?_, fun i p => ?_, closed, fun z => ?_⟩
  · rw [recs]; exact c.placed i p
  · rw [holds, lookups]; exact c.held l k
  · rw [recs, holds, handles]; exact c.holder i p
  · rw [filled_iff, bays, ← filled_iff]; exact c.filled n
  · rw [lockOcc, lockEmpty]; exact c.lockEmpty
  · rw [recs, show t.feed.lock.packState = s.feed.lock.packState by simp only [Lock.packState, lockBlocked]]
    exact c.lockPack i p
  · rw [inv, packs]; exact c.inventory z

theorem siteClauses_of_site {s t : State} (h : t.site = s.site) (c : SiteClauses s) : SiteClauses t := by
  refine siteClauses_of_parts (congrArg Site.packs h) (congrArg Site.inventories h) (kind_of_site h)
    (congrArg Site.lock h) (fun i p l hp hl hc => ?_) c
  rw [record_of_site h] at hp
  have led := ledger_of_site h p.lot
  rw [hl] at led
  obtain ⟨l', hl', e⟩ := Option.map_eq_some_iff.1 led.symm
  exact c.closed i p l' hp hl' ((congrArg Prod.fst e).trans hc)

/-- The count law reads the records and the lots' counts. -/
theorem lotLaw_of_counts {s t : State} (packs : t.packs = s.packs)
    (counts : ∀ j, (t.lotAt j).map (·.ledger.2) = (s.lotAt j).map (·.ledger.2)) (law : LotLaw s) : LotLaw t := by
  intro j
  have led := counts j
  have lj := law j
  have live : liveCount t j = liveCount s j := by simp only [liveCount, packs]
  have recs : ∀ i, t.record i = s.record i := fun i => by simp only [State.record, packs]
  cases e : s.lotAt j with
  | none =>
    rw [e] at led lj
    rw [Option.map_eq_none_iff.1 led]
    simpa only [recs] using lj
  | some l =>
    rw [e] at led lj
    obtain ⟨l', hl', e'⟩ := Option.map_eq_some_iff.1 led
    simp only [Lot.ledger, Prod.mk.injEq] at e'
    obtain ⟨admitted, shredded, withdrawn⟩ := e'
    rw [hl', live]
    simp only [admitted, shredded, withdrawn]
    exact lj

theorem lotLaw_of_site {s t : State} (h : t.site = s.site) (law : LotLaw s) : LotLaw t := by
  refine lotLaw_of_counts (congrArg Site.packs h) (fun j => ?_) law
  simpa [Function.comp_def] using congrArg (Option.map Prod.snd) (ledger_of_site h j)

end Sys2Proof.Machine
end

