-- ==== Sys2Proof/Proofs/Stored.lean ====
section
/-! PROOFS, layer 4 continued. One record written: the clauses of the law of the site and the count law after it. -/

namespace Sys2Proof.Machine

/-! ### Laws kept -/

/-- From a state that keeps the law of the site, `t` keeps it, and the count law of the lots with it. -/
structure Keeps (s t : State) : Prop where
  laws : SiteClauses s → SiteClauses t ∧ (LotLaw s → LotLaw t)

theorem Keeps.refl (s : State) : Keeps s s := ⟨fun c => ⟨c, id⟩⟩

theorem Keeps.trans {s t u : State} (a : Keeps s t) (b : Keeps t u) : Keeps s u := ⟨fun c =>
  let ⟨ct, lt⟩ := a.laws c
  let ⟨cu, lu⟩ := b.laws ct
  ⟨cu, lu ∘ lt⟩⟩

/-- The laws of a state may be used to show that they are kept. -/
theorem Keeps.of_clauses {s t : State} (h : SiteClauses s → Keeps s t) : Keeps s t := ⟨fun c => (h c).laws c⟩

/-- An operation that leaves the site alone keeps the laws. -/
theorem Keeps.of_site {s t : State} (h : t.site = s.site) : Keeps s t :=
  ⟨fun c => ⟨siteClauses_of_site h c, lotLaw_of_site h⟩⟩

theorem Keeps.foldl {α : Type} {f : State → α → State} (h : ∀ s a, Keeps s (f s a)) (l : List α) (s : State) :
    Keeps s (l.foldl f s) := by
  induction l generalizing s with
  | nil => exact .refl s
  | cons a l ih => exact (h s a).trans (ih _)

/-! ### A written record -/

/-- `t` is `s` with record `i` written as `p`: the inventories follow, the place left is vacated and the place taken holds
the record, and the lock agrees with its pack. -/
structure Stores (i : Fin 256) (p : Pack) (s t : State) : Prop where
  packs : t.packs = vset s.packs i ⟨(s.record i).gen, some p⟩
  inventories : t.inventories = invStored (s.record i).pack p s.inventories
  placed : p.placed = true
  free : p.loc.single = true → s.holds p.loc = none ∨ (s.record i).pack.map (·.loc) = some p.loc
  holds : ∀ l, l.single = true → t.holds l =
    if p.loc = l then some (s.handle i) else if (s.record i).pack.map (·.loc) = some l then none else s.holds l
  filled : ∀ n, Filled n t
  lockEmpty : t.feed.lock.occupant = none ↔ t.feed.lock.state = .empty
  lockPack : p.loc = .feedLock → p.state = t.feed.lock.packState
  lockOther : p.loc ≠ .feedLock → (s.record i).pack.map (·.loc) ≠ some .feedLock →
    t.feed.lock.packState = s.feed.lock.packState
  lots : ∀ j l, t.lotAt j = some l → l.state = .closed →
    (p.lot = j → p.state.terminal = true) ∧ ∃ l', s.lotAt j = some l' ∧ l'.state = .closed

theorem single_of_holds {s : State} {l : Loc} {h : Handle} (e : s.holds l = some h) : l.single = true := by
  cases l <;> first | rfl | exact nomatch e

section

variable {i : Fin 256} {p : Pack} {s t : State}

theorem record_stored (h : t.packs = vset s.packs i ⟨(s.record i).gen, some p⟩) (k : Fin 256) :
    t.record k = if k = i then ⟨(s.record i).gen, some p⟩ else s.record k := by
  rw [State.record, h, vget_vset]; rfl

theorem handle_stored (h : t.packs = vset s.packs i ⟨(s.record i).gen, some p⟩) (k : Fin 256) :
    t.handle k = s.handle k := by
  rw [State.handle, record_stored h]
  split
  case isTrue e => rw [e]; rfl
  case isFalse => rfl

theorem lookup_stored_other (h : t.packs = vset s.packs i ⟨(s.record i).gen, some p⟩) {k : Handle} (hk : k.index ≠ i) :
    t.lookup k = s.lookup k := by
  simp only [State.lookup, record_stored h, if_neg hk]

theorem Stores.siteClauses (c : SiteClauses s) (w : Stores i p s t) : SiteClauses t := by
  have recs := record_stored w.packs
  -- a pack elsewhere stands neither where `p` now stands nor where record `i` stood
  have apart : ∀ k q, k ≠ i → (s.record k).pack = some q → q.loc.single = true →
      p.loc ≠ q.loc ∧ (s.record i).pack.map (·.loc) ≠ some q.loc := by
    intro k q hk hq hs
    have mine := c.holder k q hq hs
    have notSrc : (s.record i).pack.map (·.loc) ≠ some q.loc := by
      intro e
      obtain ⟨o, ho, hl⟩ := Option.map_eq_some_iff.1 e
      have its := c.holder i o ho (by rw [hl]; exact hs)
      rw [hl, mine] at its
      exact hk (congrArg Handle.index (Option.some.inj its))
    refine ⟨fun e => ?_, notSrc⟩
    rcases w.free (by rw [e]; exact hs) with none | src
    · rw [e, mine] at none; exact nomatch none
    · exact notSrc (e ▸ src)
  refine ⟨fun k q hq => ?_, fun l h e => ?_, fun k q hq hs => ?_, w.filled, w.lockEmpty, fun k q hq hl => ?_,
    fun k q l hq hl hc => ?_, inventoryLaw_stored c.inventory w.packs w.inventories⟩
  · rw [recs] at hq
    split at hq
    · cases hq; exact w.placed
    · exact c.placed k q hq
  · have hs := single_of_holds e
    rw [w.holds l hs] at e
    split at e
    case isTrue here =>
      cases e
      exact ⟨p, by rw [← handle_stored w.packs, State.lookup_handle, recs, if_pos rfl], here⟩
    case isFalse away =>
      split at e
      case isTrue => exact nomatch e
      case isFalse notSrc =>
        obtain ⟨q, hq, hl⟩ := c.held l h e
        refine ⟨q, ?_, hl⟩
        rw [lookup_stored_other w.packs, hq]
        intro hi
        exact notSrc (by rw [← hi, (State.lookup_eq_some.1 hq).2]; exact congrArg some hl)
  · rw [handle_stored w.packs]
    rw [recs] at hq
    split at hq
    case isTrue here => cases hq; rw [w.holds _ hs, if_pos rfl, here]
    case isFalse other =>
      obtain ⟨away, notSrc⟩ := apart k q other hq hs
      rw [w.holds _ hs, if_neg away, if_neg notSrc]
      exact c.holder k q hq hs
  · rw [recs] at hq
    split at hq
    case isTrue => cases hq; exact w.lockPack hl
    case isFalse other =>
      obtain ⟨away, notSrc⟩ := apart k q other hq (by rw [hl]; rfl)
      rw [hl] at away notSrc
      rw [w.lockOther away notSrc]
      exact c.lockPack k q hq hl
  · obtain ⟨mine, l', hl', hc'⟩ := w.lots q.lot l hl hc
    rw [recs] at hq
    split at hq
    case isTrue => cases hq; exact mine rfl
    case isFalse => exact c.closed k q l' hq hl' hc'

/-! ### The count law after a written record -/

/-- A record holds a live pack of lot `j`. -/
def Rec.liveIn (r : Rec) (j : Fin 8) : Bool := r.pack.any fun p => p.lot == j && !p.state.terminal

theorem liveCount_eq (s : State) (j : Fin 8) : liveCount s j = ∑ i, ((vget s.packs i).liveIn j).toNat := by
  simp only [liveCount, countP_toList, Rec.liveIn]

theorem liveCount_stored (h : t.packs = vset s.packs i ⟨(s.record i).gen, some p⟩) (j : Fin 8) :
    liveCount t j + ((s.record i).liveIn j).toNat =
      liveCount s j + (p.lot == j && !p.state.terminal).toNat := by
  rw [liveCount_eq, liveCount_eq, h]
  have moved := sum_vset (fun r => (r.liveIn j).toNat) s.packs i ⟨(s.record i).gen, some p⟩
  simp only [Rec.liveIn, State.record, Option.any_some] at moved ⊢
  exact moved

/-- The count law after a written record, where every lot's counts follow the packs that live in it (R159). -/
theorem lotLaw_stored (law : LotLaw s) (h : t.packs = vset s.packs i ⟨(s.record i).gen, some p⟩)
    (free : ∀ j, s.lotAt j = none → t.lotAt j = none ∧ p.lot ≠ j)
    (used : ∀ j l, s.lotAt j = some l → ∃ l', t.lotAt j = some l' ∧
      l'.admitted + ((s.record i).liveIn j).toNat + l.shredded + l.withdrawn =
        l'.shredded + l'.withdrawn + l.admitted + (p.lot == j && !p.state.terminal).toNat) : LotLaw t := by
  intro j
  have lj := law j
  cases e : s.lotAt j with
  | none =>
    obtain ⟨free, away⟩ := free j e
    rw [e] at lj
    rw [free]
    intro k q hq
    rw [record_stored h] at hq
    split at hq
    · cases hq; exact away
    · exact lj k q hq
  | some l =>
    obtain ⟨l', hl', sum⟩ := used j l e
    rw [e] at lj
    rw [hl']
    have live := liveCount_stored h j
    simp only at lj ⊢
    omega

/-- A lot with a live pack is in use and not CLOSED (R16). -/
theorem not_closed_of_live (c : SiteClauses s) {o : Pack} (f : (s.record i).pack = some o)
    (live : o.state.terminal = false) {l : Lot} (hl : s.lotAt o.lot = some l) : l.state ≠ .closed := fun hc => by
  simp [c.closed i o l f hl hc] at live

/-- A live pack written over a live pack of the same lot keeps the count law. -/
theorem lotLaw_rewritten (law : LotLaw s) {o : Pack} (f : (s.record i).pack = some o)
    (h : t.packs = vset s.packs i ⟨(s.record i).gen, some p⟩) (lot : p.lot = o.lot) (ho : o.state.terminal = false)
    (hp : p.state.terminal = false) (lots : ∀ j, (t.lotAt j).map (·.ledger) = (s.lotAt j).map (·.ledger)) :
    LotLaw t := by
  have same : ∀ j, (s.record i).liveIn j = (p.lot == j && !p.state.terminal) := fun j => by
    simp [Rec.liveIn, f, lot, ho, hp]
  refine lotLaw_stored law h (fun j free => ⟨by simpa [free] using lots j, fun e => ?_⟩) fun j l used => ?_
  · have none := law j
    rw [free] at none
    exact none i o f (lot ▸ e)
  · have led := lots j
    rw [used] at led
    obtain ⟨l', hl', e⟩ := Option.map_eq_some_iff.1 led
    simp only [Lot.ledger, Prod.mk.injEq] at e
    refine ⟨l', hl', ?_⟩
    rw [same j]
    omega

end

/-! ### A record rewritten in its place -/

/-- A live pack written over one of the same place and lot, bays, lock and lots untouched, keeps the laws; the lock's pack
is written only with its lock. -/
theorem keeps_rewritten {i : Fin 256} {o p : Pack} {s t : State} (f : (s.record i).pack = some o)
    (loc : p.loc = o.loc) (lot : p.lot = o.lot) (placed : p.placed = true) (lock : o.loc ≠ .feedLock)
    (ho : o.state.terminal = false) (hp : p.state.terminal = false)
    (h : t.site = { s.site with
      packs := vset s.packs i ⟨(s.record i).gen, some p⟩, inventories := invStored (some o) p s.inventories }) :
    Keeps s t := by
  constructor
  intro c
  have packs : t.packs = vset s.packs i ⟨(s.record i).gen, some p⟩ := congrArg Site.packs h
  have bays : ∀ n, (t.bay n).kind = (s.bay n).kind := fun n => by
    simpa [State.site, State.bay] using congrArg (fun σ : Site => vget σ.bays n) h
  have lots : ∀ j, (t.lotAt j).map (·.ledger) = (s.lotAt j).map (·.ledger) := fun j => by
    simpa [State.site, State.lotAt] using congrArg (fun σ : Site => vget σ.lots j) h
  obtain ⟨lockOcc, lockEmpty, lockBlocked⟩ := Lock.kind_eq_iff.1 (congrArg Site.lock h)
  have holds : ∀ l, t.holds l = s.holds l := fun l => by
    cases l with
    | bay n => exact Bay.occupant_of_kind (bays n)
    | feedLock => exact lockOcc
    | _ => rfl
  refine ⟨Stores.siteClauses (i := i) (p := p) c ?_, fun law => lotLaw_rewritten law f packs lot ho hp lots⟩
  refine ⟨packs, by rw [f]; exact congrArg Site.inventories h, placed, fun _ => .inr (by rw [f, loc]; rfl),
    fun l hs => ?_, fun n => ?_, by rw [lockOcc, lockEmpty]; exact c.lockEmpty, fun e => absurd (loc ▸ e) lock,
    fun _ _ => by simp only [Lock.packState, lockBlocked], fun j l hl hc => ?_⟩
  · rw [holds, f]
    split
    case isTrue e =>
      have here : o.loc = l := loc ▸ e
      rw [← here] at hs ⊢
      exact c.holder i o f hs
    case isFalse e =>
      rw [if_neg]
      intro e'
      exact e (loc.trans (Option.some.inj e'))
  · rw [filled_iff, bays, ← filled_iff]; exact c.filled n
  · have led := lots j
    rw [hl] at led
    obtain ⟨l', hl', e⟩ := Option.map_eq_some_iff.1 led.symm
    have closed : l'.state = .closed := (congrArg Prod.fst e).trans hc
    refine ⟨fun e => absurd closed ?_, l', hl', closed⟩
    exact not_closed_of_live c f ho (by rw [← lot, e]; exact hl')

theorem site_transition (i : Fin 256) (p : Pack) (s : State) : (transition i p s).site =
    { s.site with
      packs := vset s.packs i ⟨(s.record i).gen, some p⟩
      inventories := invStored (s.record i).pack p s.inventories } := by
  rw [transition_eq]; rfl

/-- A transition in place, between live states and off the lock. -/
theorem keeps_transition {i : Fin 256} {o p : Pack} {s : State} (f : (s.record i).pack = some o) (loc : p.loc = o.loc)
    (lot : p.lot = o.lot) (placed : p.placed = true) (lock : o.loc ≠ .feedLock) (ho : o.state.terminal = false)
    (hp : p.state.terminal = false) : Keeps s (transition i p s) :=
  keeps_rewritten f loc lot placed lock ho hp (by rw [site_transition, f])

/-! ### States and places -/

/-- A pack in a bay is in one of the states of a bay's pack (R4). -/
theorem bayState_of_placed {p : Pack} {n : Fin 8} (h : p.placed = true) (hl : p.loc = .bay n) :
    p.state = .loaded ∨ p.state = .discharging ∨ p.state = .resting ∨ p.state = .discharged ∨
      p.state = .quarantined := by
  cases hs : p.state <;> simp [Pack.placed, hs, hl] at h ⊢

theorem live_in_bay {p : Pack} {n : Fin 8} (h : p.placed = true) (hl : p.loc = .bay n) : p.state.terminal = false := by
  rcases bayState_of_placed h hl with e | e | e | e | e <;> rw [e] <;> rfl

/-- Any state of a bay's pack agrees with a bay. -/
theorem placed_in_bay {p : Pack} {n : Fin 8} (hl : p.loc = .bay n) (hs : p.state = .loaded ∨ p.state = .discharging ∨
    p.state = .resting ∨ p.state = .discharged ∨ p.state = .quarantined) : p.placed = true := by
  rcases hs with e | e | e | e | e <;> simp [Pack.placed, e, hl]

/-- The occupant of a bay stands in it (R4). -/
theorem occupant_stands {s : State} (c : SiteClauses s) {n : Fin 8} {i : Fin 256} {p : Pack}
    (occ : s.occupantPack n = some (i, p)) : (s.record i).pack = some p ∧ p.loc = .bay n ∧ p.placed = true := by
  obtain ⟨hocc, f⟩ := occupantPack_eq_some.1 occ
  obtain ⟨q, hq, hl⟩ := c.held (.bay n) _ hocc
  rw [State.lookup_handle, f] at hq
  cases hq
  exact ⟨f, hl, c.placed i p f⟩

/-- A transition of a bay's occupant to another state of a bay's pack keeps the laws. -/
theorem keeps_occupant {s : State} {n : Fin 8} {i : Fin 256} {o p : Pack} (occ : s.occupantPack n = some (i, o))
    (loc : p.loc = o.loc) (lot : p.lot = o.lot) (hs : p.state = .loaded ∨ p.state = .discharging ∨
    p.state = .resting ∨ p.state = .discharged ∨ p.state = .quarantined) : Keeps s (transition i p s) := .of_clauses fun c => by
  obtain ⟨f, hl, placed⟩ := occupant_stands c occ
  have here : p.loc = .bay n := loc.trans hl
  have placed' := placed_in_bay here hs
  exact keeps_transition f loc lot placed' (by rw [hl]; exact nofun) (live_in_bay placed hl) (live_in_bay placed' here)

end Sys2Proof.Machine
end

