-- ==== Sys2Proof/Proofs/Moved.lean ====
section
/-! PROOFS, layer 5. A pack that changes its place: the site after it, and the laws it keeps. -/

namespace Sys2Proof.Machine

/-! ### The site after a move -/

/-- `t` is `s` after record `i`, which held the pack `old`, is written as `p`: the place it takes holds it, and the place it
leaves is empty. -/
structure Moves (i : Fin 256) (old : Option Pack) (p : Pack) (s t : State) : Prop where
  packs : t.packs = vset s.packs i ⟨(s.record i).gen, some p⟩
  inventories : t.inventories = invStored old p s.inventories
  bays : ∀ n, (t.bay n).kind = if p.loc = .bay n then some (s.handle i, false)
    else if old.map (·.loc) = some (.bay n) then none else (s.bay n).kind
  lock : t.feed.lock.kind = if p.loc = .feedLock then (some (s.handle i), false, p.state == .quarantined)
    else if old.map (·.loc) = some .feedLock then Lock.initial.kind else s.feed.lock.kind

section

variable {i : Fin 256} {old : Option Pack} {o p : Pack} {s t : State}

/-- The state of a pack at the lock (R4). -/
theorem lockState_of_placed (h : p.placed = true) (hl : p.loc = .feedLock) :
    p.state = .feeding ∨ p.state = .quarantined := by
  cases hs : p.state <;> simp [Pack.placed, hs, hl] at h ⊢

theorem Moves.stores (m : Moves i old p s t) (c : SiteClauses s) (f : (s.record i).pack = old) (placed : p.placed = true)
    (free : p.loc.single = true → s.holds p.loc = none ∨ old.map (·.loc) = some p.loc)
    (lots : ∀ j l, t.lotAt j = some l → l.state = .closed →
      (p.lot = j → p.state.terminal = true) ∧ ∃ l', s.lotAt j = some l' ∧ l'.state = .closed) : Stores i p s t := by
  subst f
  refine ⟨m.packs, m.inventories, placed, free, fun l hs => ?_, fun n => ?_, ?_, fun here => ?_, fun away left => ?_, lots⟩
  · cases l with
    | bay n =>
      have occ : (t.bay n).occupant = (t.bay n).kind.map Prod.fst := by simp [Bay.kind, Function.comp_def]
      simp only [State.holds, occ, m.bays n]
      split
      · rfl
      · split
        · rfl
        · simp [Bay.kind, Function.comp_def]
    | feedLock =>
      have occ : t.feed.lock.occupant = t.feed.lock.kind.1 := rfl
      simp only [State.holds, occ, m.lock]
      split
      · rfl
      · split <;> rfl
    | _ => exact nomatch hs
  · rw [filled_iff, m.bays n]
    intro h
    split
    · simp
    · split
      · simp
      · exact (filled_iff n s).1 (c.filled n) h
  · have occ : t.feed.lock.occupant = t.feed.lock.kind.1 := rfl
    have emp : t.feed.lock.state = .empty ↔ t.feed.lock.kind.2.1 = true := by simp [Lock.kind]
    rw [occ, emp, m.lock]
    split
    · simp
    · split
      · simp [Lock.kind, Lock.initial]
      · simpa [Lock.kind] using c.lockEmpty
  · have blocked : t.feed.lock.state = .blocked ↔ t.feed.lock.kind.2.2 = true := by simp [Lock.kind]
    rw [m.lock, if_pos here] at blocked
    rcases lockState_of_placed placed here with e | e <;> simp [Lock.packState, blocked, e]
  · have same := m.lock
    rw [if_neg away, if_neg left] at same
    obtain ⟨_, _, blocked⟩ := Lock.kind_eq_iff.1 same
    simp only [Lock.packState, blocked]

/-- A live pack that changes its place, its lot's counts untouched, keeps the laws. -/
theorem Moves.keeps (f : (s.record i).pack = some o) (lot : p.lot = o.lot) (ho : o.state.terminal = false)
    (placed : p.placed = true) (hp : p.state.terminal = false)
    (free : p.loc.single = true → s.holds p.loc = none ∨ o.loc = p.loc)
    (lots : t.site.lots = s.site.lots) (m : Moves i (some o) p s t) : Keeps s t := by
  have ledgers : ∀ j, (t.lotAt j).map (·.ledger) = (s.lotAt j).map (·.ledger) := fun j => by
    simpa [State.site, State.lotAt] using congrArg (vget · j) lots
  constructor
  intro c
  refine ⟨(m.stores c f placed (fun h => (free h).imp id (congrArg some)) fun j l hl hc => ?_).siteClauses c,
    fun law => lotLaw_rewritten law f m.packs lot ho hp ledgers⟩
  have led := ledgers j
  rw [hl] at led
  obtain ⟨l', hl', e⟩ := Option.map_eq_some_iff.1 led.symm
  have closed : l'.state = .closed := (congrArg Prod.fst e).trans hc
  refine ⟨fun e => absurd closed ?_, l', hl', closed⟩
  exact not_closed_of_live c f ho (by rw [← lot, e]; exact hl')

/-- A live pack that leaves the site into a terminal state, counted in its lot, keeps the laws (R15, R159). -/
theorem Moves.keeps_retired (f : (s.record i).pack = some o) (lot : p.lot = o.lot) (ho : o.state.terminal = false)
    (placed : p.placed = true) (hp : p.state.terminal = true) (single : p.loc.single = false)
    (lots : t.lot.lots = vset s.lot.lots p.lot ((s.lotAt p.lot).map (·.countTerminal p)))
    (m : Moves i (some o) p s t) : Keeps s t := by
  have lotAt : ∀ j, t.lotAt j = if j = p.lot then (s.lotAt j).map (·.countTerminal p) else s.lotAt j := fun j => by
    simp only [State.lotAt, lots, vget_vset]
    split
    case isTrue e => rw [e]
    case isFalse => rfl
  have counted : ∀ l : Lot, (l.countTerminal p).state = l.state ∧ (l.countTerminal p).admitted = l.admitted ∧
      (l.countTerminal p).shredded + (l.countTerminal p).withdrawn = l.shredded + l.withdrawn + 1 := fun l => by
    unfold Lot.countTerminal
    split <;> exact ⟨rfl, rfl, by simp only; omega⟩
  have live : ∀ j, (s.record i).liveIn j = decide (p.lot = j) := fun j => by
    simp only [Rec.liveIn, f, Option.any_some, lot, ho]
    by_cases e : o.lot = j <;> simp [e]
  constructor
  intro c
  refine ⟨(m.stores c f placed (fun h => by simp [single] at h) fun j l hl hc => ⟨fun _ => hp, ?_⟩).siteClauses c,
    fun law => lotLaw_stored law m.packs (fun j free => ⟨?_, fun e => ?_⟩) fun j l used => ?_⟩
  · rw [lotAt] at hl
    split at hl
    · obtain ⟨l', hl', rfl⟩ := Option.map_eq_some_iff.1 hl
      exact ⟨l', hl', (counted l').1 ▸ hc⟩
    · exact ⟨l, hl, hc⟩
  · rw [lotAt, free]; simp
  · have none := law j
    rw [free] at none
    exact none i o f (lot ▸ e)
  · rw [lotAt, live j, hp]
    split
    case isTrue e =>
      obtain ⟨_, admitted, sum⟩ := counted l
      refine ⟨_, congrArg (Option.map _) used, ?_⟩
      simp only [e, decide_true, Bool.toNat_true, Bool.not_true, Bool.and_false, Bool.toNat_false, admitted]
      omega
    case isFalse e =>
      refine ⟨l, used, ?_⟩
      simp [Ne.symm e]
      omega

/-- A pack admitted into a FREE record, counted in its OPEN lot, keeps the laws (R7, R159). -/
theorem Moves.keeps_admitted (f : (s.record i).pack = none) {l : Lot} (used : s.lotAt p.lot = some l)
    (opened : l.state = .opened) (placed : p.placed = true) (hp : p.state.terminal = false)
    (single : p.loc.single = false) {l' : Lot} (lots : t.lot.lots = vset s.lot.lots p.lot (some l'))
    (ledger : l'.ledger = (l.state, l.admitted + 1, l.shredded, l.withdrawn)) (m : Moves i none p s t) : Keeps s t := by
  have lotAt : ∀ j, t.lotAt j = if j = p.lot then some l' else s.lotAt j := fun j => by
    simp only [State.lotAt, lots, vget_vset]
  simp only [Lot.ledger, Prod.mk.injEq] at ledger
  obtain ⟨state, admitted, shredded, withdrawn⟩ := ledger
  constructor
  intro c
  refine ⟨(m.stores c f placed (fun h => by simp [single] at h) fun j k hk hc => ?_).siteClauses c,
    fun law => lotLaw_stored law m.packs (fun j free => ?_) fun j k hk => ?_⟩
  · rw [lotAt] at hk
    split at hk
    case isTrue =>
      cases hk
      rw [state, opened] at hc
      exact nomatch hc
    case isFalse e => exact ⟨fun e' => absurd e'.symm e, k, hk, hc⟩
  · have away : j ≠ p.lot := fun e => by rw [e, used] at free; exact nomatch free
    exact ⟨by rw [lotAt, if_neg away, free], fun e => away e.symm⟩
  · rw [lotAt, Rec.liveIn, f, hp]
    split
    case isTrue e =>
      rw [e, used] at hk
      cases hk
      refine ⟨l', rfl, ?_⟩
      simp [e, shredded, withdrawn, admitted]
      omega
    case isFalse e =>
      refine ⟨k, hk, ?_⟩
      simp [beq_false_of_ne (Ne.symm e)]
      omega

end

/-! ### Lots -/

/-- The state of a lot changes, its counts untouched: the laws are kept where a lot that is closed was closed or holds only
terminal records (R16). -/
theorem keeps_lots {s t : State} (h : t.site = { s.site with lots := t.site.lots })
    (counts : ∀ j, (t.lotAt j).map (·.ledger.2) = (s.lotAt j).map (·.ledger.2))
    (closed : ∀ j l, t.lotAt j = some l → l.state = .closed →
      (∃ l', s.lotAt j = some l' ∧ l'.state = .closed) ∨ lotAllTerminal s j = true) : Keeps s t := by
  have packs : t.packs = s.packs := congrArg Site.packs h
  constructor
  intro c
  refine ⟨siteClauses_of_parts packs (congrArg Site.inventories h) (fun n => ?_) (congrArg Site.lock h)
    (fun i p l hp hl hc => ?_) c, lotLaw_of_counts packs counts⟩
  · simpa [State.site, State.bay] using congrArg (fun σ : Site => vget σ.bays n) h
  · simp only [State.record, packs] at hp
    rcases closed _ l hl hc with ⟨l', hl', hc'⟩ | all
    · exact c.closed i p l' hp hl' hc'
    · have mine := List.all_eq_true.1 all (vget s.packs i) (by simp [vget])
      simpa [show (vget s.packs i).pack = some p from hp] using mine

/-- One lot's state changes. -/
theorem keeps_setLot {s : State} {j : Fin 8} {l l' : Lot} (used : s.lotAt j = some l) (counts : l'.ledger.2 = l.ledger.2)
    (closed : l'.state = .closed → l.state = .closed ∨ lotAllTerminal s j = true) : Keeps s (s.setLot j (some l')) := by
  have lotAt : ∀ k, (s.setLot j (some l')).lotAt k = if k = j then some l' else s.lotAt k := fun k => by
    simp only [State.lotAt, State.setLot, vget_vset]
  refine keeps_lots rfl (fun k => ?_) fun k m hm hc => ?_
  · rw [lotAt]
    split
    case isTrue e => rw [e, used]; simp [counts]
    case isFalse => rfl
  · rw [lotAt] at hm
    split at hm
    case isTrue e =>
      cases hm
      rw [e]
      exact (closed hc).imp (fun was => ⟨l, used, was⟩) id
    case isFalse => exact .inl ⟨m, hm, hc⟩

end Sys2Proof.Machine
end

