-- ==== Sys2Proof/Proofs/Shared.lean ====
section
/-! PROOFS, layer 6. The shared operations keep the laws of the site and of the lots. -/

namespace Sys2Proof.Machine

/-! ### Branches -/

theorem Keeps.ite {c : Prop} [Decidable c] {s t u : State} (ht : c → Keeps s t) (hu : ¬c → Keeps s u) :
    Keeps s (if c then t else u) := by
  split
  · exact ht ‹_›
  · exact hu ‹_›

/-- A step that may be taken or not. -/
theorem Keeps.onlyIf {c : Prop} [Decidable c] {s t : State} {f : State → State} (k : Keeps s t)
    (h : ∀ t, Keeps t (f t)) : Keeps s (if c then f t else t) :=
  .ite (fun _ => k.trans (h t)) fun _ => k

/-- An update that leaves the site alone, after an operation that keeps the laws. -/
theorem Keeps.before {s u t : State} (h : t.site = u.site) (k : Keeps s u) : Keeps s t := k.trans (.of_site h)

/-- An update that leaves the site alone, before an operation that keeps the laws. -/
theorem Keeps.after {s u t : State} (h : u.site = s.site) (k : Keeps u t) : Keeps s t := (Keeps.of_site h).trans k

/-! ### Sites of the operations that move a pack -/

theorem site_storePack (i : Fin 256) (p : Pack) (s : State) : (storePack i p s).site =
    { s.site with
      packs := vset s.packs i ⟨(s.record i).gen, some p⟩
      inventories := invStored (s.record i).pack p s.inventories } := by
  rw [storePack_eq]; rfl

theorem site_lockedAs (l : Lock) (s : State) : (setLock l s).site = { s.site with lock := l.kind } := by
  unfold setLock
  dsimp only
  split <;> simp <;> rfl

/-- The kinds of the bays after a pack leaves location `l`. -/
def kindsLeft (l : Loc) (kinds : Vector (Option (Handle × Bool)) 8) : Vector (Option (Handle × Bool)) 8 :=
  match l with
  | .bay m => vset kinds m none
  | _ => kinds

theorem vmap_vset {α β : Type} {n : Nat} (f : α → β) (v : Vector α n) (i : Fin n) (x : α) :
    vmap f (vset v i x) = vset (vmap f v) i (f x) := by
  refine vext fun j => ?_
  simp only [vget_vmap, vget_vset]
  split <;> rfl

theorem site_emptyBay (n : Fin 8) (s : State) :
    (emptyBay n s).site = { s.site with bays := vset s.site.bays n none } := by
  rw [emptyBay_eq]
  simp only [State.site, vmap_vset]
  rfl

theorem site_leaveLoc (l : Loc) (s : State) : (leaveLoc l s).site = { s.site with bays := kindsLeft l s.site.bays } := by
  cases l with
  | bay n => exact site_emptyBay n s
  | _ => rfl

theorem site_occupyBay (n : Fin 8) (h : Handle) (t : Treatment) (recheck : Bool) (s : State) :
    (occupyBay n h t recheck s).site = { s.site with bays := vset s.site.bays n (some (h, false)) } := by
  rw [occupyBay_eq]
  simp only [State.site, vmap_vset]
  rfl

theorem site_reportTerminal (p : Pack) (s : State) : (reportTerminal p s).site =
    { s.site with lots := vmap (·.map (·.ledger)) (vset s.lot.lots p.lot ((s.lotAt p.lot).map (·.countTerminal p))) } :=
  rfl

theorem vget_kindsLeft (l : Loc) (s : State) (n : Fin 8) : vget (kindsLeft l s.site.bays) n =
    if some l = some (.bay n) then none else (s.bay n).kind := by
  cases l with
  | bay m =>
    simp only [kindsLeft, vget_vset, Option.some.injEq, Loc.bay.injEq, eq_comm (a := n)]
    split
    · rfl
    · simp [State.site, State.bay]
  | _ => simp [kindsLeft, State.site, State.bay]

/-- A move read off the site. -/
theorem Moves.of_site {i : Fin 256} {old : Option Pack} {p : Pack} {s t : State} {B : Vector (Option (Handle × Bool)) 8}
    {L : Option Handle × Bool × Bool} {C : Vector (Option (LotState × Nat × Nat × Nat)) 8}
    (h : t.site = ⟨vset s.packs i ⟨(s.record i).gen, some p⟩, invStored old p s.inventories, B, L, C⟩)
    (bays : ∀ n, vget B n = if p.loc = .bay n then some (s.handle i, false)
      else if old.map (·.loc) = some (.bay n) then none else (s.bay n).kind)
    (lock : L = if p.loc = .feedLock then (some (s.handle i), false, p.state == .quarantined)
      else if old.map (·.loc) = some .feedLock then Lock.initial.kind else s.feed.lock.kind) : Moves i old p s t where
  packs := congrArg Site.packs h
  inventories := congrArg Site.inventories h
  bays n := by
    rw [← bays n]
    simpa [State.site, State.bay] using congrArg (fun σ : Site => vget σ.bays n) h
  lock := (congrArg Site.lock h).trans lock

/-! ### Bays -/

theorem keeps_putBay {n : Fin 8} {b : Bay} {s : State} (ho : b.occupant = (s.bay n).occupant) (hb : b.state ≠ .empty) :
    Keeps s (putBay n b s) :=
  .of_clauses fun c => .of_site (site_putBay (Bay.kind_eq ho hb (c.filled n)))

theorem keeps_enterDischarging (n : Fin 8) (ms : Nat) (s : State) : Keeps s (enterDischarging n ms s) :=
  .of_clauses fun c => .of_site (site_enterDischarging (c.filled n) ms)

theorem keeps_pauseBay (n : Fin 8) (cause : PauseCause) (s : State) : Keeps s (pauseBay n cause s) :=
  .of_clauses fun c => .of_site (site_pauseBay (c.filled n) cause)

theorem keeps_faultBay (n : Fin 8) (cause : FaultCause) (s : State) : Keeps s (faultBay n cause s) :=
  .of_clauses fun c => .of_site (site_faultBay (c.filled n) cause)

theorem keeps_stopLoad (n : Fin 8) (s : State) : Keeps s (stopLoad n s) := .of_site (by simp)

theorem keeps_post (p : Posting) (s : State) : Keeps s (post p s) := .of_site (by simp)

theorem occupant_stopLoad (n : Fin 8) (s : State) : ((stopLoad n s).bay n).occupant = (s.bay n).occupant := by
  rw [stopLoad_eq]
  simp [State.bay, Bay.unloaded]

/-- A bay's occupant changed by a function that keeps it a pack of the bay. -/
theorem keeps_onOccupant {n : Fin 8} {f : Pack → Pack} {s : State}
    (h : ∀ p, p.placed = true → p.loc = .bay n → (f p).loc = p.loc ∧ (f p).lot = p.lot ∧
      ((f p).state = .loaded ∨ (f p).state = .discharging ∨ (f p).state = .resting ∨ (f p).state = .discharged ∨
        (f p).state = .quarantined)) : Keeps s (onOccupant n f s) := by
  refine .of_clauses fun c => ?_
  cases e : s.occupantPack n with
  | none => simp only [onOccupant, e]; exact .refl s
  | some x =>
    obtain ⟨i, p⟩ := x
    rw [onOccupant_eq e]
    obtain ⟨_, hl, placed⟩ := occupant_stands c e
    obtain ⟨loc, lot, hs⟩ := h p placed hl
    exact keeps_occupant e loc lot hs

/-! ### Quarantine -/

/-- A live pack stays in its place when it is quarantined (R10). -/
theorem placed_quarantined {p : Pack} (placed : p.placed = true) (live : p.state.terminal = false)
    (cause : QuarantineCause) : (p.quarantinedBy cause).placed = true := by
  cases hs : p.state <;> cases hl : p.loc <;>
    simp_all [Pack.placed, PackState.terminal, Pack.quarantinedBy]

theorem keeps_quarantinePack {i : Fin 256} {p : Pack} {s : State} (f : (s.record i).pack = some p)
    (live : p.state.terminal = false) (off : p.loc ≠ .feedLock) (cause : QuarantineCause) :
    Keeps s (quarantinePack i cause s) := by
  by_cases q : p.state = .quarantined
  · rw [quarantinePack_quarantined f q]; exact .refl s
  · rw [quarantinePack_eq f q]
    exact .of_clauses fun c =>
      keeps_transition f rfl rfl (placed_quarantined (c.placed i p f) live cause) off live rfl

/-- The occupant a bay's handle names is a pack of the bay. -/
theorem keeps_quarantine_in_bay {n : Fin 8} {h : Handle} {s : State} (occ : (s.bay n).occupant = some h)
    (cause : QuarantineCause) : Keeps s (quarantinePack h.index cause s) := by
  refine .of_clauses fun c => ?_
  obtain ⟨p, f, hl⟩ := c.held (.bay n) h occ
  obtain ⟨_, rec⟩ := State.lookup_eq_some.1 f
  exact keeps_quarantinePack rec (live_in_bay (c.placed _ p rec) hl) (by rw [hl]; exact nofun) cause

theorem keeps_quarantineOccupant (n : Fin 8) (cause : QuarantineCause) (s : State) :
    Keeps s (quarantineOccupant n cause s) := by
  unfold quarantineOccupant
  split
  · exact .refl s
  · exact keeps_quarantine_in_bay ‹_› cause

theorem keeps_alarmBay (n : Fin 8) (s : State) : Keeps s (alarmBay n s) := by
  unfold alarmBay
  split
  · exact .refl s
  · exact (keeps_quarantine_in_bay ‹_› _).trans (keeps_faultBay ..)

/-! ### The lock's pack -/

/-- What stands at an occupied lock. -/
theorem lock_stands {s : State} (c : SiteClauses s) {h : Handle} (occ : s.feed.lock.occupant = some h) :
    ∃ p, s.lookup h = some p ∧ p.loc = .feedLock ∧ p.state = s.feed.lock.packState := by
  obtain ⟨p, f, hl⟩ := c.held .feedLock h occ
  exact ⟨p, f, hl, c.lockPack _ p (State.lookup_eq_some.1 f).2 hl⟩

/-- A working lock holds a FEEDING pack (R117). -/
theorem working_stands {s : State} (c : SiteClauses s) (w : s.feed.lock.working = true) :
    ∃ h p, s.feed.lock.occupant = some h ∧ s.lookup h = some p ∧ p.loc = .feedLock ∧ p.state = .feeding := by
  simp only [Lock.working, Bool.and_eq_true, bne_iff_ne, ne_eq] at w
  obtain ⟨filled, notBlocked⟩ := w
  cases occ : s.feed.lock.occupant with
  | none => exact absurd (c.lockEmpty.1 occ) filled
  | some h =>
    obtain ⟨p, f, hl, hs⟩ := lock_stands c occ
    exact ⟨h, p, rfl, f, hl, by rw [hs, Lock.packState, if_neg notBlocked]⟩

/-- The site after a lock with a FEEDING pack is blocked (R127, R128, R131). -/
theorem site_blockLock {s : State} {h : Handle} {p : Pack} (occ : s.feed.lock.occupant = some h)
    (f : s.lookup h = some p) (feeding : p.state = .feeding) (cause : QuarantineCause) (detail : Option Nat) :
    (blockLock cause detail s).site =
      { s.site with
        packs := vset s.packs h.index ⟨(s.record h.index).gen, some (p.quarantinedBy cause)⟩
        inventories := invStored (some p) (p.quarantinedBy cause) s.inventories
        lock := (some h, false, true) } := by
  obtain ⟨_, rec⟩ := State.lookup_eq_some.1 f
  have kind : s.feed.lock.blockedWith.kind = (some h, false, true) := by
    simp [Lock.kind, Lock.blockedWith, occ]
  have stored : (quarantinePack h.index cause s).site = _ :=
    (congrArg State.site (quarantinePack_eq rec (by simp [feeding]) cause)).trans (site_transition ..)
  rw [rec] at stored
  unfold blockLock
  simp only [occ, f]
  rw [site_lockedAs, kind]
  cases detail <;> simp only [site_feedUncertain, stored] <;> rfl

theorem keeps_blockLock {s : State} (w : s.feed.lock.working = true) (cause : QuarantineCause) (detail : Option Nat) :
    Keeps s (blockLock cause detail s) := by
  refine .of_clauses fun c => ?_
  obtain ⟨h, p, occ, f, hl, feeding⟩ := working_stands c w
  obtain ⟨gen, rec⟩ := State.lookup_eq_some.1 f
  have handle : s.handle h.index = h := handle_of_lookup f
  have site := site_blockLock occ f feeding cause detail
  refine Moves.keeps (p := p.quarantinedBy cause) rec rfl (by rw [feeding]; rfl)
    (placed_quarantined (c.placed _ p rec) (by rw [feeding]; rfl) cause) rfl (fun _ => .inr rfl) (congrArg Site.lots site :)
    (Moves.of_site site (fun n => ?_) ?_)
  · simp [Pack.quarantinedBy, hl, State.site, State.bay]
  · simp [Pack.quarantinedBy, hl, handle]

theorem keeps_releaseLock (s : State) : Keeps s (releaseLock s) :=
  .ite (fun w => keeps_blockLock w ..) fun _ => .refl s

/-! ### Zones -/

theorem keeps_deliverZone (z : Fin 8) (old : ZoneState) (s : State) : Keeps s (deliverZone z old s) := by
  have alarms : ∀ t, Keeps t ((baysOf z).foldl (fun t n => alarmBay n t) t) :=
    Keeps.foldl (fun t n => keeps_alarmBay n t) _
  unfold deliverZone
  refine .before (site_noticeZone ..) (.onlyIf (.onlyIf (.onlyIf (.onlyIf (.refl s) alarms) fun t => ?_) fun t => ?_) fun t => ?_)
  · exact .of_site (site_deliverFeedZone ..)
  · exact keeps_releaseLock t
  · exact .of_site (site_deliverPurge ..)

theorem keeps_changeZone (z : Fin 8) (q : Zone) (s : State) : Keeps s (changeZone z q s) :=
  .after (site_setZone s z q) (keeps_deliverZone ..)

theorem keeps_enterReleased (z : Fin 8) (detail : Nat) (s : State) : Keeps s (enterReleased z detail s) :=
  .after (by simp) (keeps_deliverZone ..)

theorem keeps_evalRelease (z : Fin 8) (s : State) : Keeps s (evalRelease z s) :=
  .ite (fun _ => .ite (fun _ => keeps_enterReleased ..) fun _ => keeps_changeZone ..) fun _ => .refl s

theorem keeps_enterAlarm (z : Fin 8) (part : Nat) (s : State) : Keeps s (enterAlarm z part s) :=
  .after (by simp) ((keeps_deliverZone z (s.zone z).state _).trans (keeps_evalRelease ..))

theorem keeps_enterPreAlarm (z : Fin 8) (detail : Nat) (s : State) : Keeps s (enterPreAlarm z detail s) :=
  .after (by simp) (keeps_deliverZone ..)

theorem keeps_evalZone (z : Fin 8) (detail : Nat) (s : State) : Keeps s (evalZone z detail s) := by
  unfold evalZone
  refine .ite (fun _ => ?_) fun _ => .refl s
  split
  · exact keeps_enterAlarm ..
  · exact .ite (fun _ => .ite (fun _ => keeps_enterPreAlarm ..) fun _ => .refl s)
      fun _ => .ite (fun _ => keeps_changeZone ..) fun _ => .refl s

theorem keeps_deliverInventory (z : Fin 8) (s : State) : Keeps s (deliverInventory z s) :=
  .ite (fun _ => .refl s) fun _ => .after (by simp) (keeps_evalRelease ..)

theorem keeps_deliverPlaces (src dst : Option (Fin 8)) (s : State) : Keeps s (deliverPlaces src dst s) := by
  cases src with
  | none =>
    cases dst with
    | none => exact .refl s
    | some d => exact keeps_deliverInventory d s
  | some z =>
    cases dst with
    | none => exact keeps_deliverInventory z s
    | some d => exact (keeps_deliverInventory z s).trans (keeps_deliverInventory d _)

/-! ### The residual check -/

theorem occupantPack_congr {n : Fin 8} {s t : State} (occ : (t.bay n).occupant = (s.bay n).occupant)
    (packs : t.packs = s.packs) : t.occupantPack n = s.occupantPack n := by
  have recs : ∀ i, t.record i = s.record i := fun i => by simp only [State.record, packs]
  have found : ∀ h, t.lookup h = s.lookup h := fun h => by simp [State.lookup, recs]
  unfold State.occupantPack
  rw [occ]
  cases (s.bay n).occupant <;> simp only [found]

theorem keeps_actOnCheck {n : Fin 8} {i : Fin 256} {p : Pack} {s : State} (occ : s.occupantPack n = some (i, p))
    (c : Check) : Keeps s (actOnCheck n i p c s) := by
  let b : Bay := { s.bay n with lastCheck := some c, deferred := false, recheck := false }
  have still : (s.setBay n b).occupantPack n = some (i, p) :=
    (occupantPack_congr (t := s.setBay n b) (s := s) (by simp [b]) rfl).trans occ
  have site : (s.setBay n b).site = s.site := site_setBay rfl
  unfold actOnCheck
  refine .trans (.after site ?_) (keeps_deliverPlaces ..)
  refine .ite (fun _ => ?_) fun _ => .ite (fun _ => ?_) fun _ => ?_
  · refine .trans ?_ (keeps_putBay ?_ ?_)
    · exact keeps_occupant still rfl rfl (by simp)
    · rfl
    · exact nofun
  · refine .ite (fun _ => .trans ?_ (keeps_enterDischarging ..)) fun _ => .trans ?_ (keeps_putBay ?_ ?_)
    · exact keeps_occupant still rfl rfl (by simp)
    · exact keeps_occupant still rfl rfl (by simp)
    · rfl
    · exact nofun
  · refine .trans (.trans ?_ (keeps_putBay ?_ ?_)) (keeps_post ..)
    · exact keeps_occupant still rfl rfl (by simp)
    · rfl
    · exact nofun

theorem readyCheck_occupant {n : Fin 8} {s : State} {i : Fin 256} {p : Pack} {c : Check}
    (h : readyCheck n s = some (i, p, c)) : s.occupantPack n = some (i, p) := by
  unfold readyCheck at h
  split at h
  case h_1 occ _ =>
    dsimp only at h
    split at h
    · obtain ⟨r, _, e⟩ := Option.map_eq_some_iff.1 h
      cases e
      exact occ
    · exact nomatch h
  case h_2 => exact nomatch h

theorem keeps_runCheck (n : Fin 8) (s : State) : Keeps s (runCheck n s) := by
  unfold runCheck
  split
  · exact keeps_actOnCheck (readyCheck_occupant ‹_›) _
  · exact .of_site (site_setBay rfl)

/-! ### Lots -/

theorem keeps_closeLot {j : Fin 8} {l : Lot} {s : State} (used : s.lotAt j = some l)
    (closes : lotCloses s j l = true) : Keeps s (closeLot j l s) := by
  have all : lotAllTerminal s j = true := by
    simp only [lotCloses, Bool.and_eq_true] at closes
    exact closes.1.2
  unfold closeLot
  extract_lets bal closed s1 s2 s3
  refine .before ?_ (keeps_setLot (l' := closed) used rfl fun _ => .inr all)
  rw [site_noticeLot, site_setShred]
  exact (apply_ite State.site ..).trans (by simp [s1])

theorem keeps_testClosing (j : Fin 8) (s : State) : Keeps s (testClosing j s) := by
  unfold testClosing
  split
  · exact .ite (fun closes => keeps_closeLot ‹_› closes) fun _ => .refl s
  · exact .refl s

/-! ### Presence -/

theorem keeps_fireAbsentZone (z : Fin 8) (s : State) : Keeps s (fireAbsentZone z s) :=
  .ite (fun _ => .of_site (by simp)) fun _ => keeps_evalRelease z s

theorem keeps_lineAbsentBay (n : Fin 8) (s : State) : Keeps s (lineAbsentBay n s) :=
  .ite (fun _ => keeps_pauseBay ..) fun _ => .refl s

theorem site_holdLock_moving {s : State} (c : Nat) (h : (s.feed.lock.movesByPermit || s.feed.lock.movesBack) = true) :
    (holdLock c s).site = s.site := by
  refine site_holdLock c ?_
  rcases (Bool.or_eq_true _ _).mp h with h | h
  · exact Lock.moving_of_movesByPermit h
  · exact Lock.moving_of_movesBack h

theorem keeps_deliverPresence (p : Port) (s : State) : Keeps s (deliverPresence p s) := by
  cases p with
  | line =>
    refine .ite (fun _ => .of_site (by simp)) fun _ => ?_
    refine (Keeps.foldl (fun t n => keeps_lineAbsentBay n t) eight s).trans ?_
    exact .ite (fun h => .of_site (site_holdLock_moving 2 h)) fun _ => .refl _
  | fire =>
    refine .after (u := deliverFirePort s) (by simp) ?_
    exact .ite (fun _ => .refl _) fun _ => Keeps.foldl (fun t z => keeps_fireAbsentZone z t) eight _
  | custody => exact .refl s

theorem keeps_touchPort (p : Port) (s : State) : Keeps s (touchPort p s) := by
  unfold touchPort
  refine .after (site_setPort s p _) (.ite (fun _ => .refl _) fun _ => ?_)
  exact .before (site_notify ..) (keeps_deliverPresence ..)

/-! ### Frames -/

theorem site_countError (p : Port) (s : State) : (countError p s).site = s.site := by
  unfold countError
  dsimp only
  split <;> simp

theorem site_discardFrame (p : Port) (s : State) : (discardFrame p s).site = s.site := by
  simp only [discardFrame, site_setPort, site_countError]

theorem keeps_receiveFrame (p : Port) (f : Frame) (s : State) : Keeps s (receiveFrame p f s) := by
  refine .ite (fun _ => .refl s) fun _ => .ite (fun _ => ?_) fun _ => ?_
  · exact .after (site_setPort ..) (keeps_touchPort ..)
  · exact .before (site_discardFrame ..) (keeps_touchPort ..)

end Sys2Proof.Machine
end

