-- ==== Sys2Proof/Proofs/Moves.lean ====
section
/-! PROOFS, layer 7. The moves of packs that the requests carry out keep the laws of the site and of the lots. -/

namespace Sys2Proof.Machine

theorem pack_of_lookup {s : State} {h : Handle} {p : Pack} (f : s.lookup h = some p) :
    (s.record h.index).pack = some p := (State.lookup_eq_some.1 f).2

/-- The shred queue is no part of the site. -/
theorem site_queue (s : State) (q : List Handle) : ({ s with feed.queue := q } : State).site = s.site := rfl

/-! ### A record rewritten without a change of energy -/

/-- What the law of the site says of an inventory that counts a pack (R19). -/
theorem counted_of_clauses {s : State} (c : SiteClauses s) {i : Fin 256} {p : Pack} (f : (s.record i).pack = some p)
    (z : Fin 8) (hz : p.zone = some z) : p.standing ≤ vget s.inventories z := by
  have share : (s.record i).energyIn z ≤ zoneSum s.packs z := energyIn_le_zoneSum s.packs i z
  have mine : (s.record i).energyIn z = p.standing := by
    rw [show s.record i = ⟨(s.record i).gen, some p⟩ by rw [← f], energyIn_some, if_pos hz]
  rw [c.inventory z]
  omega

/-- Recheck required is set on a live pack off the lock (R12). -/
theorem keeps_recheck {s : State} {i : Fin 256} {p : Pack} (f : (s.record i).pack = some p)
    (live : p.state.terminal = false) (off : p.loc ≠ .feedLock) :
    Keeps s (s.setPack i (some { p with recheck := true })) := by
  refine .of_clauses fun c => ?_
  refine keeps_rewritten (p := { p with recheck := true }) f rfl rfl (c.placed i p f) off live live ?_
  exact congrArg (fun inv => ({ s.site with packs := _, inventories := inv } : Site))
    (invStored_same rfl rfl (counted_of_clauses c f)).symm

/-- An occupant's record rewritten in its state and place, as a sample books its energy (R85). -/
theorem keeps_storeOccupant {s : State} {n : Fin 8} {i : Fin 256} {o p : Pack} (occ : s.occupantPack n = some (i, o))
    (loc : p.loc = o.loc) (lot : p.lot = o.lot) (state : p.state = o.state) : Keeps s (storePack i p s) := by
  refine .of_clauses fun c => ?_
  obtain ⟨f, hl, placed⟩ := occupant_stands c occ
  have placed' : p.placed = true := placed_in_bay (loc.trans hl) (state ▸ bayState_of_placed placed hl)
  refine keeps_rewritten f loc lot placed' (by rw [hl]; exact nofun) (live_in_bay placed hl)
    (live_in_bay placed' (loc.trans hl)) ?_
  rw [site_storePack, f]

/-! ### Into a bay -/

/-- An EMPTY bay has no occupant (R47). -/
theorem bay_free {s : State} (c : SiteClauses s) {n : Fin 8} (empty : (s.bay n).state = .empty) :
    s.holds (.bay n) = none := c.filled n empty

theorem keeps_placeInBay {h : Handle} {p : Pack} {n : Fin 8} {recheck : Bool} {s : State} (f : s.lookup h = some p)
    (live : p.state.terminal = false) (off : p.loc ≠ .feedLock) (empty : (s.bay n).state = .empty) :
    Keeps s (placeInBay h p n recheck s) := by
  refine .of_clauses fun c => ?_
  refine .trans ?_ (keeps_deliverPlaces ..)
  have site : (occupyBay n h p.treatment recheck (leaveLoc p.loc (transition h.index (p.loadedIn n) s))).site =
      ⟨vset s.packs h.index ⟨(s.record h.index).gen, some (p.loadedIn n)⟩, invStored (some p) (p.loadedIn n) s.inventories,
        vset (kindsLeft p.loc s.site.bays) n (some (h, false)), s.feed.lock.kind, s.site.lots⟩ := by
    rw [site_occupyBay, site_leaveLoc, site_transition, pack_of_lookup f]; rfl
  refine Moves.keeps (o := p) (p := p.loadedIn n) (pack_of_lookup f) rfl live rfl rfl
    (fun _ => .inl (bay_free c empty)) (congrArg Site.lots site :) (Moves.of_site site (fun m => ?_) ?_)
  · rw [vget_vset, vget_kindsLeft, handle_of_lookup f]
    simp only [Pack.loadedIn, Loc.bay.injEq, eq_comm (a := m), Option.map_some]
  · simp [Pack.loadedIn, off]

/-! ### Out of a bay, and between the stores -/

/-- A live pack that leaves a bay or a store for a store. -/
theorem keeps_toStore {i : Fin 256} {o p : Pack} {s t : State} (f : (s.record i).pack = some o) (lot : p.lot = o.lot)
    (ho : o.state.terminal = false) (off : o.loc ≠ .feedLock) (placed : p.placed = true)
    (hp : p.state.terminal = false) (single : p.loc.single = false)
    (site : t.site = { s.site with
      packs := vset s.packs i ⟨(s.record i).gen, some p⟩
      inventories := invStored (some o) p s.inventories
      bays := kindsLeft o.loc s.site.bays }) : Keeps s t := by
  have noBay : ∀ n, p.loc ≠ .bay n := fun n e => by simp [e, Loc.single] at single
  have noLock : p.loc ≠ .feedLock := fun e => by simp [e, Loc.single] at single
  refine Moves.keeps f lot ho placed hp (fun h => by simp [single] at h) (congrArg Site.lots site :)
    (Moves.of_site site (fun n => ?_) ?_)
  · rw [vget_kindsLeft, if_neg (noBay n)]; rfl
  · simp [noLock, off, State.site]

theorem keeps_moveState {h : Handle} {p : Pack} {dest : Loc} {s : State} (f : s.lookup h = some p)
    (m : movable p dest = true) : Keeps s (moveState h p dest s) := by
  have moved : (movedPack p dest).placed = true ∧ (movedPack p dest).state.terminal = false ∧
      p.state.terminal = false ∧ p.loc ≠ .feedLock ∧ (movedPack p dest).loc.single = false := by
    unfold movable at m
    split at m
    case h_5 => exact nomatch m
    all_goals
      rename_i hs hl
      simp [movedPack, Pack.placed, hs, hl, PackState.terminal, Loc.single]
  obtain ⟨placed, hp, ho, off, single⟩ := moved
  refine .trans ?_ (keeps_deliverPlaces ..)
  refine keeps_toStore (o := p) (p := movedPack p dest) (pack_of_lookup f) rfl ho off placed hp single ?_
  rw [site_leaveLoc, site_noticePack, site_storePack, pack_of_lookup f]

/-- A pack in a DONE bay is DISCHARGED there (R112). -/
theorem discharged_of_doneBay {s : State} {p : Pack} {n : Fin 8} (h : doneBay s p = some n) :
    p.state = .discharged ∧ p.loc = .bay n := by
  unfold doneBay at h
  split at h
  case h_1 hs hl =>
    split at h
    · cases h; exact ⟨hs, hl⟩
    · exact nomatch h
  case h_2 => exact nomatch h

theorem keeps_enqueueState {h : Handle} {p : Pack} {n : Fin 8} {s : State} (f : s.lookup h = some p)
    (done : doneBay s p = some n) : Keeps s (enqueueState h p n s) := by
  obtain ⟨hs, hl⟩ := discharged_of_doneBay done
  unfold enqueueState
  refine .trans ?_ (keeps_deliverPlaces ..)
  refine keeps_toStore (o := p) (p := { p with state := .queued, loc := .buffer }) (pack_of_lookup f) rfl
    (by rw [hs]; rfl) (by rw [hl]; exact nofun) rfl rfl rfl ?_
  rw [site_emptyBay, hl, site_queue, site_transition, pack_of_lookup f]
  rfl

theorem keeps_removeToStore {h : Handle} {p : Pack} {s : State} (f : s.lookup h = some p) (queued : p.state = .queued) :
    Keeps s (removeToStore h p s) := by
  refine .of_clauses fun c => ?_
  have stood : (s.record h.index).pack = some p := pack_of_lookup f
  have hl : p.loc = .buffer := by
    have placed := c.placed _ p stood
    cases e : p.loc <;> simp [Pack.placed, queued, e] at placed ⊢
  refine .trans ?_ (keeps_deliverPlaces ..)
  refine keeps_toStore (o := p) (p := { p with state := .quarantined, cause := some .operator, loc := .quarantine }) stood rfl
    (by rw [queued]; rfl) (by rw [hl]; exact nofun) rfl rfl rfl ?_
  rw [site_transition, hl]
  exact congrArg (fun o => ({ s.site with packs := _, inventories := invStored o _ _ } : Site)) stood

/-! ### Into and out of the lock -/

/-- A QUEUED pack stands in the buffer (R4). -/
theorem queued_in_buffer {p : Pack} (placed : p.placed = true) (queued : p.state = .queued) : p.loc = .buffer := by
  cases e : p.loc <;> simp [Pack.placed, queued, e] at placed ⊢

theorem keeps_feedState {h : Handle} {p : Pack} {s : State} (f : s.lookup h = some p) (queued : p.state = .queued)
    (empty : s.feed.lock.state = .empty) : Keeps s (feedState h p s) := by
  refine .of_clauses fun c => ?_
  have stood : (s.record h.index).pack = some p := pack_of_lookup f
  have hl := queued_in_buffer (c.placed _ p stood) queued
  unfold feedState
  refine .trans ?_ (keeps_deliverPlaces ..)
  let y : Pack := { p with state := .feeding, loc := .feedLock, residualAtFeed := some p.standing }
  have site : (setLock ⟨.loading, some h, false, false, none⟩
      (transition h.index y { s with feed.queue := s.feed.queue.tail })).site =
      { s.site with
        packs := vset s.packs h.index ⟨(s.record h.index).gen, some y⟩
        inventories := invStored (some p) y s.inventories
        lock := (some h, false, false) } := by
    rw [site_lockedAs, site_transition, ← stood]; rfl
  refine Moves.keeps (o := p) (p := y) stood rfl (by rw [queued]; rfl) rfl rfl (fun _ => .inl (c.lockEmpty.2 empty)) (congrArg Site.lots site :)
    (Moves.of_site site (fun n => ?_) ?_)
  · simp [y, hl, State.site, State.bay]
  · simp [y, handle_of_lookup f]

/-- The lock's pack goes to a store, and the lock is EMPTY (R125). -/
theorem keeps_outOfLock {i : Fin 256} {o p : Pack} {s t : State} (f : (s.record i).pack = some o) (lot : p.lot = o.lot)
    (ho : o.state.terminal = false) (hl : o.loc = .feedLock) (placed : p.placed = true)
    (hp : p.state.terminal = false) (single : p.loc.single = false)
    (site : t.site = { s.site with
      packs := vset s.packs i ⟨(s.record i).gen, some p⟩
      inventories := invStored (some o) p s.inventories
      lock := Lock.initial.kind }) : Keeps s t := by
  have noBay : ∀ n, p.loc ≠ .bay n := fun n e => by simp [e, Loc.single] at single
  have noLock : p.loc ≠ .feedLock := fun e => by simp [e, Loc.single] at single
  refine Moves.keeps f lot ho placed hp (fun h => by simp [single] at h) (congrArg Site.lots site :)
    (Moves.of_site site (fun n => ?_) ?_)
  · simp [noBay n, hl, State.site, State.bay]
  · simp [noLock, hl]

theorem keeps_requeue {h : Handle} {p : Pack} {s : State} (f : s.lookup h = some p) (hl : p.loc = .feedLock)
    (live : p.state.terminal = false) : Keeps s (requeue h p s) := by
  unfold requeue
  refine .trans ?_ (keeps_deliverPlaces ..)
  refine keeps_outOfLock (o := p) (p := { p with state := .queued, loc := .buffer, residualAtFeed := none })
    (pack_of_lookup f) rfl live hl rfl rfl rfl ?_
  rw [site_lockedAs, site_queue, site_transition, pack_of_lookup f]

theorem keeps_emptyBlocked {h : Handle} {p : Pack} {s : State} (f : s.lookup h = some p) (hl : p.loc = .feedLock)
    (q : p.state = .quarantined) : Keeps s (emptyBlocked h p s) := by
  refine .trans ?_ (keeps_deliverPlaces ..)
  refine keeps_outOfLock (o := p) (p := { p with loc := .quarantine }) (pack_of_lookup f) rfl (by rw [q]; rfl) hl
    (by simp [Pack.placed, q]) (by rw [q]; rfl) rfl ?_
  rw [site_lockedAs, site_noticePack, site_storePack, pack_of_lookup f]

/-! ### Out of the site -/

theorem keeps_retire {h : Handle} {p : Pack} {s : State} (f : s.lookup h = some p) (q : p.state = .quarantined)
    (hl : p.loc = .quarantine) : Keeps s (retire h.index p { p with state := .withdrawn, loc := .out } s) := by
  refine .trans ?_ (keeps_deliverPlaces ..)
  let y : Pack := { p with state := .withdrawn, loc := .out }
  have site : (reportTerminal y (transition h.index y s)).site =
      ⟨vset s.packs h.index ⟨(s.record h.index).gen, some y⟩, invStored (some p) y s.inventories, s.site.bays,
        s.site.lock, vmap (·.map (·.ledger)) (vset s.lot.lots p.lot ((s.lotAt p.lot).map (·.countTerminal y)))⟩ := by
    rw [site_reportTerminal, site_transition, pack_of_lookup f]
    simp only [State.lotAt, transition_eq, y]
  refine Moves.keeps_retired (o := p) (p := y) (pack_of_lookup f) rfl (by rw [q]; rfl) rfl rfl rfl ?_
    (Moves.of_site site (fun n => ?_) ?_)
  · rw [transition_eq]; rfl
  · simp [hl, State.site, State.bay]
  · simp [hl, State.site]

theorem keeps_dropState {h : Handle} {p : Pack} {s : State} (f : s.lookup h = some p) (feeding : p.state = .feeding) :
    Keeps s (dropState h p s) := by
  refine .of_clauses fun c => ?_
  have stood : (s.record h.index).pack = some p := pack_of_lookup f
  have hl : p.loc = .feedLock := by
    have placed := c.placed _ p stood
    cases e : p.loc <;> simp [Pack.placed, feeding, e] at placed ⊢
  refine .trans (.trans ?_ (keeps_deliverPlaces ..)) (keeps_testClosing ..)
  let y : Pack := { p with state := .shredded, loc := .shredder }
  have site : (setLock Lock.initial (reportTerminal y (transition h.index y s))).site =
      ⟨vset s.packs h.index ⟨(s.record h.index).gen, some y⟩, invStored (some p) y s.inventories, s.site.bays,
        Lock.initial.kind,
        vmap (·.map (·.ledger)) (vset s.lot.lots p.lot ((s.lotAt p.lot).map (·.countTerminal y)))⟩ := by
    rw [site_lockedAs, site_reportTerminal, site_transition, stood]
    simp only [State.lotAt, transition_eq, y]
  refine Moves.keeps_retired (o := p) (p := y) stood rfl (by rw [feeding]; rfl) rfl rfl rfl ?_
    (Moves.of_site site (fun n => ?_) ?_)
  · have kept : (setLock Lock.initial (reportTerminal y (transition h.index y s))).lot =
        (reportTerminal y (transition h.index y s)).lot := by
      exact (congrArg State.lot (lessFeed_setLock Lock.initial (reportTerminal y (transition h.index y s))) :)
    rw [kept, transition_eq]
    rfl
  · simp [y, hl, State.site, State.bay]
  · simp [y, hl]

/-! ### Into the site -/

theorem keeps_admitAt {i : Fin 256} {p : Pack} {s : State} {l : Lot} (f : (s.record i).pack = none)
    (used : s.lotAt p.lot = some l) (opened : l.state = .opened) (hl : p.loc = .intake)
    (hs : p.state = .received ∨ p.state = .quarantined) : Keeps s (admitAt i p s) := by
  have placed : p.placed = true := by rcases hs with e | e <;> simp [Pack.placed, e, hl]
  have live : p.state.terminal = false := by rcases hs with e | e <;> rw [e] <;> rfl
  unfold admitAt
  refine .trans ?_ (keeps_deliverPlaces ..)
  rw [noticePack_storePack, f]
  refine Moves.keeps_admitted (l' := { l with admitted := l.admitted + 1, intakeMass := l.intakeMass + p.mass }) f used
    opened placed live (by rw [hl]; rfl) ?_ rfl ⟨rfl, rfl, fun n => ?_, ?_⟩
  · simp only [State.lotAt] at used
    simp [State.setLot, State.lotAt, used]
  · rw [hl]; rfl
  · rw [hl]; rfl

end Sys2Proof.Machine
end

