-- ==== Sys2Proof/Proofs/Owners.lean ====
section
/-! PROOFS, layer 8. Every request's owner keeps the laws of the site and of the lots. -/

namespace Sys2Proof.Machine

/-! ### Replies -/

/-- A reply to a request found in `s` leaves a state that keeps the laws of `s`. -/
structure Sound (s : State) (r : Reply) : Prop where
  kept : Keeps s r.st

theorem Sound.refuse (k : Result) (s : State) : Sound s (refuse k s) := ⟨.refl s⟩

theorem Sound.reply {s t : State} (body : List Byte) (k : Keeps s t) : Sound s (reply t body) := ⟨k⟩

/-- A reply that leaves the site alone. -/
theorem Sound.reply_site {s t : State} (body : List Byte) (h : t.site = s.site) : Sound s (Machine.reply t body) :=
  .reply body (.of_site h)

theorem Sound.ite {c : Prop} [Decidable c] {s : State} {q r : Reply} (hq : c → Sound s q) (hr : ¬c → Sound s r) :
    Sound s (if c then q else r) := by
  split
  · exact hq ‹_›
  · exact hr ‹_›

/-- A check that refuses, before the rest of the owner's work. -/
theorem Sound.check {c : Prop} [Decidable c] {s : State} {k : Result} {r : Reply} (h : ¬c → Sound s r) :
    Sound s (if c then Machine.refuse k s else r) := .ite (fun _ => .refuse k s) h

theorem Sound.withPack {index gen : Nat} {s : State} {k : Handle → Pack → Reply}
    (h : ∀ d p, s.lookup d = some p → Sound s (k d p)) : Sound s (withPack index gen s k) := by
  unfold Machine.withPack
  split
  · exact .refuse ..
  · split
    · exact .refuse ..
    · exact h _ _ ‹_›

theorem Sound.withLot {lot : Nat} {s : State} {k : Fin 8 → Reply} (h : ∀ j, Sound s (k j)) :
    Sound s (withLot lot s k) := by
  unfold Machine.withLot
  split
  · exact .refuse ..
  · exact h _

theorem Sound.withBay {bay : Nat} {s : State} {k : Fin 8 → Reply} (h : ∀ n, Sound s (k n)) :
    Sound s (withBay bay s k) := by
  unfold Machine.withBay
  split
  · exact .refuse ..
  · exact h _

theorem Sound.withZone {zone : Nat} {s : State} {k : Fin 8 → Reply} (h : ∀ z, Sound s (k z)) :
    Sound s (withZone zone s k) := by
  unfold Machine.withZone
  split
  · exact .refuse ..
  · exact h _

theorem Sound.guarded {code target g1 g2 : Nat} {owner : State → Reply} {s : State} (h : Sound s (owner s)) :
    Sound s (guarded code target g1 g2 owner s) := .ite (fun _ => h) fun _ => .refuse ..

/-! ### Pack register -/

theorem sound_admit (tag lot typeCode damaged mass nominal cells : Nat) (s : State) :
    Sound s (admitReply tag lot typeCode damaged mass nominal cells s) := by
  unfold admitReply
  split
  case h_2 => exact .refuse ..
  case h_1 j d _ _ =>
    refine .check fun _ => .check fun isOpen => .check fun _ => ?_
    split
    · exact .refuse ..
    case h_2 i lowest =>
      refine .check fun _ => .reply _ ?_
      have free : (s.record i).pack = none := by simpa using List.find?_some lowest
      simp only [lotIn, Bool.not_eq_true', Bool.not_eq_false] at isOpen
      cases used : s.lotAt j with
      | none => simp [used] at isOpen
      | some l =>
        refine keeps_admitAt (l := l) free used (by simpa [used] using isOpen) rfl ?_
        simp only [admitted, admitState]
        split
        · exact .inr rfl
        · split
          · exact .inr rfl
          · exact .inl rfl

theorem sound_withdraw (index gen : Nat) (s : State) : Sound s (withdrawReply index gen s) := by
  refine .withPack fun h p f => .check fun stored => .check fun _ => .reply _ ?_
  obtain ⟨q, hl⟩ := not_or.1 stored
  exact (keeps_retire f (not_not.1 q) (not_not.1 hl)).trans (keeps_testClosing ..)

/-- An assignable pack is live and off the lock (R8). -/
theorem live_of_assignable {s : State} {p : Pack} {n : Fin 8} (h : assignable s p n = true) :
    p.state.terminal = false ∧ p.loc ≠ .feedLock := by
  unfold assignable at h
  split at h
  case h_1 hs hl => rw [hs, hl]; exact ⟨rfl, nofun⟩
  case h_2 hs hl => rw [hs, hl]; exact ⟨rfl, nofun⟩
  case h_3 => exact nomatch h

theorem sound_assign (index gen bay : Nat) (s : State) : Sound s (assignReply index gen bay s) := by
  unfold assignReply
  split
  · exact .refuse ..
  · refine .withPack fun h p f => .check fun ready => .check fun empty => .check fun _ => .reply _ ?_
    obtain ⟨live, off⟩ := live_of_assignable (by simpa using ready)
    exact keeps_placeInBay f live off (not_not.1 empty)

theorem sound_move (index gen dest : Nat) (s : State) : Sound s (moveReply index gen dest s) := by
  unfold moveReply
  split
  · exact .refuse ..
  · refine .withPack fun h p f => .ite (fun _ => .reply _ (.refl s)) fun _ => .check fun lets => .check fun _ => .reply _ ?_
    simp only [Bool.or_eq_true, not_or, Bool.not_eq_true', Bool.not_eq_false] at lets
    exact keeps_moveState f lets.1

theorem keeps_quarantineBay (n : Fin 8) (s : State) : Keeps s (quarantineBay n s) := by
  refine .ite (fun _ => .trans (keeps_stopLoad n s) (keeps_putBay rfl ?_)) fun _ => .refl s
  simp [Bay.cleared]

theorem keeps_quarantinePlace (h : Handle) (p : Pack) (s : State) : Keeps s (quarantinePlace h p s) := by
  unfold quarantinePlace
  split
  · exact keeps_quarantineBay ..
  · exact .ite (fun _ => .of_site (site_queue ..)) fun _ => .refl s

theorem sound_quarantine (index gen : Nat) (s : State) : Sound s (quarantineReply index gen s) := by
  refine .withPack fun h p f => ⟨.of_clauses fun c => ?_⟩
  have stood := pack_of_lookup f
  have placed := c.placed _ p stood
  have works : p.state.terminal = false → p.state ≠ .feeding → p.state ≠ .quarantined →
      Keeps s (quarantinePlace h p (quarantinePack h.index .operator s)) := fun live idle q => by
    refine .trans (keeps_quarantinePack stood live (fun hl => ?_) _) (keeps_quarantinePlace ..)
    exact (lockState_of_placed placed hl).elim idle q
  split
  case h_5 notFeeding notShredded notWithdrawn notQuarantined =>
    refine works ?_ notFeeding notQuarantined
    cases e : p.state <;> simp_all [PackState.terminal]
  all_goals exact .refl s

/-! ### Lots -/

/-- A FREE slot is taken by a lot of no counts: no record names it (R158, R159). -/
theorem keeps_openLot {j : Fin 8} {s : State} (number : Nat) (free : s.lotAt j = none) :
    Keeps s (s.setLot j (some (Lot.fresh number s.now))) := by
  have lotAt : ∀ k, (s.setLot j (some (Lot.fresh number s.now))).lotAt k =
      if k = j then some (Lot.fresh number s.now) else s.lotAt k := fun k => by
    simp only [State.lotAt, State.setLot, vget_vset]
  refine ⟨fun c => ⟨siteClauses_of_parts (s := s) rfl rfl (fun _ => rfl) rfl (fun i p l hp hl hc => ?_) c, fun law k => ?_⟩⟩
  · rw [lotAt] at hl
    split at hl
    · cases hl; exact nomatch hc
    · exact c.closed i p l hp hl hc
  · have mine := law k
    by_cases e : k = j
    case neg => rw [lotAt, if_neg e]; exact mine
    case pos =>
      rw [lotAt, if_pos e]
      rw [e, free] at mine
      have none : liveCount s j = 0 := by
        rw [liveCount_eq]
        refine Finset.sum_eq_zero fun i _ => ?_
        have away := mine i
        simp only [Rec.liveIn]
        cases hp : (vget s.packs i).pack with
        | none => rfl
        | some p => simp [away p hp]
      show 0 = 0 + 0 + liveCount s k
      rw [e, none]

theorem sound_openLot (number : Nat) (s : State) : Sound s (openLotReply number s) := by
  refine .check fun _ => .check fun _ => ?_
  split
  · exact .refuse ..
  case h_2 j lowest =>
    have free : s.lotAt j = none := by simpa using List.find?_some lowest
    exact .reply _ (.before (site_noticeLot ..) (keeps_openLot number free))

theorem keeps_drainLot {j : Fin 8} {l : Lot} {s : State} (used : s.lotAt j = some l) : Keeps s (drainLot j l s) := by
  refine .trans (.before (site_noticeLot ..) ?_) (keeps_testClosing ..)
  exact keeps_setLot used rfl nofun

theorem sound_closeLot (lot : Nat) (s : State) : Sound s (closeLotReply lot s) := by
  refine .withLot fun j => ?_
  split
  · exact .refuse ..
  · exact .check fun _ => .reply _ (keeps_drainLot ‹_›)

/-- A bay or the lock holds no terminal pack (R4). -/
theorem live_of_single {p : Pack} (placed : p.placed = true) (single : p.loc.single = true) :
    p.state.terminal = false := by
  rw [not_terminal_iff]
  refine ⟨fun e => ?_, fun e => ?_⟩ <;> cases hl : p.loc <;> simp_all [Pack.placed, Loc.single]

/-- The records of a CLOSED lot freed, and its slot with them (R16, R165). -/
theorem keeps_releaseLot {j : Fin 8} {l : Lot} {s t : State} (used : s.lotAt j = some l) (closed : l.state = .closed)
    (packs : t.packs = freeRecords j s.packs) (inventories : t.inventories = s.inventories)
    (bays : ∀ n, t.bay n = s.bay n) (lock : t.feed.lock = s.feed.lock)
    (lots : ∀ k, t.lotAt k = if k = j then none else s.lotAt k) : Keeps s t := by
  have recs : ∀ i, t.record i = if (s.record i).ofLot j then (s.record i).freed else s.record i := fun i => by
    rw [State.record, packs, freeRecords, vget_vmap]; rfl
  have stays : ∀ {i p}, (s.record i).pack = some p → p.lot ≠ j → t.record i = s.record i := fun f away => by
    rw [recs, if_neg (by simp [Rec.ofLot, f, away])]
  have stood : ∀ {i p}, (t.record i).pack = some p → (s.record i).pack = some p ∧ p.lot ≠ j := fun {i p} f => by
    rw [recs] at f
    split at f
    · exact nomatch f
    case isFalse other => exact ⟨f, fun e => other (by simp [Rec.ofLot, f, e])⟩
  refine ⟨fun c => ?_⟩
  have terminal : ∀ {i p}, (s.record i).pack = some p → p.lot = j → p.state.terminal = true := fun f e =>
    c.closed _ _ l f (e ▸ used) closed
  have holds : ∀ k, t.holds k = s.holds k := fun k => by cases k <;> simp only [State.holds, bays, lock]
  have share : ∀ i z, (vget t.packs i).energyIn z = (vget s.packs i).energyIn z := fun i z => by
    show (t.record i).energyIn z = (s.record i).energyIn z
    rw [recs]
    split
    case isFalse => rfl
    case isTrue mine =>
      cases e : s.record i with
      | mk g o =>
        cases o with
        | none => rfl
        | some p =>
          have ended := terminal (i := i) (p := p) (by rw [e]) (by simpa [Rec.ofLot, e] using mine)
          rw [energyIn_some, Pack.standing_terminal ended, ite_self]
          rfl
  refine ⟨⟨fun i p f => c.placed i p (stood f).1, fun k h e => ?_, fun i p f hs => ?_, fun n => ?_, ?_, fun i p f hl => ?_,
    fun i p k f hk hc => ?_, fun z => ?_⟩, fun law k => ?_⟩
  · rw [holds] at e
    obtain ⟨p, f, hl⟩ := c.held k h e
    have single := single_of_holds e
    have live := live_of_single (c.placed _ p (pack_of_lookup f)) (by rw [hl]; exact single)
    have away : p.lot ≠ j := fun e => by simp [terminal (pack_of_lookup f) e] at live
    exact ⟨p, by rw [State.lookup, stays (pack_of_lookup f) away]; exact f, hl⟩
  · obtain ⟨f, away⟩ := stood f
    rw [holds, State.handle, stays f away]
    exact c.holder i p f hs
  · rw [Filled, bays]; exact c.filled n
  · rw [lock]; exact c.lockEmpty
  · rw [lock]; exact c.lockPack i p (stood f).1 hl
  · rw [lots] at hk
    split at hk
    · exact nomatch hk
    · exact c.closed i p k (stood f).1 hk hc
  · rw [inventories, c.inventory z, zoneSum_eq, zoneSum_eq]
    exact Finset.sum_congr rfl fun i _ => (share i z).symm
  · by_cases e : k = j
    case pos =>
      rw [lots, if_pos e]
      exact fun i p f => e ▸ (stood f).2
    case neg =>
      have mine := law k
      have live : liveCount t k = liveCount s k := by
        rw [liveCount_eq, liveCount_eq]
        refine Finset.sum_congr rfl fun i _ => congrArg Bool.toNat ?_
        show (t.record i).liveIn k = (s.record i).liveIn k
        rw [recs]
        split
        case isFalse => rfl
        case isTrue its =>
          obtain ⟨p, f, hp⟩ := (Option.any_eq_true _ _).1 its
          have other : p.lot ≠ k := fun h => e (h.symm.trans (by simpa using hp))
          simp [Rec.liveIn, Rec.freed, f, other]
      rw [lots, if_neg e]
      cases hk : s.lotAt k with
      | none =>
        rw [hk] at mine
        exact fun i p f => mine i p (stood f).1
      | some m =>
        rw [hk] at mine
        simp only [live]
        exact mine

theorem sound_releaseLot (lot : Nat) (s : State) : Sound s (releaseLotReply lot s) := by
  refine .withLot fun j => ?_
  split
  · exact .refuse ..
  case h_2 l used =>
    refine .check fun closed => .reply _ (.before (site_noticeLot ..) ?_)
    exact keeps_releaseLot used (not_not.1 closed) rfl rfl (fun _ => rfl) rfl fun k => by
      simp only [State.lotAt, State.setLot, vget_vset]

theorem sound_outputWeight (lot mass final : Nat) (s : State) : Sound s (outputWeightReply lot mass final s) := by
  unfold outputWeightReply
  split
  case h_2 => exact .refuse ..
  case h_1 j f _ _ =>
    refine .check fun _ => ?_
    split
    · exact .refuse ..
    case h_2 l used =>
      refine .check fun _ => .check fun _ => .check fun _ => .check fun _ => .reply _ ?_
      have weighed : (s.setLot j (some { l with outputMass := l.outputMass + mass })).site = s.site :=
        site_setLot (by rw [used]; rfl)
      refine .after weighed (.onlyIf (.refl _) fun t => ?_)
      unfold finalWeight
      refine .trans (.of_site ?_) (keeps_testClosing ..)
      rw [site_setShred]
      refine site_setLot ?_
      cases t.lotAt j <;> rfl

theorem sound_switch (lot : Nat) (s : State) : Sound s (switchReply lot s) := by
  refine .withLot fun j => .check fun _ => .check fun _ => ?_
  split
  · exact .refuse ..
  · refine .check fun _ => .ite (fun _ => .reply _ (.refl s)) fun _ => ?_
    split <;> exact .reply_site _ (site_setShred ..)

theorem sound_cancel (s : State) : Sound s (cancelReply s) := .check fun _ => .reply_site _ (site_setShred ..)

theorem sound_chamberClear (s : State) : Sound s (chamberClearReply s) := by
  unfold chamberClearReply
  split
  · exact .refuse ..
  · exact .ite (fun _ => .reply _ (.refl s)) fun _ =>
      .ite (fun _ => .reply_site _ (site_setShred ..)) fun _ => .reply_site _ (site_setShred ..)

/-! ### Feed Controller -/

theorem sound_refuseRecheck {s : State} {h : Handle} {p : Pack} (f : s.lookup h = some p)
    (live : p.state.terminal = false) (off : p.loc ≠ .feedLock) : Sound s (refuseRecheck h.index p s) :=
  ⟨keeps_recheck (pack_of_lookup f) live off⟩

theorem sound_enqueue (index gen : Nat) (s : State) : Sound s (enqueueReply index gen s) := by
  refine .withPack fun h p f => ?_
  split
  · exact .refuse ..
  case h_2 n done =>
    obtain ⟨hs, hl⟩ := discharged_of_doneBay done
    refine .ite (fun _ => ?_) fun _ => .check fun _ => .check fun _ => .reply _ (keeps_enqueueState f done)
    exact sound_refuseRecheck f (by rw [hs]; rfl) (by rw [hl]; exact nofun)

theorem sound_remove (index gen dest : Nat) (s : State) : Sound s (removeReply index gen dest s) := by
  unfold removeReply
  split
  · exact .refuse ..
  · refine .withPack fun h p f => .check fun queued => ?_
    have queued := not_not.1 queued
    split
    · refine .check fun empty => .check fun _ => ⟨.of_clauses fun c => ?_⟩
      have hl := queued_in_buffer (c.placed _ p (pack_of_lookup f)) queued
      exact .after (site_queue ..) (keeps_placeInBay f (by rw [queued]; rfl) (by rw [hl]; exact nofun) (not_not.1 empty))
    · exact .check fun _ => .reply _ (keeps_removeToStore f queued)

theorem sound_feed (index gen : Nat) (s : State) : Sound s (feedReply index gen s) := by
  refine .withPack fun h p f => .check fun queued => .check fun empty => .check fun _ => .check fun _ =>
    .check fun _ => .ite (fun _ => ?_) fun _ => .check fun _ => .reply _ ?_
  · have queued := not_not.1 (not_or.1 queued).1
    refine ⟨.of_clauses fun c => ?_⟩
    have hl := queued_in_buffer (c.placed _ p (pack_of_lookup f)) queued
    exact keeps_recheck (pack_of_lookup f) (by rw [queued]; rfl) (by rw [hl]; exact nofun)
  · exact keeps_feedState f (not_not.1 (not_or.1 queued).1) (not_not.1 empty)

theorem sound_lockClosed (s : State) : Sound s (lockClosedReply s) := by
  refine .ite (fun moving => .reply_site _ (site_setLock ?_)) fun _ => .refuse ..
  exact Lock.kind_moved rfl (by rw [moving.1]; decide) (by simp)

theorem sound_return (index gen : Nat) (s : State) : Sound s (returnReply index gen s) := by
  refine .withPack fun h p f => .check fun _ => .check fun returnable => .check fun _ => .check fun _ => ?_
  refine .reply_site _ (site_setLock (Lock.kind_moved rfl ?_ (by simp)))
  simp only [Lock.returnable, Bool.not_eq_true', Bool.not_eq_false, Bool.and_eq_true, Bool.or_eq_true, beq_iff_eq] at returnable
  obtain ⟨⟨(e | e) | e, _⟩, _⟩ := returnable <;> rw [e] <;> decide

theorem sound_dropDone (index gen : Nat) (s : State) : Sound s (dropDoneReply index gen s) :=
  .withPack fun _ _ f => .check fun dropping =>
    .reply _ (keeps_dropState f (not_not.1 (not_or.1 dropping).1))

theorem sound_lockEmptied (s : State) : Sound s (lockEmptiedReply s) := by
  refine ⟨.of_clauses fun c => ?_⟩
  unfold lockEmptiedReply
  dsimp only
  split
  · exact .refl s
  case h_2 h p found =>
    unfold lockPack at found
    split at found
    · exact nomatch found
    case h_2 k occ =>
      obtain ⟨q, f, e⟩ := Option.map_eq_some_iff.1 found
      cases e
      obtain ⟨p', f', hl, hs⟩ := lock_stands c occ
      rw [f] at f'
      cases f'
      split
      case isTrue back =>
        have notBlocked : s.feed.lock.state ≠ .blocked := by rcases back.1 with e | e <;> rw [e] <;> decide
        refine keeps_requeue f hl ?_
        rw [hs, Lock.packState, if_neg notBlocked]
        rfl
      case isFalse =>
        split
        case isTrue blocked => exact keeps_emptyBlocked f hl (by rw [hs, Lock.packState, if_pos blocked])
        case isFalse => exact .refl s

/-! ### Bay Supervisor -/

theorem sound_bayReady {n : Fin 8} {s t : State} (k : Keeps s t) : Sound s (bayReady n s t) :=
  .check fun _ => .check fun _ => .reply _ k

/-- A bay's occupant takes another state of a bay's pack. -/
theorem keeps_occupantState {n : Fin 8} {s : State} (st : PackState) (hs : st = .loaded ∨ st = .discharging ∨
    st = .resting ∨ st = .discharged ∨ st = .quarantined) : Keeps s (onOccupant n (fun p => { p with state := st }) s) :=
  keeps_onOccupant fun _ _ _ => ⟨rfl, rfl, hs⟩

theorem keeps_startRecheck (n : Fin 8) (s : State) : Keeps s (startRecheck n s) := by
  refine .trans (keeps_occupantState (n := n) .resting (by simp)) (keeps_putBay ?_ ?_)
  · rfl
  · exact nofun

theorem keeps_startDischarge (n : Fin 8) (s : State) : Keeps s (startDischarge n s) :=
  .trans (keeps_occupantState (n := n) .discharging (by simp)) (keeps_enterDischarging ..)

theorem sound_start (bay : Nat) (s : State) : Sound s (startReply bay s) :=
  .withBay fun n => .check fun _ => sound_bayReady (.ite (fun _ => keeps_startRecheck n s) fun _ => keeps_startDischarge n s)

theorem sound_pause (bay : Nat) (s : State) : Sound s (pauseReply bay s) :=
  .withBay fun _ => .check fun _ => .reply _ (keeps_pauseBay ..)

theorem keeps_resumeState (n : Fin 8) (s : State) : Keeps s (resumeState n s) :=
  .onlyIf (keeps_enterDischarging ..) fun t => .of_site (site_takeBoundary n t)

theorem sound_resume (bay : Nat) (s : State) : Sound s (resumeReply bay s) :=
  .withBay fun n => .check fun _ => sound_bayReady (keeps_resumeState n s)

theorem keeps_abortState (n : Fin 8) (s : State) : Keeps s (abortState n s) := by
  refine .trans (.trans (keeps_occupantState (n := n) .loaded (by simp)) (keeps_stopLoad ..)) (keeps_putBay ?_ ?_)
  · rfl
  · exact nofun

theorem sound_abort (bay : Nat) (s : State) : Sound s (abortReply bay s) :=
  .withBay fun n => .check fun _ => .reply _ (keeps_abortState n s)

theorem site_writeSlotState (n : Fin 8) (sl : SlotName) (x : Slot) (s : State) :
    (writeSlotState n sl x s).site = s.site := by
  have slot : (s.setBay n ((s.bay n).setSlot sl x)).site = s.site := site_setBay (by cases sl <;> rfl)
  unfold writeSlotState
  dsimp only
  split
  · refine (site_setBay ?_).trans slot; rfl
  · split
    · exact slot
    · split <;> simp [slot]

theorem sound_writeSlot (bay slot current stop segment : Nat) (s : State) :
    Sound s (writeSlotReply bay slot current stop segment s) := by
  unfold writeSlotReply
  split
  · exact .check fun _ => .check fun _ => .reply_site _ (site_writeSlotState ..)
  · exact .refuse ..

theorem keeps_clearBayState (n : Fin 8) (s : State) : Keeps s (clearBayState n s) := by
  refine .of_clauses fun c => .ite (fun occupied => keeps_putBay rfl ?_) fun free => ?_
  · obtain ⟨h, occ⟩ := Option.isSome_iff_exists.1 occupied
    obtain ⟨p, f, _⟩ := c.held (.bay n) h occ
    have found : s.occupantPack n = some (h.index, p) :=
      occupantPack_eq_some.2 ⟨by rw [handle_of_lookup f, occ], pack_of_lookup f⟩
    show clearedState n s ≠ .empty
    simp only [clearedState, found]
    split <;> decide
  · have none : (s.bay n).kind = Option.none := by
      simpa [Bay.kind, Bay.occupied] using free
    refine .of_site ?_
    rw [emptyBay_eq]
    exact site_of_vset_bays rfl (by rw [none]; rfl) rfl rfl rfl rfl

theorem sound_clearBay (bay : Nat) (s : State) : Sound s (clearBayReply bay s) :=
  .withBay fun _ => .check fun _ => .check fun _ => .reply _ (keeps_clearBayState ..)

end Sys2Proof.Machine
end

