-- ==== Sys2Proof/Proofs/Rebuilt.lean ====
section
/-! PROOFS, layer 9. The hardware reset keeps the laws of the site and of the lots: bays, lock and inventories rebuilt from
the records agree with them. -/

namespace Sys2Proof.Machine

/-! ### Tables written place by place -/

/-- A fold that writes the places of a list, each from itself. -/
theorem vget_foldl_vset {α : Type} {m : Nat} (g : Fin m → α → α) (l : List (Fin m)) (nodup : l.Nodup) (v : Vector α m)
    (n : Fin m) : vget (l.foldl (fun v n => vset v n (g n (vget v n))) v) n =
      if n ∈ l then g n (vget v n) else vget v n := by
  induction l generalizing v with
  | nil => rfl
  | cons a l ih =>
    obtain ⟨fresh, nodup⟩ := List.nodup_cons.1 nodup
    rw [List.foldl_cons, ih nodup]
    by_cases e : n = a
    · subst e; simp [fresh]
    · simp [e]

theorem vget_foldl_eight {α : Type} (g : Fin 8 → α → α) (v : Vector α 8) (n : Fin 8) :
    vget (eight.foldl (fun v n => vset v n (g n (vget v n))) v) n = g n (vget v n) := by
  rw [vget_foldl_vset g eight (by decide), if_pos]
  revert n
  decide

theorem vget_recomputed (packs : Vector Rec 256) (z : Fin 8) : vget (recomputed packs) z = zoneSum packs z :=
  vget_foldl_eight (fun z _ => zoneSum packs z) _ z

/-! ### The pack at a place -/

theorem packAt_some {packs : Vector Rec 256} {l : Loc} {i : Fin 256} {p : Pack} (h : packAt packs l = some (i, p)) :
    (vget packs i).pack = some p ∧ p.loc = l := by
  obtain ⟨j, _, found⟩ := List.exists_of_findSome?_eq_some h
  split at found
  case h_1 q f =>
    split at found
    case isTrue hl => cases found; exact ⟨f, hl⟩
    case isFalse => exact nomatch found
  case h_2 => exact nomatch found

theorem packAt_none {packs : Vector Rec 256} {l : Loc} (h : packAt packs l = none) (i : Fin 256) {p : Pack}
    (f : (vget packs i).pack = some p) : p.loc ≠ l := by
  intro hl
  have missed := List.findSome?_eq_none_iff.1 h i (by simp [allRecords])
  simp [f, hl] at missed

/-- Where a place holds one pack at most, that is the pack found at it. -/
theorem packAt_eq {packs : Vector Rec 256} {l : Loc} {i : Fin 256} {p : Pack} (f : (vget packs i).pack = some p)
    (hl : p.loc = l) (alone : ∀ j q, (vget packs j).pack = some q → q.loc = l → j = i) :
    packAt packs l = some (i, p) := by
  cases e : packAt packs l with
  | none => exact absurd hl (packAt_none e i f)
  | some x =>
    obtain ⟨j, q⟩ := x
    obtain ⟨fq, hq⟩ := packAt_some e
    cases alone j q fq hq
    rw [f] at fq
    cases fq
    rfl

/-! ### Packs after a reset (R24) -/

theorem afterReset_loc (p : Pack) : p.afterReset.loc = p.loc := by unfold Pack.afterReset; split <;> rfl
theorem afterReset_lot (p : Pack) : p.afterReset.lot = p.lot := by unfold Pack.afterReset; split <;> rfl

theorem afterReset_terminal (p : Pack) : p.afterReset.state.terminal = p.state.terminal := by
  unfold Pack.afterReset
  split <;> simp_all [PackState.terminal]

theorem placed_afterReset {p : Pack} (placed : p.placed = true) : p.afterReset.placed = true := by
  unfold Pack.afterReset
  cases hs : p.state <;> cases hl : p.loc <;> simp_all [Pack.placed]

/-- At the lock every pack is QUARANTINED after a reset (R24, R130). -/
theorem afterReset_at_lock {p : Pack} (placed : p.placed = true) (hl : p.loc = .feedLock) :
    p.afterReset.state = .quarantined := by
  unfold Pack.afterReset
  rcases lockState_of_placed placed hl with e | e <;> simp [e]

theorem vget_afterReset {packs : Vector Rec 256} {i : Fin 256} {q : Pack} :
    (vget (vmap Rec.afterReset packs) i).pack = some q ↔ ∃ p, (vget packs i).pack = some p ∧ p.afterReset = q := by
  simp [Rec.afterReset]

/-! ### The site rebuilt -/

section

variable {s : State}

/-- The records after a reset. -/
def State.packsAfterReset (s : State) : Vector Rec 256 := vmap (·.afterReset) s.packs

theorem record_rebuild (i : Fin 256) : (rebuild s).record i = (s.record i).afterReset := by
  simp [rebuild, State.record]

theorem handle_rebuild (i : Fin 256) : (rebuild s).handle i = s.handle i := by
  simp [State.handle, record_rebuild, Rec.afterReset]

theorem bay_rebuild (n : Fin 8) : (rebuild s).bay n =
    resetBay s.packsAfterReset n (vget s.out.contactors n).readback :=
  vget_foldl_eight (fun n _ => resetBay s.packsAfterReset n (vget s.out.contactors n).readback) _ n

theorem pack_rebuild {i : Fin 256} {q : Pack} :
    ((rebuild s).record i).pack = some q ↔ ∃ p, (s.record i).pack = some p ∧ p.afterReset = q := by
  rw [record_rebuild]; simp [Rec.afterReset]

/-- A bay or the lock is rebuilt with the pack that stands at it. -/
theorem holds_rebuild (l : Loc) (single : l.single = true) : (rebuild s).holds l =
    (packAt s.packsAfterReset l).map fun x => s.handle x.1 := by
  have handle : ∀ i : Fin 256, (⟨i, (vget s.packsAfterReset i).gen⟩ : Handle) = s.handle i := fun i => by
    simp [State.packsAfterReset, Rec.afterReset, State.handle, State.record]
  cases l with
  | bay n =>
    simp only [State.holds, bay_rebuild, resetBay]
    cases packAt s.packsAfterReset (.bay n) with
    | none => rfl
    | some x => simp [handle]
  | feedLock =>
    simp only [State.holds]
    show (resetLock s.packsAfterReset).occupant = _
    unfold resetLock
    cases packAt s.packsAfterReset .feedLock with
    | none => rfl
    | some x => simp [handle]
  | _ => exact nomatch single

/-- What a bay or the lock held, it holds after a reset (R76, R130). -/
theorem packAt_afterReset (c : SiteClauses s) {i : Fin 256} {p : Pack} (f : (s.record i).pack = some p)
    (single : p.loc.single = true) : packAt s.packsAfterReset p.loc = some (i, p.afterReset) := by
  refine packAt_eq (vget_afterReset.2 ⟨p, f, rfl⟩) (afterReset_loc p) fun j q fq hq => ?_
  obtain ⟨o, fo, rfl⟩ := vget_afterReset.1 fq
  rw [afterReset_loc] at hq
  have its := c.holder j o fo (by rw [hq]; exact single)
  rw [hq, c.holder i p f single] at its
  exact (congrArg Handle.index (Option.some.inj its)).symm

theorem siteClauses_rebuild (c : SiteClauses s) : SiteClauses (rebuild s) := by
  refine ⟨fun i q fq => ?_, fun l h e => ?_, fun i q fq hs => ?_, fun n => ?_, ?_, fun i q fq hl => ?_,
    fun i q l fq hl hc => ?_, fun z => vget_recomputed _ z⟩
  · obtain ⟨p, f, rfl⟩ := pack_rebuild.1 fq
    exact placed_afterReset (c.placed i p f)
  · rw [holds_rebuild l (single_of_holds e)] at e
    obtain ⟨⟨i, q⟩, found, rfl⟩ := Option.map_eq_some_iff.1 e
    obtain ⟨f, hl⟩ := packAt_some found
    refine ⟨q, ?_, hl⟩
    show (rebuild s).lookup (s.handle i) = some q
    rw [← handle_rebuild, State.lookup_handle]
    exact f
  · obtain ⟨p, f, rfl⟩ := pack_rebuild.1 fq
    rw [afterReset_loc] at hs ⊢
    rw [holds_rebuild _ hs, packAt_afterReset c f hs, handle_rebuild]
    rfl
  · rw [Filled, bay_rebuild]
    unfold resetBay
    split
    · exact fun _ => rfl
    · intro empty
      simp only [bayStateOf] at empty
      split at empty <;> exact nomatch empty
  · show (resetLock _).occupant = none ↔ (resetLock _).state = .empty
    unfold resetLock
    split <;> simp [Lock.initial]
  · obtain ⟨p, f, rfl⟩ := pack_rebuild.1 fq
    rw [afterReset_loc] at hl
    have found := packAt_afterReset c f (by rw [hl]; rfl)
    rw [hl] at found
    have blocked : (rebuild s).feed.lock.state = .blocked := by
      show (resetLock s.packsAfterReset).state = .blocked
      simp [resetLock, found]
    rw [Lock.packState, if_pos blocked]
    exact afterReset_at_lock (c.placed i p f) hl
  · obtain ⟨p, f, rfl⟩ := pack_rebuild.1 fq
    rw [afterReset_terminal]
    rw [afterReset_lot] at hl
    exact c.closed i p l f hl hc

theorem lotLaw_rebuild (law : LotLaw s) : LotLaw (rebuild s) := by
  intro j
  have mine := law j
  have live : liveCount (rebuild s) j = liveCount s j := by
    rw [liveCount_eq, liveCount_eq]
    refine Finset.sum_congr rfl fun i _ => congrArg Bool.toNat ?_
    show ((rebuild s).record i).liveIn j = (s.record i).liveIn j
    rw [record_rebuild]
    cases e : (s.record i).pack <;> simp [Rec.liveIn, Rec.afterReset, e, afterReset_lot, afterReset_terminal]
  rw [show (rebuild s).lotAt j = s.lotAt j from rfl]
  cases e : s.lotAt j with
  | none =>
    rw [e] at mine
    intro i q fq
    obtain ⟨p, f, rfl⟩ := pack_rebuild.1 fq
    rw [afterReset_lot]
    exact mine i p f
  | some l =>
    rw [e] at mine
    simp only [live]
    exact mine

end

/-! ### The reset -/

theorem keeps_rebuild (s : State) : Keeps s (rebuild s) := ⟨fun c => ⟨siteClauses_rebuild c, lotLaw_rebuild⟩⟩

@[simp] theorem site_deposit (p : Posting) (s : State) : (deposit p s).site = s.site := by
  unfold deposit
  dsimp only
  split <;> rfl

@[simp] theorem site_firstDeliveries (s : State) : (firstDeliveries s).site = s.site := rfl

@[simp] theorem site_resetUncertain (old : Vector Rec 256) (s : State) : (resetUncertain old s).site = s.site := by
  unfold resetUncertain
  split
  · split
    · rw [site_deposit]
      exact site_setLot (by cases s.lotAt _ <;> rfl)
    · rfl
  · rfl

/-- Newly initialised memory keeps the laws: it holds no record (R172). -/
theorem forget_laws (s : State) : SiteClauses (forget s) ∧ LotLaw (forget s) :=
  have same : (forget s).site = State.reset.site := rfl
  ⟨siteClauses_of_site same ((siteLaw_iff _).1 State.reset.siteLaw), lotLaw_of_site same State.reset.lotLaw⟩

theorem keeps_hardwareReset (straps : Straps) (agrees : Bool) (s : State) :
    Keeps s (hardwareReset straps agrees s) := by
  refine .ite (fun _ => ?_) fun _ => ⟨fun _ => ?_⟩
  · unfold resetIntact
    refine .before ((site_firstDeliveries _).trans (site_resetUncertain ..)) (.after ?_ (keeps_rebuild _))
    rfl
  · have lost : (resetLost straps s).site = (rebuild { forget s with straps := straps }).site := by
      rw [resetLost, site_firstDeliveries, site_deposit]
    obtain ⟨clauses, lots⟩ := forget_laws s
    have again : ({ forget s with straps := straps } : State).site = (forget s).site := rfl
    exact ⟨siteClauses_of_site lost (siteClauses_rebuild (siteClauses_of_site again clauses)),
      fun _ => lotLaw_of_site lost (lotLaw_rebuild (lotLaw_of_site again lots))⟩

end Sys2Proof.Machine
end

