-- ==== Sys2Proof/Proofs/Kept.lean ====
section
/-! PROOFS: every step keeps the law of the site and the count law of the lots (chapters 01, 03, 06, 08). -/

namespace Sys2Proof.Machine

/-! ### Reads and ports -/

theorem sound_status (part : Nat) (s : State) : Sound s (statusReply part s) := by
  unfold statusReply
  split <;> exact ⟨.refl s⟩

theorem sound_readPack (index gen : Nat) (s : State) : Sound s (readPackReply index gen s) :=
  .withPack fun _ _ _ => .reply _ (.refl s)

theorem sound_list (p : Port) (state lot : Option Nat) (s : State) : Sound s (listReply p state lot s) := by
  unfold listReply
  split
  · exact .refuse ..
  · exact .reply_site _ (site_setPort ..)

theorem sound_cursor (p : Port) (index : Nat) (s : State) : Sound s (cursorReply p index s) := by
  unfold cursorReply
  split
  · exact .refuse ..
  · exact .reply_site _ (site_setPort ..)

theorem sound_readBay (bay : Nat) (s : State) : Sound s (readBayReply bay s) := by
  unfold readBayReply
  split <;> exact ⟨.refl s⟩

theorem sound_readZone (zone : Nat) (s : State) : Sound s (readZoneReply zone s) := by
  unfold readZoneReply
  split <;> exact ⟨.refl s⟩

theorem sound_readLot (lot : Nat) (s : State) : Sound s (readLotReply lot s) := by
  unfold readLotReply
  split
  · exact .refuse ..
  · split <;> exact ⟨.refl s⟩

theorem sound_readBank (bank : Nat) (s : State) : Sound s (readBankReply bank s) := by
  unfold readBankReply
  split <;> exact ⟨.refl s⟩

theorem sound_readConfig (item index : Nat) (s : State) : Sound s (readConfigReply item index s) := by
  unfold readConfigReply
  split <;> exact ⟨.refl s⟩

theorem site_clearBankState (k : BankId) (s : State) : (clearBankState k s).site = s.site := by
  simp only [clearBankState, site_deliverBanks, site_notify, site_relight]
  rfl

theorem sound_clearBank (p : Port) (bank number : Nat) (s : State) : Sound s (clearBankReply p bank number s) := by
  unfold clearBankReply
  split
  · exact .refuse ..
  · exact .check fun _ => .check fun _ => .ite (fun _ => .reply _ (.refl s)) fun _ =>
      .check fun _ => .reply_site _ (site_clearBankState ..)

theorem sound_enables (p : Port) (bank : Nat) (es : List Nat) (s : State) : Sound s (enablesReply p bank es s) := by
  unfold enablesReply
  split
  · exact .refuse ..
  · split
    · exact .refuse ..
    · exact .check fun _ => .reply_site _ rfl

/-! ### Classification -/

theorem sound_writeTreatment (index : Nat) (f : TreatmentFields) (s : State) :
    Sound s (writeTreatmentReply index f s) := by
  unfold writeTreatmentReply
  split
  · exact .reply_site _ rfl
  · exact .refuse ..

theorem sound_writeRange (index low high treatment enabled : Nat) (s : State) :
    Sound s (writeRangeReply index low high treatment enabled s) := by
  unfold writeRangeReply
  split
  · exact .check fun _ => .reply_site _ rfl
  · exact .refuse ..

theorem sound_writeSlotMap (fam treatment enabled : Nat) (s : State) :
    Sound s (writeSlotMapReply fam treatment enabled s) := by
  unfold writeSlotMapReply
  split
  · exact .reply_site _ rfl
  · exact .refuse ..

theorem sound_setMap (enable treatment : Nat) (s : State) : Sound s (setMapReply enable treatment s) := by
  unfold setMapReply
  split
  · exact .reply_site _ rfl
  · exact .refuse ..

theorem sound_curveBegin (curve : Nat) (s : State) : Sound s (curveBeginReply curve s) := by
  unfold curveBeginReply
  split
  · exact .refuse ..
  · exact .check fun _ => .reply_site _ rfl

theorem sound_curvePoint (curve voltage fraction : Nat) (s : State) :
    Sound s (curvePointReply curve voltage fraction s) := by
  unfold curvePointReply
  split
  · exact .refuse ..
  · exact .check fun _ => .check fun _ => .check fun _ => .reply_site _ rfl

theorem keeps_wakeChecks (k : Fin 4) (s : State) : Keeps s (wakeChecks k s) :=
  Keeps.foldl (fun t n => .onlyIf (.refl t) (keeps_runCheck n)) eight s

theorem keeps_judgeCurve (k : Fin 4) (points : List Point) (s : State) : Keeps s (judgeCurve k points s) := by
  refine .ite (fun _ => .after (u := setCurve k ⟨.valid, points⟩ s) rfl (keeps_wakeChecks ..)) fun _ => ?_
  exact .after (u := setCurve k ⟨.invalid, points⟩ s) rfl (keeps_post ..)

theorem sound_curveEnd (curve : Nat) (s : State) : Sound s (curveEndReply curve s) := by
  unfold curveEndReply
  split
  · exact .refuse ..
  · exact .check fun _ => .reply _ (keeps_judgeCurve ..)

/-! ### Fire Zone Controller -/

theorem keeps_evalZones (old new : Option (Fin 8)) (detail : Nat) (s : State) : Keeps s (evalZones old new detail s) := by
  have first : Keeps s (match new with
      | some z => evalZone z detail s
      | none => s) := by
    cases new with
    | none => exact .refl s
    | some z => exact keeps_evalZone ..
  unfold evalZones
  cases old with
  | none => exact first
  | some z => exact .ite (fun _ => first) fun _ => first.trans (keeps_evalZone ..)

theorem sound_writeDetector (detector zone kind : Nat) (s : State) :
    Sound s (writeDetectorReply detector zone kind s) := by
  unfold writeDetectorReply
  split
  · exact .check fun _ => .reply _ (.after (site_setDetector ..) (keeps_evalZones ..))
  · exact .refuse ..

theorem sound_writeZone (zone threshold delay : Nat) (s : State) : Sound s (writeZoneReply zone threshold delay s) :=
  .withZone fun _ => .check fun _ => .reply _ (.after (site_setZone ..) (keeps_evalRelease ..))

theorem sound_setHold (z : Fin 8) (on : Bool) (s : State) : Sound s (setHold z on s) :=
  .check fun _ => .ite (fun _ => .reply _ (.refl s)) fun _ => .reply_site _ (by simp)

theorem sound_release (target : Nat) (s : State) : Sound s (releaseReply target s) := by
  refine .withZone fun z => ?_
  split
  · exact .reply _ (.refl s)
  · exact .refuse ..
  · exact .reply _ (keeps_enterReleased ..)

theorem sound_zoneReset (target : Nat) (s : State) : Sound s (zoneResetReply target s) := by
  refine .withZone fun z => .check fun _ => .check fun _ => .reply _ ?_
  exact .trans (.after (site_command (.release z) false s) (keeps_changeZone ..)) (keeps_evalZone ..)

theorem sound_isolate (zone : Nat) (s : State) : Sound s (isolateReply zone s) :=
  .withZone fun _ => .check fun _ => .check fun _ => .reply _ (keeps_changeZone ..)

theorem sound_restore (zone : Nat) (s : State) : Sound s (restoreReply zone s) :=
  .withZone fun _ => .check fun _ => .reply _ (.trans (keeps_changeZone ..) (keeps_evalZone ..))

/-! ### Atmosphere Monitor -/

theorem sound_inertStart (s : State) : Sound s (inertStartReply s) := .check fun _ => .reply_site _ (site_changeInert ..)

theorem sound_inertStop (s : State) : Sound s (inertStopReply s) :=
  .check fun _ => .check fun _ => .reply_site _ (site_changeInert ..)

theorem sound_inertReset (target : Nat) (s : State) : Sound s (inertResetReply target s) :=
  .check fun _ => .check fun _ => .check fun _ => .reply_site _ (site_changeInert ..)

theorem site_writeLimits (l : InertLimits) (s : State) : (writeLimits l s).site = s.site := by
  simp only [writeLimits, site_checkPurgeTimeout, site_evalInert]
  rfl

theorem sound_writeInertLimits (purge run trip hold maxPurge : Nat) (s : State) :
    Sound s (writeInertLimitsReply purge run trip hold maxPurge s) :=
  .check fun _ => .reply_site _ (site_writeLimits ..)

theorem site_judgeDiscrepancy (s : State) : (judgeDiscrepancy s).site = s.site := by
  unfold judgeDiscrepancy
  dsimp only
  repeat' split
  · rfl
  · rfl
  · rfl
  · rw [site_post]; rfl

theorem site_judgeLoss (k : AnalyzerId) (before : Nat) (s : State) : (judgeLoss k before s).site = s.site := by
  unfold judgeLoss
  dsimp only
  split <;> simp

theorem site_analyzerEvent (k : AnalyzerId) (x : Analyzer) (s : State) : (analyzerEvent k x s).site = s.site := by
  unfold analyzerEvent
  dsimp only
  rw [site_evalInert]
  exact (site_judgeLoss ..).trans (site_judgeDiscrepancy _)

/-! ### LINE_RESTART -/

/-- The bay of no pack that is emptied was of no kind before. -/
theorem keeps_emptyBay {n : Fin 8} {s : State} (free : s.occupantPack n = none) : Keeps s (emptyBay n s) := by
  refine .of_clauses fun c => .of_site ?_
  have unheld : (s.bay n).occupant = none := by
    cases occ : (s.bay n).occupant with
    | none => rfl
    | some h =>
      obtain ⟨p, f, _⟩ := c.held (.bay n) h occ
      simp [State.occupantPack, occ, f] at free
  rw [emptyBay_eq]
  exact site_of_vset_bays rfl (by simp [Bay.kind, Bay.emptied, unheld]) rfl rfl rfl rfl

/-- The occupant of a bay asked to be checked again (R25, R75). -/
theorem keeps_recheckOccupant {n : Fin 8} {s : State} {i : Fin 256} {p : Pack} (occ : s.occupantPack n = some (i, p)) :
    Keeps s (s.setPack i (some { p with recheck := true })) := by
  refine .of_clauses fun c => ?_
  obtain ⟨f, hl, placed⟩ := occupant_stands c occ
  exact keeps_recheck f (live_in_bay placed hl) (by rw [hl]; exact nofun)

theorem keeps_restartPack {n : Fin 8} {s : State} {i : Fin 256} {p : Pack} (occ : s.occupantPack n = some (i, p)) :
    Keeps s (restartPack i p s) := by
  unfold restartPack
  split
  · exact keeps_occupant occ rfl rfl (by simp)
  · exact keeps_occupant occ rfl rfl (by simp)
  · exact keeps_recheckOccupant occ
  · exact .refl s

theorem bayStateOf_ne_empty (st : PackState) : bayStateOf st ≠ .empty := by cases st <;> decide

theorem keeps_restartBay (n : Fin 8) (s : State) : Keeps s (restartBay n s) := by
  unfold restartBay
  split
  · exact .ite (fun _ => keeps_emptyBay ‹_›) fun _ => .refl s
  · refine .ite (fun _ => .of_site (site_setBay rfl)) fun _ => ?_
    refine .trans (.trans (keeps_restartPack ‹_›) (keeps_stopLoad n _)) (keeps_putBay ?_ ?_)
    · rfl
    · exact bayStateOf_ne_empty _

theorem keeps_restartLock (s : State) : Keeps s (restartLock s) :=
  .ite (fun w => keeps_blockLock w ..) fun _ => .of_site (site_setLock rfl)

theorem site_restartMonitor (s : State) : (restartMonitor s).site = s.site := by
  unfold restartMonitor
  split
  case h_4 => rfl
  all_goals exact (site_noticeInert _).trans (site_setInert ..)

theorem keeps_restartLine (s : State) : Keeps s (restartLine s) := by
  refine .trans (.trans (Keeps.foldl (fun t n => keeps_restartBay n t) eight s) (keeps_restartLock _)) (.of_site ?_)
  show (evalPermit (endSwitch (restartMonitor _))).site = _
  rw [site_evalPermit, endSwitch, site_setShred, site_restartMonitor]

theorem sound_lineRestart (target : Nat) (s : State) : Sound s (lineRestartReply target s) :=
  .check fun _ => .reply _ (keeps_restartLine s)

/-! ### A request served -/

theorem keeps_respond {p : Port} {f : Frame} {s : State} {r : Reply} (h : Sound s r) : Keeps s (respond p f r) :=
  .before (site_setPort ..) h.kept

theorem keeps_takeRequest {p : Port} {f : Frame} {owner : State → Reply} (h : ∀ s, Sound s (owner s)) (s : State) :
    Keeps s (takeRequest p f owner s) :=
  (keeps_touchPort p s).trans (keeps_respond (.ite (fun _ => h _) fun _ => .refuse ..))

theorem keeps_serve {p : Port} {f : Frame} {owner : State → Reply} (h : ∀ s, Sound s (owner s)) (s : State) :
    Keeps s (serve p f owner s) := by
  refine .ite (fun _ => .refl s) fun _ => ?_
  split
  · exact .ite (fun _ => .refl s) fun _ => keeps_takeRequest h s
  · exact .ite (fun _ => .after (site_setPort ..) (keeps_takeRequest h _)) fun _ => keeps_receiveFrame ..

/-! ### Samples and the bays' timers -/

theorem keeps_sampleFault {n : Fin 8} {pack : State → State} {s : State} (cause : FaultCause) (code : Code) (detail : Nat)
    (h : Keeps s (pack s)) : Keeps s (sampleFault n cause pack code detail s) :=
  .before (site_post ..) (h.trans (keeps_faultBay ..))

theorem keeps_reloadOccupant (n : Fin 8) (s : State) : Keeps s (reloadOccupant n s) := by
  refine keeps_onOccupant fun p _ _ => ?_
  split
  case isTrue q => exact ⟨rfl, rfl, by simp [q]⟩
  case isFalse => exact ⟨rfl, rfl, by simp⟩

theorem keeps_stopReached (n : Fin 8) (s : State) : Keeps s (stopReached n s) := by
  refine .trans (.trans (keeps_occupantState (n := n) .resting (by simp)) ?_) (keeps_putBay ?_ ?_)
  · refine .after (site_setBay (n := n) ?_) (keeps_stopLoad n _)
    unfold Bay.swapSlot
    split <;> rfl
  · rfl
  · exact nofun

theorem keeps_dischargeChecks (n : Fin 8) (p : Pack) (x : Sample) (s : State) : Keeps s (dischargeChecks n p x s) :=
  .ite (fun _ => keeps_sampleFault _ _ _ (keeps_quarantineOccupant ..)) fun _ =>
    .ite (fun _ => keeps_sampleFault _ _ _ (keeps_quarantineOccupant ..)) fun _ =>
      .ite (fun _ => keeps_sampleFault _ _ _ (keeps_reloadOccupant ..)) fun _ =>
        .ite (fun _ => keeps_stopReached n s) fun _ => .refl s

theorem keeps_restChecks (n : Fin 8) (p : Pack) (x : Sample) (s : State) : Keeps s (restChecks n p x s) :=
  .ite (fun _ => keeps_sampleFault _ _ _ (keeps_quarantineOccupant ..)) fun _ =>
    .ite (fun _ => keeps_sampleFault _ _ _ (keeps_quarantineOccupant ..)) fun _ =>
      .ite (fun _ => keeps_runCheck n s) fun _ => .refl s

theorem keeps_sampleChecks (n : Fin 8) (x : Sample) (s : State) : Keeps s (sampleChecks n x s) := by
  unfold sampleChecks
  split
  · exact .refl s
  · split
    · exact keeps_dischargeChecks ..
    · exact keeps_restChecks ..
    · exact keeps_restChecks ..
    · exact .refl s

theorem keeps_integrateSample (n : Fin 8) (v : Nat) (i : Int) (interval : Nat) (k : SeqClass) (s : State) :
    Keeps s (integrateSample n v i interval k s) := by
  unfold integrateSample
  split
  · exact .refl s
  case h_2 j p occ =>
    refine .trans ?_ (keeps_deliverPlaces ..)
    exact keeps_storeOccupant occ rfl rfl rfl

theorem site_tallyBay (n : Fin 8) (f : Tally → Tally) (s : State) : (tallyBay n f s).site = s.site := site_setBay rfl

theorem keeps_acceptSample (n : Fin 8) (k : SeqClass) (q : Nat) (x : Sample) (interval : Nat) (s : State) :
    Keeps s (acceptSample n k q x interval s) := by
  have seq : (s.setBay n { s.bay n with lastSeq := some q }).site = s.site := site_setBay rfl
  have sampled : ∀ t : State, (t.setBay n { t.bay n with lastSample := some x }).site = t.site := fun t => site_setBay rfl
  refine .before (site_tallyBay ..) (.trans (.before (sampled _) ?_) (keeps_sampleChecks n x _))
  exact .onlyIf (.of_site seq) (keeps_integrateSample n x.voltage x.current interval k)

theorem keeps_takeSample (address q v : Nat) (i t : Int) (interval : Nat) (s : State) :
    Keeps s (takeSample address q v i t interval s) := by
  unfold takeSample
  split
  · exact .refl s
  · refine .ite (fun _ => .refl s) fun _ => .ite (fun _ => .of_site (site_tallyBay ..)) fun _ => ?_
    split
    · exact .of_site (site_tallyBay ..)
    · exact .of_site (site_tallyBay ..)
    · exact keeps_acceptSample ..

theorem site_transmitLoadSet (s : State) : (transmitLoadSet s).site = s.site := by
  unfold transmitLoadSet
  split <;> rfl

theorem site_refreshBay (n : Fin 8) (s : State) : (refreshBay n s).site = s.site := by
  unfold refreshBay
  repeat' split
  all_goals rfl

/-! ### Pins -/

theorem keeps_handToZone (d : Fin 24) (s : State) : Keeps s (handToZone d s) := by
  unfold handToZone
  split
  · exact .refl s
  · exact keeps_evalZone ..

theorem keeps_changeDetector (d : Fin 24) (x : Detector) (s : State) : Keeps s (changeDetector d x s) := by
  have set : (s.setDetector d x).site = s.site := site_setDetector ..
  refine .ite (fun _ => .of_site set) fun _ => .trans (.after set ?_) (keeps_handToZone ..)
  refine .ite (fun _ => .of_site ?_) fun _ => .ite (fun _ => .of_site (site_notify ..)) fun _ => .refl _
  exact (site_notify ..).trans (site_post ..)

theorem keeps_takeLine (d : Fin 24) (l : LineState) (s : State) : Keeps s (takeLine d l s) :=
  .ite (fun _ => .refl s) fun _ => keeps_changeDetector ..

theorem site_openLower {s : State} (due : lockPurgeDue s = true) : (openLower s).site = s.site := by
  simp only [lockPurgeDue, Bool.and_eq_true, beq_iff_eq] at due
  exact site_setLock (Lock.kind_moved rfl (by rw [due.1]; decide) (by simp))

theorem site_handReadback (o : Output) (level : Bool) (s : State) : (handReadback o level s).site = s.site := by
  unfold handReadback
  split
  · split
    · exact site_setBay rfl
    · rfl
  · rfl

theorem site_takeReadback (o : Output) (level : Bool) (s : State) : (takeReadback o level s).site = s.site := by
  unfold takeReadback
  split
  · rfl
  · exact (site_handReadback ..).trans (site_setSup ..)

theorem keeps_stuckPack (n : Fin 8) (s : State) : Keeps s (stuckPack n s) := by
  unfold stuckPack
  split
  · exact .refl s
  case h_2 i p occ =>
    split
    · exact keeps_occupant (o := p) occ rfl rfl (by simp)
    · exact keeps_occupant (o := p) occ rfl rfl (by simp)
    · exact keeps_recheckOccupant occ
    · exact .refl s

theorem keeps_contactorStuck (n : Fin 8) (s : State) : Keeps s (contactorStuck n s) :=
  .before (site_post ..) ((keeps_stuckPack n s).trans (keeps_faultBay ..))

theorem keeps_contactorFailed (n : Fin 8) (s : State) : Keeps s (contactorFailed n s) :=
  .before (site_post ..) (keeps_pauseBay ..)

theorem site_gateMismatch (detail : Nat) (s : State) : (gateMismatch detail s).site = s.site := by simp [gateMismatch]

theorem keeps_lowerMismatch (detail : Nat) (s : State) : Keeps s (lowerMismatch detail s) :=
  .after (site_gateMismatch detail s) (.ite (fun w => keeps_blockLock w ..) fun _ => .refl _)

theorem keeps_reportMismatch (o : Output) (s : State) : Keeps s (reportMismatch o s) := by
  unfold reportMismatch
  dsimp only
  split
  · exact .ite (fun _ => keeps_contactorFailed ..) fun _ => keeps_contactorStuck ..
  · exact .of_site ((site_evalPermit _).trans (site_post ..))
  · exact .of_site (site_gateMismatch ..)
  · exact keeps_lowerMismatch ..
  · exact .of_site (site_post ..)
  · exact .of_site (site_post ..)

theorem keeps_endWindow (o : Output) (s : State) : Keeps s (endWindow o s) :=
  .ite (fun _ => .of_site (site_setSup ..)) fun _ => .after (site_setSup ..) (keeps_reportMismatch ..)

theorem keeps_endDisagreement (o : Output) (s : State) : Keeps s (endDisagreement o s) :=
  .after (site_setSup ..) (keeps_reportMismatch ..)

/-! ### Station links -/

theorem keeps_takeDiscard (p : Port) (why : FrameFault) (s : State) : Keeps s (takeDiscard p why s) := by
  refine .ite (fun _ => .refl s) fun _ => ?_
  cases why with
  | overrun => exact .ite (fun _ => .refl s) fun _ => .before (site_discardFrame ..) (keeps_touchPort p s)
  | _ => exact .of_site (site_discardFrame ..)

theorem keeps_becomeAbsent (p : Port) (s : State) : Keeps s (becomeAbsent p s) := by
  refine .after ?_ (keeps_deliverPresence p _)
  exact (site_notify ..).trans ((site_post ..).trans (site_setPort ..))

/-! ### Commands and time -/

theorem keeps_whenRunning {f : State → State} (h : ∀ s, Keeps s (f s)) (s : State) : Keeps s (whenRunning f s) :=
  .ite (fun _ => h s) fun _ => .refl s

/-- An event that is carried out where it is due. -/
theorem keeps_whenDue {c : State → Prop} [∀ s, Decidable (c s)] {f : State → State} (h : ∀ s, c s → Keeps s (f s))
    (s : State) : Keeps s (whenRunning (fun s => if c s then f s else s) s) :=
  keeps_whenRunning (fun s => .ite (h s) fun _ => .refl s) s

theorem site_advance (s : State) : (advance s).site = s.site := by
  have bays : vmap (·.kind) (vmap (·.tick) s.bays) = vmap (·.kind) s.bays := vext fun n => by
    simp [Bay.kind, Bay.tick]
  simp only [State.site, advance, bays]
  rfl

theorem keeps_unreadReply (p : Port) (f : Frame) (s : State) : Keeps s (respond p f (unreadReply p f s)) :=
  keeps_respond (.ite (fun _ => .refuse ..) fun _ => .refuse ..)

theorem keeps_answerUnread (p : Port) (s : State) : Keeps s (answerUnread p s) := by
  unfold answerUnread
  split
  · exact .refl s
  · split
    · exact .refl s
    · exact .after (site_setPort s p _) ((keeps_touchPort p _).trans (keeps_unreadReply ..))

/-- The queue of commands is no part of the site. -/
theorem site_pending (s : State) (l : List Instr) : ({ s with pending := l } : State).site = s.site := rfl

theorem keeps_tick (s : State) : Keeps s (tick s) := by
  refine .ite (fun _ => .after (site_advance s) ?_) fun _ => .refl s
  exact .before (site_pending ..) (Keeps.foldl (fun t p => keeps_answerUnread p t) allPorts _)

end Sys2Proof.Machine
end

