-- ==== Sys2Proof/Proofs/SiteLotLaw.lean ====
section
/-! PROOFS: the law of the site and the count law of the lots hold after every command and every millisecond. -/

namespace Sys2Proof.Machine

/-- A request of an owner that keeps the laws. -/
theorem keeps_request {p : Port} {f : Frame} {owner : State → Reply} (h : ∀ s, Sound s (owner s)) (s : State) :
    ∃ t, (Host.Outcome.next (serve p f owner s) : Host.Outcome State Fault Refusal) = .next t ∧ Keeps s t :=
  ⟨_, rfl, keeps_serve h s⟩

/-- An event that keeps the laws, of the running part. -/
theorem keeps_event {f : State → State} (h : ∀ s, Keeps s (f s)) (s : State) :
    ∃ t, (Host.Outcome.next (whenRunning f s) : Host.Outcome State Fault Refusal) = .next t ∧ Keeps s t :=
  ⟨_, rfl, keeps_whenRunning h s⟩

theorem sound_bounds (low high : Nat) (s : State) : Sound s (boundsReply low high s) :=
  .check fun _ => .reply_site _ rfl

theorem sound_writeFeed (seconds : Nat) (s : State) : Sound s (writeFeedReply seconds s) := .reply_site _ rfl

theorem sound_writeFireTimes (dwell rearm : Nat) (s : State) : Sound s (writeFireTimesReply dwell rearm s) :=
  .reply_site _ rfl

theorem site_dropReference (n : Fin 8) (s : State) : (dropReference n s).site = s.site := site_setBay rfl

theorem keeps_endRest (n : Fin 8) (s : State) : Keeps s (endRest n s) := by
  refine .after ?_ (keeps_runCheck n _)
  exact site_setBay rfl

theorem keeps_sampleLost (n : Fin 8) (s : State) : Keeps s (sampleLost n s) :=
  .before (site_post ..) (keeps_pauseBay ..)

theorem site_takeReading (address oxygen status : Nat) (s : State) :
    (takeReading address oxygen status s).site = s.site := by
  unfold takeReading
  split
  · split
    · rfl
    · exact site_analyzerEvent ..
  · rfl

/-- The field receiver is no part of the site. -/
theorem site_fieldReceiver (s : State) (r : Receiver) : ({ s with link.receiver := r } : State).site = s.site := rfl

theorem keeps_exec (i : Instr) (s : State) : ∃ t, exec i s = .next t ∧ Keeps s t := by
  cases i with
  | hardwareReset straps agrees => exact ⟨_, rfl, keeps_hardwareReset straps agrees s⟩
  | stationFrameValid p seq code body => exact keeps_event (fun s => keeps_receiveFrame ..) s
  | stationFrameDiscard p why => exact keeps_event (fun s => keeps_takeDiscard ..) s
  | stationLineIdleTimeout p =>
    exact keeps_event (fun s => .ite (fun _ => .refl s) fun _ => .of_site (site_countError ..)) s
  | presenceTimerExpiry p => exact keeps_event (fun s => .ite (fun _ => keeps_becomeAbsent p s) fun _ => .refl s) s
  | readStatus p seq part => exact keeps_request (sound_status part) s
  | readPack p seq index gen => exact keeps_request (sound_readPack index gen) s
  | listPacks p seq state lot => exact keeps_request (sound_list p state lot) s
  | setCursor p seq index => exact keeps_request (sound_cursor p index) s
  | readBay p seq bay => exact keeps_request (sound_readBay bay) s
  | readZone p seq zone => exact keeps_request (sound_readZone zone) s
  | readLot p seq lot => exact keeps_request (sound_readLot lot) s
  | readBank p seq bank => exact keeps_request (sound_readBank bank) s
  | readConfig p seq item index => exact keeps_request (sound_readConfig item index) s
  | fetchNotices p seq => exact keeps_request (fun s => .reply_site _ (site_setPort ..)) s
  | setPresenceTime p seq seconds => exact keeps_request (fun s => .reply_site _ (site_setPort ..)) s
  | clearBank p seq bank number => exact keeps_request (sound_clearBank p bank number) s
  | setReportEnables p seq bank enables => exact keeps_request (sound_enables p bank enables) s
  | admitPack p seq tag lot typeCode damaged mass nominal cells =>
    exact keeps_request (sound_admit tag lot typeCode damaged mass nominal cells) s
  | withdraw p seq index gen => exact keeps_request (sound_withdraw index gen) s
  | openLot p seq number => exact keeps_request (sound_openLot number) s
  | closeLot p seq lot => exact keeps_request (sound_closeLot lot) s
  | releaseLot p seq lot => exact keeps_request (sound_releaseLot lot) s
  | outputWeight p seq lot mass final => exact keeps_request (sound_outputWeight lot mass final) s
  | switchShredLot p seq lot => exact keeps_request (sound_switch lot) s
  | cancelSwitch p seq => exact keeps_request sound_cancel s
  | setRecoveryBounds p seq low high => exact keeps_request (sound_bounds low high) s
  | assign p seq index gen bay => exact keeps_request (sound_assign index gen bay) s
  | move p seq index gen dest => exact keeps_request (sound_move index gen dest) s
  | quarantine p seq index gen => exact keeps_request (sound_quarantine index gen) s
  | start p seq bay => exact keeps_request (sound_start bay) s
  | pause p seq bay => exact keeps_request (sound_pause bay) s
  | resume p seq bay => exact keeps_request (sound_resume bay) s
  | abort p seq bay => exact keeps_request (sound_abort bay) s
  | writeSlot p seq bay slot current stop segment =>
    exact keeps_request (sound_writeSlot bay slot current stop segment) s
  | clearBay p seq bay => exact keeps_request (sound_clearBay bay) s
  | enqueue p seq index gen => exact keeps_request (sound_enqueue index gen) s
  | remove p seq index gen dest => exact keeps_request (sound_remove index gen dest) s
  | feed p seq index gen => exact keeps_request (sound_feed index gen) s
  | lockClosed p seq => exact keeps_request sound_lockClosed s
  | returnPack p seq index gen => exact keeps_request (sound_return index gen) s
  | dropDone p seq index gen => exact keeps_request (sound_dropDone index gen) s
  | lockEmptied p seq => exact keeps_request sound_lockEmptied s
  | chamberClear p seq => exact keeps_request sound_chamberClear s
  | inertStart p seq => exact keeps_request sound_inertStart s
  | inertStop p seq => exact keeps_request sound_inertStop s
  | writeFeed p seq seconds => exact keeps_request (sound_writeFeed seconds) s
  | writeTreatment p seq index fields => exact keeps_request (sound_writeTreatment index fields) s
  | writeRange p seq index low high treatment enabled =>
    exact keeps_request (sound_writeRange index low high treatment enabled) s
  | writeSlotMap p seq family treatment enabled => exact keeps_request (sound_writeSlotMap family treatment enabled) s
  | setMap p seq enable treatment => exact keeps_request (sound_setMap enable treatment) s
  | curveBegin p seq curve => exact keeps_request (sound_curveBegin curve) s
  | curvePoint p seq curve voltage fraction => exact keeps_request (sound_curvePoint curve voltage fraction) s
  | curveEnd p seq curve => exact keeps_request (sound_curveEnd curve) s
  | lineRestart p seq target g1 g2 => exact keeps_request (fun s => .guarded (sound_lineRestart target s)) s
  | writeDetector p seq detector zone kind => exact keeps_request (sound_writeDetector detector zone kind) s
  | writeFireTimes p seq dwell rearm => exact keeps_request (sound_writeFireTimes dwell rearm) s
  | writeZone p seq zone threshold delay => exact keeps_request (sound_writeZone zone threshold delay) s
  | hold p seq zone => exact keeps_request (fun s => .withZone fun z => sound_setHold z true s) s
  | holdEnd p seq zone => exact keeps_request (fun s => .withZone fun z => sound_setHold z false s) s
  | release p seq target g1 g2 => exact keeps_request (fun s => .guarded (sound_release target s)) s
  | zoneReset p seq target g1 g2 => exact keeps_request (fun s => .guarded (sound_zoneReset target s)) s
  | isolateZone p seq zone => exact keeps_request (sound_isolate zone) s
  | restoreZone p seq zone => exact keeps_request (sound_restore zone) s
  | inertReset p seq target g1 g2 => exact keeps_request (fun s => .guarded (sound_inertReset target s)) s
  | writeInertLimits p seq purge run trip hold maxPurge =>
    exact keeps_request (sound_writeInertLimits purge run trip hold maxPurge) s
  | baySample address sequence voltage current temperature interval =>
    exact keeps_event (fun s => .ite (fun _ => .refl s) fun _ => keeps_takeSample ..) s
  | analyzerReading address oxygen status =>
    exact keeps_event (fun s => .ite (fun _ => .refl s) fun _ => .of_site (site_takeReading ..)) s
  | fieldFrameDiscard why => exact keeps_event (fun s => .ite (fun _ => .refl s) fun _ => .of_site (site_fieldReceiver ..)) s
  | loadSetTransmit => exact keeps_event (fun s => .of_site (site_transmitLoadSet s)) s
  | loadSetRefreshExpiry bay => exact keeps_event (fun s => .of_site (site_refreshBay bay s)) s
  | segmentTimerExpiry bay =>
    exact keeps_event (fun s => .ite (fun _ => .of_site (site_takeBoundary bay s)) fun _ => .refl s) s
  | sampleLoss bay =>
    exact keeps_event (fun s => .ite (fun _ => keeps_sampleLost bay s) fun _ => .refl s) s
  | overCurrentReferenceDrop bay =>
    exact keeps_event (fun s => .ite (fun _ => .of_site (site_dropReference bay s)) fun _ => .refl s) s
  | restTimerExpiry bay =>
    exact keeps_event (fun s => .ite (fun _ => keeps_endRest bay s) fun _ => .refl s) s
  | analyzerAgeExpiry analyzer =>
    exact keeps_event (fun s => .ite (fun _ => .of_site (site_analyzerEvent ..)) fun _ => .refl s) s
  | purgeTimeout => exact keeps_event (fun s => .of_site (site_checkPurgeTimeout s)) s
  | holdTimerExpiry => exact keeps_event (fun s => .ite (fun _ => .of_site (site_changeInert ..)) fun _ => .refl s) s
  | lockPurgeTimerExpiry => exact keeps_event (fun s => .ite (fun due => .of_site (site_openLower due)) fun _ => .refl s) s
  | detectorLineChange detector line =>
    exact ⟨_, rfl, .ite (fun _ => keeps_takeLine ..) fun _ => .of_site (site_setDetector ..)⟩
  | detectorDwellExpiry detector => exact keeps_event (fun s => .ite (fun _ => keeps_changeDetector ..) fun _ => .refl s) s
  | faultDwellExpiry detector => exact keeps_event (fun s => .ite (fun _ => keeps_changeDetector ..) fun _ => .refl s) s
  | rearmExpiry detector => exact keeps_event (fun s => .ite (fun _ => keeps_changeDetector ..) fun _ => .refl s) s
  | recoveryTimerExpiry detector => exact keeps_event (fun s => .ite (fun _ => keeps_changeDetector ..) fun _ => .refl s) s
  | releaseTimerExpiry zone => exact keeps_event (fun s => .ite (fun _ => keeps_enterReleased ..) fun _ => .refl s) s
  | readbackChange output level =>
    exact ⟨_, rfl, .ite (fun _ => .of_site (site_takeReadback ..)) fun _ => .of_site (site_setSup ..)⟩
  | readbackWindowExpiry output => exact keeps_event (fun s => .ite (fun _ => keeps_endWindow ..) fun _ => .refl s) s
  | disagreementTimerExpiry output => exact keeps_event (fun s => .ite (fun _ => keeps_endDisagreement ..) fun _ => .refl s) s
  | mainSupplyLoss cause => exact ⟨_, rfl, .of_site rfl⟩
  | stationPortHuntsAgain p => exact keeps_event (fun s => .of_site (site_setPort ..)) s
  | fieldLinkHuntsAgain => exact keeps_event (fun s => .of_site (site_fieldReceiver ..)) s

theorem keeps_step {s t : State} (h : step s = .next t) : Keeps s t := by
  unfold step at h
  split at h
  case h_1 c rest _ =>
    obtain ⟨u, e, k⟩ := keeps_exec c { s with pending := rest }
    rw [e] at h
    cases h
    exact .after (site_pending s rest) k
  case h_2 => cases h; exact keeps_tick s

end Sys2Proof.Machine

open Sys2Proof Sys2Proof.Machine

/-- Settles O12: every command and every millisecond keeps the clauses of the law of the site, operation by operation. -/
theorem siteLawKept : Obligations.SiteLawKept := fun s t law h =>
  (siteLaw_iff t).2 ((keeps_step h).laws ((siteLaw_iff s).1 law)).1

/-- Settles O14: the operations that keep the law of the site keep the count of every lot. -/
theorem lotLawKept : Obligations.LotLawKept := fun s _ site lots h =>
  ((keeps_step h).laws ((siteLaw_iff s).1 site)).2 lots

end

