-- ==== Sys2Proof/Proofs/Postings.lean ====
section
/-! PROOFS, layer 10. What a posting and an evaluation of the permit reach: the banks, the Feed Controller but for its queue
and purge time, its outputs, the line fault output and notices. -/

namespace Sys2Proof.Machine

/-! ### The frame -/

/-- The state without what a posting or an evaluation of the permit may change. -/
def State.lessBanks (s : State) : State :=
  { s.lessFeed with feed := { s.feed with permit := false, inputs := PermitInputs.initial, lock := Lock.initial } }

/-- A state that agrees with `u` but for that. -/
theorem eq_of_lessBanks {u t : State} (h : t.lessBanks = u.lessBanks) :
    t = { u with
      feed := { u.feed with permit := t.feed.permit, inputs := t.feed.inputs, lock := t.feed.lock }
      banks := t.banks
      out := { u.out with permit := t.out.permit, upperGate := t.out.upperGate, lowerGate := t.out.lowerGate,
                          lineFault := t.out.lineFault }
      ports := t.ports } := by
  obtain ⟨_, _, _, _, _, _, _, _, _, _, _, ⟨_, _, _, _, _⟩, _, _, _, _, ⟨_, _, _, _, _, _, _⟩, _, _⟩ := t
  simp only [State.lessBanks, State.lessFeed, State.mute, State.mk.injEq, Feed.mk.injEq, Outputs.mk.injEq] at h ⊢
  simp_all

theorem PortCtx.quiet_of_mute {c d : PortCtx} (h : c.mute = d.mute) : c.quiet = d.quiet := by
  simp only [PortCtx.quiet, h]

theorem quiet_of_mute {s t : State} (h : t.mute.ports = s.mute.ports) : t.ports.quiet = s.ports.quiet := by
  simp only [State.mute, Ports.mk.injEq] at h
  obtain ⟨hl, hf, hc⟩ := h
  simp only [Ports.quiet, PortCtx.quiet_of_mute hl, PortCtx.quiet_of_mute hf, PortCtx.quiet_of_mute hc]

theorem quiet_of_lessFeed {s t : State} (h : t.lessFeed = s.lessFeed) : t.ports.quiet = s.ports.quiet :=
  quiet_of_mute (congrArg State.ports h :)

theorem quiet_of_lessBanks {s t : State} (h : t.lessBanks = s.lessBanks) : t.ports.quiet = s.ports.quiet :=
  quiet_of_mute (congrArg State.ports h :)

/-- A state kept but for notices keeps the frame. -/
theorem State.lessBanks_of_mute {s t : State} (h : t.mute = s.mute) : t.lessBanks = s.lessBanks := by
  have feed : t.feed = s.feed := (congrArg State.feed h :)
  simp only [State.lessBanks, State.lessFeed_of_mute h, feed]

/-- A state kept by the coarser frame, with the queue and the purge time. -/
theorem State.lessBanks_of_lessFeed {s t : State} (h : t.lessFeed = s.lessFeed) (queue : t.feed.queue = s.feed.queue)
    (time : t.feed.purgeTime = s.feed.purgeTime) : t.lessBanks = s.lessBanks := by
  simp only [State.lessBanks, h, queue, time]

@[simp] theorem lessBanks_notify (ps : List Port) (w : NoticeBody) (s : State) :
    (notify ps w s).lessBanks = s.lessBanks := State.lessBanks_of_mute (mute_notify ps w s)

@[simp] theorem lessBanks_permit (on : Bool) (s : State) : (command .permit on s).lessBanks = s.lessBanks := rfl
@[simp] theorem lessBanks_upperGate (on : Bool) (s : State) : (command .upperGate on s).lessBanks = s.lessBanks := rfl
@[simp] theorem lessBanks_lowerGate (on : Bool) (s : State) : (command .lowerGate on s).lessBanks = s.lessBanks := rfl
@[simp] theorem lessBanks_relight (s : State) : (relight s).lessBanks = s.lessBanks := rfl

/-! ### What a notice leaves -/

section

variable (ps : List Port) (w : NoticeBody) (s : State)

@[simp] theorem notify_feed : (notify ps w s).feed = s.feed := by rw [notify_eq]
@[simp] theorem notify_banks : (notify ps w s).banks = s.banks := by rw [notify_eq]
@[simp] theorem notify_out : (notify ps w s).out = s.out := by rw [notify_eq]

end

/-! ### Postings -/

/-- A bank after a posting of its own: taken where its report is enabled, or where it is UNCONTAINED (R175, R176). -/
def Bank.posted (b : Bank) (p : Posting) (t : Stamp) : Bank :=
  if b.enabled p.code = true ∨ p.severity = .uncontained then (b.take (p.incident t)).1 else b

theorem Banks.put_get (b : Banks) (k : BankId) : b.put k (b.get k) = b := by cases k <;> rfl

theorem skips_iff (b : Bank) (p : Posting) :
    ((!b.enabled p.code && p.severity != .uncontained) = true) ↔ ¬(b.enabled p.code = true ∨ p.severity = .uncontained) := by
  simp [not_or]

theorem deposit_eq (p : Posting) (s : State) : deposit p s =
    { s with banks := s.banks.put p.code.bank ((s.banks.get p.code.bank).posted p s.now) } := by
  unfold deposit Bank.posted
  dsimp only
  split
  case isTrue h => rw [if_neg ((skips_iff _ _).1 h), Banks.put_get]
  case isFalse h => rw [if_pos (not_not.1 (mt (skips_iff _ _).2 h))]

@[simp] theorem postRaw_banks (p : Posting) (s : State) :
    (postRaw p s).banks = s.banks.put p.code.bank ((s.banks.get p.code.bank).posted p s.now) := by
  unfold postRaw Bank.posted
  dsimp only
  split
  case isTrue h => rw [if_neg ((skips_iff _ _).1 h), Banks.put_get]
  case isFalse h => rw [if_pos (not_not.1 (mt (skips_iff _ _).2 h)), notify_banks]; rfl

@[simp] theorem postRaw_feed (p : Posting) (s : State) : (postRaw p s).feed = s.feed := by
  unfold postRaw
  dsimp only
  split
  · rfl
  · rw [notify_feed]; rfl

/-- A posting changes its bank, the line fault output and notices. -/
theorem postRaw_eq (p : Posting) (s : State) : postRaw p s = { s with
    banks := (postRaw p s).banks, out := { s.out with lineFault := (postRaw p s).out.lineFault }
    ports := (postRaw p s).ports } := by
  unfold postRaw
  dsimp only
  split
  · rfl
  · rw [notify_eq]; rfl

@[simp] theorem lessBanks_postRaw (p : Posting) (s : State) : (postRaw p s).lessBanks = s.lessBanks :=
  State.lessBanks_of_lessFeed (lessFeed_postRaw p s) (by simp) (by simp)

/-! ### The lock -/

@[simp] theorem setLock_feed (l : Lock) (s : State) : (setLock l s).feed = { s.feed with lock := l } := by
  unfold setLock
  dsimp only
  split
  · rfl
  · rw [notify_feed]; rfl

@[simp] theorem setLock_banks (l : Lock) (s : State) : (setLock l s).banks = s.banks := by
  unfold setLock
  dsimp only
  split
  · rfl
  · rw [notify_banks]; rfl

/-- The gates follow the lock's state (R117). -/
@[simp] theorem setLock_out (l : Lock) (s : State) : (setLock l s).out = { s.out with
    upperGate := s.out.upperGate.setCommand (l.state == .loading)
    lowerGate := s.out.lowerGate.setCommand (l.state == .dropping) } := by
  unfold setLock
  dsimp only
  split
  · rfl
  · rw [notify_out]; rfl

@[simp] theorem lessBanks_setLock (l : Lock) (s : State) : (setLock l s).lessBanks = s.lessBanks :=
  State.lessBanks_of_lessFeed (lessFeed_setLock l s) (by simp) (by simp)

@[simp] theorem holdLock_feed (c : Nat) (s : State) : (holdLock c s).feed =
    { s.feed with lock := { s.feed.lock with state := .held, purgeTimer := none } } := by simp [holdLock]

@[simp] theorem lessBanks_holdLock (c : Nat) (s : State) : (holdLock c s).lessBanks = s.lessBanks := by simp [holdLock]

theorem holdLock_bank (c : Nat) (s : State) {k : BankId} (hk : k ≠ .feed) : (holdLock c s).banks.get k = s.banks.get k := by
  simp only [holdLock, postRaw_banks, setLock_banks]
  exact Banks.get_put_other _ hk _

/-- A lock that does not resume is left alone. -/
theorem resumeLock_cases (s : State) : resumeLock s = s ∨ ∃ l, resumeLock s = setLock l s := by
  unfold resumeLock
  dsimp only
  split
  · exact .inl rfl
  · split
    · split
      · exact .inr ⟨_, rfl⟩
      · exact .inl rfl
    · split
      · exact .inr ⟨_, rfl⟩
      · exact .inl rfl

@[simp] theorem resumeLock_banks (s : State) : (resumeLock s).banks = s.banks := by
  obtain e | ⟨l, e⟩ := resumeLock_cases s <;> simp [e]

@[simp] theorem resumeLock_inputs (s : State) : (resumeLock s).feed.inputs = s.feed.inputs := by
  obtain e | ⟨l, e⟩ := resumeLock_cases s <;> simp [e]

@[simp] theorem resumeLock_permit (s : State) : (resumeLock s).feed.permit = s.feed.permit := by
  obtain e | ⟨l, e⟩ := resumeLock_cases s <;> simp [e]

@[simp] theorem lessBanks_resumeLock (s : State) : (resumeLock s).lessBanks = s.lessBanks := by
  obtain e | ⟨l, e⟩ := resumeLock_cases s <;> simp [e]

/-- A lock that is not HELD does not resume (R123). -/
theorem resumeLock_idle {s : State} (h : s.feed.lock.state ≠ .held) : resumeLock s = s := if_pos h

/-! ### The permit -/

/-- The permit changed, its output and its notice with it (R109). -/
def permitTo (on : Bool) (s : State) : State :=
  notify [.line, .fire] (.permit on (failing s.feed.inputs)) (command .permit on { s with feed.permit := on })

theorem evalPermit_eq (s : State) : evalPermit s = resumeLock
    (if permitHolds s.feed.inputs = s.feed.permit then s
     else if (!permitHolds s.feed.inputs && s.feed.lock.movesByPermit) = true then
       holdLock 1 (permitTo (permitHolds s.feed.inputs) s)
     else permitTo (permitHolds s.feed.inputs) s) := by
  simp only [evalPermit, permitTo, notify_feed]
  rfl

@[simp] theorem permitTo_feed (on : Bool) (s : State) : (permitTo on s).feed = { s.feed with permit := on } := by
  rw [permitTo, notify_feed]; rfl
@[simp] theorem permitTo_banks (on : Bool) (s : State) : (permitTo on s).banks = s.banks := by
  rw [permitTo, notify_banks]; rfl
@[simp] theorem lessBanks_permitTo (on : Bool) (s : State) : (permitTo on s).lessBanks = s.lessBanks := by
  rw [permitTo, lessBanks_notify]; rfl

@[simp] theorem evalPermit_inputs (s : State) : (evalPermit s).feed.inputs = s.feed.inputs := by
  rw [evalPermit_eq, resumeLock_inputs]
  split
  · rfl
  · split <;> simp

/-- The permit after its evaluation (R108). -/
@[simp] theorem evalPermit_permit (s : State) : (evalPermit s).feed.permit = permitHolds s.feed.inputs := by
  rw [evalPermit_eq, resumeLock_permit]
  split
  case isTrue h => exact h.symm
  case isFalse => split <;> simp

@[simp] theorem lessBanks_evalPermit (s : State) : (evalPermit s).lessBanks = s.lessBanks := by
  rw [evalPermit_eq, lessBanks_resumeLock]
  split
  · rfl
  · split <;> simp

theorem evalPermit_bank (s : State) {k : BankId} (hk : k ≠ .feed) : (evalPermit s).banks.get k = s.banks.get k := by
  rw [evalPermit_eq, resumeLock_banks]
  split
  · rfl
  · split
    · rw [holdLock_bank _ _ hk, permitTo_banks]
    · rw [permitTo_banks]

/-- An evaluation that does not change the permit of a lock that is not HELD does nothing (R109). -/
theorem evalPermit_same {s : State} (h : permitHolds s.feed.inputs = s.feed.permit) (l : s.feed.lock.state ≠ .held) :
    evalPermit s = s := by
  rw [evalPermit_eq, if_pos h, resumeLock_idle l]

/-- A lock that neither moves toward the shredder nor is HELD stays as it is (R122, R123). -/
theorem evalPermit_lock {s : State} (h : s.feed.lock.movesByPermit = false) (l : s.feed.lock.state ≠ .held) :
    (evalPermit s).feed.lock = s.feed.lock := by
  rw [evalPermit_eq]
  split
  · rw [resumeLock_idle l]
  · simp only [h, Bool.and_false, Bool.false_eq_true, if_false]
    rw [resumeLock_idle (by simpa using l)]
    simp

/-! ### Deliveries to the permit -/

@[simp] theorem lessBanks_inputs (s : State) (i : PermitInputs) :
    ({ s with feed.inputs := i } : State).lessBanks = s.lessBanks := rfl

@[simp] theorem lessBanks_deliverBanks (s : State) : (deliverBanks s).lessBanks = s.lessBanks := by
  unfold deliverBanks
  dsimp only
  split
  · rfl
  · rw [lessBanks_evalPermit, lessBanks_inputs]

theorem deliverBanks_bank (s : State) {k : BankId} (hk : k ≠ .feed) : (deliverBanks s).banks.get k = s.banks.get k := by
  unfold deliverBanks
  dsimp only
  split
  · rfl
  · rw [evalPermit_bank _ hk]

/-- After a delivery the Feed Controller holds the banks' answer (R180). -/
theorem deliverBanks_inputs (s : State) : (deliverBanks s).feed.inputs =
    { s.feed.inputs with uncontained := bankAnswer s.banks } := by
  unfold deliverBanks
  dsimp only
  split
  case isTrue h => rw [h]
  case isFalse => rw [evalPermit_inputs]

/-- An answer the Feed Controller knows is not delivered (R180). -/
theorem deliverBanks_same {s : State} (h : bankAnswer s.banks = s.feed.inputs.uncontained) : deliverBanks s = s := if_pos h

@[simp] theorem lessBanks_post (p : Posting) (s : State) : (post p s).lessBanks = s.lessBanks := by simp [post]

/-- The banks after a posting, but for what a hold of the lock may post to the FEED bank. -/
theorem post_bank (p : Posting) (s : State) {k : BankId} (hk : k ≠ .feed) : (post p s).banks.get k =
    if k = p.code.bank then (s.banks.get k).posted p s.now else s.banks.get k := by
  rw [post, deliverBanks_bank _ hk, postRaw_banks]
  split
  case isTrue e => rw [e, Banks.get_put_same]
  case isFalse e => rw [Banks.get_put_other _ e]

@[simp] theorem lessBanks_deliverShred (s : State) : (deliverShred s).lessBanks = s.lessBanks := by
  unfold deliverShred
  dsimp only
  split
  · rfl
  · rw [lessBanks_evalPermit, lessBanks_inputs]

theorem deliverShred_bank (s : State) {k : BankId} (hk : k ≠ .feed) : (deliverShred s).banks.get k = s.banks.get k := by
  unfold deliverShred
  dsimp only
  split
  · rfl
  · rw [evalPermit_bank _ hk]

theorem deliverShred_inputs (s : State) : (deliverShred s).feed.inputs =
    { s.feed.inputs with shredLotSet := s.lot.shredLot.isSome } := by
  unfold deliverShred
  dsimp only
  split
  case isTrue h => rw [h]
  case isFalse => rw [evalPermit_inputs]

/-! ### Clock and stamp -/

theorem now_of_lessBanks {s t : State} (h : t.lessBanks = s.lessBanks) : t.now = s.now := by
  have epoch : t.epoch = s.epoch := (congrArg State.epoch h :)
  have clock : t.clock = s.clock := (congrArg State.clock h :)
  simp only [State.now, epoch, clock]

end Sys2Proof.Machine
end

