-- ==== Sys2Proof/Proofs/HardwareReset.lean ====
section
/-! PROOFS: the hardware reset (chapter 10). -/

open Sys2Proof Sys2Proof.Machine

namespace Sys2Proof.Machine

/-! ### The parts of a rebuilt state -/

theorem sup_rebuild (s : State) (o : Output) : (rebuild s).sup o = Supervision.initial (s.sup o).readback := by
  cases o <;> simp [State.sup, rebuild, Outputs.afterReset, Supervision.afterReset]

/-- A detector after a reset is NORMAL, and then takes its line as a change (R139). -/
theorem detector_afterReset (x : Detector) (dwell rearm : Nat) : x.afterReset dwell rearm =
    let y : Detector := { x with state := .normal, prior := none, timer := none, faultShort := none }
    match x.line with
    | .normal => y
    | .active => { y with state := .confirming, timer := some dwell }
    | _ => { y with state := .confirmingFault, prior := some .normal, timer := some dwell } := by
  unfold Detector.afterReset Detector.onLine
  cases hl : x.line <;> simp [hl, Detector.confirm, Detector.doubt]

theorem detector_rebuild (s : State) (d : Fin 24) :
    (rebuild s).detector d = (s.detector d).afterReset s.fire.dwell (s.fire.rearm * 1000) := by
  simp [State.detector, rebuild]

theorem vget_resetZones (zones : Vector Zone 8) (inv : Vector Nat 8) (z : Fin 8) : vget (resetZones zones inv) z =
    { vget zones z with state := .normal, hold := false, timer := none, inventory := vget inv z } :=
  vget_foldl_eight (fun z (q : Zone) =>
    { q with state := .normal, hold := false, timer := none, inventory := vget inv z }) zones z

theorem zone_rebuild (s : State) (z : Fin 8) : (rebuild s).zone z =
    { s.zone z with state := .normal, hold := false, timer := none, inventory := vget (rebuild s).inventories z } :=
  vget_resetZones ..

/-- What a rebuilt state takes from the state it is rebuilt from. -/
theorem rebuild_eq (u : State) : rebuild u =
    { u with
      run := true
      clock := 0
      packs := (rebuild u).packs
      inventories := (rebuild u).inventories
      cls := { u.cls with curves := (rebuild u).cls.curves }
      bays := (rebuild u).bays
      atm := { Atmosphere.initial with limits := u.atm.limits }
      feed := { Feed.initial with
        queue := u.feed.queue, lock := (rebuild u).feed.lock, purgeTime := u.feed.purgeTime }
      fire := { u.fire with detectors := (rebuild u).fire.detectors, zones := (rebuild u).fire.zones }
      lot := { u.lot with switch := none }
      ports := ⟨PortCtx.initial u.ports.line.presenceTime, PortCtx.initial u.ports.fire.presenceTime,
        PortCtx.initial u.ports.custody.presenceTime⟩
      out := u.out.afterReset
      link := FieldLink.initial } := rfl

theorem curve_rebuild (s : State) (k : Fin 4) : vget (rebuild s).cls.curves k =
    if (vget s.cls.curves k).status = .rewriting then ⟨.invalid, []⟩ else vget s.cls.curves k := by
  simp [rebuild, Curve.afterReset]

/-- A bay no pack stands in is EMPTY after a reset (R76). -/
theorem bay_rebuild_vacant {s : State} {n : Fin 8} (vacant : ∀ i p, (s.record i).pack = some p → p.loc ≠ .bay n) :
    (rebuild s).bay n = { Bay.initial with confirmedOpen := !(s.sup (.contactor n)).readback } := by
  rw [bay_rebuild, resetBay]
  cases e : packAt s.packsAfterReset (.bay n) with
  | none => rfl
  | some x =>
    obtain ⟨f, hl⟩ := packAt_some e
    obtain ⟨p, f, e'⟩ := vget_afterReset.1 f
    exact absurd (by rw [← e', afterReset_loc] at hl; exact hl) (vacant _ p f)

/-- The only pack of a place is the one found there after a reset. -/
theorem packAt_sole {s : State} {l : Loc} {i : Fin 256} {p : Pack} (f : (s.record i).pack = some p) (hl : p.loc = l)
    (alone : ∀ j q, (s.record j).pack = some q → q.loc = l → j = i) :
    packAt s.packsAfterReset l = some (i, p.afterReset) :=
  packAt_eq (vget_afterReset.2 ⟨p, f, rfl⟩) (by rw [afterReset_loc, hl]) fun j q fq hq => by
    obtain ⟨o, fo, rfl⟩ := vget_afterReset.1 fq
    exact alone j o fo (by rw [← hq, afterReset_loc])

theorem afterReset_treatment (p : Pack) : p.afterReset.treatment = p.treatment := by
  unfold Pack.afterReset; split <;> rfl

/-- The table of R76 over what a reset makes of a bay's pack. -/
theorem bayStateOf_afterReset {p : Pack} : bayStateOf p.afterReset.state =
    if p.state = .loaded ∨ p.state = .discharging ∨ p.state = .resting then .loaded else .done := by
  unfold Pack.afterReset
  cases e : p.state <;> simp [bayStateOf, e]

theorem bay_rebuild_sole {s : State} {n : Fin 8} {i : Fin 256} {p : Pack} (f : (s.record i).pack = some p)
    (hl : p.loc = .bay n) (alone : ∀ j q, (s.record j).pack = some q → q.loc = .bay n → j = i) :
    (rebuild s).bay n = { Bay.initial with
      confirmedOpen := !(s.sup (.contactor n)).readback
      state := if p.state = .loaded ∨ p.state = .discharging ∨ p.state = .resting then .loaded else .done
      occupant := some (s.handle i)
      slotA := ⟨p.treatment.current, p.treatment.stop, p.treatment.segment, true⟩ } := by
  have gen : (vget s.packsAfterReset i).gen = (s.record i).gen := by simp [State.packsAfterReset, Rec.afterReset, State.record]
  rw [bay_rebuild, resetBay, packAt_sole f hl alone]
  simp [gen, afterReset_treatment, bayStateOf_afterReset, Bay.defaultSlots, State.handle, State.sup, Bay.initial, Slot.none]

theorem lock_rebuild (s : State) : (rebuild s).feed.lock = resetLock s.packsAfterReset := rfl

theorem lock_rebuild_vacant {s : State} (vacant : ∀ i p, (s.record i).pack = some p → p.loc ≠ .feedLock) :
    (rebuild s).feed.lock = Lock.initial := by
  rw [lock_rebuild, resetLock]
  cases e : packAt s.packsAfterReset .feedLock with
  | none => rfl
  | some x =>
    obtain ⟨f, hl⟩ := packAt_some e
    obtain ⟨p, f, e'⟩ := vget_afterReset.1 f
    exact absurd (by rw [← e', afterReset_loc] at hl; exact hl) (vacant _ p f)

theorem lock_rebuild_sole {s : State} {i : Fin 256} {p : Pack} (f : (s.record i).pack = some p)
    (hl : p.loc = .feedLock) (alone : ∀ j q, (s.record j).pack = some q → q.loc = .feedLock → j = i) :
    (rebuild s).feed.lock = ⟨.blocked, some (s.handle i), false, false, none⟩ := by
  rw [lock_rebuild, resetLock, packAt_sole f hl alone]
  simp [State.packsAfterReset, Rec.afterReset, State.handle, State.record]

/-! ### Custody after a reset -/

/-- No FEEDING pack at the lock, no incident (R130). -/
theorem resetUncertain_idle {old : Vector Rec 256} {s : State}
    (h : ∀ i p, (vget old i).pack = some p → p.loc = .feedLock → p.state ≠ .feeding) : resetUncertain old s = s := by
  unfold resetUncertain
  split
  case h_1 i p e =>
    obtain ⟨f, hl⟩ := packAt_some e
    exact if_neg (h i p f hl)
  case h_2 => rfl

/-- A FEEDING pack at the lock marks its lot and is posted (R130, R160). -/
theorem resetUncertain_feeding {old : Vector Rec 256} {s : State} {i : Fin 256} {p : Pack}
    (f : (vget old i).pack = some p) (hl : p.loc = .feedLock)
    (alone : ∀ j q, (vget old j).pack = some q → q.loc = .feedLock → j = i) (feeding : p.state = .feeding) :
    resetUncertain old s = deposit (uncertainty 2 (s.handle i) p)
      (s.setLot p.lot ((s.lotAt p.lot).map fun l => { l with uncertain := true })) := by
  unfold resetUncertain
  rw [packAt_eq f hl alone]
  exact if_pos feeding

/-! ### Memory newly initialised -/

/-- Newly initialised memory under the straps read. -/
def State.blank (s : State) (straps : Straps) : State := { forget s with straps := straps }

section

variable (s : State) (straps : Straps)

theorem packs_blank : (rebuild (s.blank straps)).packs = State.initial.packs := by
  refine vext fun i => ?_
  simp [rebuild, State.blank, forget, State.initial, Rec.afterReset]

theorem inventories_blank : (rebuild (s.blank straps)).inventories = State.initial.inventories := by
  refine vext fun z => (vget_recomputed _ z).trans ?_
  have none : zoneSum (rebuild (s.blank straps)).packs z = 0 := by rw [packs_blank]; exact State.reset.no_energy z
  exact none.trans (by simp [State.initial])

theorem curves_blank : (rebuild (s.blank straps)).cls.curves = Classification.initial.curves := by
  refine vext fun k => ?_
  simp [rebuild, State.blank, forget, State.initial, Classification.initial, Curve.afterReset]

theorem zones_blank : (rebuild (s.blank straps)).fire.zones = Fire.initial.zones := by
  have still : resetZones Fire.initial.zones (Vector.replicate 8 0) = Fire.initial.zones := by decide +kernel
  have told : (rebuild (s.blank straps)).fire.zones =
      resetZones Fire.initial.zones (rebuild (s.blank straps)).inventories := rfl
  rw [told, inventories_blank]
  exact still

theorem no_pack_blank (i : Fin 256) (p : Pack) : ((s.blank straps).record i).pack ≠ some p := by
  simp [State.blank, forget, State.initial, State.record]

theorem lock_blank : (rebuild (s.blank straps)).feed.lock = Lock.initial :=
  lock_rebuild_vacant fun i p f => absurd f (no_pack_blank s straps i p)

theorem rebuild_blank : rebuild (s.blank straps) =
    { State.initial with
      straps := straps
      bays := (rebuild (s.blank straps)).bays
      fire := { Fire.initial with detectors := (rebuild (s.blank straps)).fire.detectors }
      out := s.out.afterReset
      pending := s.pending } := by
  refine (rebuild_eq _).trans ?_
  rw [packs_blank, inventories_blank, curves_blank, zones_blank, lock_blank]
  rfl

end

/-- RETENTION_LOST is the first incident of newly initialised banks (R172, R174). -/
theorem deposit_retentionLost {s : State} (banks : s.banks = Banks.initial) (now : s.now = ⟨0, 0⟩) :
    deposit retentionLost s = { s with banks := { Banks.initial with records := retentionLostBank } } := by
  rw [deposit_eq, banks, now]
  rfl

/-! ### Memory intact -/

/-- Custody after a reset with memory intact changes the lots and the bank of the records alone (R130, R160). -/
theorem resetUncertain_reach (old : Vector Rec 256) (s : State) : resetUncertain old s =
    { s with
      lot := { s.lot with lots := (resetUncertain old s).lot.lots }
      banks := { s.banks with records := (resetUncertain old s).banks.records } } := by
  unfold resetUncertain
  split
  · split
    · rw [deposit_eq]; rfl
    · rfl
  · rfl

theorem pack_afterReset (p : Pack) : p.afterReset = match p.state with
    | .discharging | .resting => { p with state := .loaded }
    | .discharged | .queued => { p with recheck := true }
    | .feeding => { p with state := .quarantined, cause := some .feedUncertain }
    | _ => p := by
  unfold Pack.afterReset
  cases p.state <;> rfl

/-- The state rebuilt from intact memory, before custody is judged and the permit's inputs are told. -/
def State.kept (s : State) (straps : Straps) : State :=
  rebuild { s with straps := straps, retentionFound := true, epoch := (s.epoch + 1) % 65536 }

end Sys2Proof.Machine

/-! ### The claims -/

theorem resetWithoutMemoryForgets : Claim.ResetWithoutMemoryForgets := by
  intro straps agrees s lost
  have reset : hardwareReset straps agrees s = resetLost straps s := if_neg (by simp [lost])
  have bay : ∀ n, (rebuild (s.blank straps)).bay n = { Bay.initial with confirmedOpen := !(s.sup (.contactor n)).readback } :=
    fun n => bay_rebuild_vacant fun i p f => absurd f (no_pack_blank s straps i p)
  refine ⟨resetLost straps s, congrArg Host.Outcome.next reset, ?_⟩
  have posted : resetLost straps s = firstDeliveries
      { rebuild (s.blank straps) with banks := { Banks.initial with records := retentionLostBank } } := by
    show firstDeliveries (deposit retentionLost (rebuild (s.blank straps))) = _
    rw [deposit_retentionLost] <;> simp [State.now, rebuild, State.blank, forget, State.initial]
  have detector : ∀ d, (rebuild (s.blank straps)).detector d =
      ({ Detector.initial with line := (s.detector d).line } : Detector).afterReset 500
        ((s.blank straps).fire.rearm * 1000) := fun d => by
    have line : (s.blank straps).detector d = { Detector.initial with line := (s.detector d).line } := by
      simp [State.blank, forget, State.detector]
    rw [detector_rebuild, line]
    rfl
  have sup := sup_rebuild (s.blank straps)
  have parts := rebuild_blank s straps
  rw [posted]
  generalize rebuild (s.blank straps) = v at bay detector sup parts
  refine ⟨by rw [parts]; rfl, bay, fun d => (detector d).trans ?_, sup, rfl⟩
  rw [detector_afterReset]
  cases (s.detector d).line <;> rfl

theorem resetWithMemoryRebuilds : Claim.ResetWithMemoryRebuilds := by
  intro straps s intact sole vacant
  have reset : hardwareReset straps true s = resetIntact straps s := if_pos (by simp [intact])
  let u : State := { s with straps := straps, retentionFound := true, epoch := (s.epoch + 1) % 65536 }
  let t : State := resetUncertain s.packs (s.kept straps)
  have parts : t = { s.kept straps with
      lot := { (s.kept straps).lot with lots := t.lot.lots }
      banks := { (s.kept straps).banks with records := t.banks.records } } := resetUncertain_reach ..
  have site : t.site = (rebuild u).site := site_resetUncertain ..
  have atLock : ∀ i p, (s.record i).pack = some p → p.loc = .feedLock →
      (∀ j q, (s.record j).pack = some q → q.loc = .feedLock → j = i) → p.state = .feeding →
      t = deposit (uncertainty 2 (s.handle i) p)
        ((s.kept straps).setLot p.lot (((s.kept straps).lotAt p.lot).map fun l => { l with uncertain := true })) :=
    fun i p f hl alone feeding => by
      rw [← show (s.kept straps).handle i = s.handle i from handle_rebuild (s := u) i]
      exact resetUncertain_feeding f hl alone feeding
  have idle : (∀ i p, (s.record i).pack = some p → p.loc = .feedLock → p.state ≠ .feeding) → t = s.kept straps :=
    resetUncertain_idle
  refine ⟨firstDeliveries t, congrArg Host.Outcome.next reset, ?_, fun i => ?_, fun z => ?_, fun z => ?_, fun d => ?_,
    fun n => ⟨fun h => ?_, fun i p ⟨f, hl, alone⟩ => ?_⟩, fun h => ?_, fun i p ⟨f, hl, alone⟩ => ?_, fun h => ?_,
    fun i p ⟨f, hl, alone⟩ feeding => ?_, fun k => ?_, fun p => ?_, fun o => ?_, rfl⟩
  · rw [parts]; rfl
  · have record : (firstDeliveries t).record i = (s.record i).afterReset := by
      rw [← record_rebuild]; exact record_of_site site i
    rw [record]
    exact ⟨rfl, by simp only [Rec.afterReset, pack_afterReset] <;> rfl⟩
  · rw [parts]; exact vget_recomputed _ z
  · rw [parts]; exact zone_rebuild u z
  · rw [parts]
    refine (detector_rebuild u d).trans ((detector_afterReset ..).trans ?_)
    simp only [u, State.detector] <;> cases (vget s.fire.detectors d).line <;> rfl
  · rw [parts]; exact bay_rebuild_vacant (s := u) h
  · rw [parts]; exact bay_rebuild_sole (s := u) f hl alone
  · rw [parts]; exact lock_rebuild_vacant (s := u) h
  · rw [parts]; exact lock_rebuild_sole (s := u) f hl alone
  · rw [idle h]; exact ⟨rfl, rfl⟩
  · rw [atLock i p f hl alone feeding, deposit_eq]
    exact ⟨rfl, rfl⟩
  · rw [parts]; exact curve_rebuild u k
  · rw [parts]; cases p <;> rfl
  · rw [parts]; exact sup_rebuild u o

theorem strapsSetTheBaudRate : Claim.StrapsSetTheBaudRate := by
  intro first second agrees s
  have straps : (hardwareReset ⟨first, second⟩ agrees s).straps = ⟨first, second⟩ := by
    unfold hardwareReset
    split
    · simp only [resetIntact, firstDeliveries, relight]
      unfold resetUncertain
      split
      · split
        · rw [deposit_eq]; rfl
        · rfl
      · rfl
    · rw [resetLost, deposit_eq]; rfl
  refine ⟨_, rfl, ?_⟩
  simp only [State.portBaud, straps]
  refine ⟨?_, ?_, ?_, ?_, rfl⟩ <;> rintro rfl rfl <;> rfl

/-- Settles O5: a reset without memory is the state newly initialised, one with memory is rebuilt from the records. -/
theorem hardwareResetStartsThePart : Obligations.HardwareResetStartsThePart :=
  ⟨resetWithoutMemoryForgets, resetWithMemoryRebuilds, strapsSetTheBaudRate⟩

end

