-- ==== Sys2Proof/Proofs/LotClosing.lean ====
section
/-! PROOFS, layer 10 continued. The closing of a lot: what it makes of the lot table, the banks and the permit's inputs, and
all that it leaves (R162, R163, R166). -/

namespace Sys2Proof.Machine

/-! ### Banks by their names -/

theorem Banks.ext_get {b c : Banks} (h : ∀ k, b.get k = c.get k) : b = c := by
  cases b; cases c
  simp only [Banks.mk.injEq]
  exact ⟨h .links, h .records, h .discharge, h .atmosphere, h .fire, h .feed⟩

/-! ### The shred lot -/

/-- The lot table with another shred lot and switch. -/
def State.shredTo (s : State) (shred : Option (Fin 8)) (sw : Option Switch) : State :=
  { s with lot := { s.lot with shredLot := shred, switch := sw } }

theorem setShred_same {s : State} {shred : Option (Fin 8)} {sw : Option Switch} (h : s.lot.shredLot = shred)
    (k : s.lot.switch = sw) : setShred shred sw s = s := if_pos ⟨h, k⟩

theorem setShred_eq {s : State} {shred : Option (Fin 8)} {sw : Option Switch}
    (h : ¬(s.lot.shredLot = shred ∧ s.lot.switch = sw)) : setShred shred sw s =
      notify [.line, .custody] (.shredLot shred sw) (deliverShred (s.shredTo shred sw)) := if_neg h

theorem shredTo_self (s : State) : s.shredTo s.lot.shredLot s.lot.switch = s := rfl

section

variable (shred : Option (Fin 8)) (sw : Option Switch) (s : State)

@[simp] theorem lessBanks_setShred : (setShred shred sw s).lessBanks = (s.shredTo shred sw).lessBanks := by
  by_cases h : s.lot.shredLot = shred ∧ s.lot.switch = sw
  · obtain ⟨rfl, rfl⟩ := h
    rw [setShred_same rfl rfl, shredTo_self]
  · rw [setShred_eq h, lessBanks_notify, lessBanks_deliverShred]

@[simp] theorem setShred_lot : (setShred shred sw s).lot = { s.lot with shredLot := shred, switch := sw } :=
  (congrArg State.lot (lessBanks_setShred shred sw s) :)

theorem setShred_bank {k : BankId} (hk : k ≠ .feed) : (setShred shred sw s).banks.get k = s.banks.get k := by
  by_cases h : s.lot.shredLot = shred ∧ s.lot.switch = sw
  · rw [setShred_same h.1 h.2]
  · rw [setShred_eq h, notify_banks, deliverShred_bank _ hk]; rfl

/-- Whether a shred lot is set reaches the Feed Controller (R166). -/
theorem setShred_inputs (told : s.feed.inputs.shredLotSet = s.lot.shredLot.isSome) :
    (setShred shred sw s).feed.inputs = { s.feed.inputs with shredLotSet := shred.isSome } := by
  by_cases h : s.lot.shredLot = shred ∧ s.lot.switch = sw
  · rw [setShred_same h.1 h.2, ← h.1, ← told]
  · rw [setShred_eq h, notify_feed, deliverShred_inputs]; rfl

end

/-! ### A lot closed -/

/-- A closed lot, with its balance (R163). -/
def Lot.closedOn (l : Lot) (t : Stamp) (b : Balance × Option Nat) : Lot :=
  { l with state := .closed, closedAt := some t, balance := some b.1, recovery := b.2 }

/-- The posting of a balance out of its bounds (R163). -/
def balanceException (j : Fin 8) (recovery : Option Nat) : Posting :=
  { code := .balanceException, severity := .contained, detail := min (recovery.getD 0) 65535, lot := some j }

/-- The closed lot in its slot, and the incident of its balance. -/
def closedWith (j : Fin 8) (l : Lot) (b : Balance × Option Nat) (s : State) : State :=
  if b.1 = .exception then postRaw (balanceException j b.2) (s.setLot j (some (l.closedOn s.now b)))
  else s.setLot j (some (l.closedOn s.now b))

theorem closeLot_eq (j : Fin 8) (l : Lot) (s : State) :
    let b := lotBalance l s.lot.boundLow s.lot.boundHigh
    let v := closedWith j l b s
    closeLot j l s = noticeLot j (some .closed) l.number (some (some b.1, b.2, l.uncertain))
      (setShred (if v.lot.shredLot = some j then none else v.lot.shredLot) (switchAfterClose j v.lot.switch) v) := rfl

section

variable (j : Fin 8) (l : Lot) (s : State) (b : Balance × Option Nat)

@[simp] theorem lessBanks_closedWith : (closedWith j l b s).lessBanks = (s.setLot j (some (l.closedOn s.now b))).lessBanks := by
  unfold closedWith
  split
  · rw [lessBanks_postRaw]
  · rfl

theorem closedWith_lot : (closedWith j l b s).lot = { s.lot with lots := vset s.lot.lots j (some (l.closedOn s.now b)) } :=
  (congrArg State.lot (lessBanks_closedWith j l s b) :)

theorem closedWith_feed : (closedWith j l b s).feed = s.feed := by
  unfold closedWith
  split
  · rw [postRaw_feed]; rfl
  · rfl

theorem closedWith_bank (k : BankId) : (closedWith j l b s).banks.get k =
    if b.1 = .exception ∧ k = .records then s.banks.records.posted (balanceException j b.2) s.now else s.banks.get k := by
  unfold closedWith
  by_cases e : b.1 = .exception
  · rw [if_pos e, postRaw_banks]
    by_cases hk : k = .records
    · subst hk
      rw [if_pos ⟨e, rfl⟩]
      exact Banks.get_put_same ..
    · rw [if_neg fun h => hk h.2]
      exact Banks.get_put_other _ hk _
  · rw [if_neg e, if_neg fun h => e h.1]; rfl

@[simp] theorem noticeLot_eq (st : Option LotState) (number : Nat)
    (c : Option (Option Balance × Option Nat × Bool)) : noticeLot j st number c s =
      { s with ports := s.ports.tell [.custody] ⟨.lot j st number c, s.now⟩ } := notify_eq ..

end

section

variable (j : Fin 8) (l : Lot) (s : State)

/-- The balance a lot closes with. -/
def Lot.balanceIn (l : Lot) (s : State) : Balance × Option Nat := lotBalance l s.lot.boundLow s.lot.boundHigh

/-- The lot table after lot `j` has closed (R163, R166, R170). -/
def lotsClosed (j : Fin 8) (l : Lot) (s : State) : LotTable :=
  { s.lot with
    lots := vset s.lot.lots j (some (l.closedOn s.now (l.balanceIn s)))
    shredLot := if s.lot.shredLot = some j then none else s.lot.shredLot
    switch := s.lot.switch.filter fun w => w.target != j }

theorem closeLot_noticed : closeLot j l s = noticeLot j (some .closed) l.number
    (some (some (l.balanceIn s).1, (l.balanceIn s).2, l.uncertain))
    (setShred (lotsClosed j l s).shredLot (lotsClosed j l s).switch (closedWith j l (l.balanceIn s) s)) := by
  have lot := closedWith_lot j l s (l.balanceIn s)
  rw [closeLot_eq]
  simp only [Lot.balanceIn] at lot ⊢
  rw [lot]
  rfl

theorem closeLot_frame : (closeLot j l s).lessBanks = ({ s with lot := lotsClosed j l s } : State).lessBanks := by
  have shred := lessBanks_setShred (lotsClosed j l s).shredLot (lotsClosed j l s).switch (closedWith j l (l.balanceIn s) s)
  have closed := lessBanks_closedWith j l s (l.balanceIn s)
  have onto : ((closedWith j l (l.balanceIn s) s).shredTo (lotsClosed j l s).shredLot (lotsClosed j l s).switch).lessBanks =
      ((s.setLot j (some (l.closedOn s.now (l.balanceIn s)))).shredTo (lotsClosed j l s).shredLot
        (lotsClosed j l s).switch).lessBanks := by
    have lot := closedWith_lot j l s (l.balanceIn s)
    have e := congrArg (fun u : State => { u with lot := lotsClosed j l s }) closed
    simp only [State.shredTo, lot]
    exact e
  rw [closeLot_noticed, noticeLot, lessBanks_notify, shred, onto]
  rfl

theorem closeLot_lot : (closeLot j l s).lot = lotsClosed j l s := by
  rw [closeLot_noticed, noticeLot_eq]
  show (setShred _ _ _).lot = _
  rw [setShred_lot, closedWith_lot]
  rfl

theorem closeLot_bank {k : BankId} (hk : k ≠ .feed) : (closeLot j l s).banks.get k =
    if (l.balanceIn s).1 = .exception ∧ k = .records then
      s.banks.records.posted (balanceException j (l.balanceIn s).2) s.now
    else s.banks.get k := by
  rw [closeLot_noticed, noticeLot, notify_banks, setShred_bank _ _ _ hk, closedWith_bank]

theorem closeLot_inputs (told : s.feed.inputs.shredLotSet = s.lot.shredLot.isSome) : (closeLot j l s).feed.inputs =
    { s.feed.inputs with shredLotSet := (lotsClosed j l s).shredLot.isSome } := by
  rw [closeLot_noticed, noticeLot, notify_feed, setShred_inputs, closedWith_feed]
  rw [closedWith_feed, closedWith_lot]
  exact told

end

/-! ### The test -/

theorem lotAllTerminal_iff (s : State) (j : Fin 8) : lotAllTerminal s j = true ↔
    ∀ i x, (s.record i).pack = some x → x.lot = j → x.state.terminal = true := by
  constructor
  · intro all i x f e
    have mine := List.all_eq_true.1 all (vget s.packs i) (by simp [vget])
    simpa [show (vget s.packs i).pack = some x from f, e] using mine
  · intro all
    refine List.all_eq_true.2 fun r hr => ?_
    obtain ⟨k, hk, rfl⟩ := List.mem_iff_getElem.1 hr
    have lt : k < 256 := by simpa using hk
    cases f : (s.record ⟨k, lt⟩).pack with
    | none => simp [show s.packs[k].pack = none from f]
    | some x =>
      have mine := all ⟨k, lt⟩ x f
      simp only [Vector.getElem_toList, show s.packs[k].pack = some x from f, Option.all_some, Bool.or_eq_true, bne_iff_ne]
      exact (em (x.lot = j)).elim (fun e => .inr (mine e)) .inl

theorem lotCloses_iff (s : State) (j : Fin 8) (l : Lot) : lotCloses s j l = true ↔
    l.state = .draining ∧ (∀ i x, (s.record i).pack = some x → x.lot = j → x.state.terminal = true) ∧
      (0 < l.shredded → l.final = true) := by
  simp only [lotCloses, Bool.and_eq_true, beq_iff_eq, lotAllTerminal_iff, Bool.or_eq_true, and_assoc]
  have final : (l.shredded = 0 ∨ l.final = true) ↔ (0 < l.shredded → l.final = true) := by
    rw [Nat.pos_iff_ne_zero, or_iff_not_imp_left]
  rw [final]

theorem testClosing_closes {s : State} {j : Fin 8} {l : Lot} (used : s.lotAt j = some l) (h : lotCloses s j l = true) :
    testClosing j s = closeLot j l s := by
  simp [testClosing, used, h]

theorem testClosing_stays {s : State} {j : Fin 8} {l : Lot} (used : s.lotAt j = some l)
    (h : ¬lotCloses s j l = true) : testClosing j s = s := by
  simp [testClosing, used, h]

/-- What a test for closing may change. -/
theorem testClosing_eq {s : State} {j : Fin 8} {l : Lot} (used : s.lotAt j = some l) : testClosing j s =
    { s with
      lot := (testClosing j s).lot
      feed := { s.feed with
        permit := (testClosing j s).feed.permit, inputs := (testClosing j s).feed.inputs
        lock := (testClosing j s).feed.lock }
      banks := { s.banks with records := (testClosing j s).banks.records, feed := (testClosing j s).banks.feed }
      out := { s.out with
        permit := (testClosing j s).out.permit, upperGate := (testClosing j s).out.upperGate
        lowerGate := (testClosing j s).out.lowerGate, lineFault := (testClosing j s).out.lineFault }
      ports := (testClosing j s).ports } := by
  by_cases h : lotCloses s j l = true
  · rw [testClosing_closes used h]
    have banks : (closeLot j l s).banks =
        { s.banks with records := (closeLot j l s).banks.records, feed := (closeLot j l s).banks.feed } := by
      refine Banks.ext_get fun k => ?_
      cases k with
      | records => rfl
      | feed => rfl
      | _ => exact (closeLot_bank j l s (by decide)).trans (if_neg (by simp))
    rw [← banks, closeLot_lot]
    exact eq_of_lessBanks (closeLot_frame j l s)
  · rw [testClosing_stays used h]

theorem quiet_testClosing {s : State} {j : Fin 8} {l : Lot} (used : s.lotAt j = some l) :
    (testClosing j s).ports.quiet = s.ports.quiet := by
  by_cases h : lotCloses s j l = true
  · rw [testClosing_closes used h]
    exact (quiet_of_lessBanks (closeLot_frame j l s) :)
  · rw [testClosing_stays used h]

/-- A lot that is not DRAINING does not close (R162). -/
theorem testClosing_idle {s : State} {j : Fin 8} {l : Lot} (used : s.lotAt j = some l) (h : l.state ≠ .draining) :
    testClosing j s = s := testClosing_stays used fun c => h ((lotCloses_iff s j l).1 c).1

/-- A lot put at `l` in `u` and tested there, in a state that agrees with `u` in what the test reads (R162, R163). -/
theorem lotTested {u s : State} {j : Fin 8} {l : Lot}
    (lot : s.lot = { u.lot with lots := vset u.lot.lots j (some l) }) (banks : s.banks.records = u.banks.records)
    (inputs : s.feed.inputs = u.feed.inputs) (now : s.now = u.now) :
    LotTested j l u.lot.shredLot u.lot.switch u (testClosing j s) := by
  have used : s.lotAt j = some l := by simp [State.lotAt, lot]
  have recs : ∀ i, (testClosing j s).record i = s.record i := fun i => by
    rw [testClosing_eq used]; rfl
  unfold LotTested
  intro done b
  have closes : lotCloses s j l = true ↔ done := by
    rw [lotCloses_iff]
    simp only [done, recs]
  have balance : l.balanceIn s = b := by simp only [Lot.balanceIn, lot, b]
  refine ⟨fun open_ => ?_, fun h => ?_, fun told => ?_⟩
  · rw [testClosing_stays used (mt closes.1 open_)]
    exact ⟨lot, banks⟩
  · rw [testClosing_closes used (closes.2 h), closeLot_lot]
    have records := closeLot_bank j l s (k := .records) (by decide)
    simp only [Banks.get, and_true, balance, now, banks] at records
    refine ⟨?_, fun e => records.trans (if_neg e), fun e => records.trans (if_pos e)⟩
    simp [lotsClosed, lot, balance, now, Lot.closedOn]
  · have told' : s.feed.inputs.shredLotSet = s.lot.shredLot.isSome := by rw [inputs, told, lot]
    by_cases h : lotCloses s j l = true
    · rw [testClosing_closes used h, closeLot_inputs j l s told', closeLot_lot, inputs]
    · rw [testClosing_stays used h, inputs, lot, ← told]

end Sys2Proof.Machine
end

