-- ==== Sys2Proof/Proofs/Withdrawal.lean ====
section
/-! PROOFS: WITHDRAW, CLOSE_LOT and RELEASE_LOT (chapters 01 and 08). -/

open Sys2Proof Sys2Proof.Machine

namespace Sys2Proof.Machine

theorem portsQuiet_answered {p : Port} {i : Instr} {r : Result} {body : List Byte} {u t : State}
    (h : t.ports.quiet = u.ports.quiet) : PortsQuiet u (answered p i r body t) := by
  rw [portsQuiet_iff, answered_eq]
  exact (Ports.quiet_answer ..).trans h

/-! ### A pack out of the site -/

theorem reportTerminal_eq {p : Pack} {s : State} {l : Lot} (used : s.lotAt p.lot = some l) : reportTerminal p s =
    { s with lot := { s.lot with lots := vset s.lot.lots p.lot (some (l.countTerminal p)) } } := by
  simp [reportTerminal, used, State.setLot]

/-- A pack retired with its energy told and its lot's count taken, the zone it leaves not going to release (R14, R15). -/
theorem retire_settled {i : Fin 256} {x y : Pack} {s : State} {l : Lot} (f : (s.record i).pack = some x)
    (used : s.lotAt y.lot = some l) (out : y.zone = none) (settled : ∀ z, x.zone = some z → Settled z s) :
    let inv := invStored (some x) y s.inventories
    retire i x y s =
      { s with
        packs := vset s.packs i ⟨(s.record i).gen, some y⟩
        inventories := inv
        lot := { s.lot with lots := vset s.lot.lots y.lot (some (l.countTerminal y)) }
        fire := { s.fire with zones := tellZone x.zone inv s.fire.zones }
        ports := packTold y.state.noticePorts (s.handle i) y s.now s.ports } := by
  intro inv
  unfold retire
  rw [transition_eq, f, reportTerminal_eq (l := l), out, deliverPlaces_settled]
  · rfl
  · intro z hz alarm
    obtain ⟨present, below⟩ := settled z hz alarm
    have heard := congrArg (fun P : Ports => P.fire.present)
      (quiet_packTold y.state.noticePorts (s.handle i) y s.now s.ports)
    have less : vget (invStored (some x) y s.inventories) z ≤ vget s.inventories z := by
      simp only [invStored, out, creditZone, vget_debitZone]
      omega
    exact ⟨heard.trans present, lt_of_le_of_lt less below⟩
  · exact nofun
  · exact used

end Sys2Proof.Machine

theorem withdrawnPacksLeaveTheSite : Claim.WithdrawnPacksLeaveTheSite := by
  intro q h s x l r g u f c
  have owner : withdrawReply h.index.1 h.gen u = _ := withPack_found g f _
  refine ⟨fun bad => served_refused rfl r rfl rfl (owner.trans (if_pos bad)) (by decide), fun hs hl => ?_⟩
  have zone : x.zone = some 7 := by rw [Pack.zone, hl]; rfl
  have stored : ¬(x.state ≠ .quarantined ∨ x.loc ≠ .quarantine) := by simp [hs, hl]
  have checks := owner.trans (if_neg stored)
  rw [zone] at checks
  refine ⟨fun frozen => served_refused rfl r rfl rfl (checks.trans (if_pos frozen)) (by decide), fun free used => ?_⟩
  let y : Pack := { x with state := .withdrawn, loc := .out }
  have calm : (u.zone 7).state ≠ .alarm := (not_alarm_of_not_frozen free).1 7 rfl
  have still : ∀ z, x.zone = some z → Settled z u := fun z hz => by
    rw [zone] at hz; cases hz
    exact settled_of_not_alarm calm
  have retired := retire_settled (y := y) (pack_of_lookup f) used rfl still
  let l' : Lot := { l with
      withdrawn := l.withdrawn + 1, withdrawnMass := l.withdrawnMass + x.mass, energy := l.energy + x.removed }
  have counted : l.countTerminal y = l' := by simp [Lot.countTerminal, y, l']
  have energy : invStored (some x) y u.inventories = debitZone (some 7) x.standing u.inventories := by
    rw [← zone]; rfl
  rw [zone, energy, record_of_lookup f, counted] at retired
  let v := retire h.index x y u
  have ok : exec c s = .next (answered .custody c .ok [] (testClosing x.lot v)) :=
    served_ok rfl r rfl rfl (checks.trans (if_neg (by simp [free])))
  have lot : v.lotAt x.lot = some l' := by simp only [v, retired, State.lotAt]; exact vget_vset_same ..
  have tested : LotTested x.lot l' u.lot.shredLot u.lot.switch u (testClosing x.lot v) :=
    lotTested (by simp only [v, retired]; rfl) (by simp only [v, retired]) (by simp only [v, retired])
      (by simp only [v, retired]; rfl)
  have parts := testClosing_eq lot
  have quiet := quiet_testClosing lot
  have idle : l.state ≠ .draining → testClosing x.lot v = v := fun h => testClosing_idle lot h
  generalize testClosing x.lot v = w at ok tested parts quiet idle
  simp only [v, retired] at parts quiet idle
  refine ⟨_, ok, answers_answered .., tested, ?_, fun h => ?_, ?_, ?_, ?_, portsQuiet_answered ?_⟩
  · rw [answered_eq, parts]
  · rw [answered_eq, idle h]
    exact ⟨rfl, rfl, rfl⟩
  · rw [answered_eq, parts]
  · rw [answered_eq]
    refine energyMoved_of ?_ ?_
    · rw [parts]; rfl
    · rw [parts]; rfl
  · rw [answered_eq, parts]
    rfl
  · exact quiet.trans (quiet_packTold ..)

/-- Settles O20: the pack retired, its lot counted and tested for closing, and the freezing of moves. -/
theorem withdrawTakesThePackOut : Obligations.WithdrawTakesThePackOut :=
  ⟨escalatedZonesFreezeMoves, withdrawnPacksLeaveTheSite⟩

end

