-- ==== Sys2Proof/Proofs/LotRequests.lean ====
section
/-! PROOFS: CLOSE_LOT and RELEASE_LOT (chapter 08). -/

open Sys2Proof Sys2Proof.Machine

namespace Sys2Proof.Machine

/-! ### CLOSE_LOT -/

/-- Lot `j` DRAINING, and Custody told (R161). -/
def drained (j : Fin 8) (l : Lot) (u : State) : State :=
  { u with
    lot := { u.lot with lots := vset u.lot.lots j (some { l with state := .draining }) }
    ports := u.ports.tell [.custody] ⟨.lot j (some .draining) l.number none, u.now⟩ }

theorem drainLot_eq (j : Fin 8) (l : Lot) (u : State) : drainLot j l u = testClosing j (drained j l u) := by
  rw [drainLot, noticeLot_eq]; rfl

theorem lotAt_drained (j : Fin 8) (l : Lot) (u : State) :
    (drained j l u).lotAt j = some { l with state := .draining } := vget_vset_same ..

theorem closeLotReply_free {j : Fin 8} {u : State} (h : u.lotAt j = none) :
    closeLotReply j.1 u = refuse .wrongState u := by simp [closeLotReply, withLot, index0_val, h]

theorem closeLotReply_used {j : Fin 8} {l : Lot} {u : State} (h : u.lotAt j = some l) : closeLotReply j.1 u =
    if l.state ≠ .opened then refuse .wrongState u else reply (drainLot j l u) [] := by
  simp [closeLotReply, withLot, index0_val, h]

/-! ### RELEASE_LOT -/

theorem releaseLotReply_open {j : Fin 8} {u : State} (h : ∀ l, u.lotAt j = some l → l.state ≠ .closed) :
    releaseLotReply j.1 u = refuse .wrongState u := by
  unfold releaseLotReply withLot
  rw [index0_val]
  cases f : u.lotAt j with
  | none => simp [f]
  | some l => simp [f, h l f]

theorem releaseLotReply_closed {j : Fin 8} {l : Lot} {u : State} (h : u.lotAt j = some l) (closed : l.state = .closed) :
    releaseLotReply j.1 u = reply
      { u with
        packs := freeRecords j u.packs, lot := { u.lot with lots := vset u.lot.lots j none }
        ports := u.ports.tell [.custody] ⟨.lot j none l.number none, u.now⟩ }
      (be 2 (u.packs.toList.countP (·.ofLot j))) := by
  simp [releaseLotReply, withLot, index0_val, h, closed, State.setLot, State.now]

theorem vget_freeRecords (j : Fin 8) (packs : Vector Rec 256) (i : Fin 256) : vget (freeRecords j packs) i =
    if (vget packs i).ofLot j then (vget packs i).freed else vget packs i := vget_vmap ..

theorem ofLot_iff {r : Rec} {j : Fin 8} : r.ofLot j = true ↔ ∃ x, r.pack = some x ∧ x.lot = j := by
  simp [Rec.ofLot, Option.any_eq_true]

end Sys2Proof.Machine

theorem balanceArithmetic : Claim.BalanceArithmetic := by
  intro l lo hi
  refine ⟨fun nothing => by simp [lotBalance, nothing], fun some_ => ?_⟩
  intro r
  have shredded : l.shreddedMass ≠ 0 := by omega
  refine ⟨fun low high => by simp [lotBalance, shredded, r, low, high], fun out => ?_⟩
  have missed : ¬(lo ≤ r ∧ r ≤ hi) := by omega
  simp only [lotBalance, if_neg shredded]
  rw [if_neg missed]

theorem closeLotDrainsOrCloses : Claim.CloseLotDrainsOrCloses := by
  intro q j s r u c
  refine ⟨fun free => served_refused rfl r rfl rfl (closeLotReply_free free) (by decide), fun l used => ?_⟩
  intro done
  have owner : closeLotReply j.1 u = _ := closeLotReply_used used
  have lot := lotAt_drained j l u
  have closes : lotCloses (drained j l u) j { l with state := .draining } = true ↔ done :=
    (lotCloses_iff ..).trans ⟨fun h => h.2, fun h => ⟨rfl, h⟩⟩
  have quiet : (drained j l u).ports.quiet = u.ports.quiet := Ports.quiet_tell ..
  refine ⟨fun h => served_refused rfl r rfl rfl (owner.trans (if_pos h)) (by decide), fun h open_ => ?_, fun h all => ?_⟩
  · rw [if_neg (not_not.2 h), drainLot_eq, testClosing_stays lot (mt closes.1 open_)] at owner
    exact ⟨_, served_ok rfl r rfl rfl owner, answers_answered .., portsQuiet_answered quiet, rfl⟩
  · intro b
    rw [if_neg (not_not.2 h), drainLot_eq, testClosing_closes lot (closes.2 all)] at owner
    have ok := served_ok (c := c) rfl r rfl rfl owner
    have parts := testClosing_eq lot
    have calm := quiet_testClosing lot
    rw [testClosing_closes lot (closes.2 all)] at parts calm
    have table := closeLot_lot j { l with state := .draining } (drained j l u)
    have records := closeLot_bank j { l with state := .draining } (drained j l u) (k := .records) (by decide)
    generalize closeLot j { l with state := .draining } (drained j l u) = w at ok parts calm table records
    have lots : w.lot.lots = vset u.lot.lots j (some (({ l with state := .draining } : Lot).closedOn u.now b)) := by
      rw [table]
      exact vset_vset ..
    refine ⟨_, ok, answers_answered .., portsQuiet_answered (calm.trans quiet), ?_, ?_, lots,
      congrArg LotTable.shredLot table, congrArg LotTable.switch table, (congrArg LotTable.boundLow table :),
      (congrArg LotTable.boundHigh table :), ?_, fun within => records.trans (if_neg fun e => within e.1)⟩
    · rw [answered_eq, parts]; rfl
    · rw [answered_eq, parts]; rfl
    · rw [answered_eq, parts]; rfl

theorem releaseLotFreesItsRecords : Claim.ReleaseLotFreesItsRecords := by
  intro q j s r u c
  refine ⟨fun open_ => served_refused rfl r rfl rfl (releaseLotReply_open open_) (by decide), fun l used closed => ?_⟩
  refine ⟨_, served_ok rfl r rfl rfl (releaseLotReply_closed used closed), answers_answered ..,
    portsQuiet_answered (Ports.quiet_tell ..), rfl, fun i other => ?_, fun i x f mine => ?_⟩
  · exact (vget_freeRecords ..).trans (if_neg fun h => by
      obtain ⟨x, f, e⟩ := ofLot_iff.1 h
      exact other x f e)
  · exact (vget_freeRecords ..).trans (if_pos (ofLot_iff.2 ⟨x, f, mine⟩))

/-- Settles O43: the balance, the draining or closing of a lot, and the release of its records. -/
theorem lotsCloseAndRelease : Obligations.LotsCloseAndRelease :=
  ⟨balanceArithmetic, closeLotDrainsOrCloses, releaseLotFreesItsRecords⟩

end

