-- ==== Sys2Proof/Proofs/Classification.lean ====
section
/-! PROOFS: the residual check's arithmetic and the treatment of a type code (chapter 02). -/

namespace Sys2Proof.Machine

/-! ### The fraction on a curve (R42) -/

/-- A walk along a curve passes every point that the cell voltage has reached. -/
theorem fractionFrom_append {vc : Nat} {pre rest : List Point} {lo : Point} (passed : ∀ q ∈ pre, q.mv ≤ vc)
    (reached : lo.mv ≤ vc) (p : Point) : fractionFrom p vc (pre ++ lo :: rest) = fractionFrom lo vc rest := by
  induction pre generalizing p with
  | nil => exact if_neg (Nat.not_lt.2 reached)
  | cons q pre ih =>
    obtain ⟨hq, rest⟩ := List.forall_mem_cons.1 passed
    exact (if_neg (Nat.not_lt.2 hq)).trans (ih rest q)

/-- The fraction of a cell voltage at or past point `lo` is found from that point on, where the point itself gives its own
fraction. -/
theorem curveFraction_append {vc : Nat} {pre rest : List Point} {lo : Point} (below : ∀ q ∈ pre, q.mv < lo.mv)
    (reached : lo.mv ≤ vc) (own : vc = lo.mv → fractionFrom lo vc rest = lo.frac) :
    curveFraction vc (pre ++ lo :: rest) = some (fractionFrom lo vc rest) := by
  cases pre with
  | nil =>
    refine congrArg some ?_
    split
    case isTrue h => exact (own (Nat.le_antisymm h reached)).symm
    case isFalse => rfl
  | cons q pre =>
    obtain ⟨hq, below⟩ := List.forall_mem_cons.1 below
    have past : ¬vc ≤ q.mv := by omega
    refine congrArg some ((if_neg past).trans (fractionFrom_append (fun p hp => ?_) reached q))
    have := below p hp
    omega

/-- Between two points the fraction is interpolated, rounded up (R42). -/
theorem fractionFrom_between {vc : Nat} {lo hi : Point} {post : List Point} (h : vc < hi.mv) :
    fractionFrom lo vc (hi :: post) =
      lo.frac + ((vc - lo.mv) * (hi.frac - lo.frac) + (hi.mv - lo.mv) - 1) / (hi.mv - lo.mv) := if_pos h

/-- In a curve that rises in voltage, what stands before a point is below it. -/
theorem below_of_rising {pre rest : List Point} {lo : Point}
    (rising : (pre ++ lo :: rest).Pairwise fun a b => a.mv < b.mv) : ∀ q ∈ pre, q.mv < lo.mv := by
  intro q hq
  obtain ⟨_, _, across⟩ := List.pairwise_append.1 rising
  exact across q hq lo (by simp)

/-- A share `a / d` of `n`, rounded up, is at most `n`. -/
theorem ceil_share_le {a d n : Nat} (h : a < d) : (a * n + d - 1) / d ≤ n := by
  have share : a * n ≤ d * n := Nat.mul_le_mul_right n h.le
  refine Nat.le_of_lt_succ (Nat.div_lt_of_lt_mul ?_)
  rw [Nat.mul_succ]
  omega

/-! ### The choice among treatments (R34) -/

/-- What R34 compares two treatments by, in its order; the smaller is chosen. -/
def choiceKey (ts : Vector Treatment 8) (a : Fin 8) : Bool ×ₗ Nat ×ₗ Nat ×ₗ Fin 8 :=
  toLex (!(vget ts a).refuse, toLex ((vget ts a).limit, toLex ((vget ts a).cap, a)))

theorem choiceKey_lt_iff {ts : Vector Treatment 8} {a b : Fin 8} :
    choiceKey ts a < choiceKey ts b ↔ ChosenBefore ts a b := by
  simp only [choiceKey, ChosenBefore, Prod.Lex.toLex_lt_toLex]
  cases (vget ts a).refuse <;> cases (vget ts b).refuse <;> simp

theorem choiceKey_injective (ts : Vector Treatment 8) : Function.Injective (choiceKey ts) := fun _ _ h =>
  congrArg (fun k => (ofLex (ofLex (ofLex k).2).2).2) h

theorem stricter_iff {ts : Vector Treatment 8} {a b : Fin 8} :
    stricter ts a b = true ↔ choiceKey ts a < choiceKey ts b := by
  rw [choiceKey_lt_iff]
  unfold stricter ChosenBefore
  cases (vget ts a).refuse <;> cases (vget ts b).refuse <;> simp <;> grind

/-- The most restrictive of a list is one of it, and none of it comes before it. -/
theorem mostRestrictive_spec (ts : Vector Treatment 8) (best : Fin 8) (cs : List (Fin 8)) :
    mostRestrictive ts best cs ∈ best :: cs ∧
      ∀ t ∈ best :: cs, choiceKey ts (mostRestrictive ts best cs) ≤ choiceKey ts t := by
  induction cs generalizing best with
  | nil => simp [mostRestrictive]
  | cons c cs ih =>
    obtain ⟨mem, least⟩ := ih (if stricter ts c best then c else best)
    have first := least _ List.mem_cons_self
    have after : ∀ t ∈ cs, choiceKey ts (mostRestrictive ts best (c :: cs)) ≤ choiceKey ts t := fun t ht =>
      least t (List.mem_cons_of_mem _ ht)
    by_cases s : stricter ts c best = true
    · have before := (stricter_iff.1 s).le
      rw [if_pos s] at mem first
      have both := first.trans before
      simp only [mostRestrictive, if_pos s] at after ⊢
      grind
    · have before := not_lt.1 (mt stricter_iff.2 s)
      rw [if_neg s] at mem first
      have both := first.trans before
      simp only [mostRestrictive, if_neg s] at after ⊢
      grind

theorem mem_toList_iff {α : Type} {n : Nat} {v : Vector α n} {x : α} : x ∈ v.toList ↔ ∃ i, vget v i = x := by
  rw [Vector.mem_toList_iff, Vector.mem_iff_getElem]
  exact ⟨fun ⟨i, h, e⟩ => ⟨⟨i, h⟩, e⟩, fun ⟨i, e⟩ => ⟨i, i.2, e⟩⟩

theorem mem_rangeCandidates {c : Classification} {tc : Nat} {t : Fin 8} : t ∈ rangeCandidates c tc ↔
    ∃ i : Fin 8, (vget c.ranges i).enabled = true ∧ (vget c.ranges i).low ≤ tc ∧ tc ≤ (vget c.ranges i).high ∧
      (vget c.ranges i).treatment = t := by
  simp only [rangeCandidates, List.mem_map, List.mem_filter, mem_toList_iff, Bool.and_eq_true, decide_eq_true_eq]
  grind

section

variable {c : Classification} {tc : Nat}

theorem classify_off (h : c.mapOn = false) : classify c tc = c.defaultTreatment := by simp [classify, h]

theorem classify_ranges {t : Fin 8} {ts : List (Fin 8)} (h : c.mapOn = true) (r : rangeCandidates c tc = t :: ts) :
    classify c tc = mostRestrictive c.treatments t ts := by simp [classify, h, r]

theorem classify_family {f : Fin 16} (h : c.mapOn = true) (r : rangeCandidates c tc = []) (hf : f.1 = tc / 1048576) :
    classify c tc = if (vget c.slots f).enabled then (vget c.slots f).treatment else c.defaultTreatment := by
  have found : family tc = some f := by rw [family, ← hf, index0_val]
  simp [classify, h, r, found]

theorem classify_noFamily (h : c.mapOn = true) (r : rangeCandidates c tc = []) (hf : 16 ≤ tc / 1048576) :
    classify c tc = c.defaultTreatment := by
  have missed : family tc = none := index0_none hf
  simp [classify, h, r, missed]

end

end Sys2Proof.Machine

open Sys2Proof Sys2Proof.Machine

/-- Settles O29: a curve is walked to the two points around the cell voltage, and the rest is arithmetic. -/
theorem residualCheckArithmetic : Obligations.ResidualCheckArithmetic := by
  refine ⟨fun vc p ps h => congrArg some (if_pos h), fun vc pre lo hi post rising reached before => ?_,
    fun vc pre last rising reached => ?_, fun x v f points h => ?_, fun vc lo hi reached before le => ?_,
    fun e f h => ?_⟩
  · rw [curveFraction_append (below_of_rising rising) reached, fractionFrom_between before]
    rintro rfl
    rw [fractionFrom_between before, Nat.sub_self, Nat.zero_mul, Nat.zero_add, Nat.div_eq_of_lt (by omega), Nat.add_zero]
  · exact curveFraction_append (below_of_rising rising) reached fun _ => rfl
  · simp only [residualCheck, h, Option.map_some]
    rfl
  · have share := ceil_share_le (a := vc - lo.mv) (d := hi.mv - lo.mv) (n := hi.frac - lo.frac) (by omega)
    omega
  · have most : e * f ≤ e * 1000 := Nat.mul_le_mul_left e h
    omega

/-- Settles O47: the candidates of the enabled ranges are compared by `choiceKey`, of which the least is chosen. -/
theorem classificationPicksTheTreatment : Obligations.ClassificationPicksTheTreatment := by
  intro c tc cand k
  have candidates : ∀ t, t ∈ rangeCandidates c tc ↔ cand t := fun t => mem_rangeCandidates
  refine ⟨classify_off, fun on => ⟨fun ⟨t, ht⟩ => ?_, fun none => ?_⟩⟩
  · cases r : rangeCandidates c tc with
    | nil => rw [← candidates, r] at ht; exact nomatch ht
    | cons u us =>
      obtain ⟨mem, least⟩ := mostRestrictive_spec c.treatments u us
      rw [← classify_ranges on r, ← r] at mem least
      refine ⟨(candidates _).1 mem, fun t ht other => choiceKey_lt_iff.1 ?_⟩
      exact (least t ((candidates t).2 ht)).lt_of_ne fun e => other (choiceKey_injective _ e).symm
  · have r : rangeCandidates c tc = [] := List.eq_nil_iff_forall_not_mem.2 fun t ht => none ⟨t, (candidates t).1 ht⟩
    refine ⟨fun f hf => ⟨fun e => ?_, fun e => ?_⟩, classify_noFamily on r⟩
    · exact (classify_family on r hf).trans (if_pos e)
    · exact (classify_family on r hf).trans (if_neg (by simp [e]))

end

