-- ==== Sys2Proof/Proofs/Configuration.lean ====
section
/-! PROOFS: the writes of the treatment table and of the treatment map (chapter 02). -/

open Sys2Proof Sys2Proof.Machine

namespace Sys2Proof.Machine

/-! ### Fields -/

theorem yesNo_val {n : Nat} (h : n ≤ 1) : yesNo n = some (n == 1) := by interval_cases n <;> rfl

/-- A yes/no field is written as it was sent (R188). -/
theorem wBool_field {n : Nat} (h : n ≤ 1) : wBool (n == 1) = be 1 n := by interval_cases n <;> rfl

theorem le_of_yesNo {n : Nat} {b : Bool} (h : yesNo n = some b) : n ≤ 1 := by
  by_contra out
  rw [yesNo_none out] at h
  exact nomatch h

theorem val_of_index0 {n k : Nat} {i : Fin n} (h : index0 n k = some i) : i.1 = k := by
  unfold index0 at h
  split at h
  · cases h; rfl
  · exact nomatch h

theorem index0_of_val {n k : Nat} {i : Fin n} (h : i.1 = k) : index0 n k = some i := h ▸ index0_val i

/-! ### WRITE_TREATMENT -/

/-- The ranges outside of which R26 refuses a WRITE_TREATMENT. -/
def treatmentInRange (f : TreatmentFields) : Prop :=
  f.refuse ≤ 1 ∧ f.acceptDamaged ≤ 1 ∧ f.limit ≤ 1000 ∧ f.cap ≤ 100000 ∧ f.curve ≤ 3 ∧
    1000 ≤ f.current ∧ f.current ≤ 400000 ∧ 1500 ≤ f.stop ∧ f.stop ≤ 4500 ∧ f.retries ≤ 7 ∧ 200 ≤ f.maxTemp ∧
    f.maxTemp ≤ 800

/-- The entry that fields in range are written as, its times clamped (R27). -/
def treatmentEntry (f : TreatmentFields) (curve : Fin 4) : Treatment :=
  { refuse := f.refuse == 1, acceptDamaged := f.acceptDamaged == 1, limit := f.limit, cap := f.cap, curve := curve
    current := f.current, stop := f.stop, segment := clamp 10 3600 f.segment, rest := clamp 60 7200 f.rest
    retries := f.retries, dwell := clamp 10 1440 f.dwell, maxTemp := f.maxTemp }

theorem treatmentOf_inRange {f : TreatmentFields} {k : Fin 4} (h : treatmentInRange f) (hk : k.1 = f.curve) :
    treatmentOf f = some (treatmentEntry f k) := by
  obtain ⟨refuse, damaged, limit, cap, -, values⟩ := h
  simp only [treatmentOf, yesNo_val refuse, yesNo_val damaged, index0_of_val hk]
  exact if_pos ⟨limit, cap, values⟩

theorem treatmentOf_outOfRange {f : TreatmentFields} (h : ¬treatmentInRange f) : treatmentOf f = none := by
  unfold treatmentOf
  split
  case h_1 r a c hr ha hc =>
    have curve := val_of_index0 hc
    exact if_neg fun ⟨limit, cap, values⟩ =>
      h ⟨le_of_yesNo hr, le_of_yesNo ha, limit, cap, by omega, values⟩
  case h_2 => rfl

theorem writeTreatmentReply_refused {index : Nat} {f : TreatmentFields} (h : ¬(index ≤ 7 ∧ treatmentInRange f))
    (u : State) : writeTreatmentReply index f u = refuse .malformed u := by
  unfold writeTreatmentReply
  split
  case h_1 i t hi ht =>
    have low := val_of_index0 hi
    rw [treatmentOf_outOfRange fun g => h ⟨by omega, g⟩] at ht
    exact nomatch ht
  case h_2 => rfl

theorem writeTreatmentReply_written {i : Fin 8} {k : Fin 4} {index : Nat} {f : TreatmentFields} (hi : i.1 = index)
    (h : treatmentInRange f) (hk : k.1 = f.curve) (u : State) : writeTreatmentReply index f u =
      reply { u with cls.treatments := vset u.cls.treatments i (treatmentEntry f k) } (wTreatment (treatmentEntry f k)) := by
  simp only [writeTreatmentReply, index0_of_val hi, treatmentOf_inRange h hk]

/-! ### WRITE_RANGE, WRITE_SLOT_MAP and SET_MAP -/

section

variable {index low high tr en : Nat} {u : State}

theorem writeRangeReply_refused
    (h : 7 < index ∨ 16777215 < low ∨ 16777215 < high ∨ high < low ∨ 7 < tr ∨ 1 < en) :
    writeRangeReply index low high tr en u = refuse .malformed u := by
  unfold writeRangeReply
  split
  case h_1 i t e hi ht he =>
    have index := val_of_index0 hi
    have treatment := val_of_index0 ht
    have enabled := le_of_yesNo he
    exact if_pos (by omega)
  case h_2 => rfl

theorem writeSlotMapReply_refused (h : 15 < index ∨ 7 < tr ∨ 1 < en) :
    writeSlotMapReply index tr en u = refuse .malformed u := by
  unfold writeSlotMapReply
  split
  case h_1 i t e hi ht he =>
    have index := val_of_index0 hi
    have treatment := val_of_index0 ht
    have enabled := le_of_yesNo he
    omega
  case h_2 => rfl

theorem setMapReply_refused (h : 7 < tr ∨ 1 < en) : setMapReply en tr u = refuse .malformed u := by
  unfold setMapReply
  split
  case h_1 e t he ht =>
    have treatment := val_of_index0 ht
    have enabled := le_of_yesNo he
    omega
  case h_2 => rfl

variable {k : Fin 8} (hk : k.1 = tr) (he : en ≤ 1)

include hk he

theorem writeRangeReply_written {i : Fin 8} (hi : i.1 = index) (hh : high ≤ 16777215) (hl : low ≤ high) :
    writeRangeReply index low high tr en u =
      reply { u with cls.ranges := vset u.cls.ranges i ⟨low, high, k, en == 1⟩ }
        (be 4 low ++ be 4 high ++ be 1 tr ++ be 1 en) := by
  have inside : ¬(16777215 < low ∨ 16777215 < high ∨ high < low) := by omega
  simp only [writeRangeReply, index0_of_val hi, index0_of_val hk, yesNo_val he, if_neg inside, wRange, wBool_field he, hk]

theorem writeSlotMapReply_written {i : Fin 16} (hi : i.1 = index) : writeSlotMapReply index tr en u =
    reply { u with cls.slots := vset u.cls.slots i ⟨k, en == 1⟩ } (be 1 tr ++ be 1 en) := by
  simp only [writeSlotMapReply, index0_of_val hi, index0_of_val hk, yesNo_val he, wChemSlot, wBool_field he, hk]

theorem setMapReply_written : setMapReply en tr u =
    reply { u with cls.mapOn := en == 1, cls.defaultTreatment := k } (be 1 en ++ be 1 tr) := by
  simp only [setMapReply, index0_of_val hk, yesNo_val he, wBool_field he, hk]

end

end Sys2Proof.Machine

theorem treatmentEntriesAreWritten : Claim.TreatmentEntriesAreWritten := by
  intro q index f s r u c good
  refine ⟨fun bad => served_refused rfl r rfl rfl (writeTreatmentReply_refused bad u) (by decide),
    fun ⟨_, ranges⟩ i k hi hk => ?_⟩
  exact served_ok rfl r rfl rfl (writeTreatmentReply_written hi ranges hk u)

theorem mapEntriesAreWritten : Claim.MapEntriesAreWritten := by
  intro q index low high tr en s r u a b c
  refine ⟨fun h => served_refused rfl r rfl rfl (writeRangeReply_refused h) (by decide),
    fun h => served_refused rfl r rfl rfl (writeSlotMapReply_refused h) (by decide),
    fun h => served_refused rfl r rfl rfl (setMapReply_refused h) (by decide),
    fun k hk he => ⟨fun i hi hh hl => ?_, fun i hi => ?_, ?_⟩⟩
  · exact served_ok rfl r rfl rfl (writeRangeReply_written hk he hi hh hl)
  · exact served_ok rfl r rfl rfl (writeSlotMapReply_written hk he hi)
  · exact served_ok rfl r rfl rfl (setMapReply_written hk he)

/-- Settles O46: fields in range are read to one entry, which is written whole; any other field refuses the request. -/
theorem configurationIsWrittenWhole : Obligations.ConfigurationIsWrittenWhole :=
  ⟨treatmentEntriesAreWritten, mapEntriesAreWritten⟩

end

