-- ==== Sys2Proof/Proofs/CurveRequests.lean ====
section
/-! PROOFS: CURVE_BEGIN and CURVE_POINT, the faults of a curve, and the check a bay is ready for (chapters 02 and 03). -/

open Sys2Proof Sys2Proof.Machine

namespace Sys2Proof.Machine

/-! ### CURVE_BEGIN and CURVE_POINT (R37, R38) -/

theorem otherRewriting_iff {s : State} {k : Fin 4} :
    otherRewriting s k = true ↔ ∃ j, j ≠ k ∧ (vget s.cls.curves j).status = .rewriting := by
  have all : ∀ j : Fin 4, j ∈ ([0, 1, 2, 3] : List (Fin 4)) := by decide
  simp only [otherRewriting, List.any_eq_true, Bool.and_eq_true, bne_iff_ne, beq_iff_eq]
  exact ⟨fun ⟨j, _, h⟩ => ⟨j, h⟩, fun ⟨j, h⟩ => ⟨j, all j, h⟩⟩

theorem curveBeginReply_val (k : Fin 4) (u : State) : curveBeginReply k.1 u =
    if otherRewriting u k then refuse .busy u else reply (setCurve k ⟨.rewriting, []⟩ u) [] := by
  simp only [curveBeginReply, index0_val]

theorem curvePointReply_val (k : Fin 4) (mv frac : Nat) (u : State) :
    let x := vget u.cls.curves k
    curvePointReply k.1 mv frac u =
      if 65535 < mv ∨ 65535 < frac then refuse .malformed u
      else if x.status ≠ .rewriting then refuse .wrongState u
      else if Config.pointMax ≤ x.points.length then refuse .full u
      else reply (setCurve k { x with points := x.points ++ [⟨mv, frac⟩] } u) (be 1 (x.points.length + 1)) := by
  simp only [curvePointReply, index0_val]

theorem curveEndReply_val (k : Fin 4) (u : State) :
    let x := vget u.cls.curves k
    curveEndReply k.1 u = if x.status ≠ .rewriting then refuse .wrongState u
      else reply (judgeCurve k x.points u) (wVerdict (curveFault x.points)) := by
  simp only [curveEndReply, index0_val]

/-! ### The check a bay is ready for (R41, R62, R82) -/

theorem fresh_iff {b : Bay} {clock : Nat} :
    b.fresh clock = true ↔ ∃ x, b.lastSample = some x ∧ clock ≤ x.arrival + 2000 := by
  simp only [Bay.fresh, Option.any_eq_true, decide_eq_true_eq]
  rfl

theorem readyCheck_eq_some {n : Fin 8} {s : State} {i : Fin 256} {y : Pack} {k : Check} :
    readyCheck n s = some (i, y, k) ↔
      s.occupantPack n = some (i, y) ∧ (s.bay n).fresh s.clock = true ∧
        (vget s.cls.curves y.treatment.curve).status = .valid ∧
        ∃ x, (s.bay n).lastSample = some x ∧
          residualCheck y x.voltage (vget s.cls.curves y.treatment.curve).points = some k := by
  unfold readyCheck
  split
  case h_1 j p x occ sample =>
    dsimp only
    rw [occ, sample]
    split
    case isTrue h =>
      simp only [Bool.and_eq_true, beq_iff_eq] at h
      obtain ⟨fresh, valid⟩ := h
      simp only [Option.map_eq_some_iff, Prod.mk.injEq, Option.some.injEq]
      constructor
      · rintro ⟨r, found, rfl, rfl, rfl⟩
        exact ⟨⟨rfl, rfl⟩, fresh, valid, x, rfl, found⟩
      · rintro ⟨⟨rfl, rfl⟩, _, _, _, rfl, found⟩
        exact ⟨k, found, rfl, rfl, rfl⟩
    case isFalse h =>
      refine ⟨nofun, ?_⟩
      rintro ⟨e, fresh, valid, _⟩
      cases e
      exact absurd (by simp [fresh, valid]) h
  case h_2 missing =>
    refine ⟨nofun, ?_⟩
    rintro ⟨occ, _, _, x, sample, _⟩
    exact (missing i y x occ sample).elim

/-! ### The faults of a curve (R39) -/

/-- The position of the first point that breaks `bad` against the point before it, counted from `pos`. -/
def stepFault (bad : Point → Point → Bool) (prev : Point) (pos : Nat) : List Point → Option Nat
  | [] => none
  | p :: ps => if bad prev p then some pos else stepFault bad p (pos + 1) ps

/-- A point that does not rise in voltage over the one before it. -/
def notRising (a b : Point) : Bool := decide (b.mv ≤ a.mv)

/-- A point whose fraction is below that of the one before it. -/
def falling (a b : Point) : Bool := decide (b.frac < a.frac)

theorem voltageFault_eq (prev : Point) (pos : Nat) (ps : List Point) :
    voltageFault prev pos ps = stepFault notRising prev pos ps := by
  induction ps generalizing prev pos with
  | nil => rfl
  | cons p ps ih => simp only [voltageFault, stepFault, notRising, decide_eq_true_eq, ih]

theorem fractionFault_eq (prev : Point) (pos : Nat) (ps : List Point) :
    fractionFault prev pos ps = stepFault falling prev pos ps := by
  induction ps generalizing prev pos with
  | nil => rfl
  | cons p ps ih => simp only [fractionFault, stepFault, falling, decide_eq_true_eq, ih]

/-- No pair of neighbours before place `n` breaks `bad`. -/
def StepsHold (bad : Point → Point → Bool) (points : List Point) (n : Nat) : Prop :=
  ∀ i, i < n → ∀ a b, points[i]? = some a → points[i + 1]? = some b → bad a b = false

theorem stepFault_eq_some {bad : Point → Point → Bool} {p : Point} {ps : List Point} {i : Nat} {a b : Point}
    (ha : (p :: ps)[i]? = some a) (hb : (p :: ps)[i + 1]? = some b) (broken : bad a b = true)
    (before : StepsHold bad (p :: ps) i) (pos : Nat) : stepFault bad p pos ps = some (pos + i) := by
  induction ps generalizing p pos i with
  | nil => simp at hb
  | cons q ps ih =>
    cases i with
    | zero =>
      simp only [List.getElem?_cons_zero, List.getElem?_cons_succ, Option.some.injEq] at ha hb
      subst ha hb
      exact if_pos broken
    | succ i =>
      have first := before 0 (Nat.succ_pos i) p q rfl rfl
      rw [stepFault, if_neg (by simp [first]), ih ha hb (fun j hj => before (j + 1) (by omega)), Nat.add_right_comm]
      rfl

theorem stepFault_eq_none_iff {bad : Point → Point → Bool} {p : Point} {ps : List Point} {pos : Nat} :
    stepFault bad p pos ps = none ↔ (p :: ps).IsChain fun a b => bad a b = false := by
  induction ps generalizing p pos with
  | nil => simp [stepFault]
  | cons q ps ih =>
    rw [stepFault, List.isChain_cons_cons]
    split
    case isTrue h => simp [h]
    case isFalse h => simp [h, ih]

theorem isChain_of_stepsHold {bad : Point → Point → Bool} {points : List Point} {n : Nat} (h : StepsHold bad points n)
    (short : points.length ≤ n) : points.IsChain fun a b => bad a b = false := by
  rw [List.isChain_iff_getElem]
  intro i hi
  exact h i (by omega) _ _ (List.getElem?_eq_getElem (by omega)) (List.getElem?_eq_getElem hi)

theorem rangeFault_eq_some {points : List Point} {i : Nat} {a : Point} (ha : points[i]? = some a) (above : 1000 < a.frac)
    (before : ∀ j, j < i → ∀ b, points[j]? = some b → b.frac ≤ 1000) (pos : Nat) :
    rangeFault pos points = some (pos + i) := by
  induction points generalizing pos i with
  | nil => simp at ha
  | cons p ps ih =>
    cases i with
    | zero =>
      simp only [List.getElem?_cons_zero, Option.some.injEq] at ha
      subst ha
      exact if_pos above
    | succ i =>
      have first := before 0 (Nat.succ_pos i) p rfl
      rw [rangeFault, if_neg (Nat.not_lt.2 first), ih ha (fun j hj => before (j + 1) (by omega)), Nat.add_right_comm]
      rfl

theorem rangeFault_eq_none_iff {points : List Point} {pos : Nat} :
    rangeFault pos points = none ↔ ∀ p ∈ points, p.frac ≤ 1000 := by
  induction points generalizing pos with
  | nil => simp [rangeFault]
  | cons p ps ih =>
    rw [rangeFault, List.forall_mem_cons]
    split
    case isTrue h => simp [h]
    case isFalse h => simp [Nat.le_of_not_lt h, ih]

/-- A curve of 2 to 12 points is judged by its voltages, then its fractions, then their range. -/
theorem curveFault_enough {p : Point} {ps : List Point} (some_ : ps ≠ []) (short : (p :: ps).length ≤ 12) :
    curveFault (p :: ps) = ((stepFault notRising p 2 ps).map (1, ·)).or
      (((stepFault falling p 2 ps).map (2, ·)).or ((rangeFault 1 (p :: ps)).map (3, ·))) := by
  have few : ¬(ps = [] ∨ Config.pointMax < ps.length + 1) := by
    rintro (e | e)
    · exact some_ e
    · exact absurd short (Nat.not_le.2 e)
  simp only [curveFault, if_neg few, voltageFault_eq, fractionFault_eq]
  cases stepFault notRising p 2 ps with
  | some k => rfl
  | none => cases stepFault falling p 2 ps <;> rfl

theorem curveFault_few {points : List Point} (h : ¬(2 ≤ points.length ∧ points.length ≤ 12)) :
    curveFault points = some (0, points.length) := by
  cases points with
  | nil => rfl
  | cons p ps =>
    refine if_pos ?_
    simp only [List.length_cons] at h
    by_cases e : ps = []
    · exact .inl e
    · have := List.length_pos_iff.2 e
      exact .inr (show 12 < ps.length + 1 by omega)

theorem not_notRising {a b : Point} : notRising a b = false ↔ a.mv < b.mv := by simp [notRising]

theorem not_falling {a b : Point} : falling a b = false ↔ a.frac ≤ b.frac := by simp [falling]

/-- A transitive relation that holds between neighbours holds between any two points. -/
theorem chain_iff_pairwise {r : Point → Point → Prop} (trans : ∀ a b c, r a b → r b c → r a c) {l : List Point} :
    l.IsChain r ↔ l.Pairwise r :=
  have : Trans r r r := ⟨fun h k => trans _ _ _ h k⟩
  List.isChain_iff_pairwise

theorem rising_iff {l : List Point} :
    (l.IsChain fun a b => notRising a b = false) ↔ l.Pairwise fun a b => a.mv < b.mv := by
  simp only [not_notRising]
  exact chain_iff_pairwise (r := fun a b => a.mv < b.mv) fun _ _ _ => Nat.lt_trans

theorem even_iff {l : List Point} :
    (l.IsChain fun a b => falling a b = false) ↔ l.Pairwise fun a b => a.frac ≤ b.frac := by
  simp only [not_falling]
  exact chain_iff_pairwise (r := fun a b => a.frac ≤ b.frac) fun _ _ _ => Nat.le_trans

/-- A list of two points and more begins with a point that another follows. -/
theorem exists_cons_of_two {points : List Point} (h : 2 ≤ points.length) : ∃ p ps, points = p :: ps ∧ ps ≠ [] := by
  match points, h with
  | p :: q :: ps, _ => exact ⟨p, q :: ps, rfl, by simp⟩

/-- The four conditions of R39. -/
theorem curveFault_eq_none_iff {points : List Point} : curveFault points = none ↔
    2 ≤ points.length ∧ points.length ≤ 12 ∧ points.Pairwise (fun a b => a.mv < b.mv) ∧
      points.Pairwise (fun a b => a.frac ≤ b.frac) ∧ ∀ p ∈ points, p.frac ≤ 1000 := by
  by_cases h : 2 ≤ points.length ∧ points.length ≤ 12
  case neg => rw [curveFault_few h]; exact ⟨nofun, fun ⟨enough, short, _⟩ => absurd ⟨enough, short⟩ h⟩
  obtain ⟨enough, short⟩ := h
  obtain ⟨p, ps, rfl, more⟩ := exists_cons_of_two enough
  rw [curveFault_enough more short, ← rising_iff, ← even_iff, ← stepFault_eq_none_iff (pos := 2),
    ← stepFault_eq_none_iff (pos := 2), ← rangeFault_eq_none_iff (pos := 1)]
  simp only [Option.or_eq_none_iff, Option.map_eq_none_iff, enough, short, true_and]

end Sys2Proof.Machine

theorem curvesAreRewritten : Claim.CurvesAreRewritten := by
  intro q k mv frac s r u b p x written
  have begin_ := curveBeginReply_val k u
  have point := curvePointReply_val k mv frac u
  refine ⟨fun busy => ?_, fun free => ?_, fun bad => ?_, fun hm hf => ?_, fun n hn => ?_⟩
  · exact served_refused rfl r rfl rfl (begin_.trans (if_pos (otherRewriting_iff.2 busy))) (by decide)
  · refine served_ok rfl r rfl rfl (begin_.trans (if_neg fun h => ?_))
    obtain ⟨j, other, rewriting⟩ := otherRewriting_iff.1 h
    exact free j other rewriting
  · exact served_refused rfl r rfl rfl (point.trans (if_pos bad)) (by decide)
  · have inside := point.trans (if_neg (by omega))
    refine ⟨fun h => served_refused rfl r rfl rfl (inside.trans (if_pos h)) (by decide), fun h => ?_⟩
    have rewriting := inside.trans (if_neg (not_not.2 h))
    exact ⟨fun full => served_refused rfl r rfl rfl (rewriting.trans (if_pos full)) (by decide),
      fun room => served_ok rfl r rfl rfl (rewriting.trans (if_neg (Nat.not_le.2 room)))⟩
  · have out : index0 4 n = none := index0_none hn
    exact ⟨served_refused rfl r rfl rfl (by simp only [curveBeginReply, out]) (by decide),
      served_refused rfl r rfl rfl (by simp only [curvePointReply, out]) (by decide),
      served_refused rfl r rfl rfl (by simp only [curveEndReply, out]) (by decide)⟩

theorem freshSamplesAndReadyChecks : Claim.FreshSamplesAndReadyChecks := fun _ _ =>
  ⟨fun _ => fresh_iff, fun _ _ _ => readyCheck_eq_some⟩

theorem curveFaultsAreNamed : Claim.CurveFaultsAreNamed := by
  intro points rising even held enough
  refine ⟨curveFault_few, fun ⟨many, short⟩ => ?_⟩
  obtain ⟨p, ps, rfl, more⟩ := exists_cons_of_two many
  have judged := curveFault_enough more short
  have steps : ∀ n, rising n → StepsHold notRising (p :: ps) n := fun n h i hi a b ha hb =>
    not_notRising.2 (h i hi a b ha hb)
  have fractions : ∀ n, even n → StepsHold falling (p :: ps) n := fun n h i hi a b ha hb =>
    not_falling.2 (h i hi a b ha hb)
  refine ⟨fun i _ a b ha hb broken before => ?_, fun rises => ?_⟩
  · rw [judged, stepFault_eq_some ha hb (decide_eq_true broken) (steps i before), Nat.add_comm]; rfl
  rw [stepFault_eq_none_iff.2 (isChain_of_stepsHold (steps 12 rises) short)] at judged
  refine ⟨fun i _ a b ha hb broken before => ?_, fun evens => ?_⟩
  · rw [judged, stepFault_eq_some ha hb (decide_eq_true broken) (fractions i before), Nat.add_comm]; rfl
  rw [stepFault_eq_none_iff.2 (isChain_of_stepsHold (fractions 12 evens) short)] at judged
  refine ⟨fun i _ a ha above before => ?_, fun low => ?_⟩
  · rw [judged, rangeFault_eq_some ha above before, Nat.add_comm]; rfl
  · have within : rangeFault 1 (p :: ps) = none := rangeFault_eq_none_iff.2 fun x hx => by
      obtain ⟨i, hi, e⟩ := List.mem_iff_getElem.1 hx
      exact low i (by omega) x (by rw [List.getElem?_eq_getElem hi, e])
    rw [judged, within]; rfl

end

