-- ==== Sys2Proof/Proofs/DeferredChecks.lean ====
section
/-! PROOFS: the residual check as it runs in a bay, and the deferred checks that a curve made VALID wakes (chapters 02
and 03). -/

open Sys2Proof Sys2Proof.Machine

namespace Sys2Proof.Machine

/-! ### A bay's zone told its inventory -/

/-- The state without what a zone of a bay may change when it is told an inventory: what a posting reaches, the zones and
their release outputs. -/
def State.lessZones (s : State) : State :=
  { s.mute with
    feed := { s.feed with permit := false, inputs := PermitInputs.initial, lock := Lock.initial }
    fire := { s.fire with zones := Fire.initial.zones }
    banks := Banks.initial
    out := { Outputs.initial with contactors := s.out.contactors, purge := s.out.purge } }

theorem State.lessZones_of_lessBanks {s t : State} (h : t.lessBanks = s.lessBanks) : t.lessZones = s.lessZones := by
  have e := congrArg State.lessZones h
  exact e

@[simp] theorem lessZones_notify (ps : List Port) (w : NoticeBody) (s : State) :
    (notify ps w s).lessZones = s.lessZones := State.lessZones_of_lessBanks (lessBanks_notify ps w s)
@[simp] theorem lessZones_post (p : Posting) (s : State) : (post p s).lessZones = s.lessZones :=
  State.lessZones_of_lessBanks (lessBanks_post p s)
@[simp] theorem lessZones_setZone (s : State) (z : Fin 8) (q : Zone) : (s.setZone z q).lessZones = s.lessZones := rfl
@[simp] theorem lessZones_release (z : Fin 8) (on : Bool) (s : State) :
    (command (.release z) on s).lessZones = s.lessZones := rfl

section

variable {z : Fin 8} (h5 : z ≠ 5) (h6 : z ≠ 6)

include h5 h6

/-- A zone with bays, alarmed before, delivers nothing but its notice (R154). -/
theorem lessZones_deliverZone {old : ZoneState} (h : old.alarmed = true) (s : State) :
    (deliverZone z old s).lessZones = s.lessZones := by
  simp [deliverZone, h, h5, h6, noticeZone]

theorem lessZones_evalRelease (s : State) : (evalRelease z s).lessZones = s.lessZones := by
  unfold evalRelease
  dsimp only
  split
  case isTrue h =>
    have alarmed : (s.zone z).state.alarmed = true := by rw [h.1]; rfl
    split
    · exact (lessZones_deliverZone h5 h6 alarmed _).trans (by simp)
    · exact (lessZones_deliverZone h5 h6 alarmed _).trans (by simp)
  case isFalse => rfl

theorem lessZones_deliverInventory (s : State) : (deliverInventory z s).lessZones = s.lessZones := by
  unfold deliverInventory
  split
  · rfl
  · rw [lessZones_evalRelease h5 h6, lessZones_setZone]

end

/-- The bays stand neither in the buffer's zone nor in the lock's (R4). -/
theorem bayZone_apart : ∀ n, bayZone n ≠ 5 ∧ bayZone n ≠ 6 := by decide

/-- The place of a pack in a bay, told its inventory (R19). -/
theorem lessZones_deliverBay {n : Fin 8} {p : Pack} (hl : p.loc = .bay n) (s : State) :
    (deliverPlaces p.zone none s).lessZones = s.lessZones := by
  have zone : p.zone = some (bayZone n) := by rw [Pack.zone, hl]; rfl
  obtain ⟨h5, h6⟩ := bayZone_apart n
  rw [zone]
  exact lessZones_deliverInventory h5 h6 s

/-! ### The frame of the checks -/

/-- The state without what residual checks may change: the records, the inventories, the bays, the zones, what a posting
reaches, the outputs and the field link. -/
def State.lessChecks (s : State) : State :=
  { s.mute with
    packs := Vector.replicate 256 ⟨0, none⟩
    inventories := Vector.replicate 8 0
    bays := Vector.replicate 8 Bay.initial
    feed := { s.feed with permit := false, inputs := PermitInputs.initial, lock := Lock.initial }
    fire := { s.fire with zones := Fire.initial.zones }
    banks := Banks.initial
    out := Outputs.initial
    link := FieldLink.initial }

theorem State.lessChecks_of_lessZones {s t : State} (h : t.lessZones = s.lessZones) : t.lessChecks = s.lessChecks := by
  have e := congrArg State.lessChecks h
  exact e

theorem State.lessChecks_of_lessPacks {s t : State} (h : t.lessPacks = s.lessPacks) : t.lessChecks = s.lessChecks := by
  have e := congrArg State.lessChecks h
  exact e

theorem State.lessChecks_of_lessBays {s t : State} (h : t.lessBays = s.lessBays) : t.lessChecks = s.lessChecks := by
  have e := congrArg State.lessChecks h
  exact e

@[simp] theorem lessChecks_transition (i : Fin 256) (p : Pack) (s : State) :
    (transition i p s).lessChecks = s.lessChecks := State.lessChecks_of_lessPacks (lessPacks_transition i p s)
@[simp] theorem lessChecks_setBay (s : State) (n : Fin 8) (b : Bay) : (s.setBay n b).lessChecks = s.lessChecks := rfl
@[simp] theorem lessChecks_putBay (n : Fin 8) (b : Bay) (s : State) : (putBay n b s).lessChecks = s.lessChecks :=
  State.lessChecks_of_lessBays (lessBays_putBay n b s)
@[simp] theorem lessChecks_enterDischarging (n : Fin 8) (ms : Nat) (s : State) :
    (enterDischarging n ms s).lessChecks = s.lessChecks :=
  State.lessChecks_of_lessBays (lessBays_enterDischarging n ms s)

section

variable {s t : State} (h : t.lessChecks = s.lessChecks)

include h

theorem clock_of_lessChecks : t.clock = s.clock := (congrArg State.clock h :)
theorem cls_of_lessChecks : t.cls = s.cls := (congrArg State.cls h :)
theorem lot_of_lessChecks : t.lot = s.lot := (congrArg State.lot h :)
theorem atm_of_lessChecks : t.atm = s.atm := (congrArg State.atm h :)
theorem queue_of_lessChecks : t.feed.queue = s.feed.queue := (congrArg (fun x : State => x.feed.queue) h :)
theorem detectors_of_lessChecks : t.fire.detectors = s.fire.detectors :=
  (congrArg (fun x : State => x.fire.detectors) h :)
theorem line_of_lessChecks : t.ports.line.present = s.ports.line.present :=
  (congrArg (fun x : State => x.ports.line.present) h :)
theorem quiet_of_lessChecks : t.ports.quiet = s.ports.quiet := quiet_of_mute (congrArg State.ports h :)

theorem now_of_lessChecks : t.now = s.now := by
  have epoch : t.epoch = s.epoch := (congrArg State.epoch h :)
  simp only [State.now, epoch, clock_of_lessChecks h]

end

/-! ### What a check writes -/

/-- The pack of record `i` after its check (R44, R64 to R66). -/
def checkedPack (now : Stamp) (p : Pack) (c : Check) : Pack :=
  let q := p.rebased c.residual
  if c.pass then { q with state := .discharged, dischargedAt := some now, recheck := false }
  else if p.retries < p.treatment.retries then { q with state := .discharging, retries := p.retries + 1 }
  else { q with state := .quarantined, cause := some .reboundLimit }

/-- The bay of the pack after the check; `present` is the line port's presence. -/
def checkedBay (present : Bool) (p : Pack) (c : Check) (b : Bay) : Bay :=
  let d : Bay := { b with lastCheck := some c, deferred := false, recheck := false }
  if c.pass then { d with state := .done }
  else if p.retries < p.treatment.retries then
    if present then d.started 0 else { d with state := .paused, pauseCause := some .link, elapsed := 0 }
  else { d with state := .done }

/-- The bay's contactor after the check. -/
def checkedContactor (present : Bool) (p : Pack) (c : Check) (v : Supervision) : Supervision :=
  if c.pass = false ∧ p.retries < p.treatment.retries ∧ present = true then v.setCommand true else v

/-- The check of pack `p` of record `i` in bay `n`, with result `c`, has made `t` of `s`. -/
structure CheckRan (n : Fin 8) (i : Fin 256) (p : Pack) (c : Check) (s t : State) : Prop where
  packs : t.packs = vset s.packs i ⟨(s.record i).gen, some (checkedPack s.now p c)⟩
  bays : t.bays = vset s.bays n (checkedBay s.ports.line.present p c (s.bay n))
  contactors : t.out.contactors =
    vset s.out.contactors n (checkedContactor s.ports.line.present p c (s.sup (.contactor n)))
  rest : t.lessChecks = s.lessChecks

/-- What follows a check and leaves records, bays and contactors. -/
theorem CheckRan.before {n : Fin 8} {i : Fin 256} {p : Pack} {c : Check} {s t v : State} (ran : CheckRan n i p c s t)
    (h : v.lessZones = t.lessZones) : CheckRan n i p c s v where
  packs := (congrArg State.packs h :).trans ran.packs
  bays := (congrArg State.bays h :).trans ran.bays
  contactors := (congrArg (fun x : State => x.out.contactors) h :).trans ran.contactors
  rest := (State.lessChecks_of_lessZones h).trans ran.rest

/-- The result of a check noted in its bay (R44). -/
def Bay.noted (b : Bay) (c : Check) : Bay := { b with lastCheck := some c, deferred := false, recheck := false }

/-- `t` is `s` with pack `q` booked in record `i` and bay `n` written as `d`, the load as it was. -/
structure Booked (n : Fin 8) (i : Fin 256) (q : Pack) (d : Bay) (s t : State) : Prop where
  packs : t.packs = vset s.packs i ⟨(s.record i).gen, some q⟩
  bays : t.bays = vset s.bays n d
  contactors : t.out.contactors = s.out.contactors
  line : t.ports.line.present = s.ports.line.present
  rest : t.lessChecks = s.lessChecks

theorem booked_transition (n : Fin 8) (i : Fin 256) (q : Pack) (d : Bay) (s : State) :
    Booked n i q d s (transition i q (s.setBay n d)) where
  packs := by rw [transition_eq]; rfl
  bays := by rw [transition_eq]; rfl
  contactors := by rw [transition_eq]; rfl
  line := by
    rw [transition_eq]
    exact (congrArg (fun P : Ports => P.line.present) (quiet_packTold ..) :)
  rest := by rw [lessChecks_transition, lessChecks_setBay]

section

variable {n : Fin 8} {i : Fin 256} {p q : Pack} {c : Check} {d b : Bay} {s t : State}

theorem Booked.bay (h : Booked n i q d s t) : t.bay n = d := by rw [State.bay, h.bays, vget_vset_same]

/-- A check that leaves the load as it was. -/
theorem Booked.ran_put (h : Booked n i (checkedPack s.now p c) d s t)
    (bay : b = checkedBay s.ports.line.present p c (s.bay n))
    (v : checkedContactor s.ports.line.present p c (s.sup (.contactor n)) = s.sup (.contactor n)) :
    CheckRan n i p c s (putBay n b t) where
  packs := by rw [putBay_eq]; exact h.packs
  bays := by rw [putBay_eq, ← bay]; simp only [h.bays, vset_vset]
  contactors := by
    rw [putBay_eq, v]
    exact h.contactors.trans (vset_vget ..).symm
  rest := (lessChecks_putBay ..).trans h.rest

/-- A check that begins another segment. -/
theorem Booked.ran_started (h : Booked n i (checkedPack s.now p c) d s t)
    (b : checkedBay s.ports.line.present p c (s.bay n) = d.started 0)
    (v : checkedContactor s.ports.line.present p c (s.sup (.contactor n)) = (s.sup (.contactor n)).setCommand true) :
    CheckRan n i p c s (enterDischarging n 0 t) where
  packs := by rw [enterDischarging_eq]; exact h.packs
  bays := by rw [enterDischarging_eq, b]; simp only [h.bays, h.bay, vset_vset]
  contactors := by
    rw [enterDischarging_eq, v]
    simp only [Outputs.contactorTo, h.contactors]
    rfl
  rest := (lessChecks_enterDischarging ..).trans h.rest

end

/-- The result noted and the pack booked, before the bay goes on. -/
def checkBooked (n : Fin 8) (i : Fin 256) (p : Pack) (c : Check) (s : State) : State :=
  transition i (checkedPack s.now p c) (s.setBay n ((s.bay n).noted c))

theorem booked_checkBooked (n : Fin 8) (i : Fin 256) (p : Pack) (c : Check) (s : State) :
    Booked n i (checkedPack s.now p c) ((s.bay n).noted c) s (checkBooked n i p c s) := booked_transition ..

theorem actOnCheck_eq (n : Fin 8) (i : Fin 256) (p : Pack) (c : Check) (s : State) :
    let t := checkBooked n i p c s
    actOnCheck n i p c s = deliverPlaces p.zone none
      (if c.pass then putBay n { t.bay n with state := .done } t
      else if p.retries < p.treatment.retries then
        if t.ports.line.present then enterDischarging n 0 t
        else putBay n { t.bay n with state := .paused, pauseCause := some .link, elapsed := 0 } t
      else post { code := .reboundLimit, severity := .contained, detail := min c.residual 65535,
                  pack := some (t.handle i), place := some (n.1 + 1) } (putBay n { t.bay n with state := .done } t)) := by
  unfold actOnCheck checkBooked checkedPack
  by_cases pass : c.pass = true
  · simp only [if_pos pass]; rfl
  · by_cases retry : p.retries < p.treatment.retries
    · simp only [if_neg pass, if_pos retry]; rfl
    · simp only [if_neg pass, if_neg retry]; rfl

theorem checkRan_actOnCheck {n : Fin 8} {i : Fin 256} {p : Pack} (hl : p.loc = .bay n) (c : Check) (s : State) :
    CheckRan n i p c s (actOnCheck n i p c s) := by
  have booked := booked_checkBooked n i p c s
  rw [actOnCheck_eq]
  refine .before ?_ (lessZones_deliverBay hl _)
  rw [booked.line]
  split
  case isTrue pass =>
    refine booked.ran_put ?_ ?_
    · simp [checkedBay, pass, booked.bay, Bay.noted]
    · simp [checkedContactor, pass]
  case isFalse failed =>
    split
    case isTrue retry =>
      split
      case isTrue present =>
        refine booked.ran_started ?_ ?_
        · simp [checkedBay, failed, retry, present, Bay.noted]
        · simp [checkedContactor, failed, retry, present]
      case isFalse absent =>
        refine booked.ran_put ?_ ?_
        · simp [checkedBay, failed, retry, absent, booked.bay, Bay.noted]
        · simp [checkedContactor, absent]
    case isFalse spent =>
      refine .before (booked.ran_put ?_ ?_) (lessZones_post ..)
      · simp [checkedBay, failed, spent, booked.bay, Bay.noted]
      · simp [checkedContactor, spent]

/-! ### The check as R44 and R64 to R66 word it -/

section

variable {n : Fin 8} {i : Fin 256} {p : Pack} {c : Check} {s t : State}

theorem CheckRan.record (h : CheckRan n i p c s t) :
    t.record i = ⟨(s.record i).gen, some (checkedPack s.now p c)⟩ := by
  rw [State.record, h.packs, vget_vset_same]

theorem CheckRan.record_other (h : CheckRan n i p c s t) {j : Fin 256} (other : j ≠ i) : t.record j = s.record j := by
  rw [State.record, h.packs, vget_vset_other _ other]; rfl

theorem CheckRan.bay (h : CheckRan n i p c s t) : t.bay n = checkedBay s.ports.line.present p c (s.bay n) := by
  rw [State.bay, h.bays, vget_vset_same]

theorem CheckRan.bay_other (h : CheckRan n i p c s t) {m : Fin 8} (other : m ≠ n) : t.bay m = s.bay m := by
  rw [State.bay, h.bays, vget_vset_other _ other]; rfl

theorem CheckRan.contactor (h : CheckRan n i p c s t) : t.sup (.contactor n) =
    checkedContactor s.ports.line.present p c (s.sup (.contactor n)) := by
  rw [State.sup, h.contactors, vget_vset_same]

theorem CheckRan.contactor_other (h : CheckRan n i p c s t) {m : Fin 8} (other : m ≠ n) :
    t.sup (.contactor m) = s.sup (.contactor m) := by
  rw [State.sup, h.contactors, vget_vset_other _ other]; rfl

theorem checkedBay_occupant (present : Bool) (p : Pack) (c : Check) (b : Bay) :
    (checkedBay present p c b).occupant = b.occupant := by
  unfold checkedBay
  repeat' split
  all_goals rfl

theorem CheckRan.occupant (h : CheckRan n i p c s t) (occ : s.occupantPack n = some (i, p)) :
    t.occupantPack n = some (i, checkedPack s.now p c) := by
  obtain ⟨held, _⟩ := occupantPack_eq_some.1 occ
  rw [occupantPack_eq_some, h.bay, checkedBay_occupant, State.handle, h.record]
  exact ⟨held, rfl⟩

theorem CheckRan.checked (h : CheckRan n i p c s t) : Checked n i p c s t := by
  unfold Checked
  rw [h.record, h.bay, h.contactor]
  refine ⟨fun pass => ?_, fun failed retry => ⟨fun present => ?_, fun absent => ?_⟩, fun failed spent => ?_⟩
  · simp [checkedPack, checkedBay, checkedContactor, pass, Pack.rebased]
  · simp [checkedPack, checkedBay, checkedContactor, failed, retry, present, Pack.rebased, Bay.started]
  · simp [checkedPack, checkedBay, checkedContactor, failed, retry, absent, Pack.rebased]
  · simp [checkedPack, checkedBay, checkedContactor, failed, Nat.not_lt.2 spent, Pack.rebased]

end

/-! ### What a check leaves of the other bays -/

/-- Bay `m`, its contactor and its pack stay as they are from `s` to `t`. -/
structure BayStays (m : Fin 8) (s t : State) : Prop where
  bay : t.bay m = s.bay m
  contactor : t.sup (.contactor m) = s.sup (.contactor m)
  occupant : t.occupantPack m = s.occupantPack m
  record : ∀ i y, s.occupantPack m = some (i, y) → t.record i = s.record i

theorem BayStays.refl (m : Fin 8) (s : State) : BayStays m s s := ⟨rfl, rfl, rfl, fun _ _ _ => rfl⟩

theorem BayStays.trans {m : Fin 8} {s t v : State} (a : BayStays m s t) (b : BayStays m t v) : BayStays m s v where
  bay := b.bay.trans a.bay
  contactor := b.contactor.trans a.contactor
  occupant := b.occupant.trans a.occupant
  record i y h := (b.record i y (a.occupant.trans h)).trans (a.record i y h)

/-- A bay whose occupant's record is as it was has the pack it had. -/
theorem occupantPack_kept {m : Fin 8} {s t : State} (bay : (t.bay m).occupant = (s.bay m).occupant)
    (record : ∀ h, (s.bay m).occupant = some h → t.record h.index = s.record h.index) :
    t.occupantPack m = s.occupantPack m := by
  unfold State.occupantPack
  rw [bay]
  cases occ : (s.bay m).occupant with
  | none => rfl
  | some h => simp only [State.lookup, record h occ]

/-- Two bays hold different packs (R4). -/
theorem occupants_apart {s : State} (c : SiteClauses s) {m n : Fin 8} (other : m ≠ n) {i : Fin 256} {p : Pack}
    (occ : s.occupantPack n = some (i, p)) {h : Handle} (held : (s.bay m).occupant = some h) : h.index ≠ i := by
  rintro rfl
  obtain ⟨f, hl, _⟩ := occupant_stands c occ
  obtain ⟨q, fq, hq⟩ := c.held (.bay m) h held
  rw [pack_of_lookup fq] at f
  cases f
  exact other (Loc.bay.inj (hq.symm.trans hl))

theorem CheckRan.stays {n m : Fin 8} {i : Fin 256} {p : Pack} {k : Check} {s t : State} (h : CheckRan n i p k s t)
    (c : SiteClauses s) (occ : s.occupantPack n = some (i, p)) (other : m ≠ n) : BayStays m s t := by
  have record : ∀ d, (s.bay m).occupant = some d → t.record d.index = s.record d.index := fun d held =>
    h.record_other (occupants_apart c other occ held)
  refine ⟨h.bay_other other, h.contactor_other other, occupantPack_kept (by rw [h.bay_other other]) record,
    fun j y found => ?_⟩
  exact record _ (occupantPack_eq_some.1 found).1

/-! ### One bay of the waking -/

theorem waitsFor_iff {k : Fin 4} {s : State} {n : Fin 8} : waitsFor k s n = true ↔
    (s.bay n).state = .resting ∧ (s.bay n).deferred = true ∧
      ∃ i y, s.occupantPack n = some (i, y) ∧ y.treatment.curve = k := by
  simp [waitsFor, Option.any_eq_true, and_assoc]

/-- One bay's part when curve `k` has become VALID (R40, R63). -/
def wake (k : Fin 4) (s : State) (n : Fin 8) : State := if waitsFor k s n then runCheck n s else s

theorem wakeChecks_eq (k : Fin 4) (s : State) : wakeChecks k s = eight.foldl (wake k) s := rfl

theorem keeps_wake (k : Fin 4) (s : State) (n : Fin 8) : Keeps s (wake k s n) :=
  .onlyIf (.refl s) (keeps_runCheck n)

theorem wake_idle {k : Fin 4} {s : State} {n : Fin 8} (h : waitsFor k s n = false) : wake k s n = s :=
  if_neg (by simp [h])

/-- A deferred check that cannot be run waits on (R63). -/
theorem wake_unready {k : Fin 4} {s : State} {n : Fin 8} (h : readyCheck n s = none) : wake k s n = s := by
  unfold wake
  split
  case isTrue waits =>
    obtain ⟨_, deferred, _⟩ := waitsFor_iff.1 waits
    have same : ({ s.bay n with deferred := true } : Bay) = s.bay n := by rw [← deferred]
    have keep : vset s.bays n (s.bay n) = s.bays := vset_vget ..
    simp only [runCheck, h, same, State.setBay, keep]
  case isFalse => rfl

theorem wake_ran {k : Fin 4} {s : State} {n : Fin 8} {i : Fin 256} {p : Pack} {r : Check} (c : SiteClauses s)
    (waits : waitsFor k s n = true) (h : readyCheck n s = some (i, p, r)) : CheckRan n i p r s (wake k s n) := by
  obtain ⟨_, hl, _⟩ := occupant_stands c (readyCheck_occupant h)
  simp only [wake, if_pos waits, runCheck, h]
  exact checkRan_actOnCheck hl r s

/-- What the waking of one bay does: nothing, or the check of its pack. -/
theorem wake_cases (k : Fin 4) {s : State} (n : Fin 8) (c : SiteClauses s) : wake k s n = s ∨
    ∃ i p r, waitsFor k s n = true ∧ s.occupantPack n = some (i, p) ∧ CheckRan n i p r s (wake k s n) := by
  cases waits : waitsFor k s n with
  | false => exact .inl (wake_idle waits)
  | true =>
    cases h : readyCheck n s with
    | none => exact .inl (wake_unready h)
    | some x =>
      obtain ⟨i, p, r⟩ := x
      exact .inr ⟨i, p, r, rfl, readyCheck_occupant h, wake_ran c waits h⟩

theorem wake_stays (k : Fin 4) {s : State} {n m : Fin 8} (c : SiteClauses s) (other : m ≠ n) :
    BayStays m s (wake k s n) := by
  rcases wake_cases k n c with e | ⟨i, p, r, _, occ, ran⟩
  · rw [e]; exact .refl m s
  · exact ran.stays c occ other

theorem lessChecks_wake (k : Fin 4) {s : State} (n : Fin 8) (c : SiteClauses s) :
    (wake k s n).lessChecks = s.lessChecks := by
  rcases wake_cases k n c with e | ⟨i, p, r, _, _, ran⟩
  · rw [e]
  · exact ran.rest

theorem BayStays.waitsFor {k : Fin 4} {m : Fin 8} {s t : State} (h : BayStays m s t) :
    waitsFor k t m = waitsFor k s m := by
  simp only [Machine.waitsFor, h.bay, h.occupant]

/-! ### Every bay -/

section

variable {k : Fin 4}

theorem lessChecks_foldl_wake (l : List (Fin 8)) {s : State} (c : SiteClauses s) :
    (l.foldl (wake k) s).lessChecks = s.lessChecks := by
  induction l generalizing s with
  | nil => rfl
  | cons n l ih => exact (ih ((keeps_wake k s n).laws c).1).trans (lessChecks_wake k n c)

theorem foldl_wake_stays {l : List (Fin 8)} {m : Fin 8} (away : m ∉ l) {s : State} (c : SiteClauses s) :
    BayStays m s (l.foldl (wake k) s) := by
  induction l generalizing s with
  | nil => exact .refl m s
  | cons n l ih =>
    obtain ⟨other, away⟩ := List.ne_and_not_mem_of_not_mem_cons away
    exact (wake_stays k c other).trans (ih away ((keeps_wake k s n).laws c).1)

/-- A record that is no waiting bay's pack stays as it is. -/
theorem foldl_wake_record {l : List (Fin 8)} (nodup : l.Nodup) {i : Fin 256} {s : State} (c : SiteClauses s)
    (h : ∀ n ∈ l, ∀ y, waitsFor k s n = true → s.occupantPack n ≠ some (i, y)) :
    (l.foldl (wake k) s).record i = s.record i := by
  induction l generalizing s with
  | nil => rfl
  | cons n l ih =>
    obtain ⟨fresh, nodup⟩ := List.nodup_cons.1 nodup
    obtain ⟨first, later⟩ := List.forall_mem_cons.1 h
    refine (ih nodup ((keeps_wake k s n).laws c).1 fun m hm y waits => ?_).trans ?_
    · have stays := wake_stays k c (m := m) (n := n) fun e => fresh (e ▸ hm)
      rw [stays.occupant]
      exact later m hm y (stays.waitsFor ▸ waits)
    · rcases wake_cases k n c with e | ⟨j, p, r, waits, occ, ran⟩
      · rw [e]
      · exact ran.record_other fun e => first p waits (e ▸ occ)

/-- The bays before and after bay `n`. -/
theorem eight_split (n : Fin 8) : ∃ pre post, eight = pre ++ n :: post ∧ n ∉ pre ∧ n ∉ post := by
  have nodup : eight.Nodup := by decide
  obtain ⟨pre, post, e⟩ := List.append_of_mem (show n ∈ eight by revert n; decide)
  rw [e, List.nodup_middle] at nodup
  obtain ⟨fresh, _⟩ := List.nodup_cons.1 nodup
  exact ⟨pre, post, e, fun h => fresh (List.mem_append_left _ h), fun h => fresh (List.mem_append_right _ h)⟩

theorem readyCheck_stays {n : Fin 8} {s t : State} (h : BayStays n s t) (rest : t.lessChecks = s.lessChecks) :
    readyCheck n t = readyCheck n s := by
  simp only [readyCheck, h.bay, h.occupant, clock_of_lessChecks rest, cls_of_lessChecks rest]

/-- The result of a check read off states that agree on the bay, its contactor and its pack. -/
theorem Checked.of_stays {n : Fin 8} {i : Fin 256} {p q : Pack} {r : Check} {s s1 t1 t : State}
    (h : Checked n i p r s1 t1) (before : BayStays n s s1) (rest : s1.lessChecks = s.lessChecks)
    (had : s.occupantPack n = some (i, p)) (after : BayStays n t1 t) (has : t1.occupantPack n = some (i, q)) :
    Checked n i p r s t := by
  unfold Checked at h ⊢
  rw [before.bay, before.contactor, before.record i p had, now_of_lessChecks rest, line_of_lessChecks rest] at h
  rwa [after.bay, after.contactor, after.record i q has]

/-- The waking of a bay whose check is ready runs it, whatever the other bays do. -/
theorem wakeChecks_checked {s : State} {n : Fin 8} {i : Fin 256} {p : Pack} {r : Check} (c : SiteClauses s)
    (waits : waitsFor k s n = true) (ready : readyCheck n s = some (i, p, r)) :
    Checked n i p r s (wakeChecks k s) := by
  obtain ⟨pre, post, e, notPre, notPost⟩ := eight_split n
  rw [wakeChecks_eq, e, List.foldl_append, List.foldl_cons]
  have before := foldl_wake_stays (k := k) notPre c
  have rest := lessChecks_foldl_wake (k := k) pre c
  have c1 := ((Keeps.foldl (keeps_wake k) pre s).laws c).1
  generalize pre.foldl (wake k) s = s1 at before rest c1
  have ready1 := (readyCheck_stays before rest).trans ready
  have ran := wake_ran c1 (before.waitsFor.trans waits) ready1
  exact ran.checked.of_stays before rest (readyCheck_occupant ready)
    (foldl_wake_stays notPost ((keeps_wake k s1 n).laws c1).1) (ran.occupant (readyCheck_occupant ready1))

/-- A bay that does not wait for the curve, or whose check cannot be run, stays as it is. -/
theorem wakeChecks_stays {s : State} {n : Fin 8} (c : SiteClauses s)
    (idle : waitsFor k s n = false ∨ readyCheck n s = none) : BayStays n s (wakeChecks k s) := by
  obtain ⟨pre, post, e, notPre, notPost⟩ := eight_split n
  rw [wakeChecks_eq, e, List.foldl_append, List.foldl_cons]
  have before := foldl_wake_stays (k := k) notPre c
  have rest := lessChecks_foldl_wake (k := k) pre c
  have c1 := ((Keeps.foldl (keeps_wake k) pre s).laws c).1
  generalize pre.foldl (wake k) s = s1 at before rest c1
  have still : wake k s1 n = s1 := by
    rcases idle with h | h
    · exact wake_idle (before.waitsFor.trans h)
    · exact wake_unready ((readyCheck_stays before rest).trans h)
  rw [still]
  exact before.trans (foldl_wake_stays notPost c1)

end

/-! ### CURVE_END -/

theorem judgeCurve_valid {k : Fin 4} {points : List Point} (h : curveFault points = none) (u : State) :
    judgeCurve k points u = wakeChecks k (setCurve k ⟨.valid, points⟩ u) := if_pos (by simp [h])

theorem judgeCurve_invalid {k : Fin 4} {points : List Point} (h : curveFault points ≠ none) (u : State) :
    judgeCurve k points u = post { code := .curveInvalid, severity := .advisory, detail := k.1 }
      (setCurve k ⟨.invalid, points⟩ u) := if_neg (by simpa using h)

theorem siteClauses_setCurve {k : Fin 4} {x : Curve} {u : State} (c : SiteClauses u) : SiteClauses (setCurve k x u) :=
  siteClauses_of_site (s := u) rfl c

/-- Where no bay waits, a curve made VALID wakes none. -/
theorem wakeChecks_none {k : Fin 4} {s : State} (h : ∀ n, waitsFor k s n = false) : wakeChecks k s = s := by
  rw [wakeChecks_eq]
  induction eight with
  | nil => rfl
  | cons n l ih => rw [List.foldl_cons, wake_idle (h n), ih]

/-- The line fault output and the banks agree after a posting where they did before (R181). -/
theorem lineFault_postRaw {p : Posting} {s : State} (lit : s.out.lineFault = lineFaultLevel s.banks) :
    (postRaw p s).out.lineFault = lineFaultLevel (postRaw p s).banks := by
  unfold postRaw
  dsimp only
  split
  · exact lit
  · rw [notify_out, notify_banks]; rfl

/-- A posting whose bank the Feed Controller is not told of is a posting alone (R180). -/
theorem post_discharge {p : Posting} {s : State} (hp : p.code.bank = .discharge) (told : Told s) :
    post p s = postRaw p s := by
  refine deliverBanks_same ?_
  rw [postRaw_banks, postRaw_feed, told.1, hp]
  rfl

/-- A posting to the Discharge bank changes that bank, the line fault output and notices. -/
theorem postRaw_discharge {p : Posting} {s : State} (hp : p.code.bank = .discharge)
    (lit : s.out.lineFault = lineFaultLevel s.banks) : postRaw p s = { s with
      banks := { s.banks with discharge := (postRaw p s).banks.discharge }
      out := { s.out with lineFault := lineFaultLevel (postRaw p s).banks }, ports := (postRaw p s).ports } := by
  have banks : (postRaw p s).banks = { s.banks with discharge := (postRaw p s).banks.discharge } := by
    rw [postRaw_banks, hp]; rfl
  rw [← banks, ← lineFault_postRaw lit]
  exact postRaw_eq p s

theorem posted_postRaw (p : Posting) (s : State) : Posted p.code.bank [p] s (postRaw p s) := by
  rw [Posted, postRaw_banks, Banks.get_put_same]
  rfl

/-- An answer reaches the ports alone. -/
theorem answered_frame {p : Port} {i : Instr} {r : Result} {body : List Byte} {s t : State} {banks : Banks}
    {out : Outputs} (h : t = { s with banks := banks, out := out, ports := t.ports }) : answered p i r body t =
      { s with banks := banks, out := out, ports := (answered p i r body t).ports } := by
  rw [answered_eq]
  have framed := congrArg (fun v : State => { v with ports := t.ports.answer p ⟨i.frame.seq, i.frame.code, r, body⟩ }) h
  exact framed

end Sys2Proof.Machine

theorem curvesAreJudged : Claim.CurvesAreJudged := by
  intro q k s r u c x good written waits
  have owner := curveEndReply_val k u
  refine ⟨fun h => served_refused rfl r rfl rfl (owner.trans (if_pos h)) (by decide), fun h ok => ?_,
    fun h bad told => ?_⟩
  · have fine : curveFault x.points = none := curveFault_eq_none_iff.2 ok
    have judged := owner.trans (if_neg (not_not.2 h))
    rw [judgeCurve_valid fine, fine] at judged
    have ran : exec c s = .next (answered .line c .ok (be 1 0) (wakeChecks k (written .valid))) :=
      served_ok rfl r rfl rfl judged
    have waiting : ∀ n, waitsFor k (written .valid) n = true ↔ waits n := fun n => waitsFor_iff
    have idle : ∀ n, ¬waits n → waitsFor k (written .valid) n = false := fun n h => by
      rw [Bool.eq_false_iff]
      exact mt (waiting n).1 h
    refine ⟨fun none => by rw [ran, wakeChecks_none fun n => idle n (none n)],
      fun site => ⟨_, ran, answers_answered .., ?_⟩⟩
    have clauses : SiteClauses (written .valid) := siteClauses_setCurve ((siteLaw_iff u).1 site)
    have rest : (wakeChecks k (written .valid)).lessChecks = (written .valid).lessChecks :=
      lessChecks_foldl_wake eight clauses
    have checked := fun n i y t => wakeChecks_checked (k := k) (n := n) (i := i) (p := y) (r := t) clauses
    have stays := fun n => wakeChecks_stays (k := k) (n := n) clauses
    have record := fun i => foldl_wake_record (k := k) (l := eight) (by decide) (i := i) clauses
    rw [← wakeChecks_eq] at record
    generalize wakeChecks k (written .valid) = w at rest checked stays record
    refine ⟨(cls_of_lessChecks rest :), portsQuiet_answered (quiet_of_lessChecks rest :), (lot_of_lessChecks rest :),
      (atm_of_lessChecks rest :), (queue_of_lessChecks rest :), (detectors_of_lessChecks rest :),
      fun n h i y occ => ⟨fun t ready => ?_, fun unready => ?_⟩, fun n h => ?_, fun i away => ?_⟩
    · exact checked n i y t ((waiting n).2 h) ready
    · have still := stays n (.inr unready)
      exact ⟨still.bay, still.record i y occ⟩
    · have still := stays n (.inl (idle n h))
      exact ⟨still.bay, still.contactor⟩
    · exact record i fun n _ y h => away n y ((waiting n).1 h)
  · have fault : curveFault x.points ≠ none := mt curveFault_eq_none_iff.1 bad
    have judged := owner.trans (if_neg (not_not.2 h))
    have told' : Told (setCurve k ⟨.invalid, x.points⟩ u) := told
    rw [judgeCurve_invalid fault,
      post_discharge (p := { code := .curveInvalid, severity := .advisory, detail := k.1 }) rfl told'] at judged
    refine ⟨_, served_ok rfl r rfl rfl judged, fault, fun f hf => ?_, portsQuiet_answered ?_, ?_, ?_⟩
    · have answer := answers_answered .line c .ok (wVerdict (curveFault x.points)) (postRaw
        { code := .curveInvalid, severity := .advisory, detail := k.1 } (setCurve k ⟨.invalid, x.points⟩ u))
      rw [hf] at answer ⊢
      exact answer
    · exact (quiet_of_lessBanks (lessBanks_postRaw ..) :)
    · have posted := postRaw_discharge (p := { code := .curveInvalid, severity := .advisory, detail := k.1 }) rfl
        (show (setCurve k ⟨.invalid, x.points⟩ u).out.lineFault = _ from told.2)
      exact answered_frame posted
    · exact posted_postRaw { code := .curveInvalid, severity := .advisory, detail := k.1 } _

/-- Settles O48: a curve rewritten point by point, the check a bay is ready for, the bays woken one after the other without
reaching each other, and the first fault of a curve. -/
theorem curvesAreRewrittenAndJudged : Obligations.CurvesAreRewrittenAndJudged :=
  ⟨curvesAreRewritten, freshSamplesAndReadyChecks, curvesAreJudged, curveFaultsAreNamed⟩

end

