-- ==== Sys2Proof/Proofs/Steady.lean ====
section
/-! PROOFS: what the shared operations do to the line fault output, the links and the curves (R37, R181, R185, R193,
R202). -/

open Sys2Proof Sys2Proof.Machine

namespace Sys2Proof.Machine

/-! ### The relation -/

/-- What the laws of the line fault output, the links and the curves read of a state. -/
structure Wiring where
  run : Bool
  curves : Vector Curve 4
  banks : Banks
  lineFault : Bool
  ports : Ports
  waiting : List LoadSet

def State.wiring (s : State) : Wiring := ⟨s.run, s.cls.curves, s.banks, s.out.lineFault, s.ports, s.link.waiting⟩

/-- Each of the three laws that holds of `s` holds of `t`. -/
structure Steady (s t : State) : Prop where
  lit : LineFaultLaw s → LineFaultLaw t
  links : LinksBounded s → LinksBounded t
  curves : CurveLaw s → CurveLaw t

namespace Steady

variable {s t u : State}

theorem refl (s : State) : Steady s s := ⟨id, id, id⟩

theorem trans (h : Steady s t) (k : Steady t u) : Steady s u :=
  ⟨k.lit ∘ h.lit, k.links ∘ h.links, k.curves ∘ h.curves⟩

/-- An update of what the laws do not read. -/
theorem same (h : t.wiring = s.wiring) : Steady s t := by
  have run : t.run = s.run := congrArg Wiring.run h
  have curves : t.cls.curves = s.cls.curves := congrArg Wiring.curves h
  have banks : t.banks = s.banks := congrArg Wiring.banks h
  have lineFault : t.out.lineFault = s.out.lineFault := congrArg Wiring.lineFault h
  have ports : t.ports = s.ports := congrArg Wiring.ports h
  have waiting : t.link.waiting = s.link.waiting := congrArg Wiring.waiting h
  have port : ∀ p, t.port p = s.port p := fun p => by cases p <;> simp only [State.port, ports]
  refine ⟨fun law => ?_, fun law => ?_, fun law => ?_⟩
  · rwa [LineFaultLaw, run, lineFault, banks]
  · simpa only [LinksBounded, port, waiting] using law
  · rwa [CurveLaw, curves]

/-- An operation after an update of what the laws do not read. -/
theorem after (k : Steady u t) (h : u.wiring = s.wiring) : Steady s t := (same h).trans k

/-- An operation before an update of what the laws do not read. -/
theorem before (k : Steady s u) (h : t.wiring = u.wiring) : Steady s t := k.trans (same h)

theorem ite {c : Prop} [Decidable c] (ht : c → Steady s t) (hu : ¬c → Steady s u) : Steady s (if c then t else u) := by
  split
  · exact ht ‹_›
  · exact hu ‹_›

/-- A step that may be taken or not. -/
theorem onlyIf {c : Prop} [Decidable c] {f : State → State} (k : Steady s t) (h : ∀ t, Steady t (f t)) :
    Steady s (if c then f t else t) := .ite (fun _ => k.trans (h t)) fun _ => k

theorem foldl {α : Type} {f : State → α → State} (h : ∀ s x, Steady s (f s x)) (l : List α) (s : State) :
    Steady s (l.foldl f s) := by
  induction l generalizing s with
  | nil => exact .refl s
  | cons x l ih => exact (h s x).trans (ih _)

end Steady

/-! ### Ports and notices -/

/-- A port's queue and list are within their places, and its error count is saturated (R185, R193). -/
def PortCtx.Bounded (c : PortCtx) : Prop := c.notices.length ≤ 16 ∧ c.received.length ≤ 4 ∧ c.errors ≤ 65535

theorem linksBounded_iff (s : State) :
    LinksBounded s ↔ (∀ p, (s.port p).Bounded) ∧ (s.link.waiting.map (·.bay)).Nodup := .rfl

theorem steady_setPort {p : Port} {c : PortCtx} {s : State} (h : (s.port p).Bounded → c.Bounded) :
    Steady s (s.setPort p c) where
  lit law := by cases p <;> exact law
  links law := by
    obtain ⟨ports, waiting⟩ := (linksBounded_iff s).1 law
    refine (linksBounded_iff _).2 ⟨fun q => ?_, by cases p <;> exact waiting⟩
    rw [State.port_setPort]
    split
    · exact h (ports p)
    · exact ports q
  curves law := by cases p <;> exact law

theorem PortCtx.Bounded.enqueue {c : PortCtx} (h : c.Bounded) (n : Notice) : (c.enqueue n).Bounded := by
  obtain ⟨notices, rest⟩ := h
  unfold PortCtx.enqueue
  split
  case isTrue free =>
    refine ⟨?_, rest⟩
    rw [List.length_append]
    exact free
  case isFalse => exact ⟨notices, rest⟩

theorem steady_notify (ps : List Port) (w : NoticeBody) (s : State) : Steady s (notify ps w s) :=
  Steady.foldl (fun _ _ => steady_setPort fun h => h.enqueue _) ps s

/-! ### Outputs and setpoints -/

theorem wiring_setSup (s : State) (o : Output) (v : Supervision) : (s.setSup o v).wiring = s.wiring := by
  cases o <;> rfl

theorem wiring_command (o : Output) (on : Bool) (s : State) : (command o on s).wiring = s.wiring := wiring_setSup ..

theorem steady_command (o : Output) (on : Bool) (s : State) : Steady s (command o on s) := .same (wiring_command ..)

theorem steady_commandContactor (n : Fin 8) (on : Bool) (s : State) : Steady s (commandContactor n on s) :=
  .ite (fun _ => .same rfl) fun _ => steady_command ..

/-- A bay has one frame waiting at most, the new one in the place of the old (R202). -/
theorem nodup_queueSetpoint {waiting : List LoadSet} (h : (waiting.map (·.bay)).Nodup) (f : LoadSet) :
    ((queueSetpoint waiting f).map (·.bay)).Nodup := by
  unfold queueSetpoint
  split
  case isTrue =>
    have bays : (waiting.map fun g => if g.bay = f.bay then f else g).map (·.bay) = waiting.map (·.bay) := by
      rw [List.map_map]
      refine List.map_congr_left fun g _ => ?_
      show (if g.bay = f.bay then f else g).bay = g.bay
      split
      case isTrue e => exact e.symm
      case isFalse => rfl
    rwa [bays]
  case isFalse other =>
    simp only [List.any_eq_true, beq_iff_eq, not_exists, not_and] at other
    rw [List.map_append, List.nodup_append]
    refine ⟨h, List.nodup_singleton _, fun x hx y hy e => ?_⟩
    obtain ⟨g, hg, rfl⟩ := List.mem_map.1 hx
    exact other g hg (e.trans (List.mem_singleton.1 hy))

/-- The list of waiting frames rewritten. -/
theorem steady_link {s : State} {l : FieldLink}
    (h : (s.link.waiting.map (·.bay)).Nodup → (l.waiting.map (·.bay)).Nodup) : Steady s { s with link := l } where
  lit law := law
  links law := ⟨law.1, h law.2⟩
  curves law := law

theorem steady_sendLoadSet (n : Fin 8) (s : State) : Steady s (sendLoadSet n s) :=
  steady_link fun h => nodup_queueSetpoint h _

theorem steady_setSetpoint (n : Fin 8) (ma : Nat) (s : State) : Steady s (setSetpoint n ma s) :=
  .ite (fun _ => .refl s) fun _ => .after (steady_sendLoadSet ..) rfl

/-! ### Incidents, the lock and the permit -/

/-- Whatever the banks become, the line fault output commanded afresh shows them (R181). -/
theorem steady_relight (b : Banks) (s : State) : Steady s (relight { s with banks := b }) where
  lit _ _ := rfl
  links law := law
  curves law := law

theorem steady_postRaw (p : Posting) (s : State) : Steady s (postRaw p s) :=
  .ite (fun _ => .refl s) fun _ => (steady_relight ..).trans (steady_notify ..)

theorem steady_setLock (l : Lock) (s : State) : Steady s (setLock l s) :=
  .ite (fun _ => .same rfl) fun _ => .after (steady_notify ..) rfl

theorem steady_holdLock (cause : Nat) (s : State) : Steady s (holdLock cause s) :=
  (steady_setLock ..).trans (steady_postRaw ..)

theorem steady_resumeLock (s : State) : Steady s (resumeLock s) :=
  .ite (fun _ => .refl s) fun _ => .ite (fun _ => .ite (fun _ => steady_setLock ..) fun _ => .refl s) fun _ =>
    .ite (fun _ => steady_setLock ..) fun _ => .refl s

theorem steady_evalPermit (s : State) : Steady s (evalPermit s) := by
  refine .trans (.ite (fun _ => .refl s) fun _ => ?_) (steady_resumeLock _)
  exact .onlyIf (.after (steady_notify ..) rfl) (steady_holdLock 1)

theorem steady_deliverBanks (s : State) : Steady s (deliverBanks s) :=
  .ite (fun _ => .refl s) fun _ => .after (steady_evalPermit _) rfl

theorem steady_post (p : Posting) (s : State) : Steady s (post p s) :=
  (steady_postRaw p s).trans (steady_deliverBanks _)

theorem steady_deliverInert (s : State) : Steady s (deliverInert s) := .after (steady_evalPermit _) rfl

theorem steady_deliverShred (s : State) : Steady s (deliverShred s) :=
  .ite (fun _ => .refl s) fun _ => .after (steady_evalPermit _) rfl

theorem steady_deliverFirePort (s : State) : Steady s (deliverFirePort s) := .after (steady_evalPermit _) rfl

theorem steady_deliverFeedZone (z : Fin 8) (st : ZoneState) (s : State) : Steady s (deliverFeedZone z st s) := by
  refine .trans (.onlyIf ?_ (steady_holdLock 3)) (steady_evalPermit _)
  exact .ite (fun _ => .same rfl) fun _ => .same rfl

/-! ### Packs -/

theorem steady_storePack (i : Fin 256) (p : Pack) (s : State) : Steady s (storePack i p s) := .same rfl

theorem steady_noticePack (ps : List Port) (i : Fin 256) (s : State) : Steady s (noticePack ps i s) := by
  unfold noticePack
  split
  · exact .refl s
  · exact steady_notify ..

theorem steady_transition (i : Fin 256) (p : Pack) (s : State) : Steady s (transition i p s) :=
  (steady_storePack i p s).trans (steady_noticePack ..)

theorem steady_quarantinePack (i : Fin 256) (cause : QuarantineCause) (s : State) :
    Steady s (quarantinePack i cause s) := by
  unfold quarantinePack
  split
  · exact .refl s
  · exact .ite (fun _ => .refl s) fun _ => steady_transition ..

theorem steady_onOccupant (n : Fin 8) (f : Pack → Pack) (s : State) : Steady s (onOccupant n f s) := by
  unfold onOccupant
  split
  · exact .refl s
  · exact steady_transition ..

theorem steady_feedUncertain (detail : Nat) (h : Handle) (p : Pack) (s : State) :
    Steady s (feedUncertain detail h p s) := .after (steady_postRaw ..) rfl

theorem steady_blockLock (cause : QuarantineCause) (detail : Option Nat) (s : State) :
    Steady s (blockLock cause detail s) := by
  unfold blockLock
  split
  · exact .refl s
  · refine .trans ?_ (steady_setLock ..)
    split
    · exact (steady_quarantinePack ..).trans (steady_feedUncertain ..)
    · exact steady_quarantinePack ..

theorem steady_releaseLock (s : State) : Steady s (releaseLock s) :=
  .ite (fun _ => steady_blockLock ..) fun _ => .refl s

/-! ### Bays -/

theorem steady_putBay (n : Fin 8) (b : Bay) (s : State) : Steady s (putBay n b s) :=
  .ite (fun _ => .same rfl) fun _ => .after (steady_notify ..) rfl

/-- A bay's contactor and setpoint commanded, then its context written. -/
theorem steady_load {n : Fin 8} {on : Bool} {ma : Nat} {b : Bay} {s : State} :
    Steady s ((setSetpoint n ma (commandContactor n on s)).setBay n b) :=
  .before ((steady_commandContactor n on s).trans (steady_setSetpoint n ma _)) rfl

theorem steady_stopLoad (n : Fin 8) (s : State) : Steady s (stopLoad n s) := steady_load

theorem steady_startLoad (n : Fin 8) (s : State) : Steady s (startLoad n s) := steady_load

theorem steady_enterDischarging (n : Fin 8) (ms : Nat) (s : State) : Steady s (enterDischarging n ms s) :=
  (steady_startLoad n s).trans (steady_putBay ..)

theorem steady_pauseBay (n : Fin 8) (cause : PauseCause) (s : State) : Steady s (pauseBay n cause s) :=
  (steady_stopLoad n s).trans (steady_putBay ..)

theorem steady_faultBay (n : Fin 8) (cause : FaultCause) (s : State) : Steady s (faultBay n cause s) :=
  (steady_stopLoad n s).trans (steady_putBay ..)

theorem steady_alarmBay (n : Fin 8) (s : State) : Steady s (alarmBay n s) := by
  unfold alarmBay
  split
  · exact .refl s
  · exact (steady_quarantinePack ..).trans (steady_faultBay ..)

theorem steady_followSlot (n : Fin 8) (s : State) : Steady s (followSlot n s) := .after (steady_setSetpoint ..) rfl

theorem steady_takeBoundary (n : Fin 8) (s : State) : Steady s (takeBoundary n s) := .after (steady_followSlot ..) rfl

theorem steady_occupyBay (n : Fin 8) (h : Handle) (t : Treatment) (recheck : Bool) (s : State) :
    Steady s (occupyBay n h t recheck s) :=
  ((steady_commandContactor n false s).trans (steady_putBay ..)).trans (steady_sendLoadSet ..)

theorem steady_emptyBay (n : Fin 8) (s : State) : Steady s (emptyBay n s) := steady_putBay ..

theorem steady_leaveLoc (l : Loc) (s : State) : Steady s (leaveLoc l s) := by
  unfold leaveLoc
  split
  · exact steady_emptyBay ..
  · exact .refl s

/-! ### Zones -/

theorem steady_noticeZone (z : Fin 8) (s : State) : Steady s (noticeZone z s) := steady_notify ..

theorem steady_deliverPurge (released : Bool) (s : State) : Steady s (deliverPurge released s) := .same rfl

theorem steady_deliverZone (z : Fin 8) (old : ZoneState) (s : State) : Steady s (deliverZone z old s) := by
  have alarms : ∀ t, Steady t ((baysOf z).foldl (fun t n => alarmBay n t) t) :=
    Steady.foldl (fun t n => steady_alarmBay n t) _
  refine .trans (.onlyIf (.onlyIf (.onlyIf (.onlyIf (.refl s) alarms) fun t => ?_) fun t => ?_) fun t => ?_)
    (steady_noticeZone z _)
  · exact steady_deliverFeedZone ..
  · exact steady_releaseLock t
  · exact steady_deliverPurge ..

theorem steady_changeZone (z : Fin 8) (q : Zone) (s : State) : Steady s (changeZone z q s) :=
  .after (steady_deliverZone ..) rfl

theorem steady_enterReleased (z : Fin 8) (detail : Nat) (s : State) : Steady s (enterReleased z detail s) :=
  .after ((steady_post ..).trans (steady_deliverZone ..)) rfl

theorem steady_evalRelease (z : Fin 8) (s : State) : Steady s (evalRelease z s) :=
  .ite (fun _ => .ite (fun _ => steady_enterReleased ..) fun _ => steady_changeZone ..) fun _ => .refl s

theorem steady_enterAlarm (z : Fin 8) (part : Nat) (s : State) : Steady s (enterAlarm z part s) :=
  .after (((steady_post ..).trans (steady_deliverZone ..)).trans (steady_evalRelease ..)) rfl

theorem steady_enterPreAlarm (z : Fin 8) (detail : Nat) (s : State) : Steady s (enterPreAlarm z detail s) :=
  .after ((steady_post ..).trans (steady_deliverZone ..)) rfl

theorem steady_evalZone (z : Fin 8) (detail : Nat) (s : State) : Steady s (evalZone z detail s) := by
  unfold evalZone
  refine .ite (fun _ => ?_) fun _ => .refl s
  split
  · exact steady_enterAlarm ..
  · exact .ite (fun _ => .ite (fun _ => steady_enterPreAlarm ..) fun _ => .refl s)
      fun _ => .ite (fun _ => steady_changeZone ..) fun _ => .refl s

theorem steady_deliverInventory (z : Fin 8) (s : State) : Steady s (deliverInventory z s) :=
  .ite (fun _ => .refl s) fun _ => .after (steady_evalRelease ..) rfl

theorem steady_deliverPlaces (src dst : Option (Fin 8)) (s : State) : Steady s (deliverPlaces src dst s) := by
  cases src with
  | none =>
    cases dst with
    | none => exact .refl s
    | some d => exact steady_deliverInventory d s
  | some z =>
    cases dst with
    | none => exact steady_deliverInventory z s
    | some d => exact (steady_deliverInventory z s).trans (steady_deliverInventory d _)

/-! ### The residual check -/

theorem steady_actOnCheck (n : Fin 8) (i : Fin 256) (p : Pack) (c : Check) (s : State) :
    Steady s (actOnCheck n i p c s) := by
  have booked : Steady s (checkBooked n i p c s) := .after (steady_transition ..) rfl
  rw [actOnCheck_eq]
  refine .trans (booked.trans ?_) (steady_deliverPlaces ..)
  refine .ite (fun _ => steady_putBay ..) fun _ => .ite (fun _ => ?_) fun _ => ?_
  · exact .ite (fun _ => steady_enterDischarging ..) fun _ => steady_putBay ..
  · exact (steady_putBay ..).trans (steady_post ..)

theorem steady_runCheck (n : Fin 8) (s : State) : Steady s (runCheck n s) := by
  unfold runCheck
  split
  · exact steady_actOnCheck ..
  · exact .same rfl

/-! ### The inert state -/

theorem wiring_setInert (st : InertState) (s : State) : (setInert st s).wiring = s.wiring := rfl

theorem steady_noticeInert (s : State) : Steady s (noticeInert s) := steady_notify ..

theorem steady_changeInert (st : InertState) (s : State) : Steady s (changeInert st s) :=
  .trans (.trans (.onlyIf (.same (wiring_setInert st s)) fun t => steady_post _ t) (steady_deliverInert _))
    (steady_noticeInert _)

theorem steady_evalInert (s : State) : Steady s (evalInert s) :=
  .ite (fun _ => .refl s) fun _ => steady_changeInert ..

theorem steady_checkPurgeTimeout (s : State) : Steady s (checkPurgeTimeout s) := by
  unfold checkPurgeTimeout
  split
  · exact .refl s
  · exact .ite (fun _ => .after (steady_post ..) rfl) fun _ => .refl s

/-! ### Lots -/

theorem steady_noticeLot (j : Fin 8) (st : Option LotState) (number : Nat)
    (closing : Option (Option Balance × Option Nat × Bool)) (s : State) :
    Steady s (noticeLot j st number closing s) := steady_notify ..

theorem steady_setShred (shred : Option (Fin 8)) (sw : Option Switch) (s : State) : Steady s (setShred shred sw s) :=
  .ite (fun _ => .refl s) fun _ => .after ((steady_deliverShred _).trans (steady_notify ..)) rfl

theorem steady_closeLot (j : Fin 8) (l : Lot) (s : State) : Steady s (closeLot j l s) := by
  refine .trans (.trans ?_ (steady_setShred ..)) (steady_noticeLot ..)
  exact .ite (fun _ => .after (steady_postRaw ..) rfl) fun _ => .same rfl

theorem steady_testClosing (j : Fin 8) (s : State) : Steady s (testClosing j s) := by
  unfold testClosing
  split
  · exact .ite (fun _ => steady_closeLot ..) fun _ => .refl s
  · exact .refl s

theorem steady_reportTerminal (p : Pack) (s : State) : Steady s (reportTerminal p s) := .same rfl

/-! ### Presence and frames -/

theorem steady_fireAbsentZone (z : Fin 8) (s : State) : Steady s (fireAbsentZone z s) :=
  .ite (fun _ => .same rfl) fun _ => steady_evalRelease z s

theorem steady_lineAbsentBay (n : Fin 8) (s : State) : Steady s (lineAbsentBay n s) :=
  .ite (fun _ => steady_pauseBay ..) fun _ => .refl s

theorem steady_deliverPresence (p : Port) (s : State) : Steady s (deliverPresence p s) := by
  cases p with
  | line =>
    refine .ite (fun _ => steady_resumeLock s) fun _ => ?_
    exact .onlyIf (Steady.foldl (fun t n => steady_lineAbsentBay n t) eight s) (steady_holdLock 2)
  | fire =>
    refine (steady_deliverFirePort s).trans (.ite (fun _ => .refl _) fun _ => ?_)
    exact Steady.foldl (fun t z => steady_fireAbsentZone z t) eight _
  | custody => exact .refl s

theorem steady_touchPort (p : Port) (s : State) : Steady s (touchPort p s) := by
  refine .trans ?_ (.ite (fun _ => .refl _) fun _ => ?_)
  · exact steady_setPort id
  · exact (steady_deliverPresence ..).trans (steady_notify ..)

theorem steady_countError (p : Port) (s : State) : Steady s (countError p s) := by
  refine .onlyIf (steady_setPort (p := p) fun h => ?_) fun t => steady_post _ t
  obtain ⟨notices, received, _⟩ := h
  exact ⟨notices, received, Nat.min_le_right ..⟩

theorem steady_discardFrame (p : Port) (s : State) : Steady s (discardFrame p s) :=
  (steady_countError p s).trans (steady_setPort id)

/-- A frame joins a list that has a place for it (R185). -/
theorem steady_receiveFrame (p : Port) (f : Frame) (s : State) : Steady s (receiveFrame p f s) := by
  refine .ite (fun _ => .refl s) fun _ => .ite (fun free => ?_) fun _ => ?_
  · refine .trans (steady_setPort fun h => ?_) (steady_touchPort ..)
    obtain ⟨notices, _, errors⟩ := h
    refine ⟨notices, ?_, errors⟩
    rw [List.length_append]
    exact free
  · exact (steady_touchPort p s).trans (steady_discardFrame ..)

end Sys2Proof.Machine
end

