-- ==== Sys2Proof/Proofs/SteadyOwners.lean ====
section
/-! PROOFS: what the owners of the requests do to the line fault output, the links and the curves. -/

open Sys2Proof Sys2Proof.Machine

namespace Sys2Proof.Machine

/-! ### Replies -/

/-- A reply to a request found in `s` leaves a state in which the laws of `s` hold. -/
structure SteadyReply (s : State) (r : Reply) : Prop where
  steady : Steady s r.st

namespace SteadyReply

variable {s t : State}

theorem refuse (k : Result) (s : State) : SteadyReply s (refuse k s) := ⟨.refl s⟩

theorem reply (body : List Byte) (k : Steady s t) : SteadyReply s (reply t body) := ⟨k⟩

/-- A reply that changes nothing the laws read. -/
theorem same (body : List Byte) (h : t.wiring = s.wiring) : SteadyReply s (Machine.reply t body) := ⟨.same h⟩

theorem ite {c : Prop} [Decidable c] {q r : Reply} (hq : c → SteadyReply s q) (hr : ¬c → SteadyReply s r) :
    SteadyReply s (if c then q else r) := by
  split
  · exact hq ‹_›
  · exact hr ‹_›

/-- A check that refuses, before the rest of the owner's work. -/
theorem check {c : Prop} [Decidable c] {k : Result} {r : Reply} (h : ¬c → SteadyReply s r) :
    SteadyReply s (if c then Machine.refuse k s else r) := .ite (fun _ => .refuse k s) h

theorem withPack {index gen : Nat} {k : Handle → Pack → Reply} (h : ∀ d p, SteadyReply s (k d p)) :
    SteadyReply s (withPack index gen s k) := by
  unfold Machine.withPack
  split
  · exact .refuse ..
  · split
    · exact .refuse ..
    · exact h _ _

theorem withLot {lot : Nat} {k : Fin 8 → Reply} (h : ∀ j, SteadyReply s (k j)) : SteadyReply s (withLot lot s k) := by
  unfold Machine.withLot
  split
  · exact .refuse ..
  · exact h _

theorem withBay {bay : Nat} {k : Fin 8 → Reply} (h : ∀ n, SteadyReply s (k n)) : SteadyReply s (withBay bay s k) := by
  unfold Machine.withBay
  split
  · exact .refuse ..
  · exact h _

theorem withZone {zone : Nat} {k : Fin 8 → Reply} (h : ∀ z, SteadyReply s (k z)) :
    SteadyReply s (withZone zone s k) := by
  unfold Machine.withZone
  split
  · exact .refuse ..
  · exact h _

theorem guarded {code target g1 g2 : Nat} {owner : State → Reply} (h : SteadyReply s (owner s)) :
    SteadyReply s (guarded code target g1 g2 owner s) := .ite (fun _ => h) fun _ => .refuse ..

end SteadyReply

/-! ### Updates that the laws do not read -/

theorem steady_setLot (j : Fin 8) (l : Option Lot) (s : State) : Steady s (s.setLot j l) := .same rfl

theorem steady_setQueue (q : List Handle) (s : State) : Steady s { s with feed.queue := q } := .same rfl

/-! ### Reads and ports -/

theorem steady_status (part : Nat) (s : State) : SteadyReply s (statusReply part s) := by
  unfold statusReply
  split <;> exact ⟨.refl s⟩

theorem steady_readPack (index gen : Nat) (s : State) : SteadyReply s (readPackReply index gen s) :=
  .withPack fun _ _ => .reply _ (.refl s)

theorem steady_list (p : Port) (state lot : Option Nat) (s : State) : SteadyReply s (listReply p state lot s) := by
  unfold listReply
  split
  · exact .refuse ..
  · exact .reply _ (steady_setPort id)

theorem steady_cursor (p : Port) (index : Nat) (s : State) : SteadyReply s (cursorReply p index s) := by
  unfold cursorReply
  split
  · exact .refuse ..
  · exact .reply _ (steady_setPort id)

theorem steady_readBay (bay : Nat) (s : State) : SteadyReply s (readBayReply bay s) := by
  unfold readBayReply
  split <;> exact ⟨.refl s⟩

theorem steady_readZone (zone : Nat) (s : State) : SteadyReply s (readZoneReply zone s) := by
  unfold readZoneReply
  split <;> exact ⟨.refl s⟩

theorem steady_readLot (lot : Nat) (s : State) : SteadyReply s (readLotReply lot s) := by
  unfold readLotReply
  split
  · exact .refuse ..
  · split <;> exact ⟨.refl s⟩

theorem steady_readBank (bank : Nat) (s : State) : SteadyReply s (readBankReply bank s) := by
  unfold readBankReply
  split <;> exact ⟨.refl s⟩

theorem steady_readConfig (item index : Nat) (s : State) : SteadyReply s (readConfigReply item index s) := by
  unfold readConfigReply
  split <;> exact ⟨.refl s⟩

/-- Fetched notices leave the queue shorter (R194). -/
theorem steady_fetch (p : Port) (s : State) : SteadyReply s (fetchReply p s) := by
  refine .reply _ (steady_setPort fun h => ?_)
  obtain ⟨notices, rest⟩ := h
  refine ⟨?_, rest⟩
  rw [List.length_drop]
  exact (Nat.sub_le ..).trans notices

theorem steady_presence (p : Port) (seconds : Nat) (s : State) : SteadyReply s (presenceReply p seconds s) :=
  .reply _ (steady_setPort id)

/-- A cleared bank is shown by the line fault output at once (R179, R181). -/
theorem steady_clearBankState (k : BankId) (s : State) : Steady s (clearBankState k s) :=
  ((steady_relight ..).trans (steady_notify ..)).trans (steady_deliverBanks _)

theorem steady_clearBank (p : Port) (bank number : Nat) (s : State) :
    SteadyReply s (clearBankReply p bank number s) := by
  unfold clearBankReply
  split
  · exact .refuse ..
  · exact .check fun _ => .check fun _ => .ite (fun _ => .reply _ (.refl s)) fun _ =>
      .check fun _ => .reply _ (steady_clearBankState ..)

/-- The line fault output does not depend on the report enables (R175, R181). -/
theorem lineFaultLevel_put_enables (b : Banks) (k : BankId) (es : List Bool) :
    lineFaultLevel (b.put k { b.get k with enables := es }) = lineFaultLevel b := by
  cases k <;> rfl

theorem steady_putEnables (k : BankId) (es : List Bool) (s : State) :
    Steady s { s with banks := s.banks.put k { s.banks.get k with enables := es } } where
  lit law run := (law run).trans (lineFaultLevel_put_enables ..).symm
  links law := law
  curves law := law

theorem steady_enables (p : Port) (bank : Nat) (es : List Nat) (s : State) :
    SteadyReply s (enablesReply p bank es s) := by
  unfold enablesReply
  split
  · exact .refuse ..
  · split
    · exact .refuse ..
    · exact .check fun _ => .reply _ (steady_putEnables ..)

/-! ### Classification -/

theorem steady_writeTreatment (index : Nat) (f : TreatmentFields) (s : State) :
    SteadyReply s (writeTreatmentReply index f s) := by
  unfold writeTreatmentReply
  split
  · exact .same _ rfl
  · exact .refuse ..

theorem steady_writeRange (index low high treatment enabled : Nat) (s : State) :
    SteadyReply s (writeRangeReply index low high treatment enabled s) := by
  unfold writeRangeReply
  split
  · exact .check fun _ => .same _ rfl
  · exact .refuse ..

theorem steady_writeSlotMap (fam treatment enabled : Nat) (s : State) :
    SteadyReply s (writeSlotMapReply fam treatment enabled s) := by
  unfold writeSlotMapReply
  split
  · exact .same _ rfl
  · exact .refuse ..

theorem steady_setMap (enable treatment : Nat) (s : State) : SteadyReply s (setMapReply enable treatment s) := by
  unfold setMapReply
  split
  · exact .same _ rfl
  · exact .refuse ..

/-- A curve written as REWRITING only where it is so already, or where no other is (R37). -/
theorem steady_setCurve {k : Fin 4} {x : Curve} {s : State} (h : x.status = .rewriting →
      (vget s.cls.curves k).status = .rewriting ∨ ∀ j, j ≠ k → (vget s.cls.curves j).status ≠ .rewriting) :
    Steady s (setCurve k x s) where
  lit law := law
  links law := law
  curves law := by
    have alone : ∀ i, x.status = .rewriting → (vget s.cls.curves i).status = .rewriting → i = k := fun i hx hi => by
      rcases h hx with mine | others
      · exact law i k hi mine
      · exact not_not.1 fun away => others i away hi
    intro i j hi hj
    simp only [setCurve, vget_vset] at hi hj
    split at hi <;> split at hj
    case isTrue.isTrue a b => exact a.trans b.symm
    case isTrue.isFalse a _ => exact a.trans (alone j hi hj).symm
    case isFalse.isTrue _ b => exact (alone i hj hi).trans b.symm
    case isFalse.isFalse => exact law i j hi hj

theorem steady_curveBegin (curve : Nat) (s : State) : SteadyReply s (curveBeginReply curve s) := by
  unfold curveBeginReply
  split
  · exact .refuse ..
  case h_2 k _ =>
    refine .check fun none => .reply _ (steady_setCurve fun _ => .inr fun j away rewriting => none ?_)
    exact otherRewriting_iff.2 ⟨j, away, rewriting⟩

theorem steady_curvePoint (curve voltage fraction : Nat) (s : State) :
    SteadyReply s (curvePointReply curve voltage fraction s) := by
  unfold curvePointReply
  split
  · exact .refuse ..
  · exact .check fun _ => .check fun _ => .check fun _ => .reply _ (steady_setCurve .inl)

theorem steady_wakeChecks (k : Fin 4) (s : State) : Steady s (wakeChecks k s) :=
  Steady.foldl (fun t n => .onlyIf (.refl t) (steady_runCheck n)) eight s

/-- A curve judged is REWRITING no longer (R39). -/
theorem steady_curveEnded {k : Fin 4} {x : Curve} {s : State} (h : x.status ≠ .rewriting) :
    Steady s (setCurve k x s) := steady_setCurve fun e => absurd e h

theorem steady_judgeCurve (k : Fin 4) (points : List Point) (s : State) : Steady s (judgeCurve k points s) :=
  .ite (fun _ => (steady_curveEnded (by simp)).trans (steady_wakeChecks ..)) fun _ =>
    (steady_curveEnded (by simp)).trans (steady_post ..)

theorem steady_curveEnd (curve : Nat) (s : State) : SteadyReply s (curveEndReply curve s) := by
  unfold curveEndReply
  split
  · exact .refuse ..
  · exact .check fun _ => .reply _ (steady_judgeCurve ..)

/-! ### Fire Zone Controller -/

theorem steady_evalZones (old new : Option (Fin 8)) (detail : Nat) (s : State) :
    Steady s (evalZones old new detail s) := by
  unfold evalZones
  cases new with
  | none =>
    cases old with
    | none => exact .refl s
    | some z => exact .ite (fun _ => .refl s) fun _ => steady_evalZone ..
  | some w =>
    cases old with
    | none => exact steady_evalZone ..
    | some z => exact .ite (fun _ => steady_evalZone ..) fun _ => (steady_evalZone ..).trans (steady_evalZone ..)

theorem steady_writeDetector (detector zone kind : Nat) (s : State) :
    SteadyReply s (writeDetectorReply detector zone kind s) := by
  unfold writeDetectorReply
  split
  · exact .check fun _ => .reply _ (.after (steady_evalZones ..) rfl)
  · exact .refuse ..

theorem steady_writeFireTimes (dwell rearm : Nat) (s : State) : SteadyReply s (writeFireTimesReply dwell rearm s) :=
  .same _ rfl

theorem steady_writeZone (zone threshold delay : Nat) (s : State) :
    SteadyReply s (writeZoneReply zone threshold delay s) :=
  .withZone fun _ => .check fun _ => .reply _ (.after (steady_evalRelease ..) rfl)

theorem steady_setHold (z : Fin 8) (on : Bool) (s : State) : SteadyReply s (setHold z on s) :=
  .check fun _ => .ite (fun _ => .reply _ (.refl s)) fun _ => .reply _ (.after (steady_noticeZone z _) rfl)

theorem steady_release (target : Nat) (s : State) : SteadyReply s (releaseReply target s) := by
  refine .withZone fun z => ?_
  split
  · exact .reply _ (.refl s)
  · exact .refuse ..
  · exact .reply _ (steady_enterReleased ..)

theorem steady_zoneReset (target : Nat) (s : State) : SteadyReply s (zoneResetReply target s) :=
  .withZone fun _ => .check fun _ => .check fun _ =>
    .reply _ (.after ((steady_changeZone ..).trans (steady_evalZone ..)) rfl)

theorem steady_isolate (zone : Nat) (s : State) : SteadyReply s (isolateReply zone s) :=
  .withZone fun _ => .check fun _ => .check fun _ => .reply _ (steady_changeZone ..)

theorem steady_restore (zone : Nat) (s : State) : SteadyReply s (restoreReply zone s) :=
  .withZone fun _ => .check fun _ => .reply _ ((steady_changeZone ..).trans (steady_evalZone ..))

/-! ### Atmosphere Monitor -/

theorem steady_inertStart (s : State) : SteadyReply s (inertStartReply s) :=
  .check fun _ => .reply _ (steady_changeInert ..)

theorem steady_inertStop (s : State) : SteadyReply s (inertStopReply s) :=
  .check fun _ => .check fun _ => .reply _ (steady_changeInert ..)

theorem steady_inertReset (target : Nat) (s : State) : SteadyReply s (inertResetReply target s) :=
  .check fun _ => .check fun _ => .check fun _ => .reply _ (steady_changeInert ..)

theorem steady_writeLimits (l : InertLimits) (s : State) : Steady s (writeLimits l s) :=
  .after ((steady_evalInert _).trans (steady_checkPurgeTimeout _)) rfl

theorem steady_writeInertLimits (purge run trip hold maxPurge : Nat) (s : State) :
    SteadyReply s (writeInertLimitsReply purge run trip hold maxPurge s) :=
  .check fun _ => .reply _ (steady_writeLimits ..)

/-! ### Pack Register -/

theorem steady_admitAt (i : Fin 256) (p : Pack) (s : State) : Steady s (admitAt i p s) := by
  unfold admitAt
  refine .trans ?_ (steady_deliverPlaces ..)
  exact ((steady_storePack i p s).trans (steady_noticePack ..)).trans (steady_setLot ..)

theorem steady_admit (tag lot typeCode damaged mass nominal cells : Nat) (s : State) :
    SteadyReply s (admitReply tag lot typeCode damaged mass nominal cells s) := by
  unfold admitReply
  split
  · refine .check fun _ => .check fun _ => .check fun _ => ?_
    split
    · exact .refuse ..
    · exact .check fun _ => .reply _ (steady_admitAt ..)
  · exact .refuse ..

theorem steady_retire (i : Fin 256) (old new : Pack) (s : State) : Steady s (retire i old new s) :=
  ((steady_transition ..).trans (steady_reportTerminal ..)).trans (steady_deliverPlaces ..)

theorem steady_withdraw (index gen : Nat) (s : State) : SteadyReply s (withdrawReply index gen s) :=
  .withPack fun _ _ => .check fun _ => .check fun _ => .reply _ ((steady_retire ..).trans (steady_testClosing ..))

theorem steady_placeInBay (h : Handle) (p : Pack) (n : Fin 8) (recheck : Bool) (s : State) :
    Steady s (placeInBay h p n recheck s) :=
  (((steady_transition ..).trans (steady_leaveLoc ..)).trans (steady_occupyBay ..)).trans (steady_deliverPlaces ..)

theorem steady_assign (index gen bay : Nat) (s : State) : SteadyReply s (assignReply index gen bay s) := by
  unfold assignReply
  split
  · exact .refuse ..
  · exact .withPack fun _ _ => .check fun _ => .check fun _ => .check fun _ => .reply _ (steady_placeInBay ..)

theorem steady_moveState (h : Handle) (p : Pack) (dest : Loc) (s : State) : Steady s (moveState h p dest s) :=
  (((steady_storePack ..).trans (steady_noticePack ..)).trans (steady_leaveLoc ..)).trans (steady_deliverPlaces ..)

theorem steady_move (index gen dest : Nat) (s : State) : SteadyReply s (moveReply index gen dest s) := by
  unfold moveReply
  split
  · exact .refuse ..
  · exact .withPack fun _ _ => .ite (fun _ => .reply _ (.refl s)) fun _ => .check fun _ => .check fun _ =>
      .reply _ (steady_moveState ..)

theorem steady_quarantineBay (n : Fin 8) (s : State) : Steady s (quarantineBay n s) :=
  .ite (fun _ => (steady_stopLoad n s).trans (steady_putBay ..)) fun _ => .refl s

theorem steady_quarantinePlace (h : Handle) (p : Pack) (s : State) : Steady s (quarantinePlace h p s) := by
  unfold quarantinePlace
  split
  · exact steady_quarantineBay ..
  · exact .ite (fun _ => .same rfl) fun _ => .refl s

theorem steady_quarantine (index gen : Nat) (s : State) : SteadyReply s (quarantineReply index gen s) := by
  refine .withPack fun h p => ?_
  split
  case h_5 => exact .reply _ ((steady_quarantinePack ..).trans (steady_quarantinePlace ..))
  all_goals exact ⟨.refl s⟩

/-! ### Lot Table -/

theorem steady_openLot (number : Nat) (s : State) : SteadyReply s (openLotReply number s) := by
  refine .check fun _ => .check fun _ => ?_
  split
  · exact .refuse ..
  · exact .reply _ (.after (steady_noticeLot ..) rfl)

theorem steady_drainLot (j : Fin 8) (l : Lot) (s : State) : Steady s (drainLot j l s) :=
  .after ((steady_noticeLot ..).trans (steady_testClosing ..)) rfl

theorem steady_closeLotReply (lot : Nat) (s : State) : SteadyReply s (closeLotReply lot s) := by
  refine .withLot fun j => ?_
  split
  · exact .refuse ..
  · exact .check fun _ => .reply _ (steady_drainLot ..)

theorem steady_releaseLot (lot : Nat) (s : State) : SteadyReply s (releaseLotReply lot s) := by
  refine .withLot fun j => ?_
  split
  · exact .refuse ..
  · exact .check fun _ => .reply _ (.after (steady_noticeLot ..) rfl)

theorem steady_finalWeight (j : Fin 8) (s : State) : Steady s (finalWeight j s) :=
  .after ((steady_setShred ..).trans (steady_testClosing ..)) rfl

theorem steady_outputWeight (lot mass final : Nat) (s : State) : SteadyReply s (outputWeightReply lot mass final s) := by
  unfold outputWeightReply
  split
  · refine .check fun _ => ?_
    split
    · exact .refuse ..
    · refine .check fun _ => .check fun _ => .check fun _ => .check fun _ => .reply _ ?_
      exact .onlyIf (.same rfl) (steady_finalWeight _)
  · exact .refuse ..

theorem steady_switch (lot : Nat) (s : State) : SteadyReply s (switchReply lot s) := by
  refine .withLot fun j => .check fun _ => .check fun _ => ?_
  split
  · exact .refuse ..
  · refine .check fun _ => .ite (fun _ => .reply _ (.refl s)) fun _ => ?_
    split <;> exact .reply _ (steady_setShred ..)

theorem steady_endSwitch (s : State) : Steady s (endSwitch s) := steady_setShred ..

theorem steady_cancel (s : State) : SteadyReply s (cancelReply s) := .check fun _ => .reply _ (steady_endSwitch s)

theorem steady_chamberClear (s : State) : SteadyReply s (chamberClearReply s) := by
  unfold chamberClearReply
  split
  · exact .refuse ..
  · exact .ite (fun _ => .reply _ (.refl s)) fun _ =>
      .ite (fun _ => .reply _ (steady_setShred ..)) fun _ => .reply _ (steady_setShred ..)

theorem steady_bounds (low high : Nat) (s : State) : SteadyReply s (boundsReply low high s) :=
  .check fun _ => .same _ rfl

/-! ### Feed Controller -/

theorem steady_refuseRecheck (i : Fin 256) (p : Pack) (s : State) : SteadyReply s (refuseRecheck i p s) := ⟨.same rfl⟩

theorem steady_enqueueState (h : Handle) (p : Pack) (n : Fin 8) (s : State) : Steady s (enqueueState h p n s) := by
  unfold enqueueState
  refine .trans (.trans ?_ (steady_emptyBay n _)) (steady_deliverPlaces ..)
  exact (steady_transition ..).trans (steady_setQueue ..)

theorem steady_enqueue (index gen : Nat) (s : State) : SteadyReply s (enqueueReply index gen s) := by
  refine .withPack fun h p => ?_
  split
  · exact .refuse ..
  · exact .ite (fun _ => steady_refuseRecheck ..) fun _ => .check fun _ => .check fun _ =>
      .reply _ (steady_enqueueState ..)

theorem steady_removeToStore (h : Handle) (p : Pack) (s : State) : Steady s (removeToStore h p s) :=
  .after ((steady_transition ..).trans (steady_deliverPlaces ..)) rfl

theorem steady_remove (index gen dest : Nat) (s : State) : SteadyReply s (removeReply index gen dest s) := by
  unfold removeReply
  split
  · exact .refuse ..
  · refine .withPack fun h p => .check fun _ => ?_
    split
    · exact .check fun _ => .check fun _ => .reply _ (.after (steady_placeInBay ..) rfl)
    · exact .check fun _ => .reply _ (steady_removeToStore ..)

theorem steady_feedState (h : Handle) (p : Pack) (s : State) : Steady s (feedState h p s) := by
  unfold feedState
  exact .after (((steady_transition ..).trans (steady_setLock ..)).trans (steady_deliverPlaces ..)) rfl

theorem steady_feed (index gen : Nat) (s : State) : SteadyReply s (feedReply index gen s) :=
  .withPack fun _ _ => .check fun _ => .check fun _ => .check fun _ => .check fun _ => .check fun _ =>
    .ite (fun _ => steady_refuseRecheck ..) fun _ => .check fun _ => .reply _ (steady_feedState ..)

theorem steady_lockClosed (s : State) : SteadyReply s (lockClosedReply s) :=
  .ite (fun _ => .reply _ (steady_setLock ..)) fun _ => .refuse ..

theorem steady_return (index gen : Nat) (s : State) : SteadyReply s (returnReply index gen s) :=
  .withPack fun _ _ => .check fun _ => .check fun _ => .check fun _ => .check fun _ => .reply _ (steady_setLock ..)

theorem steady_dropState (h : Handle) (p : Pack) (s : State) : Steady s (dropState h p s) := by
  refine .trans (.trans ?_ (steady_deliverPlaces ..)) (steady_testClosing ..)
  exact ((steady_transition ..).trans (steady_reportTerminal ..)).trans (steady_setLock ..)

theorem steady_dropDone (index gen : Nat) (s : State) : SteadyReply s (dropDoneReply index gen s) :=
  .withPack fun _ _ => .check fun _ => .reply _ (steady_dropState ..)

theorem steady_requeue (h : Handle) (p : Pack) (s : State) : Steady s (requeue h p s) := by
  unfold requeue
  refine .trans (.trans ?_ (steady_setLock ..)) (steady_deliverPlaces ..)
  exact (steady_transition ..).trans (steady_setQueue ..)

theorem steady_emptyBlocked (h : Handle) (p : Pack) (s : State) : Steady s (emptyBlocked h p s) :=
  (((steady_storePack ..).trans (steady_noticePack ..)).trans (steady_setLock ..)).trans (steady_deliverPlaces ..)

theorem steady_lockEmptied (s : State) : SteadyReply s (lockEmptiedReply s) := by
  unfold lockEmptiedReply
  dsimp only
  split
  · exact .refuse ..
  · exact .ite (fun _ => .reply _ (steady_requeue ..)) fun _ =>
      .ite (fun _ => .reply _ (steady_emptyBlocked ..)) fun _ => .refuse ..

theorem steady_writeFeed (seconds : Nat) (s : State) : SteadyReply s (writeFeedReply seconds s) := .same _ rfl

/-! ### Bay Supervisor -/

theorem steady_bayReady {n : Fin 8} {s t : State} (k : Steady s t) : SteadyReply s (bayReady n s t) :=
  .check fun _ => .check fun _ => .reply _ k

theorem steady_startRecheck (n : Fin 8) (s : State) : Steady s (startRecheck n s) :=
  (steady_onOccupant ..).trans (steady_putBay ..)

theorem steady_startDischarge (n : Fin 8) (s : State) : Steady s (startDischarge n s) :=
  (steady_onOccupant ..).trans (steady_enterDischarging ..)

theorem steady_start (bay : Nat) (s : State) : SteadyReply s (startReply bay s) :=
  .withBay fun n => .check fun _ =>
    steady_bayReady (.ite (fun _ => steady_startRecheck n s) fun _ => steady_startDischarge n s)

theorem steady_pause (bay : Nat) (s : State) : SteadyReply s (pauseReply bay s) :=
  .withBay fun _ => .check fun _ => .reply _ (steady_pauseBay ..)

theorem steady_resumeState (n : Fin 8) (s : State) : Steady s (resumeState n s) :=
  .onlyIf (steady_enterDischarging ..) (steady_takeBoundary n)

theorem steady_resume (bay : Nat) (s : State) : SteadyReply s (resumeReply bay s) :=
  .withBay fun n => .check fun _ => steady_bayReady (steady_resumeState n s)

theorem steady_abortState (n : Fin 8) (s : State) : Steady s (abortState n s) :=
  ((steady_onOccupant ..).trans (steady_stopLoad n _)).trans (steady_putBay ..)

theorem steady_abort (bay : Nat) (s : State) : SteadyReply s (abortReply bay s) :=
  .withBay fun n => .check fun _ => .reply _ (steady_abortState n s)

theorem steady_writeSlotState (n : Fin 8) (sl : SlotName) (x : Slot) (s : State) :
    Steady s (writeSlotState n sl x s) := by
  refine .ite (fun _ => .same rfl) fun _ => .ite (fun _ => .same rfl) fun _ => ?_
  refine .ite (fun _ => ?_) fun _ => .after (steady_followSlot ..) rfl
  exact .after ((steady_followSlot ..).trans (steady_takeBoundary ..)) rfl

theorem steady_writeSlot (bay slot current stop segment : Nat) (s : State) :
    SteadyReply s (writeSlotReply bay slot current stop segment s) := by
  unfold writeSlotReply
  split
  · exact .check fun _ => .check fun _ => .reply _ (steady_writeSlotState ..)
  · exact .refuse ..

theorem steady_clearBayState (n : Fin 8) (s : State) : Steady s (clearBayState n s) :=
  .ite (fun _ => steady_putBay ..) fun _ => steady_emptyBay ..

theorem steady_clearBay (bay : Nat) (s : State) : SteadyReply s (clearBayReply bay s) :=
  .withBay fun _ => .check fun _ => .check fun _ => .reply _ (steady_clearBayState ..)

/-! ### LINE_RESTART -/

theorem steady_restartPack (i : Fin 256) (p : Pack) (s : State) : Steady s (restartPack i p s) := by
  unfold restartPack
  split
  · exact steady_transition ..
  · exact steady_transition ..
  · exact .same rfl
  · exact .refl s

theorem steady_restartBay (n : Fin 8) (s : State) : Steady s (restartBay n s) := by
  unfold restartBay
  split
  · exact .ite (fun _ => steady_emptyBay ..) fun _ => .refl s
  · refine .ite (fun _ => .same rfl) fun _ => ?_
    exact ((steady_restartPack ..).trans (steady_stopLoad n _)).trans (steady_putBay ..)

theorem steady_restartLock (s : State) : Steady s (restartLock s) :=
  .ite (fun _ => steady_blockLock ..) fun _ => steady_setLock ..

theorem steady_restartMonitor (s : State) : Steady s (restartMonitor s) := by
  unfold restartMonitor
  split
  case h_4 => exact .refl s
  all_goals exact .after (steady_noticeInert _) rfl

theorem steady_restartLine (s : State) : Steady s (restartLine s) := by
  refine .trans (.trans (.trans ?_ (steady_restartMonitor _)) (steady_endSwitch _)) (steady_evalPermit _)
  exact (Steady.foldl (fun t n => steady_restartBay n t) eight s).trans (steady_restartLock _)

theorem steady_lineRestart (target : Nat) (s : State) : SteadyReply s (lineRestartReply target s) :=
  .check fun _ => .reply _ (steady_restartLine s)

/-! ### A request served -/

theorem steady_respond {p : Port} {f : Frame} {s : State} {r : Reply} (h : SteadyReply s r) :
    Steady s (respond p f r) := h.steady.trans (steady_setPort id)

theorem steady_takeRequest {p : Port} {f : Frame} {owner : State → Reply} (h : ∀ s, SteadyReply s (owner s))
    (s : State) : Steady s (takeRequest p f owner s) :=
  (steady_touchPort p s).trans (steady_respond (.ite (fun _ => h _) fun _ => .refuse ..))

/-- The frame at the head leaves the list of a port (R186). -/
theorem steady_takeHead {p : Port} {g : Frame} {rest : List Frame} {s : State} (h : (s.port p).received = g :: rest) :
    Steady s (s.setPort p { s.port p with received := rest }) := by
  refine steady_setPort fun bounded => ?_
  obtain ⟨notices, received, errors⟩ := bounded
  rw [h] at received
  exact ⟨notices, (Nat.le_succ _).trans received, errors⟩

theorem steady_serve {p : Port} {f : Frame} {owner : State → Reply} (h : ∀ s, SteadyReply s (owner s)) (s : State) :
    Steady s (serve p f owner s) := by
  refine .ite (fun _ => .refl s) fun _ => ?_
  split
  · exact .ite (fun _ => .refl s) fun _ => steady_takeRequest h s
  case h_2 head =>
    exact .ite (fun _ => (steady_takeHead head).trans (steady_takeRequest h _)) fun _ => steady_receiveFrame ..

end Sys2Proof.Machine
end

