-- ==== Sys2Proof/Proofs/LinksKept.lean ====
section
/-! PROOFS: the line fault output shows the banks, the links keep their bounds and at most one curve is REWRITING after
every command and every millisecond (R37, R181, R185, R193, R202). -/

open Sys2Proof Sys2Proof.Machine

namespace Sys2Proof.Machine

/-! ### Samples and the bays' timers -/

theorem steady_setBay (n : Fin 8) (b : Bay) (s : State) : Steady s (s.setBay n b) := .same rfl

theorem steady_quarantineOccupant (n : Fin 8) (cause : QuarantineCause) (s : State) :
    Steady s (quarantineOccupant n cause s) := by
  unfold quarantineOccupant
  split
  · exact .refl s
  · exact steady_quarantinePack ..

theorem steady_sampleFault {n : Fin 8} {pack : State → State} {s : State} (cause : FaultCause) (code : Code)
    (detail : Nat) (h : Steady s (pack s)) : Steady s (sampleFault n cause pack code detail s) :=
  (h.trans (steady_faultBay ..)).trans (steady_post ..)

theorem steady_stopReached (n : Fin 8) (s : State) : Steady s (stopReached n s) := by
  refine .trans (.trans ?_ (steady_stopLoad n _)) (steady_putBay ..)
  exact (steady_onOccupant ..).trans (steady_setBay ..)

theorem steady_dischargeChecks (n : Fin 8) (p : Pack) (x : Sample) (s : State) : Steady s (dischargeChecks n p x s) :=
  .ite (fun _ => steady_sampleFault _ _ _ (steady_quarantineOccupant ..)) fun _ =>
    .ite (fun _ => steady_sampleFault _ _ _ (steady_quarantineOccupant ..)) fun _ =>
      .ite (fun _ => steady_sampleFault _ _ _ (steady_onOccupant ..)) fun _ =>
        .ite (fun _ => steady_stopReached n s) fun _ => .refl s

theorem steady_restChecks (n : Fin 8) (p : Pack) (x : Sample) (s : State) : Steady s (restChecks n p x s) :=
  .ite (fun _ => steady_sampleFault _ _ _ (steady_quarantineOccupant ..)) fun _ =>
    .ite (fun _ => steady_sampleFault _ _ _ (steady_quarantineOccupant ..)) fun _ =>
      .ite (fun _ => steady_runCheck n s) fun _ => .refl s

theorem steady_sampleChecks (n : Fin 8) (x : Sample) (s : State) : Steady s (sampleChecks n x s) := by
  unfold sampleChecks
  split
  · exact .refl s
  · split
    · exact steady_dischargeChecks ..
    · exact steady_restChecks ..
    · exact steady_restChecks ..
    · exact .refl s

theorem steady_integrateSample (n : Fin 8) (v : Nat) (i : Int) (interval : Nat) (k : SeqClass) (s : State) :
    Steady s (integrateSample n v i interval k s) := by
  unfold integrateSample
  split
  · exact .refl s
  · exact (steady_storePack ..).trans (steady_deliverPlaces ..)

theorem steady_tallyBay (n : Fin 8) (f : Tally → Tally) (s : State) : Steady s (tallyBay n f s) := steady_setBay ..

theorem steady_acceptSample (n : Fin 8) (k : SeqClass) (q : Nat) (x : Sample) (interval : Nat) (s : State) :
    Steady s (acceptSample n k q x interval s) := by
  unfold acceptSample
  extract_lets run _ s1 s2 _ s3
  have counted : Steady s s1 := steady_setBay ..
  have integrated : Steady s s2 := counted.onlyIf (steady_integrateSample n x.voltage x.current interval k)
  have sampled : Steady s s3 := integrated.trans (steady_setBay ..)
  exact (sampled.trans (steady_sampleChecks ..)).trans (steady_tallyBay ..)

theorem steady_takeSample (address q v : Nat) (i t : Int) (interval : Nat) (s : State) :
    Steady s (takeSample address q v i t interval s) := by
  unfold takeSample
  split
  · exact .refl s
  · refine .ite (fun _ => .refl s) fun _ => .ite (fun _ => steady_tallyBay ..) fun _ => ?_
    split
    · exact steady_tallyBay ..
    · exact steady_tallyBay ..
    · exact steady_acceptSample ..

theorem steady_sampleLost (n : Fin 8) (s : State) : Steady s (sampleLost n s) :=
  (steady_pauseBay ..).trans (steady_post ..)

theorem steady_endRest (n : Fin 8) (s : State) : Steady s (endRest n s) := .after (steady_runCheck n _) rfl

/-! ### The field link -/

/-- The frame sent leaves the list of the waiting ones (R202). -/
theorem steady_transmitLoadSet (s : State) : Steady s (transmitLoadSet s) := by
  unfold transmitLoadSet
  split
  · exact .refl s
  case h_2 f rest waits =>
    refine steady_link fun h => ?_
    rw [waits] at h
    exact (List.nodup_cons.1 h).2

theorem steady_refreshBay (n : Fin 8) (s : State) : Steady s (refreshBay n s) :=
  .ite (fun _ => .onlyIf (.same rfl) (steady_sendLoadSet n)) fun _ => .refl s

theorem steady_setReceiver (r : Receiver) (s : State) : Steady s { s with link.receiver := r } := .same rfl

theorem steady_onFieldLink {f : State → State} (h : ∀ s, Steady s (f s)) (s : State) : Steady s (onFieldLink f s) :=
  .ite (fun _ => .refl s) fun _ => h s

/-! ### Analyzers -/

theorem steady_judgeDiscrepancy (s : State) : Steady s (judgeDiscrepancy s) :=
  .ite (fun _ => .refl s) fun _ => .ite (fun _ => .same rfl) fun _ => .ite (fun _ => .refl s) fun _ =>
    .after (steady_post ..) rfl

theorem steady_judgeLoss (k : AnalyzerId) (before : Nat) (s : State) : Steady s (judgeLoss k before s) :=
  .ite (fun _ => steady_post ..) fun _ => .refl s

theorem steady_setAtm (a : Atmosphere) (s : State) : Steady s { s with atm := a } := .same rfl

theorem steady_analyzerEvent (k : AnalyzerId) (x : Analyzer) (s : State) : Steady s (analyzerEvent k x s) := by
  refine .trans (.trans ?_ (steady_setAtm ..)) (steady_evalInert _)
  exact ((steady_setAtm ..).trans (steady_judgeDiscrepancy _)).trans (steady_judgeLoss ..)

theorem steady_takeReading (address oxygen status : Nat) (s : State) :
    Steady s (takeReading address oxygen status s) := by
  unfold takeReading
  split
  · exact .ite (fun _ => .refl s) fun _ => steady_analyzerEvent ..
  · exact .refl s

/-! ### Detectors -/

theorem steady_handToZone (d : Fin 24) (s : State) : Steady s (handToZone d s) := by
  unfold handToZone
  split
  · exact .refl s
  · exact steady_evalZone ..

theorem steady_noticeDetector (d : Fin 24) (x : Detector) (s : State) : Steady s (noticeDetector d x s) :=
  steady_notify ..

theorem steady_setDetector (d : Fin 24) (x : Detector) (s : State) : Steady s (s.setDetector d x) := .same rfl

theorem steady_changeDetector (d : Fin 24) (x : Detector) (s : State) : Steady s (changeDetector d x s) := by
  refine .trans (steady_setDetector d x s) (.ite (fun _ => .refl _) fun _ => .trans ?_ (steady_handToZone d _))
  refine .ite (fun _ => (steady_post ..).trans (steady_noticeDetector ..)) fun _ => ?_
  exact .ite (fun _ => steady_noticeDetector ..) fun _ => .refl _

theorem steady_takeLine (d : Fin 24) (l : LineState) (s : State) : Steady s (takeLine d l s) :=
  .ite (fun _ => .refl s) fun _ => steady_changeDetector ..

/-! ### Read-backs -/

theorem steady_setSup (o : Output) (v : Supervision) (s : State) : Steady s (s.setSup o v) := .same (wiring_setSup ..)

theorem steady_handReadback (o : Output) (level : Bool) (s : State) : Steady s (handReadback o level s) := by
  unfold handReadback
  split
  · exact .ite (fun _ => steady_setBay ..) fun _ => .refl s
  · exact .refl s

theorem steady_takeReadback (o : Output) (level : Bool) (s : State) : Steady s (takeReadback o level s) :=
  .ite (fun _ => .refl s) fun _ => (steady_setSup ..).trans (steady_handReadback ..)

theorem steady_stuckPack (n : Fin 8) (s : State) : Steady s (stuckPack n s) := by
  unfold stuckPack
  split
  · exact .refl s
  · split
    · exact steady_transition ..
    · exact steady_transition ..
    · exact .same rfl
    · exact .refl s

theorem steady_contactorStuck (n : Fin 8) (s : State) : Steady s (contactorStuck n s) :=
  ((steady_stuckPack n s).trans (steady_faultBay ..)).trans (steady_post ..)

theorem steady_contactorFailed (n : Fin 8) (s : State) : Steady s (contactorFailed n s) :=
  (steady_pauseBay ..).trans (steady_post ..)

theorem steady_gateMismatch (detail : Nat) (s : State) : Steady s (gateMismatch detail s) :=
  (steady_post ..).trans (steady_evalPermit _)

theorem steady_lowerMismatch (detail : Nat) (s : State) : Steady s (lowerMismatch detail s) :=
  .onlyIf (steady_gateMismatch detail s) (steady_blockLock _ _)

theorem steady_reportMismatch (o : Output) (s : State) : Steady s (reportMismatch o s) := by
  unfold reportMismatch
  dsimp only
  split
  · exact .ite (fun _ => steady_contactorFailed ..) fun _ => steady_contactorStuck ..
  · exact (steady_post ..).trans (steady_evalPermit _)
  · exact steady_gateMismatch ..
  · exact steady_lowerMismatch ..
  · exact steady_post ..
  · exact steady_post ..

theorem steady_endWindow (o : Output) (s : State) : Steady s (endWindow o s) :=
  .ite (fun _ => steady_setSup ..) fun _ => (steady_setSup ..).trans (steady_reportMismatch ..)

theorem steady_endDisagreement (o : Output) (s : State) : Steady s (endDisagreement o s) :=
  (steady_setSup ..).trans (steady_reportMismatch ..)

/-! ### Station links -/

theorem steady_takeDiscard (p : Port) (why : FrameFault) (s : State) : Steady s (takeDiscard p why s) := by
  refine .ite (fun _ => .refl s) fun _ => ?_
  cases why with
  | overrun => exact .ite (fun _ => .refl s) fun _ => (steady_touchPort p s).trans (steady_discardFrame ..)
  | _ => exact steady_discardFrame ..

theorem steady_becomeAbsent (p : Port) (s : State) : Steady s (becomeAbsent p s) := by
  refine .trans (.trans (.trans ?_ (steady_post ..)) (steady_notify ..)) (steady_deliverPresence p _)
  exact steady_setPort id

theorem steady_hunt (p : Port) (s : State) : Steady s (s.setPort p { s.port p with receiver := .hunting }) :=
  steady_setPort id

/-! ### Stop and hardware reset -/

/-- A stopped part's line fault output is off, whatever the banks hold (R203). -/
theorem steady_stopPart (cause : StopCause) (s : State) : Steady s (stopPart cause s) where
  lit _ running := nomatch running
  links law := law
  curves law := law

/-- Links as a hardware reset leaves them, and no curve REWRITING (R36, R202). -/
structure Restarted (s : State) : Prop where
  ports : ∀ p, (s.port p).Bounded
  waiting : (s.link.waiting.map (·.bay)).Nodup
  curves : ∀ k, (vget s.cls.curves k).status ≠ .rewriting

theorem Curve.afterReset_ended (x : Curve) : x.afterReset.status ≠ .rewriting := by
  unfold Curve.afterReset
  split
  case isTrue => simp
  case isFalse ended => exact ended

theorem PortCtx.bounded_initial (seconds : Nat) : (PortCtx.initial seconds).Bounded := by
  simp [PortCtx.initial, PortCtx.Bounded]

theorem restarted_rebuild (s : State) : Restarted (rebuild s) where
  ports p := by cases p <;> exact PortCtx.bounded_initial _
  waiting := by
    have bays : (FieldLink.initial.waiting.map (·.bay)).Nodup := by decide
    exact bays
  curves k := by
    have ended : vget (rebuild s).cls.curves k = (vget s.cls.curves k).afterReset := vget_vmap ..
    rw [ended]
    exact Curve.afterReset_ended _

/-- A posting recorded at a reset places no notice (R193). -/
theorem Restarted.deposit {s : State} (h : Restarted s) (p : Posting) : Restarted (deposit p s) := by
  rw [deposit_eq]
  exact ⟨h.ports, h.waiting, h.curves⟩

theorem Restarted.resetUncertain {s : State} (h : Restarted s) (old : Vector Rec 256) :
    Restarted (resetUncertain old s) := by
  have marked : ∀ j l, Restarted (s.setLot j l) := fun _ _ => ⟨h.ports, h.waiting, h.curves⟩
  unfold Machine.resetUncertain
  split
  · split
    · exact (marked ..).deposit _
    · exact h
  · exact h

/-- The first deliveries command the line fault output (R181). -/
theorem Restarted.steady {s t : State} (h : Restarted t) : Steady s (firstDeliveries t) where
  lit _ _ := rfl
  links _ := ⟨h.ports, h.waiting⟩
  curves _ j _ hj := absurd hj (h.curves j)

theorem steady_hardwareReset (straps : Straps) (agrees : Bool) (s : State) :
    Steady s (hardwareReset straps agrees s) :=
  .ite (fun _ => ((restarted_rebuild _).resetUncertain _).steady) fun _ => ((restarted_rebuild _).deposit _).steady

/-! ### Commands and time -/

theorem steady_whenRunning {f : State → State} (h : ∀ s, Steady s (f s)) (s : State) : Steady s (whenRunning f s) :=
  .ite (fun _ => h s) fun _ => .refl s

/-- A request of an owner that keeps the laws. -/
theorem steady_request {p : Port} {f : Frame} {owner : State → Reply} (h : ∀ s, SteadyReply s (owner s)) (s : State) :
    ∃ t, (Host.Outcome.next (serve p f owner s) : Host.Outcome State Fault Refusal) = .next t ∧ Steady s t :=
  ⟨_, rfl, steady_serve h s⟩

/-- An event of the running part. -/
theorem steady_event {f : State → State} (h : ∀ s, Steady s (f s)) (s : State) :
    ∃ t, (Host.Outcome.next (whenRunning f s) : Host.Outcome State Fault Refusal) = .next t ∧ Steady s t :=
  ⟨_, rfl, steady_whenRunning h s⟩

/-- An event of the running part that is carried out where it is due. -/
theorem steady_dueEvent {c : State → Prop} [∀ s, Decidable (c s)] {f : State → State} (h : ∀ s, Steady s (f s))
    (s : State) : ∃ t, (Host.Outcome.next (whenRunning (fun s => if c s then f s else s) s) :
      Host.Outcome State Fault Refusal) = .next t ∧ Steady s t :=
  steady_event (fun s => .ite (fun _ => h s) fun _ => .refl s) s

theorem PortCtx.Bounded.tick {c : PortCtx} (h : c.Bounded) : c.tick.Bounded := h

/-- A millisecond of the timers leaves banks, queues, lists and curves. -/
theorem steady_advance (s : State) : Steady s (advance s) where
  lit law := law
  links law := by
    obtain ⟨ports, waiting⟩ := (linksBounded_iff s).1 law
    refine (linksBounded_iff _).2 ⟨fun p => ?_, waiting⟩
    cases p with
    | line => exact (ports .line).tick
    | fire => exact (ports .fire).tick
    | custody => exact (ports .custody).tick
  curves law := law

theorem steady_unreadReply (p : Port) (f : Frame) (s : State) : Steady s (respond p f (unreadReply p f s)) :=
  steady_respond (.ite (fun _ => .refuse ..) fun _ => .refuse ..)

theorem steady_answerUnread (p : Port) (s : State) : Steady s (answerUnread p s) := by
  unfold answerUnread
  split
  · exact .refl s
  case h_2 head =>
    split
    · exact .refl s
    · exact ((steady_takeHead head).trans (steady_touchPort p _)).trans (steady_unreadReply ..)

theorem steady_setPending (l : List Instr) (s : State) : Steady s { s with pending := l } := .same rfl

theorem steady_tick (s : State) : Steady s (tick s) := by
  refine .ite (fun _ => .trans (.trans (steady_advance s) ?_) (steady_setPending ..)) fun _ => .refl s
  exact Steady.foldl (fun t p => steady_answerUnread p t) allPorts _

theorem steady_exec (i : Instr) (s : State) : ∃ t, exec i s = .next t ∧ Steady s t := by
  cases i with
  | hardwareReset straps agrees => exact ⟨_, rfl, steady_hardwareReset straps agrees s⟩
  | stationFrameValid p seq code body => exact steady_event (steady_receiveFrame p _) s
  | stationFrameDiscard p why => exact steady_event (steady_takeDiscard p why) s
  | stationLineIdleTimeout p =>
    exact steady_event (fun s => .ite (fun _ => .refl s) fun _ => steady_countError p s) s
  | presenceTimerExpiry p => exact steady_dueEvent (steady_becomeAbsent p) s
  | readStatus p seq part => exact steady_request (steady_status part) s
  | readPack p seq index gen => exact steady_request (steady_readPack index gen) s
  | listPacks p seq state lot => exact steady_request (steady_list p state lot) s
  | setCursor p seq index => exact steady_request (steady_cursor p index) s
  | readBay p seq bay => exact steady_request (steady_readBay bay) s
  | readZone p seq zone => exact steady_request (steady_readZone zone) s
  | readLot p seq lot => exact steady_request (steady_readLot lot) s
  | readBank p seq bank => exact steady_request (steady_readBank bank) s
  | readConfig p seq item index => exact steady_request (steady_readConfig item index) s
  | fetchNotices p seq => exact steady_request (steady_fetch p) s
  | setPresenceTime p seq seconds => exact steady_request (steady_presence p seconds) s
  | clearBank p seq bank number => exact steady_request (steady_clearBank p bank number) s
  | setReportEnables p seq bank enables => exact steady_request (steady_enables p bank enables) s
  | admitPack p seq tag lot typeCode damaged mass nominal cells =>
    exact steady_request (steady_admit tag lot typeCode damaged mass nominal cells) s
  | withdraw p seq index gen => exact steady_request (steady_withdraw index gen) s
  | openLot p seq number => exact steady_request (steady_openLot number) s
  | closeLot p seq lot => exact steady_request (steady_closeLotReply lot) s
  | releaseLot p seq lot => exact steady_request (steady_releaseLot lot) s
  | outputWeight p seq lot mass final => exact steady_request (steady_outputWeight lot mass final) s
  | switchShredLot p seq lot => exact steady_request (steady_switch lot) s
  | cancelSwitch p seq => exact steady_request steady_cancel s
  | setRecoveryBounds p seq low high => exact steady_request (steady_bounds low high) s
  | assign p seq index gen bay => exact steady_request (steady_assign index gen bay) s
  | move p seq index gen dest => exact steady_request (steady_move index gen dest) s
  | quarantine p seq index gen => exact steady_request (steady_quarantine index gen) s
  | start p seq bay => exact steady_request (steady_start bay) s
  | pause p seq bay => exact steady_request (steady_pause bay) s
  | resume p seq bay => exact steady_request (steady_resume bay) s
  | abort p seq bay => exact steady_request (steady_abort bay) s
  | writeSlot p seq bay slot current stop segment =>
    exact steady_request (steady_writeSlot bay slot current stop segment) s
  | clearBay p seq bay => exact steady_request (steady_clearBay bay) s
  | enqueue p seq index gen => exact steady_request (steady_enqueue index gen) s
  | remove p seq index gen dest => exact steady_request (steady_remove index gen dest) s
  | feed p seq index gen => exact steady_request (steady_feed index gen) s
  | lockClosed p seq => exact steady_request steady_lockClosed s
  | returnPack p seq index gen => exact steady_request (steady_return index gen) s
  | dropDone p seq index gen => exact steady_request (steady_dropDone index gen) s
  | lockEmptied p seq => exact steady_request steady_lockEmptied s
  | chamberClear p seq => exact steady_request steady_chamberClear s
  | inertStart p seq => exact steady_request steady_inertStart s
  | inertStop p seq => exact steady_request steady_inertStop s
  | writeFeed p seq seconds => exact steady_request (steady_writeFeed seconds) s
  | writeTreatment p seq index fields => exact steady_request (steady_writeTreatment index fields) s
  | writeRange p seq index low high treatment enabled =>
    exact steady_request (steady_writeRange index low high treatment enabled) s
  | writeSlotMap p seq family treatment enabled => exact steady_request (steady_writeSlotMap family treatment enabled) s
  | setMap p seq enable treatment => exact steady_request (steady_setMap enable treatment) s
  | curveBegin p seq curve => exact steady_request (steady_curveBegin curve) s
  | curvePoint p seq curve voltage fraction => exact steady_request (steady_curvePoint curve voltage fraction) s
  | curveEnd p seq curve => exact steady_request (steady_curveEnd curve) s
  | lineRestart p seq target g1 g2 => exact steady_request (fun s => .guarded (steady_lineRestart target s)) s
  | writeDetector p seq detector zone kind => exact steady_request (steady_writeDetector detector zone kind) s
  | writeFireTimes p seq dwell rearm => exact steady_request (steady_writeFireTimes dwell rearm) s
  | writeZone p seq zone threshold delay => exact steady_request (steady_writeZone zone threshold delay) s
  | hold p seq zone => exact steady_request (fun s => .withZone fun z => steady_setHold z true s) s
  | holdEnd p seq zone => exact steady_request (fun s => .withZone fun z => steady_setHold z false s) s
  | release p seq target g1 g2 => exact steady_request (fun s => .guarded (steady_release target s)) s
  | zoneReset p seq target g1 g2 => exact steady_request (fun s => .guarded (steady_zoneReset target s)) s
  | isolateZone p seq zone => exact steady_request (steady_isolate zone) s
  | restoreZone p seq zone => exact steady_request (steady_restore zone) s
  | inertReset p seq target g1 g2 => exact steady_request (fun s => .guarded (steady_inertReset target s)) s
  | writeInertLimits p seq purge run trip hold maxPurge =>
    exact steady_request (steady_writeInertLimits purge run trip hold maxPurge) s
  | baySample address sequence voltage current temperature interval =>
    exact steady_event (steady_onFieldLink (steady_takeSample address sequence voltage current temperature interval)) s
  | analyzerReading address oxygen status =>
    exact steady_event (fun s => .ite (fun _ => .refl s) fun _ => steady_takeReading ..) s
  | fieldFrameDiscard why => exact steady_event (steady_onFieldLink fun s => steady_setReceiver _ s) s
  | loadSetTransmit => exact steady_event steady_transmitLoadSet s
  | loadSetRefreshExpiry bay => exact steady_event (steady_refreshBay bay) s
  | segmentTimerExpiry bay => exact steady_dueEvent (steady_takeBoundary bay) s
  | sampleLoss bay => exact steady_dueEvent (steady_sampleLost bay) s
  | overCurrentReferenceDrop bay => exact steady_dueEvent (fun s => steady_setBay ..) s
  | restTimerExpiry bay => exact steady_dueEvent (steady_endRest bay) s
  | analyzerAgeExpiry analyzer => exact steady_dueEvent (fun s => steady_analyzerEvent analyzer _ s) s
  | purgeTimeout => exact steady_event steady_checkPurgeTimeout s
  | holdTimerExpiry => exact steady_dueEvent (steady_changeInert .inert) s
  | lockPurgeTimerExpiry => exact steady_dueEvent (fun s => steady_setLock _ s) s
  | detectorLineChange detector line =>
    exact ⟨_, rfl, .ite (fun _ => steady_takeLine ..) fun _ => steady_setDetector ..⟩
  | detectorDwellExpiry detector => exact steady_dueEvent (fun s => steady_changeDetector detector _ s) s
  | faultDwellExpiry detector => exact steady_dueEvent (fun s => steady_changeDetector detector _ s) s
  | rearmExpiry detector => exact steady_dueEvent (fun s => steady_changeDetector detector _ s) s
  | recoveryTimerExpiry detector => exact steady_dueEvent (fun s => steady_changeDetector detector _ s) s
  | releaseTimerExpiry zone => exact steady_dueEvent (steady_enterReleased zone 1) s
  | readbackChange output level =>
    exact ⟨_, rfl, .ite (fun _ => steady_takeReadback ..) fun _ => steady_setSup ..⟩
  | readbackWindowExpiry output => exact steady_dueEvent (steady_endWindow output) s
  | disagreementTimerExpiry output => exact steady_dueEvent (steady_endDisagreement output) s
  | mainSupplyLoss cause => exact ⟨_, rfl, steady_stopPart cause s⟩
  | stationPortHuntsAgain p => exact steady_event (steady_hunt p) s
  | fieldLinkHuntsAgain => exact steady_event (steady_setReceiver .hunting) s

theorem steady_step {s t : State} (h : step s = .next t) : Steady s t := by
  unfold step at h
  split at h
  case h_1 c rest _ =>
    obtain ⟨u, e, k⟩ := steady_exec c { s with pending := rest }
    rw [e] at h
    cases h
    exact (steady_setPending rest s).trans k
  case h_2 => cases h; exact steady_tick s

end Sys2Proof.Machine

theorem lineFaultLawKept : Claim.LineFaultLawKept := fun _ _ law h => (steady_step h).lit law

theorem linksStayBounded : Claim.LinksStayBounded := fun _ _ law h => (steady_step h).links law

theorem oneCurveRewritingKept : Claim.OneCurveRewritingKept := fun _ _ law h => (steady_step h).curves law

/-- Settles O11: every command and every millisecond keeps the three laws, operation by operation. -/
theorem lineFaultAndBoundsKept : Obligations.LineFaultAndBoundsKept :=
  ⟨lineFaultLawKept, linksStayBounded, oneCurveRewritingKept⟩

end

