-- ==== Sys2Proof/Proofs/BayEffects.lean ====
section
/-! PROOFS, layer 1 continued. The segment boundary of a bay and the operations built on it, each as one update of the
state (R53, R54, R58). -/

namespace Sys2Proof.Machine

/-- A bay whose setpoint follows its active slot, the over-current reference following the setpoint: at once on a rise,
1,000 ms after a fall (R58). -/
def Bay.followed (b : Bay) (clock : Nat) : Bay :=
  let ma := b.activeSlot.current
  { b with
    setpoint := ma
    overRef := if b.setpoint < ma then ma else b.overRef
    overEnd := if b.setpoint < ma then none
      else if ma < b.setpoint then some (clock + Config.referenceHoldMs) else b.overEnd }

theorem followSlot_eq (n : Fin 8) (s : State) : followSlot n s =
    { s with
      bays := vset s.bays n ((s.bay n).followed s.clock)
      link := s.link.setpointTo n (s.bay n).setpoint (s.bay n).activeSlot.current } := by
  unfold followSlot Bay.followed
  dsimp only
  rw [setSetpoint_eq]
  by_cases rise : (s.bay n).setpoint < (s.bay n).activeSlot.current
  · simp only [if_pos rise, State.bay_setBay_same]
    simp [State.setBay]
  · by_cases fall : (s.bay n).activeSlot.current < (s.bay n).setpoint
    · simp only [if_neg rise, if_pos fall, State.bay_setBay_same]
      simp [State.setBay]
    · simp only [if_neg rise, if_neg fall, State.bay_setBay_same]
      simp [State.setBay]

/-- A bay that has taken a segment boundary (R53, R55). -/
def Bay.boundary (b : Bay) (clock : Nat) : Bay := ({ b.swapSlot with elapsed := 0 } : Bay).followed clock

theorem Bay.swapSlot_setpoint (b : Bay) : b.swapSlot.setpoint = b.setpoint := by
  unfold Bay.swapSlot
  split <;> rfl

theorem Bay.swapSlot_state (b : Bay) : b.swapSlot.state = b.state := by
  unfold Bay.swapSlot
  split <;> rfl

/-- The slots stay, the active one is the other where a write was pending, and none is pending after (R53). -/
theorem Bay.swapSlot_eq (b : Bay) : b.swapSlot =
    { b with active := if b.pending then b.active.other else b.active, pending := false } := by
  unfold Bay.swapSlot
  cases h : b.pending with
  | true => rfl
  | false =>
    show b = { b with active := b.active, pending := false }
    rw [← h]

theorem takeBoundary_eq (n : Fin 8) (s : State) : takeBoundary n s =
    { s with
      bays := vset s.bays n ((s.bay n).boundary s.clock)
      link := s.link.setpointTo n (s.bay n).setpoint (s.bay n).swapSlot.activeSlot.current } := by
  unfold takeBoundary
  rw [followSlot_eq, State.bay_setBay_same, State.setBay, ← Bay.swapSlot_setpoint (s.bay n)]
  simp only [vset_vset]
  rfl

end Sys2Proof.Machine
end

