-- ==== Sys2Proof/Proofs/Loads.lean ====
section
/-! PROOFS, layer 11. What the shared operations do to the contactors and setpoints of the bays (R47). -/

open Sys2Proof Sys2Proof.Machine

namespace Sys2Proof.Machine

/-! ### The relation -/

/-- What the law of the contactors reads of a state. -/
def State.loads (s : State) : Bool × Vector Bay 8 × Vector Supervision 8 := (s.run, s.bays, s.out.contactors)

/-- The law of the contactors for one bay (R47). -/
structure Commanded (v : Supervision) (b : Bay) : Prop where
  contactor : v.command = (b.state == .discharging)
  setpoint : b.setpoint = if b.state = .discharging then b.activeSlot.current else 0

theorem contactorLaw_iff (s : State) :
    ContactorLaw s ↔ (s.run = true → ∀ n, Commanded (s.sup (.contactor n)) (s.bay n)) :=
  forall_congr' fun _ => forall_congr' fun _ => ⟨fun ⟨c, p⟩ => ⟨c, p⟩, fun ⟨c, p⟩ => ⟨c, p⟩⟩

/-- A bay that is not DISCHARGING, its contactor off and its setpoint 0. -/
theorem Commanded.idle {v : Supervision} {b : Bay} (state : b.state ≠ .discharging) (off : v.command = false)
    (zero : b.setpoint = 0) : Commanded v b := ⟨by simp [off, state], by simp [zero, state]⟩

/-- A DISCHARGING bay, its contactor on and its setpoint its active slot's current. -/
theorem Commanded.running {v : Supervision} {b : Bay} (state : b.state = .discharging) (on : v.command = true)
    (follows : b.setpoint = b.activeSlot.current) : Commanded v b := ⟨by simp [on, state], by simp [follows, state]⟩

theorem Commanded.off {v : Supervision} {b : Bay} (h : Commanded v b) (state : b.state ≠ .discharging) :
    v.command = false ∧ b.setpoint = 0 := ⟨by simp [h.contactor, state], by simp [h.setpoint, state]⟩

/-- Each bay that keeps the law of the contactors in `s` keeps it in `t`. -/
structure Follows (s t : State) : Prop where
  run : t.run = s.run
  bay : ∀ n, Commanded (s.sup (.contactor n)) (s.bay n) → Commanded (t.sup (.contactor n)) (t.bay n)

namespace Follows

variable {s t u : State}

theorem refl (s : State) : Follows s s := ⟨rfl, fun _ => id⟩

theorem trans (h : Follows s t) (k : Follows t u) : Follows s u := ⟨k.run.trans h.run, fun n => k.bay n ∘ h.bay n⟩

/-- An update of what the law does not read. -/
theorem same (h : t.loads = s.loads) : Follows s t := by
  have bays : t.bays = s.bays := congrArg (fun x => x.2.1) h
  have contactors : t.out.contactors = s.out.contactors := congrArg (fun x => x.2.2) h
  exact ⟨congrArg Prod.fst h, fun n law => by simpa only [State.sup, State.bay, bays, contactors] using law⟩

/-- An operation after an update of what the law does not read. -/
theorem after (k : Follows u t) (h : u.loads = s.loads) : Follows s t := (same h).trans k

/-- An operation before an update of what the law does not read. -/
theorem before (k : Follows s u) (h : t.loads = u.loads) : Follows s t := k.trans (same h)

theorem ite {c : Prop} [Decidable c] (ht : c → Follows s t) (hu : ¬c → Follows s u) :
    Follows s (if c then t else u) := by
  split
  · exact ht ‹_›
  · exact hu ‹_›

/-- A step that may be taken or not. -/
theorem onlyIf {c : Prop} [Decidable c] {f : State → State} (k : Follows s t) (h : ∀ t, Follows t (f t)) :
    Follows s (if c then f t else t) := .ite (fun _ => k.trans (h t)) fun _ => k

theorem foldl {α : Type} {f : State → α → State} (h : ∀ s x, Follows s (f s x)) (l : List α) (s : State) :
    Follows s (l.foldl f s) := by
  induction l generalizing s with
  | nil => exact .refl s
  | cons x l ih => exact (h s x).trans (ih _)

/-- One bay and its contactor written. -/
theorem write {n : Fin 8} {v : Supervision} {b : Bay} (run : t.run = s.run) (bays : t.bays = vset s.bays n b)
    (contactors : t.out.contactors = vset s.out.contactors n v)
    (law : Commanded (s.sup (.contactor n)) (s.bay n) → Commanded v b) : Follows s t := by
  refine ⟨run, fun m h => ?_⟩
  by_cases hm : m = n
  · subst hm
    simpa only [State.sup, State.bay, bays, contactors, vget_vset_same] using law h
  · simpa only [State.sup, State.bay, bays, contactors, vget_vset_other _ hm] using h

/-- One bay written, the contactors as they were. -/
theorem writeBay {n : Fin 8} {b : Bay} (run : t.run = s.run) (bays : t.bays = vset s.bays n b)
    (contactors : t.out.contactors = s.out.contactors)
    (law : Commanded (s.sup (.contactor n)) (s.bay n) → Commanded (s.sup (.contactor n)) b) : Follows s t :=
  write run bays (contactors.trans (vset_vget ..).symm) law

end Follows

theorem follows_setBay {n : Fin 8} {b : Bay} {s : State}
    (law : Commanded (s.sup (.contactor n)) (s.bay n) → Commanded (s.sup (.contactor n)) b) :
    Follows s (s.setBay n b) := .writeBay rfl rfl rfl law

theorem follows_putBay {n : Fin 8} {b : Bay} {s : State}
    (law : Commanded (s.sup (.contactor n)) (s.bay n) → Commanded (s.sup (.contactor n)) b) :
    Follows s (putBay n b s) := by
  rw [putBay_eq]
  exact .writeBay rfl rfl rfl law

/-- A bay that leaves a state without load for another, its setpoint as it was. -/
theorem follows_putIdle {n : Fin 8} {b : Bay} {s : State} (was : (s.bay n).state ≠ .discharging)
    (is : b.state ≠ .discharging) (setpoint : b.setpoint = (s.bay n).setpoint) : Follows s (putBay n b s) :=
  follows_putBay fun h => .idle is (h.off was).1 (setpoint.trans (h.off was).2)

/-! ### Updates that the law does not read -/

theorem loads_of_mute {s t : State} (h : t.mute = s.mute) : t.loads = s.loads := (congrArg State.loads h :)
theorem loads_of_lessFeed {s t : State} (h : t.lessFeed = s.lessFeed) : t.loads = s.loads := (congrArg State.loads h :)
theorem loads_of_lessPacks {s t : State} (h : t.lessPacks = s.lessPacks) : t.loads = s.loads :=
  (congrArg State.loads h :)

@[simp] theorem loads_setPort (s : State) (p : Port) (c : PortCtx) : (s.setPort p c).loads = s.loads := by
  cases p <;> rfl
@[simp] theorem loads_setZone (s : State) (z : Fin 8) (q : Zone) : (s.setZone z q).loads = s.loads := rfl
@[simp] theorem loads_setDetector (s : State) (d : Fin 24) (x : Detector) : (s.setDetector d x).loads = s.loads := rfl
@[simp] theorem loads_setPack (s : State) (i : Fin 256) (p : Option Pack) : (s.setPack i p).loads = s.loads := rfl
@[simp] theorem loads_setLot (s : State) (j : Fin 8) (l : Option Lot) : (s.setLot j l).loads = s.loads := rfl
@[simp] theorem loads_notify (ps : List Port) (w : NoticeBody) (s : State) : (notify ps w s).loads = s.loads :=
  loads_of_mute (mute_notify ps w s)
@[simp] theorem loads_release (z : Fin 8) (on : Bool) (s : State) : (command (.release z) on s).loads = s.loads := rfl
@[simp] theorem loads_relight (s : State) : (relight s).loads = s.loads := rfl

/-! ### Incidents, the lock and the permit -/

@[simp] theorem loads_postRaw (p : Posting) (s : State) : (postRaw p s).loads = s.loads :=
  loads_of_lessFeed (lessFeed_postRaw p s)
@[simp] theorem loads_setLock (l : Lock) (s : State) : (setLock l s).loads = s.loads :=
  loads_of_lessFeed (lessFeed_setLock l s)
@[simp] theorem loads_holdLock (c : Nat) (s : State) : (holdLock c s).loads = s.loads :=
  loads_of_lessFeed (lessFeed_holdLock c s)
@[simp] theorem loads_resumeLock (s : State) : (resumeLock s).loads = s.loads :=
  loads_of_lessFeed (lessFeed_resumeLock s)
@[simp] theorem loads_evalPermit (s : State) : (evalPermit s).loads = s.loads :=
  loads_of_lessFeed (lessFeed_evalPermit s)
@[simp] theorem loads_deliverBanks (s : State) : (deliverBanks s).loads = s.loads :=
  loads_of_lessFeed (lessFeed_deliverBanks s)
@[simp] theorem loads_post (p : Posting) (s : State) : (post p s).loads = s.loads :=
  loads_of_lessFeed (lessFeed_post p s)
@[simp] theorem loads_deliverInert (s : State) : (deliverInert s).loads = s.loads :=
  loads_of_lessFeed (lessFeed_deliverInert s)
@[simp] theorem loads_deliverShred (s : State) : (deliverShred s).loads = s.loads :=
  loads_of_lessFeed (lessFeed_deliverShred s)
@[simp] theorem loads_deliverFirePort (s : State) : (deliverFirePort s).loads = s.loads :=
  loads_of_lessFeed (lessFeed_deliverFirePort s)
@[simp] theorem loads_deliverFeedZone (z : Fin 8) (st : ZoneState) (s : State) :
    (deliverFeedZone z st s).loads = s.loads := loads_of_lessFeed (lessFeed_deliverFeedZone z st s)

/-! ### Packs -/

@[simp] theorem loads_storePack (i : Fin 256) (p : Pack) (s : State) : (storePack i p s).loads = s.loads := rfl
@[simp] theorem loads_noticePack (ps : List Port) (i : Fin 256) (s : State) : (noticePack ps i s).loads = s.loads :=
  loads_of_mute (mute_noticePack ps i s)
@[simp] theorem loads_transition (i : Fin 256) (p : Pack) (s : State) : (transition i p s).loads = s.loads :=
  loads_of_lessPacks (lessPacks_transition i p s)
@[simp] theorem loads_quarantinePack (i : Fin 256) (c : QuarantineCause) (s : State) :
    (quarantinePack i c s).loads = s.loads := loads_of_lessPacks (lessPacks_quarantinePack i c s)
@[simp] theorem loads_onOccupant (n : Fin 8) (f : Pack → Pack) (s : State) : (onOccupant n f s).loads = s.loads :=
  loads_of_lessPacks (lessPacks_onOccupant n f s)

theorem bay_of_loads {s t : State} (h : t.loads = s.loads) (n : Fin 8) : t.bay n = s.bay n :=
  (congrArg (fun x => vget x.2.1 n) h :)

theorem loads_blockLock (c : QuarantineCause) (d : Option Nat) (s : State) : (blockLock c d s).loads = s.loads := by
  unfold blockLock
  split
  · rfl
  · rw [loads_setLock]
    split <;> simp [feedUncertain]

theorem loads_releaseLock (s : State) : (releaseLock s).loads = s.loads := by
  unfold releaseLock
  split
  · exact loads_blockLock ..
  · rfl

/-! ### Bays -/

theorem follows_enterDischarging (n : Fin 8) (ms : Nat) (s : State) : Follows s (enterDischarging n ms s) := by
  rw [enterDischarging_eq]
  exact .write rfl rfl rfl fun _ => .running rfl (Supervision.setCommand_command ..) rfl

/-- A bay whose load is stopped and that is then written off DISCHARGING. -/
theorem follows_stopped {n : Fin 8} {b : Bay} {s : State} (state : b.state ≠ .discharging) (zero : b.setpoint = 0) :
    Follows s (putBay n b (stopLoad n s)) := by
  rw [putBay_eq, stopLoad_eq]
  exact .write rfl (vset_vset ..) rfl fun _ => .idle state (Supervision.setCommand_command ..) zero

theorem setpoint_stopLoad (n : Fin 8) (s : State) : ((stopLoad n s).bay n).setpoint = 0 := by
  rw [stopLoad_eq, State.bay, vget_vset_same]
  rfl

theorem follows_pauseBay (n : Fin 8) (cause : PauseCause) (s : State) : Follows s (pauseBay n cause s) :=
  follows_stopped nofun (setpoint_stopLoad n s)

theorem follows_faultBay (n : Fin 8) (cause : FaultCause) (s : State) : Follows s (faultBay n cause s) :=
  follows_stopped nofun (setpoint_stopLoad n s)

theorem follows_alarmBay (n : Fin 8) (s : State) : Follows s (alarmBay n s) := by
  unfold alarmBay
  split
  · exact .refl s
  · exact .after (follows_faultBay ..) (loads_quarantinePack ..)

/-- A boundary of a running segment: the setpoint follows the slot that is active after it (R53). -/
theorem follows_takeBoundary {n : Fin 8} {s : State} (running : (s.bay n).state = .discharging) :
    Follows s (takeBoundary n s) := by
  rw [takeBoundary_eq]
  refine .writeBay rfl rfl rfl fun h => .running ?_ (h.contactor.trans (by simp [running])) rfl
  exact (Bay.swapSlot_state _).trans running

theorem follows_occupyBay (n : Fin 8) (h : Handle) (t : Treatment) (recheck : Bool) (s : State) :
    Follows s (occupyBay n h t recheck s) := by
  rw [occupyBay_eq]
  exact .write rfl rfl rfl fun _ => .idle nofun (Supervision.setCommand_command ..) rfl

/-- A bay without load is emptied (R51). -/
theorem follows_emptyBay {n : Fin 8} {s : State} (idle : (s.bay n).state ≠ .discharging) :
    Follows s (emptyBay n s) := follows_putIdle idle nofun rfl

theorem follows_leaveLoc {l : Loc} {s : State} (idle : ∀ n, l = .bay n → (s.bay n).state ≠ .discharging) :
    Follows s (leaveLoc l s) := by
  cases l with
  | bay n => exact follows_emptyBay (idle n rfl)
  | _ => exact .refl s

/-! ### Zones -/

theorem follows_deliverZone (z : Fin 8) (old : ZoneState) (s : State) : Follows s (deliverZone z old s) := by
  have alarms : ∀ t, Follows t ((baysOf z).foldl (fun t n => alarmBay n t) t) :=
    Follows.foldl (fun t n => follows_alarmBay n t) _
  refine .before (.onlyIf (.onlyIf (.onlyIf (.onlyIf (.refl s) alarms) fun t => ?_) fun t => ?_) fun t => ?_)
    (loads_notify ..)
  · exact .same (loads_deliverFeedZone ..)
  · exact .same (loads_releaseLock t)
  · exact .same rfl

theorem follows_changeZone (z : Fin 8) (q : Zone) (s : State) : Follows s (changeZone z q s) :=
  .after (follows_deliverZone ..) rfl

theorem follows_enterReleased (z : Fin 8) (detail : Nat) (s : State) : Follows s (enterReleased z detail s) :=
  .after (follows_deliverZone ..) (by simp)

theorem follows_evalRelease (z : Fin 8) (s : State) : Follows s (evalRelease z s) :=
  .ite (fun _ => .ite (fun _ => follows_enterReleased ..) fun _ => follows_changeZone ..) fun _ => .refl s

theorem follows_enterAlarm (z : Fin 8) (part : Nat) (s : State) : Follows s (enterAlarm z part s) :=
  .after ((follows_deliverZone z (s.zone z).state _).trans (follows_evalRelease ..)) (by simp)

theorem follows_enterPreAlarm (z : Fin 8) (detail : Nat) (s : State) : Follows s (enterPreAlarm z detail s) :=
  .after (follows_deliverZone ..) (by simp)

theorem follows_evalZone (z : Fin 8) (detail : Nat) (s : State) : Follows s (evalZone z detail s) := by
  unfold evalZone
  refine .ite (fun _ => ?_) fun _ => .refl s
  split
  · exact follows_enterAlarm ..
  · exact .ite (fun _ => .ite (fun _ => follows_enterPreAlarm ..) fun _ => .refl s)
      fun _ => .ite (fun _ => follows_changeZone ..) fun _ => .refl s

theorem follows_deliverInventory (z : Fin 8) (s : State) : Follows s (deliverInventory z s) :=
  .ite (fun _ => .refl s) fun _ => .after (follows_evalRelease ..) rfl

theorem follows_deliverPlaces (src dst : Option (Fin 8)) (s : State) : Follows s (deliverPlaces src dst s) := by
  have delivered : ∀ (z : Option (Fin 8)) (t : State), Follows t (match z with
      | none => t
      | some z => deliverInventory z t) := by
    intro z t
    cases z with
    | none => exact .refl t
    | some z => exact follows_deliverInventory z t
  exact (delivered src s).trans (delivered dst _)

/-! ### The residual check -/

/-- A check of a bay that is not DISCHARGING (R62 to R66). -/
theorem follows_actOnCheck {n : Fin 8} {s : State} (idle : (s.bay n).state ≠ .discharging) (i : Fin 256) (p : Pack)
    (c : Check) : Follows s (actOnCheck n i p c s) := by
  have noted : Follows s (s.setBay n ((s.bay n).noted c)) := follows_setBay fun h => ⟨h.contactor, h.setpoint⟩
  have booked : Follows s (checkBooked n i p c s) := noted.before (loads_transition ..)
  have bay : (checkBooked n i p c s).bay n = (s.bay n).noted c := (booked_checkBooked n i p c s).bay
  have still : ((checkBooked n i p c s).bay n).state ≠ .discharging := by rw [bay]; exact idle
  rw [actOnCheck_eq]
  refine .trans (booked.trans ?_) (follows_deliverPlaces ..)
  refine .ite (fun _ => ?_) fun _ => .ite (fun _ => .ite (fun _ => ?_) fun _ => ?_) fun _ => ?_
  · exact follows_putIdle still nofun rfl
  · exact follows_enterDischarging ..
  · exact follows_putIdle still nofun rfl
  · refine .before ?_ (loads_post ..)
    exact follows_putIdle still nofun rfl

theorem follows_runCheck {n : Fin 8} {s : State} (idle : (s.bay n).state ≠ .discharging) :
    Follows s (runCheck n s) := by
  unfold runCheck
  split
  · exact follows_actOnCheck idle ..
  · exact follows_setBay fun h => ⟨h.contactor, h.setpoint⟩

/-! ### The inert state -/

@[simp] theorem loads_setInert (st : InertState) (s : State) : (setInert st s).loads = s.loads := rfl
@[simp] theorem loads_noticeInert (s : State) : (noticeInert s).loads = s.loads := loads_notify ..
@[simp] theorem loads_changeInert (st : InertState) (s : State) : (changeInert st s).loads = s.loads := by
  unfold changeInert
  dsimp only
  rw [loads_noticeInert, loads_deliverInert]
  split <;> simp
@[simp] theorem loads_evalInert (s : State) : (evalInert s).loads = s.loads := by
  unfold evalInert
  split <;> simp
@[simp] theorem loads_checkPurgeTimeout (s : State) : (checkPurgeTimeout s).loads = s.loads := by
  unfold checkPurgeTimeout
  split
  · rfl
  · split
    · exact loads_post ..
    · rfl

/-! ### Lots -/

@[simp] theorem loads_noticeLot (j : Fin 8) (st : Option LotState) (k : Nat)
    (c : Option (Option Balance × Option Nat × Bool)) (s : State) : (noticeLot j st k c s).loads = s.loads :=
  loads_notify ..
@[simp] theorem loads_setShred (a : Option (Fin 8)) (w : Option Switch) (s : State) :
    (setShred a w s).loads = s.loads := by
  unfold setShred
  split
  · rfl
  · simp only [loads_notify, loads_deliverShred]; rfl
theorem loads_closeLot (j : Fin 8) (l : Lot) (s : State) : (closeLot j l s).loads = s.loads := by
  unfold closeLot
  dsimp only
  rw [loads_noticeLot, loads_setShred]
  split <;> simp
@[simp] theorem loads_testClosing (j : Fin 8) (s : State) : (testClosing j s).loads = s.loads := by
  unfold testClosing
  split
  · split
    · exact loads_closeLot ..
    · rfl
  · rfl
@[simp] theorem loads_reportTerminal (p : Pack) (s : State) : (reportTerminal p s).loads = s.loads := rfl

/-! ### Presence and frames -/

theorem follows_fireAbsentZone (z : Fin 8) (s : State) : Follows s (fireAbsentZone z s) :=
  .ite (fun _ => .same rfl) fun _ => follows_evalRelease z s

theorem follows_lineAbsentBay (n : Fin 8) (s : State) : Follows s (lineAbsentBay n s) :=
  .ite (fun _ => follows_pauseBay ..) fun _ => .refl s

theorem follows_deliverPresence (p : Port) (s : State) : Follows s (deliverPresence p s) := by
  cases p with
  | line =>
    refine .ite (fun _ => .same (loads_resumeLock s)) fun _ => ?_
    exact .onlyIf (Follows.foldl (fun t n => follows_lineAbsentBay n t) eight s) fun t => .same (loads_holdLock 2 t)
  | fire =>
    refine (Follows.same (loads_deliverFirePort s)).trans (.ite (fun _ => .refl _) fun _ => ?_)
    exact Follows.foldl (fun t z => follows_fireAbsentZone z t) eight _
  | custody => exact .refl s

theorem follows_touchPort (p : Port) (s : State) : Follows s (touchPort p s) := by
  refine .after (.ite (fun _ => .refl _) fun _ => ?_) (loads_setPort ..)
  exact .before (follows_deliverPresence ..) (loads_notify ..)

@[simp] theorem loads_countError (p : Port) (s : State) : (countError p s).loads = s.loads := by
  unfold countError
  dsimp only
  split <;> simp

theorem loads_discardFrame (p : Port) (s : State) : (discardFrame p s).loads = s.loads := by
  simp only [discardFrame, loads_setPort, loads_countError]

theorem follows_receiveFrame (p : Port) (f : Frame) (s : State) : Follows s (receiveFrame p f s) :=
  .ite (fun _ => .refl s) fun _ =>
    .ite (fun _ => .after (follows_touchPort ..) (loads_setPort ..)) fun _ =>
      .before (follows_touchPort p s) (loads_discardFrame ..)

end Sys2Proof.Machine
end

