-- ==== Sys2Proof/Proofs/LoadOwners.lean ====
section
/-! PROOFS, layer 11 continued. What the owners of the requests do to the contactors and setpoints of the bays (R47). -/

open Sys2Proof Sys2Proof.Machine

namespace Sys2Proof.Machine

/-! ### Replies -/

/-- A reply to a request found in `s`, where the site keeps its law, leaves the bays that kept the law of the contactors
in it. -/
structure FollowsReply (s : State) (r : Reply) : Prop where
  follows : SiteClauses s → Follows s r.st

namespace FollowsReply

variable {s t : State}

theorem refuse (k : Result) (s : State) : FollowsReply s (refuse k s) := ⟨fun _ => .refl s⟩

theorem reply (body : List Byte) (k : Follows s t) : FollowsReply s (reply t body) := ⟨fun _ => k⟩

/-- A reply that changes nothing the law reads. -/
theorem same (body : List Byte) (h : t.loads = s.loads) : FollowsReply s (Machine.reply t body) := ⟨fun _ => .same h⟩

theorem ite {c : Prop} [Decidable c] {q r : Reply} (hq : c → FollowsReply s q) (hr : ¬c → FollowsReply s r) :
    FollowsReply s (if c then q else r) := by
  split
  · exact hq ‹_›
  · exact hr ‹_›

/-- A check that refuses, before the rest of the owner's work. -/
theorem check {c : Prop} [Decidable c] {k : Result} {r : Reply} (h : ¬c → FollowsReply s r) :
    FollowsReply s (if c then Machine.refuse k s else r) := .ite (fun _ => .refuse k s) h

theorem withPack {index gen : Nat} {k : Handle → Pack → Reply}
    (h : ∀ d p, s.lookup d = some p → FollowsReply s (k d p)) : FollowsReply s (withPack index gen s k) := by
  unfold Machine.withPack
  split
  · exact .refuse ..
  · split
    · exact .refuse ..
    · exact h _ _ ‹_›

theorem withLot {lot : Nat} {k : Fin 8 → Reply} (h : ∀ j, FollowsReply s (k j)) : FollowsReply s (withLot lot s k) := by
  unfold Machine.withLot
  split
  · exact .refuse ..
  · exact h _

theorem withBay {bay : Nat} {k : Fin 8 → Reply} (h : ∀ n, FollowsReply s (k n)) : FollowsReply s (withBay bay s k) := by
  unfold Machine.withBay
  split
  · exact .refuse ..
  · exact h _

theorem withZone {zone : Nat} {k : Fin 8 → Reply} (h : ∀ z, FollowsReply s (k z)) :
    FollowsReply s (withZone zone s k) := by
  unfold Machine.withZone
  split
  · exact .refuse ..
  · exact h _

theorem guarded {code target g1 g2 : Nat} {owner : State → Reply} (h : FollowsReply s (owner s)) :
    FollowsReply s (guarded code target g1 g2 owner s) := .ite (fun _ => h) fun _ => .refuse ..

end FollowsReply

/-! ### Reads and ports -/

theorem follows_status (part : Nat) (s : State) : FollowsReply s (statusReply part s) := by
  unfold statusReply
  split <;> exact ⟨fun _ => .refl s⟩

theorem follows_readPack (index gen : Nat) (s : State) : FollowsReply s (readPackReply index gen s) :=
  .withPack fun _ _ _ => .same _ rfl

theorem follows_list (p : Port) (state lot : Option Nat) (s : State) : FollowsReply s (listReply p state lot s) := by
  unfold listReply
  split
  · exact .refuse ..
  · exact .same _ (loads_setPort ..)

theorem follows_cursor (p : Port) (index : Nat) (s : State) : FollowsReply s (cursorReply p index s) := by
  unfold cursorReply
  split
  · exact .refuse ..
  · exact .same _ (loads_setPort ..)

theorem follows_readBay (bay : Nat) (s : State) : FollowsReply s (readBayReply bay s) := by
  unfold readBayReply
  split <;> exact ⟨fun _ => .refl s⟩

theorem follows_readZone (zone : Nat) (s : State) : FollowsReply s (readZoneReply zone s) := by
  unfold readZoneReply
  split <;> exact ⟨fun _ => .refl s⟩

theorem follows_readLot (lot : Nat) (s : State) : FollowsReply s (readLotReply lot s) := by
  unfold readLotReply
  split
  · exact .refuse ..
  · split <;> exact ⟨fun _ => .refl s⟩

theorem follows_readBank (bank : Nat) (s : State) : FollowsReply s (readBankReply bank s) := by
  unfold readBankReply
  split <;> exact ⟨fun _ => .refl s⟩

theorem follows_readConfig (item index : Nat) (s : State) : FollowsReply s (readConfigReply item index s) := by
  unfold readConfigReply
  split <;> exact ⟨fun _ => .refl s⟩

theorem follows_fetch (p : Port) (s : State) : FollowsReply s (fetchReply p s) := .same _ (loads_setPort ..)

theorem follows_presence (p : Port) (seconds : Nat) (s : State) : FollowsReply s (presenceReply p seconds s) :=
  .same _ (loads_setPort ..)

theorem loads_clearBankState (k : BankId) (s : State) : (clearBankState k s).loads = s.loads :=
  (loads_deliverBanks _).trans (loads_notify ..)

theorem follows_clearBank (p : Port) (bank number : Nat) (s : State) :
    FollowsReply s (clearBankReply p bank number s) := by
  unfold clearBankReply
  split
  · exact .refuse ..
  · exact .check fun _ => .check fun _ => .ite (fun _ => .same _ rfl) fun _ =>
      .check fun _ => .same _ (loads_clearBankState ..)

theorem follows_enables (p : Port) (bank : Nat) (es : List Nat) (s : State) :
    FollowsReply s (enablesReply p bank es s) := by
  unfold enablesReply
  split
  · exact .refuse ..
  · split
    · exact .refuse ..
    · exact .check fun _ => .same _ rfl

/-! ### Classification -/

theorem follows_writeTreatment (index : Nat) (f : TreatmentFields) (s : State) :
    FollowsReply s (writeTreatmentReply index f s) := by
  unfold writeTreatmentReply
  split
  · exact .same _ rfl
  · exact .refuse ..

theorem follows_writeRange (index low high treatment enabled : Nat) (s : State) :
    FollowsReply s (writeRangeReply index low high treatment enabled s) := by
  unfold writeRangeReply
  split
  · exact .check fun _ => .same _ rfl
  · exact .refuse ..

theorem follows_writeSlotMap (fam treatment enabled : Nat) (s : State) :
    FollowsReply s (writeSlotMapReply fam treatment enabled s) := by
  unfold writeSlotMapReply
  split
  · exact .same _ rfl
  · exact .refuse ..

theorem follows_setMap (enable treatment : Nat) (s : State) : FollowsReply s (setMapReply enable treatment s) := by
  unfold setMapReply
  split
  · exact .same _ rfl
  · exact .refuse ..

theorem follows_curveBegin (curve : Nat) (s : State) : FollowsReply s (curveBeginReply curve s) := by
  unfold curveBeginReply
  split
  · exact .refuse ..
  · exact .check fun _ => .same _ rfl

theorem follows_curvePoint (curve voltage fraction : Nat) (s : State) :
    FollowsReply s (curvePointReply curve voltage fraction s) := by
  unfold curvePointReply
  split
  · exact .refuse ..
  · exact .check fun _ => .check fun _ => .check fun _ => .same _ rfl

/-- The checks that a curve wakes are those of RESTING bays (R40, R63). -/
theorem follows_wakeChecks (k : Fin 4) (s : State) : Follows s (wakeChecks k s) := by
  refine Follows.foldl (fun t n => .ite (fun waits => follows_runCheck ?_) fun _ => .refl t) eight s
  obtain ⟨resting, _⟩ := waitsFor_iff.1 waits
  rw [resting]
  exact nofun

theorem follows_judgeCurve (k : Fin 4) (points : List Point) (s : State) : Follows s (judgeCurve k points s) :=
  .ite (fun _ => .after (follows_wakeChecks ..) rfl) fun _ => .same (loads_post ..)

theorem follows_curveEnd (curve : Nat) (s : State) : FollowsReply s (curveEndReply curve s) := by
  unfold curveEndReply
  split
  · exact .refuse ..
  · exact .check fun _ => .reply _ (follows_judgeCurve ..)

/-! ### Fire Zone Controller -/

theorem follows_evalZones (old new : Option (Fin 8)) (detail : Nat) (s : State) :
    Follows s (evalZones old new detail s) := by
  unfold evalZones
  cases new with
  | none =>
    cases old with
    | none => exact .refl s
    | some z => exact .ite (fun _ => .refl s) fun _ => follows_evalZone ..
  | some w =>
    cases old with
    | none => exact follows_evalZone ..
    | some z => exact .ite (fun _ => follows_evalZone ..) fun _ => (follows_evalZone ..).trans (follows_evalZone ..)

theorem follows_writeDetector (detector zone kind : Nat) (s : State) :
    FollowsReply s (writeDetectorReply detector zone kind s) := by
  unfold writeDetectorReply
  split
  · exact .check fun _ => .reply _ (.after (follows_evalZones ..) rfl)
  · exact .refuse ..

theorem follows_writeFireTimes (dwell rearm : Nat) (s : State) : FollowsReply s (writeFireTimesReply dwell rearm s) :=
  .same _ rfl

theorem follows_writeZone (zone threshold delay : Nat) (s : State) :
    FollowsReply s (writeZoneReply zone threshold delay s) :=
  .withZone fun _ => .check fun _ => .reply _ (.after (follows_evalRelease ..) rfl)

theorem follows_setHold (z : Fin 8) (on : Bool) (s : State) : FollowsReply s (setHold z on s) :=
  .check fun _ => .ite (fun _ => .same _ rfl) fun _ => .same _ (loads_notify ..)

theorem follows_release (target : Nat) (s : State) : FollowsReply s (releaseReply target s) := by
  refine .withZone fun z => ?_
  split
  · exact .same _ rfl
  · exact .refuse ..
  · exact .reply _ (follows_enterReleased ..)

theorem follows_zoneReset (target : Nat) (s : State) : FollowsReply s (zoneResetReply target s) :=
  .withZone fun _ => .check fun _ => .check fun _ =>
    .reply _ (.after ((follows_changeZone ..).trans (follows_evalZone ..)) rfl)

theorem follows_isolate (zone : Nat) (s : State) : FollowsReply s (isolateReply zone s) :=
  .withZone fun _ => .check fun _ => .check fun _ => .reply _ (follows_changeZone ..)

theorem follows_restore (zone : Nat) (s : State) : FollowsReply s (restoreReply zone s) :=
  .withZone fun _ => .check fun _ => .reply _ ((follows_changeZone ..).trans (follows_evalZone ..))

/-! ### Atmosphere Monitor -/

theorem follows_inertStart (s : State) : FollowsReply s (inertStartReply s) :=
  .check fun _ => .same _ (loads_changeInert ..)

theorem follows_inertStop (s : State) : FollowsReply s (inertStopReply s) :=
  .check fun _ => .check fun _ => .same _ (loads_changeInert ..)

theorem follows_inertReset (target : Nat) (s : State) : FollowsReply s (inertResetReply target s) :=
  .check fun _ => .check fun _ => .check fun _ => .same _ (loads_changeInert ..)

theorem follows_writeInertLimits (purge run trip hold maxPurge : Nat) (s : State) :
    FollowsReply s (writeInertLimitsReply purge run trip hold maxPurge s) :=
  .check fun _ => .same _ ((loads_checkPurgeTimeout _).trans (loads_evalInert _))

/-! ### Pack Register -/

theorem follows_admitAt (i : Fin 256) (p : Pack) (s : State) : Follows s (admitAt i p s) := by
  unfold admitAt
  exact .after (follows_deliverPlaces ..) ((loads_setLot ..).trans (loads_noticePack ..))

theorem follows_admit (tag lot typeCode damaged mass nominal cells : Nat) (s : State) :
    FollowsReply s (admitReply tag lot typeCode damaged mass nominal cells s) := by
  unfold admitReply
  split
  · refine .check fun _ => .check fun _ => .check fun _ => ?_
    split
    · exact .refuse ..
    · exact .check fun _ => .reply _ (follows_admitAt ..)
  · exact .refuse ..

theorem follows_withdraw (index gen : Nat) (s : State) : FollowsReply s (withdrawReply index gen s) := by
  refine .withPack fun _ _ _ => .check fun _ => .check fun _ => .reply _ (.before ?_ (loads_testClosing ..))
  exact .after (follows_deliverPlaces ..) (loads_transition ..)

/-- A pack whose old bay, if it has one, is without load takes a bay (R50, R51). -/
theorem follows_placeInBay {p : Pack} {s : State} (idle : ∀ m, p.loc = .bay m → (s.bay m).state ≠ .discharging)
    (h : Handle) (n : Fin 8) (recheck : Bool) : Follows s (placeInBay h p n recheck s) := by
  have moved := loads_transition h.index { p with state := .loaded, loc := .bay n } s
  refine .trans (.trans (.after (follows_leaveLoc fun m hm => ?_) moved) (follows_occupyBay ..))
    (follows_deliverPlaces ..)
  rw [bay_of_loads moved]
  exact idle m hm

theorem follows_assign (index gen bay : Nat) (s : State) : FollowsReply s (assignReply index gen bay s) := by
  unfold assignReply
  split
  · exact .refuse ..
  case h_2 n _ =>
    refine .withPack fun _ p _ => .check fun ready => .check fun _ => .check fun _ => .reply _ ?_
    refine follows_placeInBay (fun m hm => ?_) ..
    have done : assignable s p n = true := by simpa using ready
    unfold assignable at done
    split at done
    case h_1 hl => exact nomatch hl.symm.trans hm
    case h_2 hl =>
      cases hl.symm.trans hm
      rw [(by simpa using done : m ≠ n ∧ (s.bay m).state = .done).2]
      exact nofun
    case h_3 => exact nomatch done

theorem follows_move (index gen dest : Nat) (s : State) : FollowsReply s (moveReply index gen dest s) := by
  unfold moveReply
  split
  · exact .refuse ..
  case h_2 d _ =>
    refine .withPack fun h p _ => .ite (fun _ => .same _ rfl) fun _ => .check fun lets => .check fun _ => .reply _ ?_
    have stored := loads_noticePack [.line] h.index (storePack h.index (movedPack p d) s)
    refine .trans (.after (follows_leaveLoc fun m hm => ?_) stored) (follows_deliverPlaces ..)
    have lets : bayLetsGo s p.loc = true := by simp_all
    rw [bay_of_loads stored]
    intro running
    have stays : (s.bay m).state = .discharging := running
    simp [bayLetsGo, hm, stays] at lets

theorem follows_quarantinePlace (h : Handle) (p : Pack) (s : State) : Follows s (quarantinePlace h p s) := by
  unfold quarantinePlace
  split
  · exact .ite (fun _ => follows_stopped nofun (setpoint_stopLoad ..)) fun _ => .refl s
  · exact .ite (fun _ => .same rfl) fun _ => .refl s

theorem follows_quarantine (index gen : Nat) (s : State) : FollowsReply s (quarantineReply index gen s) := by
  refine .withPack fun h p _ => ?_
  split
  case h_5 => exact .reply _ (.after (follows_quarantinePlace ..) (loads_quarantinePack ..))
  all_goals exact ⟨fun _ => .refl s⟩

/-! ### Lot Table -/

theorem follows_openLot (number : Nat) (s : State) : FollowsReply s (openLotReply number s) := by
  refine .check fun _ => .check fun _ => ?_
  split
  · exact .refuse ..
  · exact .same _ (loads_noticeLot ..)

theorem follows_closeLot (lot : Nat) (s : State) : FollowsReply s (closeLotReply lot s) := by
  refine .withLot fun j => ?_
  split
  · exact .refuse ..
  · exact .check fun _ => .same _ ((loads_testClosing ..).trans (loads_noticeLot ..))

theorem follows_releaseLot (lot : Nat) (s : State) : FollowsReply s (releaseLotReply lot s) := by
  refine .withLot fun j => ?_
  split
  · exact .refuse ..
  · exact .check fun _ => .same _ (loads_noticeLot ..)

theorem loads_finalWeight (j : Fin 8) (s : State) : (finalWeight j s).loads = s.loads :=
  (loads_testClosing ..).trans (loads_setShred ..)

theorem follows_outputWeight (lot mass final : Nat) (s : State) :
    FollowsReply s (outputWeightReply lot mass final s) := by
  unfold outputWeightReply
  split
  · refine .check fun _ => ?_
    split
    · exact .refuse ..
    · refine .check fun _ => .check fun _ => .check fun _ => .check fun _ => .reply _ ?_
      exact .onlyIf (.same rfl) fun t => .same (loads_finalWeight _ t)
  · exact .refuse ..

theorem follows_switch (lot : Nat) (s : State) : FollowsReply s (switchReply lot s) := by
  refine .withLot fun j => .check fun _ => .check fun _ => ?_
  split
  · exact .refuse ..
  · refine .check fun _ => .ite (fun _ => .same _ rfl) fun _ => ?_
    split <;> exact .same _ (loads_setShred ..)

theorem follows_cancel (s : State) : FollowsReply s (cancelReply s) := .check fun _ => .same _ (loads_setShred ..)

theorem follows_chamberClear (s : State) : FollowsReply s (chamberClearReply s) := by
  unfold chamberClearReply
  split
  · exact .refuse ..
  · exact .ite (fun _ => .same _ rfl) fun _ =>
      .ite (fun _ => .same _ (loads_setShred ..)) fun _ => .same _ (loads_setShred ..)

theorem follows_bounds (low high : Nat) (s : State) : FollowsReply s (boundsReply low high s) :=
  .check fun _ => .same _ rfl

/-! ### Feed Controller -/

theorem follows_refuseRecheck (i : Fin 256) (p : Pack) (s : State) : FollowsReply s (refuseRecheck i p s) :=
  ⟨fun _ => .same rfl⟩

theorem follows_enqueueState {n : Fin 8} {s : State} (idle : (s.bay n).state ≠ .discharging) (h : Handle) (p : Pack) :
    Follows s (enqueueState h p n s) := by
  unfold enqueueState
  extract_lets s1
  have queued : ({ s1 with feed.queue := s1.feed.queue ++ [h] } : State).loads = s.loads := loads_transition ..
  refine (Follows.after (follows_emptyBay ?_) queued).trans (follows_deliverPlaces ..)
  rw [bay_of_loads queued]
  exact idle

theorem follows_enqueue (index gen : Nat) (s : State) : FollowsReply s (enqueueReply index gen s) := by
  refine .withPack fun h p _ => ?_
  split
  · exact .refuse ..
  case h_2 n found =>
    refine .ite (fun _ => follows_refuseRecheck ..) fun _ => .check fun _ => .check fun _ => .reply _ ?_
    have done : (s.bay n).state = .done := by
      unfold doneBay at found
      split at found
      · split at found <;> simp_all
      · exact nomatch found
    refine follows_enqueueState ?_ ..
    rw [done]
    exact nofun

/-- A QUEUED pack stands in no bay (R4), so REMOVE empties none. -/
theorem follows_remove (index gen dest : Nat) (s : State) : FollowsReply s (removeReply index gen dest s) := by
  unfold removeReply
  split
  · exact .refuse ..
  · refine .withPack fun h p f => .check fun queued => ?_
    split
    · refine .check fun _ => .check fun _ => ⟨fun c => .after (follows_placeInBay (fun m hm => ?_) ..) rfl⟩
      have buffer := queued_in_buffer (c.placed _ p (pack_of_lookup f)) (not_not.1 queued)
      exact nomatch buffer.symm.trans hm
    · exact .check fun _ => .reply _ (.after (follows_deliverPlaces ..) (loads_transition ..))

theorem follows_feedState (h : Handle) (p : Pack) (s : State) : Follows s (feedState h p s) := by
  unfold feedState
  refine .after (follows_deliverPlaces ..) ((loads_setLock ..).trans ?_)
  rw [loads_transition]
  rfl

theorem follows_feed (index gen : Nat) (s : State) : FollowsReply s (feedReply index gen s) :=
  .withPack fun _ _ _ => .check fun _ => .check fun _ => .check fun _ => .check fun _ => .check fun _ =>
    .ite (fun _ => follows_refuseRecheck ..) fun _ => .check fun _ => .reply _ (follows_feedState ..)

theorem follows_lockClosed (s : State) : FollowsReply s (lockClosedReply s) :=
  .ite (fun _ => .same _ (loads_setLock ..)) fun _ => .refuse ..

theorem follows_return (index gen : Nat) (s : State) : FollowsReply s (returnReply index gen s) :=
  .withPack fun _ _ _ => .check fun _ => .check fun _ => .check fun _ => .check fun _ => .same _ (loads_setLock ..)

theorem follows_dropDone (index gen : Nat) (s : State) : FollowsReply s (dropDoneReply index gen s) := by
  refine .withPack fun _ _ _ => .check fun _ => .reply _ (.before ?_ (loads_testClosing ..))
  exact .after (follows_deliverPlaces ..) ((loads_setLock ..).trans (loads_transition ..))

theorem follows_requeue (h : Handle) (p : Pack) (s : State) : Follows s (requeue h p s) := by
  unfold requeue
  extract_lets s1
  exact .after (follows_deliverPlaces ..) ((loads_setLock ..).trans (loads_transition ..))

theorem follows_lockEmptied (s : State) : FollowsReply s (lockEmptiedReply s) := by
  unfold lockEmptiedReply
  dsimp only
  split
  · exact .refuse ..
  · refine .ite (fun _ => .reply _ ?_) fun _ => .ite (fun _ => .reply _ ?_) fun _ => .refuse ..
    · exact follows_requeue ..
    · exact .after (follows_deliverPlaces ..) ((loads_setLock ..).trans (loads_noticePack ..))

theorem follows_writeFeed (seconds : Nat) (s : State) : FollowsReply s (writeFeedReply seconds s) := .same _ rfl

/-! ### Bay Supervisor -/

theorem follows_bayReady {n : Fin 8} {s t : State} (k : Follows s t) : FollowsReply s (bayReady n s t) :=
  .check fun _ => .check fun _ => .reply _ k

theorem follows_start (bay : Nat) (s : State) : FollowsReply s (startReply bay s) := by
  refine .withBay fun n => .check fun loaded => follows_bayReady (.ite (fun _ => ?_) fun _ => ?_)
  · have pack := loads_onOccupant n (fun p => { p with state := .resting }) s
    refine .after (follows_putIdle ?_ nofun rfl) pack
    rw [bay_of_loads pack, not_not.1 loaded]
    exact nofun
  · exact .after (follows_enterDischarging ..) (loads_onOccupant ..)

theorem follows_pause (bay : Nat) (s : State) : FollowsReply s (pauseReply bay s) :=
  .withBay fun _ => .check fun _ => .reply _ (follows_pauseBay ..)

theorem state_enterDischarging (n : Fin 8) (ms : Nat) (s : State) :
    ((enterDischarging n ms s).bay n).state = .discharging := by
  rw [enterDischarging_eq, State.bay, vget_vset_same]
  rfl

theorem follows_resume (bay : Nat) (s : State) : FollowsReply s (resumeReply bay s) := by
  refine .withBay fun n => .check fun _ => follows_bayReady (.ite (fun _ => ?_) fun _ => ?_)
  · exact (follows_enterDischarging ..).trans (follows_takeBoundary (state_enterDischarging ..))
  · exact follows_enterDischarging ..

theorem follows_abort (bay : Nat) (s : State) : FollowsReply s (abortReply bay s) :=
  .withBay fun _ => .check fun _ => .reply _
    (.after (follows_stopped nofun (setpoint_stopLoad ..)) (loads_onOccupant ..))

theorem Bay.setSlot_state (b : Bay) (sl : SlotName) (x : Slot) : (b.setSlot sl x).state = b.state := by cases sl <;> rfl

theorem Bay.setSlot_setpoint (b : Bay) (sl : SlotName) (x : Slot) : (b.setSlot sl x).setpoint = b.setpoint := by
  cases sl <;> rfl

theorem Bay.setSlot_active (b : Bay) (sl : SlotName) (x : Slot) : (b.setSlot sl x).active = b.active := by
  cases sl <;> rfl

/-- A slot that is not the active one is staged (R52). -/
theorem Bay.activeSlot_setSlot_other {b : Bay} {sl : SlotName} (h : sl ≠ b.active) (x : Slot) :
    (b.setSlot sl x).activeSlot = b.activeSlot := by
  unfold Bay.activeSlot
  rw [Bay.setSlot_active]
  cases sl with
  | a =>
    cases e : b.active with
    | a => exact absurd e.symm h
    | b => rfl
  | b =>
    cases e : b.active with
    | a => rfl
    | b => exact absurd e.symm h

theorem state_followSlot (n : Fin 8) (s : State) : ((followSlot n s).bay n).state = (s.bay n).state := by
  rw [followSlot_eq, State.bay, vget_vset_same]
  rfl

/-- A bay written where the law does not look. -/
theorem Commanded.congr {v : Supervision} {b b' : Bay} (h : Commanded v b) (state : b'.state = b.state)
    (setpoint : b'.setpoint = b.setpoint) (slot : b'.activeSlot = b.activeSlot) : Commanded v b' :=
  ⟨by rw [state]; exact h.contactor, by rw [state, setpoint, slot]; exact h.setpoint⟩

/-- WRITE_SLOT: an active slot of a running segment moves the setpoint at once, any other write waits (R52, R54). -/
theorem follows_writeSlotState (n : Fin 8) (sl : SlotName) (x : Slot) (s : State) :
    Follows s (writeSlotState n sl x s) := by
  unfold writeSlotState
  extract_lets b s1
  have bay : s1.bay n = b.setSlot sl x := State.bay_setBay_same ..
  refine .ite (fun staged => ?_) fun _ => .ite (fun idle => ?_) fun running => ?_
  · refine .writeBay (b := { s1.bay n with pending := true }) rfl (vset_vset ..) rfl fun h => ?_
    rw [bay]
    exact h.congr (Bay.setSlot_state ..) (Bay.setSlot_setpoint ..) (Bay.activeSlot_setSlot_other staged x)
  · refine follows_setBay fun h => .idle ?_ (h.off idle).1 ?_
    · rw [Bay.setSlot_state]; exact idle
    · rw [Bay.setSlot_setpoint]; exact (h.off idle).2
  · have followed : Follows s (followSlot n s1) := by
      rw [followSlot_eq]
      refine .writeBay rfl (vset_vset ..) rfl fun h => .running ?_ (h.contactor.trans ?_) rfl
      · show (s1.bay n).state = .discharging
        rw [bay, Bay.setSlot_state]
        exact not_not.1 running
      · exact beq_iff_eq.2 (not_not.1 running)
    refine .ite (fun _ => followed.trans (follows_takeBoundary ?_)) fun _ => followed
    rw [state_followSlot, bay, Bay.setSlot_state]
    exact not_not.1 running

theorem follows_writeSlot (bay slot current stop segment : Nat) (s : State) :
    FollowsReply s (writeSlotReply bay slot current stop segment s) := by
  unfold writeSlotReply
  split
  · exact .check fun _ => .check fun _ => .reply _ (follows_writeSlotState ..)
  · exact .refuse ..

theorem clearedState_idle (n : Fin 8) (s : State) : clearedState n s ≠ .discharging := by
  unfold clearedState
  split
  · exact nofun
  · split <;> exact nofun

theorem follows_clearBay (bay : Nat) (s : State) : FollowsReply s (clearBayReply bay s) := by
  refine .withBay fun n => .check fun faulted => .check fun _ => .reply _ ?_
  have idle : (s.bay n).state ≠ .discharging := by rw [not_not.1 faulted]; exact nofun
  refine .ite (fun _ => ?_) fun _ => follows_emptyBay idle
  exact follows_putIdle idle (clearedState_idle n s) rfl

/-! ### LINE_RESTART -/

theorem loads_restartPack (i : Fin 256) (p : Pack) (s : State) : (restartPack i p s).loads = s.loads := by
  unfold restartPack
  split
  · exact loads_transition ..
  · exact loads_transition ..
  · rfl
  · rfl

theorem bayStateOf_idle (st : PackState) : bayStateOf st ≠ .discharging := by cases st <;> decide

theorem follows_restartBay (n : Fin 8) (s : State) : Follows s (restartBay n s) := by
  unfold restartBay
  split
  · refine .ite (fun faulted => follows_emptyBay ?_) fun _ => .refl s
    rw [faulted.1]
    exact nofun
  · refine .ite (fun faulted => follows_setBay fun h => ?_) fun _ => ?_
    · have idle : (s.bay n).state ≠ .discharging := by rw [faulted.1]; exact nofun
      exact .idle idle (h.off idle).1 (h.off idle).2
    · refine .after (follows_stopped ?_ (setpoint_stopLoad ..)) (loads_restartPack ..)
      exact bayStateOf_idle _

theorem loads_restartLock (s : State) : (restartLock s).loads = s.loads := by
  unfold restartLock
  split
  · exact loads_blockLock ..
  · exact loads_setLock ..

theorem loads_restartMonitor (s : State) : (restartMonitor s).loads = s.loads := by
  unfold restartMonitor
  split
  case h_4 => rfl
  all_goals exact loads_noticeInert _

theorem follows_restartLine (s : State) : Follows s (restartLine s) := by
  refine .before (Follows.foldl (fun t n => follows_restartBay n t) eight s) ?_
  exact (loads_evalPermit _).trans ((loads_setShred ..).trans ((loads_restartMonitor _).trans (loads_restartLock _)))

theorem follows_lineRestart (target : Nat) (s : State) : FollowsReply s (lineRestartReply target s) :=
  .check fun _ => .reply _ (follows_restartLine s)

/-! ### A request served -/

theorem follows_takeRequest {p : Port} {f : Frame} {owner : State → Reply} (h : ∀ s, FollowsReply s (owner s))
    {s : State} (c : SiteClauses s) : Follows s (takeRequest p f owner s) := by
  have touched : SiteClauses (touchPort p s) := ((keeps_touchPort p s).laws c).1
  have served : ∀ r, FollowsReply (touchPort p s) r → Follows s (respond p f r) := fun _ k =>
    .before ((follows_touchPort p s).trans (k.follows touched)) (loads_setPort ..)
  exact served _ (.ite (fun _ => h _) fun _ => .refuse ..)

theorem follows_serve {p : Port} {f : Frame} {owner : State → Reply} (h : ∀ s, FollowsReply s (owner s))
    {s : State} (c : SiteClauses s) : Follows s (serve p f owner s) := by
  refine .ite (fun _ => .refl s) fun _ => ?_
  split
  · exact .ite (fun _ => .refl s) fun _ => follows_takeRequest h c
  case h_2 rest _ =>
    have taken : SiteClauses (s.setPort p { s.port p with received := rest }) :=
      siteClauses_of_site (site_setPort ..) c
    exact .ite (fun _ => .after (follows_takeRequest h taken) (loads_setPort ..)) fun _ => follows_receiveFrame ..

end Sys2Proof.Machine
end

