-- ==== Sys2Proof/Proofs/ContactorLaw.lean ====
section
/-! PROOFS: a contactor is commanded on exactly in a DISCHARGING bay, and the setpoint follows it (R47), after every
command and every millisecond. -/

open Sys2Proof Sys2Proof.Machine

namespace Sys2Proof.Machine

/-! ### Samples and the bays' timers -/

/-- A bay written where the law does not look. -/
theorem follows_note {n : Fin 8} {b : Bay} {s : State} (state : b.state = (s.bay n).state)
    (setpoint : b.setpoint = (s.bay n).setpoint) (slot : b.activeSlot = (s.bay n).activeSlot) :
    Follows s (s.setBay n b) := follows_setBay fun h => h.congr state setpoint slot

theorem loads_quarantineOccupant (n : Fin 8) (cause : QuarantineCause) (s : State) :
    (quarantineOccupant n cause s).loads = s.loads := by
  unfold quarantineOccupant
  split
  · rfl
  · exact loads_quarantinePack ..

theorem follows_sampleFault {n : Fin 8} {pack : State → State} {s : State} (cause : FaultCause) (code : Code)
    (detail : Nat) (h : (pack s).loads = s.loads) : Follows s (sampleFault n cause pack code detail s) :=
  .before (.after (follows_faultBay ..) h) (loads_post ..)

/-- A bay whose load is stopped, whatever it was written before. -/
theorem follows_stoppedAfter {n : Fin 8} {b c : Bay} {s : State} (state : b.state ≠ .discharging)
    (zero : b.setpoint = 0) : Follows s (putBay n b (stopLoad n (s.setBay n c))) := by
  rw [putBay_eq, stopLoad_eq]
  exact .write rfl ((vset_vset ..).trans (vset_vset ..)) rfl fun _ =>
    .idle state (Supervision.setCommand_command ..) zero

/-- The stop voltage ends the load, whatever slot the segment leaves active (R59). -/
theorem follows_stopReached (n : Fin 8) (s : State) : Follows s (stopReached n s) := by
  unfold stopReached
  extract_lets s1 s2
  have packs : s1.loads = s.loads := loads_onOccupant ..
  have stopped : (s2.bay n).setpoint = 0 := setpoint_stopLoad ..
  exact .after (follows_stoppedAfter nofun stopped) packs

theorem follows_dischargeChecks (n : Fin 8) (p : Pack) (x : Sample) (s : State) : Follows s (dischargeChecks n p x s) :=
  .ite (fun _ => follows_sampleFault _ _ _ (loads_quarantineOccupant ..)) fun _ =>
    .ite (fun _ => follows_sampleFault _ _ _ (loads_quarantineOccupant ..)) fun _ =>
      .ite (fun _ => follows_sampleFault _ _ _ (loads_onOccupant ..)) fun _ =>
        .ite (fun _ => follows_stopReached n s) fun _ => .refl s

theorem resting_idle {b : Bay} (resting : b.state = .resting) : b.state ≠ .discharging := by
  rw [resting]
  exact nofun

theorem follows_restChecks (n : Fin 8) (p : Pack) (x : Sample) (s : State) : Follows s (restChecks n p x s) :=
  .ite (fun _ => follows_sampleFault _ _ _ (loads_quarantineOccupant ..)) fun _ =>
    .ite (fun _ => follows_sampleFault _ _ _ (loads_quarantineOccupant ..)) fun _ =>
      .ite (fun waits => follows_runCheck (resting_idle waits.1)) fun _ => .refl s

theorem follows_sampleChecks (n : Fin 8) (x : Sample) (s : State) : Follows s (sampleChecks n x s) := by
  unfold sampleChecks
  split
  · exact .refl s
  · split
    · exact follows_dischargeChecks ..
    · exact follows_restChecks ..
    · exact follows_restChecks ..
    · exact .refl s

theorem follows_integrateSample (n : Fin 8) (v : Nat) (i : Int) (interval : Nat) (k : SeqClass) (s : State) :
    Follows s (integrateSample n v i interval k s) := by
  unfold integrateSample
  split
  · exact .refl s
  · exact .after (follows_deliverPlaces ..) (loads_storePack ..)

theorem follows_tallyBay (n : Fin 8) (f : Tally → Tally) (s : State) : Follows s (tallyBay n f s) :=
  follows_note rfl rfl rfl

theorem follows_acceptSample (n : Fin 8) (k : SeqClass) (q : Nat) (x : Sample) (interval : Nat) (s : State) :
    Follows s (acceptSample n k q x interval s) := by
  unfold acceptSample
  extract_lets run _ s1 s2 _ s3
  have counted : Follows s s1 := follows_note rfl rfl rfl
  have integrated : Follows s s2 := counted.onlyIf (follows_integrateSample n x.voltage x.current interval k)
  have sampled : Follows s s3 := integrated.trans (follows_note rfl rfl rfl)
  exact (sampled.trans (follows_sampleChecks ..)).trans (follows_tallyBay ..)

theorem follows_takeSample (address q v : Nat) (i t : Int) (interval : Nat) (s : State) :
    Follows s (takeSample address q v i t interval s) := by
  unfold takeSample
  split
  · exact .refl s
  · refine .ite (fun _ => .refl s) fun _ => .ite (fun _ => follows_tallyBay ..) fun _ => ?_
    split
    · exact follows_tallyBay ..
    · exact follows_tallyBay ..
    · exact follows_acceptSample ..

theorem follows_sampleLost (n : Fin 8) (s : State) : Follows s (sampleLost n s) :=
  .before (follows_pauseBay ..) (loads_post ..)

/-- The rest timer ends in a RESTING bay (R62). -/
theorem follows_endRest {n : Fin 8} {s : State} (due : restDue s n = true) : Follows s (endRest n s) := by
  obtain ⟨resting, _⟩ := by simpa [restDue] using due
  have kept : ((s.setBay n { s.bay n with rest := none }).bay n).state ≠ .discharging := by
    rw [State.bay_setBay_same]
    exact resting_idle resting
  refine .trans ?_ (follows_runCheck kept)
  exact follows_note rfl rfl rfl

theorem follows_dropReference (n : Fin 8) (s : State) : Follows s (dropReference n s) := follows_note rfl rfl rfl

theorem follows_segmentEnd {n : Fin 8} {s : State} (due : segmentDue s n = true) : Follows s (takeBoundary n s) := by
  obtain ⟨running, _⟩ := by simpa [segmentDue] using due
  exact follows_takeBoundary running

/-! ### The field link -/

theorem loads_transmitLoadSet (s : State) : (transmitLoadSet s).loads = s.loads := by
  unfold transmitLoadSet
  split <;> rfl

theorem loads_refreshBay (n : Fin 8) (s : State) : (refreshBay n s).loads = s.loads := by
  unfold refreshBay
  split
  · dsimp only
    split <;> rfl
  · rfl

theorem follows_setReceiver (r : Receiver) (s : State) : Follows s { s with link.receiver := r } := .same rfl

theorem follows_onFieldLink {f : State → State} (h : ∀ s, Follows s (f s)) (s : State) : Follows s (onFieldLink f s) :=
  .ite (fun _ => .refl s) fun _ => h s

/-! ### Analyzers and detectors -/

theorem follows_judgeDiscrepancy (s : State) : Follows s (judgeDiscrepancy s) :=
  .ite (fun _ => .refl s) fun _ => .ite (fun _ => .same rfl) fun _ => .ite (fun _ => .refl s) fun _ =>
    .same (loads_post ..)

theorem follows_judgeLoss (k : AnalyzerId) (before : Nat) (s : State) : Follows s (judgeLoss k before s) :=
  .ite (fun _ => .same (loads_post ..)) fun _ => .refl s

theorem follows_setAtm (a : Atmosphere) (s : State) : Follows s { s with atm := a } := .same rfl

theorem follows_analyzerEvent (k : AnalyzerId) (x : Analyzer) (s : State) : Follows s (analyzerEvent k x s) := by
  refine .before (.trans ?_ (follows_setAtm ..)) (loads_evalInert _)
  exact ((follows_setAtm ..).trans (follows_judgeDiscrepancy _)).trans (follows_judgeLoss ..)

theorem follows_takeReading (address oxygen status : Nat) (s : State) :
    Follows s (takeReading address oxygen status s) := by
  unfold takeReading
  split
  · exact .ite (fun _ => .refl s) fun _ => follows_analyzerEvent ..
  · exact .refl s

theorem follows_handToZone (d : Fin 24) (s : State) : Follows s (handToZone d s) := by
  unfold handToZone
  split
  · exact .refl s
  · exact follows_evalZone ..

theorem loads_noticeDetector (d : Fin 24) (x : Detector) (s : State) : (noticeDetector d x s).loads = s.loads :=
  loads_notify ..

theorem follows_changeDetector (d : Fin 24) (x : Detector) (s : State) : Follows s (changeDetector d x s) := by
  refine .after (u := s.setDetector d x) (.ite (fun _ => .refl _) fun _ => .trans ?_ (follows_handToZone d _)) rfl
  refine .ite (fun _ => .same ((loads_noticeDetector ..).trans (loads_post ..))) fun _ => ?_
  exact .ite (fun _ => .same (loads_noticeDetector ..)) fun _ => .refl _

theorem follows_takeLine (d : Fin 24) (l : LineState) (s : State) : Follows s (takeLine d l s) :=
  .ite (fun _ => .refl s) fun _ => follows_changeDetector ..

/-! ### Read-backs -/

/-- A supervision context written with its command as it was. -/
theorem follows_setSup {o : Output} {v : Supervision} {s : State} (command : v.command = (s.sup o).command) :
    Follows s (s.setSup o v) := by
  refine ⟨State.setSup_run .., fun n h => ?_⟩
  have bay : (s.setSup o v).bay n = s.bay n := congrArg (vget · n) (State.setSup_bays ..)
  rw [bay]
  by_cases same : Output.contactor n = o
  · subst same
    rw [State.sup_setSup_same]
    exact ⟨command.trans h.contactor, h.setpoint⟩
  · rw [State.sup_setSup_other s same]
    exact h

theorem Supervision.onReadback_command (v : Supervision) (level : Bool) : (v.onReadback level).command = v.command := by
  unfold Supervision.onReadback
  dsimp only
  split
  · rfl
  · split
    · rfl
    · split <;> rfl

theorem follows_handReadback (o : Output) (level : Bool) (s : State) : Follows s (handReadback o level s) := by
  unfold handReadback
  split
  · exact .ite (fun _ => follows_note rfl rfl rfl) fun _ => .refl s
  · exact .refl s

theorem follows_takeReadback (o : Output) (level : Bool) (s : State) : Follows s (takeReadback o level s) :=
  .ite (fun _ => .refl s) fun _ =>
    (follows_setSup (Supervision.onReadback_command ..)).trans (follows_handReadback ..)

theorem loads_stuckPack (n : Fin 8) (s : State) : (stuckPack n s).loads = s.loads := by
  unfold stuckPack
  split
  · rfl
  · split
    · exact loads_transition ..
    · exact loads_transition ..
    · rfl
    · rfl

theorem follows_contactorStuck (n : Fin 8) (s : State) : Follows s (contactorStuck n s) :=
  .before (.after (follows_faultBay ..) (loads_stuckPack n s)) (loads_post ..)

theorem follows_contactorFailed (n : Fin 8) (s : State) : Follows s (contactorFailed n s) :=
  .before (follows_pauseBay ..) (loads_post ..)

theorem loads_gateMismatch (detail : Nat) (s : State) : (gateMismatch detail s).loads = s.loads :=
  (loads_evalPermit _).trans (loads_post ..)

theorem loads_lowerMismatch (detail : Nat) (s : State) : (lowerMismatch detail s).loads = s.loads := by
  unfold lowerMismatch
  dsimp only
  split
  · exact (loads_blockLock ..).trans (loads_gateMismatch ..)
  · exact loads_gateMismatch ..

theorem follows_reportMismatch (o : Output) (s : State) : Follows s (reportMismatch o s) := by
  unfold reportMismatch
  dsimp only
  split
  · exact .ite (fun _ => follows_contactorFailed ..) fun _ => follows_contactorStuck ..
  · exact .same ((loads_evalPermit _).trans (loads_post ..))
  · exact .same (loads_gateMismatch ..)
  · exact .same (loads_lowerMismatch ..)
  · exact .same (loads_post ..)
  · exact .same (loads_post ..)

theorem follows_endWindow (o : Output) (s : State) : Follows s (endWindow o s) := by
  refine .ite (fun _ => follows_setSup rfl) fun _ => .trans ?_ (follows_reportMismatch ..)
  exact follows_setSup rfl

theorem follows_endDisagreement (o : Output) (s : State) : Follows s (endDisagreement o s) := by
  refine .trans ?_ (follows_reportMismatch ..)
  exact follows_setSup rfl

/-! ### Station links -/

theorem follows_takeDiscard (p : Port) (why : FrameFault) (s : State) : Follows s (takeDiscard p why s) := by
  refine .ite (fun _ => .refl s) fun _ => ?_
  cases why with
  | overrun => exact .ite (fun _ => .refl s) fun _ => .before (follows_touchPort p s) (loads_discardFrame ..)
  | _ => exact .same (loads_discardFrame ..)

theorem follows_becomeAbsent (p : Port) (s : State) : Follows s (becomeAbsent p s) :=
  .after (follows_deliverPresence p _) ((loads_notify ..).trans ((loads_post ..).trans (loads_setPort ..)))

/-! ### Stop and hardware reset -/

theorem Outputs.afterReset_command (o : Outputs) (n : Fin 8) : (vget o.afterReset.contactors n).command = false :=
  congrArg Supervision.command (vget_vmap ..)

/-- A bay rebuilt from the records is without load (R76). -/
theorem resetBay_idle (packs : Vector Rec 256) (n : Fin 8) (closed : Bool) :
    (resetBay packs n closed).state ≠ .discharging ∧ (resetBay packs n closed).setpoint = 0 := by
  unfold resetBay
  split
  · exact ⟨nofun, rfl⟩
  · exact ⟨bayStateOf_idle _, rfl⟩

theorem contactorLaw_rebuild (s : State) : ContactorLaw (rebuild s) := by
  refine (contactorLaw_iff _).2 fun _ n => ?_
  obtain ⟨idle, zero⟩ := resetBay_idle s.packsAfterReset n (vget s.out.contactors n).readback
  rw [bay_rebuild]
  exact .idle idle (Outputs.afterReset_command s.out n) zero

theorem loads_deposit (p : Posting) (s : State) : (deposit p s).loads = s.loads := by
  unfold deposit
  dsimp only
  split <;> rfl

theorem loads_firstDeliveries (s : State) : (firstDeliveries s).loads = s.loads := rfl

theorem loads_resetUncertain (old : Vector Rec 256) (s : State) : (resetUncertain old s).loads = s.loads := by
  unfold resetUncertain
  split
  · split
    · exact loads_deposit ..
    · rfl
  · rfl

theorem Follows.contactorLaw {s t : State} (h : Follows s t) (law : ContactorLaw s) : ContactorLaw t := by
  rw [contactorLaw_iff] at law ⊢
  exact fun run n => h.bay n (law (h.run.symm.trans run) n)

theorem contactorLaw_hardwareReset (straps : Straps) (agrees : Bool) (s : State) :
    ContactorLaw (hardwareReset straps agrees s) := by
  have started : ∀ s t, t.loads = (rebuild s).loads → ContactorLaw (firstDeliveries t) := fun s t same =>
    (Follows.same ((loads_firstDeliveries t).trans same)).contactorLaw (contactorLaw_rebuild s)
  unfold hardwareReset
  split
  · exact started _ _ (loads_resetUncertain ..)
  · exact started _ _ (loads_deposit ..)

/-! ### Commands and time -/

theorem follows_whenRunning {f : State → State} (h : ∀ s, Follows s (f s)) (s : State) :
    Follows s (whenRunning f s) := .ite (fun _ => h s) fun _ => .refl s

/-- An outcome after which the law of the contactors stands, where it and the site's law stood before. -/
def Contacts (o : Host.Outcome State Fault Refusal) (s : State) : Prop :=
  ∃ t, o = .next t ∧ (SiteClauses s → ContactorLaw s → ContactorLaw t)

theorem contacts_of_follows {s t : State} (h : Follows s t) : Contacts (.next t) s :=
  ⟨t, rfl, fun _ => h.contactorLaw⟩

theorem contacts_request {p : Port} {f : Frame} {owner : State → Reply} (h : ∀ s, FollowsReply s (owner s))
    (s : State) : Contacts (.next (serve p f owner s)) s :=
  ⟨_, rfl, fun c => (follows_serve h c).contactorLaw⟩

theorem contacts_event {f : State → State} (h : ∀ s, Follows s (f s)) (s : State) :
    Contacts (.next (whenRunning f s)) s := contacts_of_follows (follows_whenRunning h s)

/-- An event of the running part that is carried out where it is due. -/
theorem contacts_dueEvent {c : State → Prop} [∀ s, Decidable (c s)] {f : State → State}
    (h : ∀ s, c s → Follows s (f s)) (s : State) :
    Contacts (.next (whenRunning (fun s => if c s then f s else s) s)) s :=
  contacts_event (fun s => .ite (h s) fun _ => .refl s) s

theorem follows_advance (s : State) : Follows s (advance s) := by
  refine ⟨rfl, fun n h => ?_⟩
  have bay : (advance s).bay n = (s.bay n).tick := vget_vmap ..
  have contactor : (advance s).sup (.contactor n) = (s.sup (.contactor n)).tick := vget_vmap ..
  rw [bay, contactor]
  exact ⟨h.contactor, h.setpoint⟩

theorem follows_unreadReply (p : Port) (f : Frame) (s : State) : Follows s (respond p f (unreadReply p f s)) := by
  refine .same ((loads_setPort ..).trans ?_)
  unfold unreadReply
  split <;> rfl

theorem follows_answerUnread (p : Port) (s : State) : Follows s (answerUnread p s) := by
  unfold answerUnread
  split
  · exact .refl s
  · split
    · exact .refl s
    · exact (Follows.after (follows_touchPort ..) (loads_setPort ..)).trans (follows_unreadReply ..)

theorem follows_setPending (l : List Instr) (s : State) : Follows s { s with pending := l } := .same rfl

theorem follows_tick (s : State) : Follows s (tick s) := by
  refine .ite (fun _ => .trans (.trans (follows_advance s) ?_) (follows_setPending ..)) fun _ => .refl s
  exact Follows.foldl (fun t p => follows_answerUnread p t) allPorts _

theorem contacts_exec (i : Instr) (s : State) : Contacts (exec i s) s := by
  cases i with
  | hardwareReset straps agrees => exact ⟨_, rfl, fun _ _ => contactorLaw_hardwareReset straps agrees s⟩
  | mainSupplyLoss cause => exact ⟨_, rfl, fun _ _ running => nomatch running⟩
  | stationFrameValid p seq code body => exact contacts_event (follows_receiveFrame p _) s
  | stationFrameDiscard p why => exact contacts_event (follows_takeDiscard p why) s
  | stationLineIdleTimeout p =>
    exact contacts_event (fun s => .ite (fun _ => .refl s) fun _ => .same (loads_countError p s)) s
  | stationPortHuntsAgain p => exact contacts_event (fun s => .same (loads_setPort ..)) s
  | presenceTimerExpiry p => exact contacts_dueEvent (fun s _ => follows_becomeAbsent p s) s
  | readStatus p seq part => exact contacts_request (follows_status part) s
  | readPack p seq index gen => exact contacts_request (follows_readPack index gen) s
  | listPacks p seq state lot => exact contacts_request (follows_list p state lot) s
  | setCursor p seq index => exact contacts_request (follows_cursor p index) s
  | readBay p seq bay => exact contacts_request (follows_readBay bay) s
  | readZone p seq zone => exact contacts_request (follows_readZone zone) s
  | readLot p seq lot => exact contacts_request (follows_readLot lot) s
  | readBank p seq bank => exact contacts_request (follows_readBank bank) s
  | readConfig p seq item index => exact contacts_request (follows_readConfig item index) s
  | fetchNotices p seq => exact contacts_request (follows_fetch p) s
  | setPresenceTime p seq seconds => exact contacts_request (follows_presence p seconds) s
  | clearBank p seq bank number => exact contacts_request (follows_clearBank p bank number) s
  | setReportEnables p seq bank enables => exact contacts_request (follows_enables p bank enables) s
  | admitPack p seq tag lot typeCode damaged mass nominal cells =>
    exact contacts_request (follows_admit tag lot typeCode damaged mass nominal cells) s
  | withdraw p seq index gen => exact contacts_request (follows_withdraw index gen) s
  | openLot p seq number => exact contacts_request (follows_openLot number) s
  | closeLot p seq lot => exact contacts_request (follows_closeLot lot) s
  | releaseLot p seq lot => exact contacts_request (follows_releaseLot lot) s
  | outputWeight p seq lot mass final => exact contacts_request (follows_outputWeight lot mass final) s
  | switchShredLot p seq lot => exact contacts_request (follows_switch lot) s
  | cancelSwitch p seq => exact contacts_request follows_cancel s
  | setRecoveryBounds p seq low high => exact contacts_request (follows_bounds low high) s
  | assign p seq index gen bay => exact contacts_request (follows_assign index gen bay) s
  | move p seq index gen dest => exact contacts_request (follows_move index gen dest) s
  | quarantine p seq index gen => exact contacts_request (follows_quarantine index gen) s
  | start p seq bay => exact contacts_request (follows_start bay) s
  | pause p seq bay => exact contacts_request (follows_pause bay) s
  | resume p seq bay => exact contacts_request (follows_resume bay) s
  | abort p seq bay => exact contacts_request (follows_abort bay) s
  | writeSlot p seq bay slot current stop segment =>
    exact contacts_request (follows_writeSlot bay slot current stop segment) s
  | clearBay p seq bay => exact contacts_request (follows_clearBay bay) s
  | enqueue p seq index gen => exact contacts_request (follows_enqueue index gen) s
  | remove p seq index gen dest => exact contacts_request (follows_remove index gen dest) s
  | feed p seq index gen => exact contacts_request (follows_feed index gen) s
  | lockClosed p seq => exact contacts_request follows_lockClosed s
  | returnPack p seq index gen => exact contacts_request (follows_return index gen) s
  | dropDone p seq index gen => exact contacts_request (follows_dropDone index gen) s
  | lockEmptied p seq => exact contacts_request follows_lockEmptied s
  | chamberClear p seq => exact contacts_request follows_chamberClear s
  | inertStart p seq => exact contacts_request follows_inertStart s
  | inertStop p seq => exact contacts_request follows_inertStop s
  | writeFeed p seq seconds => exact contacts_request (follows_writeFeed seconds) s
  | writeTreatment p seq index fields => exact contacts_request (follows_writeTreatment index fields) s
  | writeRange p seq index low high treatment enabled =>
    exact contacts_request (follows_writeRange index low high treatment enabled) s
  | writeSlotMap p seq family treatment enabled =>
    exact contacts_request (follows_writeSlotMap family treatment enabled) s
  | setMap p seq enable treatment => exact contacts_request (follows_setMap enable treatment) s
  | curveBegin p seq curve => exact contacts_request (follows_curveBegin curve) s
  | curvePoint p seq curve voltage fraction => exact contacts_request (follows_curvePoint curve voltage fraction) s
  | curveEnd p seq curve => exact contacts_request (follows_curveEnd curve) s
  | lineRestart p seq target g1 g2 => exact contacts_request (fun s => .guarded (follows_lineRestart target s)) s
  | writeDetector p seq detector zone kind => exact contacts_request (follows_writeDetector detector zone kind) s
  | writeFireTimes p seq dwell rearm => exact contacts_request (follows_writeFireTimes dwell rearm) s
  | writeZone p seq zone threshold delay => exact contacts_request (follows_writeZone zone threshold delay) s
  | hold p seq zone => exact contacts_request (fun s => .withZone fun z => follows_setHold z true s) s
  | holdEnd p seq zone => exact contacts_request (fun s => .withZone fun z => follows_setHold z false s) s
  | release p seq target g1 g2 => exact contacts_request (fun s => .guarded (follows_release target s)) s
  | zoneReset p seq target g1 g2 => exact contacts_request (fun s => .guarded (follows_zoneReset target s)) s
  | isolateZone p seq zone => exact contacts_request (follows_isolate zone) s
  | restoreZone p seq zone => exact contacts_request (follows_restore zone) s
  | inertReset p seq target g1 g2 => exact contacts_request (fun s => .guarded (follows_inertReset target s)) s
  | writeInertLimits p seq purge run trip hold maxPurge =>
    exact contacts_request (follows_writeInertLimits purge run trip hold maxPurge) s
  | baySample address sequence voltage current temperature interval =>
    exact contacts_event
      (follows_onFieldLink (follows_takeSample address sequence voltage current temperature interval)) s
  | analyzerReading address oxygen status =>
    exact contacts_event (fun s => .ite (fun _ => .refl s) fun _ => follows_takeReading ..) s
  | fieldFrameDiscard why => exact contacts_event (follows_onFieldLink fun s => follows_setReceiver _ s) s
  | fieldLinkHuntsAgain => exact contacts_event (follows_setReceiver .hunting) s
  | loadSetTransmit => exact contacts_event (fun s => .same (loads_transmitLoadSet s)) s
  | loadSetRefreshExpiry bay => exact contacts_event (fun s => .same (loads_refreshBay bay s)) s
  | segmentTimerExpiry bay => exact contacts_dueEvent (fun _ due => follows_segmentEnd due) s
  | sampleLoss bay => exact contacts_dueEvent (fun s _ => follows_sampleLost bay s) s
  | overCurrentReferenceDrop bay => exact contacts_dueEvent (fun s _ => follows_dropReference bay s) s
  | restTimerExpiry bay => exact contacts_dueEvent (fun _ due => follows_endRest due) s
  | analyzerAgeExpiry analyzer => exact contacts_dueEvent (fun s _ => follows_analyzerEvent analyzer _ s) s
  | purgeTimeout => exact contacts_event (fun s => .same (loads_checkPurgeTimeout s)) s
  | holdTimerExpiry => exact contacts_dueEvent (fun s _ => .same (loads_changeInert .inert s)) s
  | lockPurgeTimerExpiry => exact contacts_dueEvent (fun s _ => .same (loads_setLock _ s)) s
  | detectorLineChange detector line =>
    exact contacts_of_follows (.ite (fun _ => follows_takeLine ..) fun _ => .same (loads_setDetector ..))
  | detectorDwellExpiry detector => exact contacts_dueEvent (fun s _ => follows_changeDetector detector _ s) s
  | faultDwellExpiry detector => exact contacts_dueEvent (fun s _ => follows_changeDetector detector _ s) s
  | rearmExpiry detector => exact contacts_dueEvent (fun s _ => follows_changeDetector detector _ s) s
  | recoveryTimerExpiry detector => exact contacts_dueEvent (fun s _ => follows_changeDetector detector _ s) s
  | releaseTimerExpiry zone => exact contacts_dueEvent (fun s _ => follows_enterReleased zone 1 s) s
  | readbackChange output level =>
    exact contacts_of_follows (.ite (fun _ => follows_takeReadback ..) fun _ => follows_setSup rfl)
  | readbackWindowExpiry output => exact contacts_dueEvent (fun s _ => follows_endWindow output s) s
  | disagreementTimerExpiry output => exact contacts_dueEvent (fun s _ => follows_endDisagreement output s) s

end Sys2Proof.Machine

/-- Settles O9: every command and every millisecond keeps the law, operation by operation. The site's law is needed
where REMOVE takes a bay: a QUEUED pack leaves none behind. -/
theorem contactorLawKept : Obligations.ContactorLawKept := by
  intro s t site law h
  have clauses : SiteClauses s := (siteLaw_iff s).1 site
  unfold step at h
  split at h
  case h_1 c rest _ =>
    obtain ⟨u, e, kept⟩ := contacts_exec c { s with pending := rest }
    rw [e] at h
    cases h
    exact kept (siteClauses_of_site (s := s) rfl clauses) law
  case h_2 =>
    cases h
    exact (follows_tick s).contactorLaw law

end

