-- ==== Sys2Proof/Proofs/BayRequests.lean ====
section
/-! PROOFS: PAUSE, RESUME, ABORT, WRITE_SLOT and CLEAR_BAY (chapter 03). -/

open Sys2Proof Sys2Proof.Machine

namespace Sys2Proof.Machine

/-! ### PAUSE, RESUME and ABORT -/

theorem pauseReply_eq (n : Fin 8) (u : State) : pauseReply (n.1 + 1) u =
    if (u.bay n).state ≠ .discharging then refuse .wrongState u else reply (pauseBay n .line u) [] := by
  simp only [pauseReply, withBay, index1_succ]

theorem resumeReply_eq (n : Fin 8) (u : State) : resumeReply (n.1 + 1) u =
    if (u.bay n).state ≠ .paused then refuse .wrongState u
    else if (u.zone (bayZone n)).state ≠ .normal then refuse .frozen u
    else if (u.bay n).fresh u.clock = false then refuse .notPermitted u
    else reply (resumeState n u) [] := by
  simp only [resumeReply, withBay, index1_succ, bayReady, Bool.not_eq_true']

theorem abortReply_eq (n : Fin 8) (u : State) : abortReply (n.1 + 1) u =
    if (u.bay n).integrates = false then refuse .wrongState u else reply (abortState n u) [] := by
  simp only [abortReply, withBay, index1_succ, Bool.not_eq_true']

theorem Bay.integrates_iff (b : Bay) :
    b.integrates = true ↔ b.state = .discharging ∨ b.state = .resting ∨ b.state = .paused := by
  unfold Bay.integrates
  cases b.state <;> simp

/-- A bay that starts and takes a boundary at once: the reference stays at the slot it started with, where that is the
higher one (R53, R58). -/
theorem Bay.started_boundary (b : Bay) (ms clock : Nat) :
    let ma := b.activeSlot.current
    let next := b.swapSlot.activeSlot.current
    (b.started ms).boundary clock =
      { b.swapSlot with
        state := .discharging, pauseCause := none, elapsed := 0
        setpoint := next
        overRef := max ma next
        overEnd := if next < ma then some (clock + 1000) else none } := by
  have reference : ∀ ma next : Nat, max ma next = if ma < next then next else ma := by
    intro ma next
    split <;> omega
  have dropping : ∀ ma next : Nat, (if next < ma then some (clock + 1000) else none) =
      if ma < next then none else if next < ma then some (clock + 1000) else none := by
    intro ma next
    split
    · rw [if_neg (by omega)]
    · rw [ite_self]
  intro ma next
  rw [reference ma next, dropping ma next, Bay.boundary, Bay.followed]
  simp only [ma, next, Bay.swapSlot_eq]
  rfl

theorem resumeState_running {n : Fin 8} {s : State} (runs : (s.bay n).segmentOver = false) :
    resumeState n s = enterDischarging n (s.bay n).elapsed s := by
  unfold resumeState
  rw [if_neg]
  rw [enterDischarging_eq, State.bay, vget_vset_same]
  exact ne_true_of_eq_false runs

theorem Bay.boundary_eq (b : Bay) (clock : Nat) : b.boundary clock =
    ({ b with active := if b.pending then b.active.other else b.active, pending := false, elapsed := 0 } : Bay).followed
      clock := by
  rw [Bay.boundary, Bay.swapSlot_eq]

theorem Bay.started_swapSlot_current (b : Bay) (ms : Nat) :
    (b.started ms).swapSlot.activeSlot.current = b.swapSlot.activeSlot.current := by
  simp only [Bay.swapSlot_eq]
  rfl

theorem resumeState_over {n : Fin 8} {s : State} (ended : (s.bay n).segmentOver = true) :
    let b := s.bay n
    let ma := b.activeSlot.current
    resumeState n s =
      { s with
        bays := vset s.bays n ((b.started b.elapsed).boundary s.clock)
        out := s.out.contactorTo n true
        link := (s.link.setpointTo n b.setpoint ma).setpointTo n ma b.swapSlot.activeSlot.current
        ports := bayTold n b.state (b.started b.elapsed) s.now s.ports } := by
  intro b ma
  have running : ((enterDischarging n b.elapsed s).bay n).segmentOver = true := by
    rw [enterDischarging_eq, State.bay, vget_vset_same]
    exact ended
  unfold resumeState
  rw [if_pos running, takeBoundary_eq, enterDischarging_eq]
  simp only [State.bay, vget_vset_same, vset_vset, Bay.started_swapSlot_current]
  rfl

/-- ABORT on a counted live occupant (R69). -/
theorem abortState_eq {n : Fin 8} {i : Fin 256} {p : Pack} {s : State} (occ : s.occupantPack n = some (i, p))
    (live : p.state.terminal = false) (c : Counted p s) :
    let b := ((s.bay n).unloaded (s.sup (.contactor n))).cleared .loaded
    let y : Pack := { p with state := .loaded }
    abortState n s =
      { s with
        packs := vset s.packs i ⟨(s.record i).gen, some y⟩
        bays := vset s.bays n b
        out := s.out.contactorTo n false
        link := s.link.setpointTo n (s.bay n).setpoint 0
        ports := bayTold n (s.bay n).state b s.now (packTold [.line] (s.handle i) y s.now s.ports) } := by
  intro b y
  obtain ⟨_, f⟩ := occupantPack_eq_some.1 occ
  have stored : onOccupant n (fun p => { p with state := .loaded }) s = _ :=
    (onOccupant_eq occ).trans (transition_counted (p := y) f c live rfl rfl rfl rfl)
  unfold abortState
  rw [putBay_eq, stopLoad_eq, stored]
  simp only [State.bay, vget_vset_same, vset_vset]
  rfl

end Sys2Proof.Machine

theorem pauseInterruptsTheSegment : Claim.PauseInterruptsTheSegment := by
  intro q n s r u b c
  refine ⟨fun idle => ?_, fun running => ?_⟩
  · exact served_refused rfl r rfl rfl ((pauseReply_eq n u).trans (if_pos idle)) (by decide)
  · have ok : pauseReply (n.1 + 1) u = reply (pauseBay n .line u) [] :=
      (pauseReply_eq n u).trans (if_neg (not_not.2 running))
    refine ⟨_, served_ok rfl r rfl rfl ok, answers_answered .., ?_⟩
    rw [answered_eq, pauseBay_eq]
    exact ⟨portsQuiet_iff.2 (by simp), rfl⟩

theorem resumeContinuesTheSegment : Claim.ResumeContinuesTheSegment := by
  intro q n s r u b ma paused zone fresh c
  have ok : resumeReply (n.1 + 1) u = reply (resumeState n u) [] := by
    rw [resumeReply_eq]
    simp only [b] at paused fresh
    simp [paused, zone, fresh]
  have only : ∀ x, OnlyBay n u { u with bays := vset u.bays n x } := fun x m hm => vget_vset_other _ hm _
  refine ⟨_, served_ok rfl r rfl rfl ok, answers_answered .., ?_⟩
  rw [answered_eq]
  cases ended : b.segmentOver with
  | false =>
    rw [resumeState_running ended, enterDischarging_eq]
    refine ⟨portsQuiet_iff.2 (by simp), only _, rfl, fun _ => ⟨vget_vset_same .., rfl⟩, nofun⟩
  | true =>
    rw [resumeState_over ended]
    refine ⟨portsQuiet_iff.2 (by simp), only _, rfl, nofun, fun _ => ⟨?_, rfl⟩⟩
    exact (vget_vset_same ..).trans (Bay.started_boundary ..)

theorem abortReturnsToLoaded : Claim.AbortReturnsToLoaded := by
  intro q n s i x r u b c
  refine ⟨fun discharging resting paused => ?_, fun works occ live counted => ?_⟩
  · have idle : (u.bay n).integrates = false := by
      refine Bool.eq_false_iff.2 fun works => ?_
      rcases (Bay.integrates_iff _).1 works with h | h | h
      · exact discharging h
      · exact resting h
      · exact paused h
    exact served_refused rfl r rfl rfl ((abortReply_eq n u).trans (if_pos idle)) (by decide)
  · have busy : ¬(u.bay n).integrates = false := by
      rw [(Bay.integrates_iff _).2 works]
      exact nofun
    have ok : abortReply (n.1 + 1) u = reply (abortState n u) [] := (abortReply_eq n u).trans (if_neg busy)
    refine ⟨_, served_ok rfl r rfl rfl ok, answers_answered .., ?_⟩
    rw [answered_eq, abortState_eq occ live counted]
    exact ⟨portsQuiet_iff.2 (by simp), rfl⟩

/-- Settles O24: each request's check, then the bay's load stopped or started again. -/
theorem pauseResumeAbort : Obligations.PauseResumeAbort :=
  ⟨pauseInterruptsTheSegment, resumeContinuesTheSegment, abortReturnsToLoaded⟩

namespace Sys2Proof.Machine

/-! ### WRITE_SLOT -/

theorem writeSlotReply_eq {n : Fin 8} {k current stop segment : Nat} {sl : SlotName} {u : State}
    (slot : slotOfNumber k = some sl) (low : 1000 ≤ current) (high : current ≤ 400000) (stopLow : 1500 ≤ stop)
    (stopHigh : stop ≤ 4500) :
    let x : Slot := ⟨current, stop, clamp 10 3600 segment, true⟩
    writeSlotReply (n.1 + 1) k current stop segment u =
      if (u.bay n).steerable = false then refuse .wrongState u else reply (writeSlotState n sl x u) (wSlot x) := by
  have ranges : ¬(current < 1000 ∨ 400000 < current ∨ stop < 1500 ∨ 4500 < stop) := by omega
  simp only [writeSlotReply, index1_succ, slot, if_neg ranges, Bool.not_eq_true']

theorem writeSlotState_staged {n : Fin 8} {sl : SlotName} {s : State} (staged : sl ≠ (s.bay n).active) (x : Slot) :
    writeSlotState n sl x s = s.setBay n { (s.bay n).setSlot sl x with pending := true } := by
  simp only [writeSlotState, if_pos staged, State.bay_setBay_same]
  simp only [State.setBay, vset_vset]

theorem writeSlotState_idle {n : Fin 8} {sl : SlotName} {s : State} (direct : sl = (s.bay n).active)
    (idle : (s.bay n).state ≠ .discharging) (x : Slot) :
    writeSlotState n sl x s = s.setBay n ((s.bay n).setSlot sl x) := by
  simp only [writeSlotState, if_neg (not_not.2 direct), if_pos idle]

theorem Bay.setSlot_pending (b : Bay) (sl : SlotName) (x : Slot) : (b.setSlot sl x).pending = b.pending := by
  cases sl <;> rfl

theorem Bay.setSlot_elapsed (b : Bay) (sl : SlotName) (x : Slot) : (b.setSlot sl x).elapsed = b.elapsed := by
  cases sl <;> rfl

theorem Bay.activeSlot_setSlot_same {b : Bay} {sl : SlotName} (h : sl = b.active) (x : Slot) :
    (b.setSlot sl x).activeSlot = x := by
  unfold Bay.activeSlot
  rw [Bay.setSlot_active, ← h]
  cases sl <;> rfl

/-- The setpoint follows an active slot that is written (R54). -/
theorem followSlot_setSlot {n : Fin 8} {sl : SlotName} {s : State} {x : Slot} (direct : sl = (s.bay n).active) :
    followSlot n (s.setBay n ((s.bay n).setSlot sl x)) =
      { s with
        bays := vset s.bays n (((s.bay n).setSlot sl x).followed s.clock)
        link := s.link.setpointTo n (s.bay n).setpoint x.current } := by
  rw [followSlot_eq, State.bay_setBay_same, Bay.setSlot_setpoint, Bay.activeSlot_setSlot_same direct]
  simp only [State.setBay, vset_vset]

/-- A running segment whose slot is written goes on with it, where it is not over (R54). -/
theorem writeSlotState_runs {n : Fin 8} {sl : SlotName} {s : State} {x : Slot} (direct : sl = (s.bay n).active)
    (running : (s.bay n).state = .discharging) (runs : ((s.bay n).setSlot sl x).segmentOver = false) :
    writeSlotState n sl x s =
      { s with
        bays := vset s.bays n (((s.bay n).setSlot sl x).followed s.clock)
        link := s.link.setpointTo n (s.bay n).setpoint x.current } := by
  simp only [writeSlotState, if_neg (not_not.2 direct), if_neg (not_not.2 running), State.bay_setBay_same, runs]
  exact followSlot_setSlot direct

/-- One whose slot leaves it over takes its boundary at once (R54, R55). -/
theorem writeSlotState_over {n : Fin 8} {sl : SlotName} {s : State} {x : Slot} (direct : sl = (s.bay n).active)
    (running : (s.bay n).state = .discharging) (ended : ((s.bay n).setSlot sl x).segmentOver = true) :
    let w := ((s.bay n).setSlot sl x).followed s.clock
    writeSlotState n sl x s =
      { s with
        bays := vset s.bays n (w.boundary s.clock)
        link := (s.link.setpointTo n (s.bay n).setpoint x.current).setpointTo n w.setpoint
          w.swapSlot.activeSlot.current } := by
  intro w
  simp only [writeSlotState, if_neg (not_not.2 direct), if_neg (not_not.2 running), State.bay_setBay_same, ended,
    if_true]
  rw [takeBoundary_eq, followSlot_setSlot direct]
  simp only [State.bay, vget_vset_same, vset_vset]
  rfl

/-! ### CLEAR_BAY -/

theorem clearBayReply_eq (n : Fin 8) (u : State) : clearBayReply (n.1 + 1) u =
    if (u.bay n).state ≠ .faulted then refuse .wrongState u
    else if (u.sup (.contactor n)).readback = true then refuse .notPermitted u
    else reply (clearBayState n u) [] := by
  simp only [clearBayReply, withBay, index1_succ]

/-- The bay as CLEAR_BAY leaves it: emptied, or LOADED or DONE by its occupant (R71). -/
def State.clearedBay (s : State) (n : Fin 8) : Bay :=
  if (s.bay n).occupied then { s.bay n with state := clearedState n s, faultCause := none } else (s.bay n).emptied

theorem clearBayState_eq (n : Fin 8) (s : State) : clearBayState n s =
    { s with
      bays := vset s.bays n (s.clearedBay n)
      ports := bayTold n (s.bay n).state (s.clearedBay n) s.now s.ports } := by
  unfold clearBayState State.clearedBay
  split
  · rw [putBay_eq]
  · rw [emptyBay_eq]

theorem clearedBay_vacant {s : State} {n : Fin 8} (vacant : (s.bay n).occupant = none) :
    s.clearedBay n = (s.bay n).emptied := by
  simp [State.clearedBay, Bay.occupied, vacant]

theorem clearedBay_occupied {s : State} {n : Fin 8} {i : Fin 256} {p : Pack} (occ : s.occupantPack n = some (i, p)) :
    s.clearedBay n =
      { s.bay n with state := if p.state = .loaded then .loaded else .done, faultCause := none } := by
  obtain ⟨holds, _⟩ := occupantPack_eq_some.1 occ
  simp [State.clearedBay, Bay.occupied, holds, clearedState, occ]

end Sys2Proof.Machine

theorem writeSlotStagesOrActs : Claim.WriteSlotStagesOrActs := by
  intro q n k current stop segment sl s r number low high stopLow stopHigh u b slot w c
  have owner := writeSlotReply_eq (n := n) (segment := segment) (u := u) number low high stopLow stopHigh
  refine ⟨fun closed => ?_, fun steers => ?_⟩
  · exact served_refused rfl r rfl rfl (owner.trans (if_pos closed)) (by decide)
  have ok : ∀ v, writeSlotState n sl slot u = v → exec c s = .next (answered .line c .ok (wSlot slot) v) := by
    intro v written
    refine served_ok rfl r rfl rfl (owner.trans ?_)
    rw [if_neg (by simpa using steers)]
    exact congrArg (reply · (wSlot slot)) written
  refine ⟨fun staged => ok _ (writeSlotState_staged staged slot),
    fun same idle => ok _ (writeSlotState_idle same idle slot), fun same running => ?_⟩
  have only : ∀ x, OnlyBay n u { u with bays := vset u.bays n x } := fun x m hm => vget_vset_other _ hm _
  have state : w.state = .discharging := (Bay.setSlot_state ..).trans running
  have setpoint : (w.followed u.clock).setpoint = current :=
    congrArg Slot.current (Bay.activeSlot_setSlot_same same slot)
  refine ⟨_, ok _ rfl, answers_answered .., ?_⟩
  rw [answered_eq]
  cases ended : w.segmentOver with
  | false =>
    rw [writeSlotState_runs same running ended]
    refine ⟨only _, portsQuiet_iff.2 (by simp), rfl, ?_, ?_, ?_, ?_, fun _ => ⟨?_, ?_, ?_, ?_, rfl⟩, nofun⟩
    all_goals simp only [State.bay, vget_vset_same]
    · rfl
    · rfl
    · exact state
    · rfl
    · exact Bay.setSlot_active ..
    · exact Bay.setSlot_pending ..
    · exact Bay.setSlot_elapsed ..
    · exact setpoint
  | true =>
    rw [writeSlotState_over same running ended]
    refine ⟨only _, portsQuiet_iff.2 (by simp), rfl, ?_, ?_, ?_, ?_, nofun, fun _ => ⟨?_, ?_, ?_⟩⟩
    all_goals simp only [State.bay, vget_vset_same, Bay.boundary_eq]
    · rfl
    · rfl
    · exact state
    · rfl
    · rfl
    · rfl
    · show (if w.pending then w.active.other else w.active) = _
      rw [Bay.setSlot_active, Bay.setSlot_pending]

theorem clearBayReleasesTheFault : Claim.ClearBayReleasesTheFault := by
  intro q n s r u b c
  have owner := clearBayReply_eq n u
  refine ⟨fun sound => ?_, fun faulted closed => ?_, fun faulted opened => ?_⟩
  · exact served_refused rfl r rfl rfl (owner.trans (if_pos sound)) (by decide)
  · rw [if_neg (not_not.2 faulted), if_pos closed] at owner
    exact served_refused rfl r rfl rfl owner (by decide)
  · rw [if_neg (not_not.2 faulted), if_neg (ne_true_of_eq_false opened)] at owner
    refine ⟨_, served_ok rfl r rfl rfl owner, answers_answered .., ?_⟩
    rw [answered_eq, clearBayState_eq]
    have cleared : vget (vset u.bays n (u.clearedBay n)) n = u.clearedBay n := vget_vset_same ..
    exact ⟨portsQuiet_iff.2 (by simp), rfl, fun m hm => vget_vset_other _ hm _,
      fun vacant => cleared.trans (clearedBay_vacant vacant),
      fun i x occ => cleared.trans (clearedBay_occupied occ)⟩

/-- Settles O25: the slot written, staged or in force, and the bay cleared by its occupant. -/
theorem slotsAndClearBay : Obligations.SlotsAndClearBay := ⟨writeSlotStagesOrActs, clearBayReleasesTheFault⟩

end

