-- ==== Sys2Proof/Proofs/BayTimers.lean ====
section
/-! PROOFS: the segment timer, the sample loss timer and the over-current reference of a bay (chapter 03). -/

open Sys2Proof Sys2Proof.Machine

namespace Sys2Proof.Machine

/-! ### A posting that the Feed Controller is not told -/

/-- The banks after a posting. -/
def Banks.posted (b : Banks) (p : Posting) (t : Stamp) : Banks :=
  b.put p.code.bank ((b.get p.code.bank).posted p t)

/-- A posting that leaves the banks' answer: nothing but the banks, the line fault output and notices (R180, R181). -/
theorem post_told {s : State} (told : Told s) {p : Posting}
    (same : bankAnswer (s.banks.posted p s.now) = bankAnswer s.banks) : post p s =
      { s with
        banks := s.banks.posted p s.now
        out := { s.out with lineFault := lineFaultLevel (s.banks.posted p s.now) }
        ports := (post p s).ports } := by
  obtain ⟨known, lit⟩ := told
  have banks : (postRaw p s).banks = s.banks.posted p s.now := postRaw_banks p s
  have alone : post p s = postRaw p s := by
    refine deliverBanks_same ?_
    rw [banks, same, postRaw_feed, known]
  rw [alone, ← banks, ← lineFault_postRaw (p := p) lit]
  exact postRaw_eq p s

/-! ### Expiries -/

/-- An event of the running part. -/
theorem event_next {s : State} (on : s.run = true) (f : State → State) {t : State} (h : f s = t) :
    (Host.Outcome.next (whenRunning f s) : Host.Outcome State Fault Refusal) = .next t := by
  rw [whenRunning_on on, h]

theorem segmentDue_iff (s : State) (n : Fin 8) : segmentDue s n = true ↔
    (s.bay n).state = .discharging ∧ (s.bay n).activeSlot.segment * 1000 ≤ (s.bay n).elapsed := by
  simp [segmentDue, Bay.segmentOver]

theorem lossDue_iff (s : State) (n : Fin 8) : lossDue s n = true ↔
    (s.bay n).state = .discharging ∧ ∃ x, (s.bay n).lastSample = some x ∧ x.arrival + 2000 ≤ s.clock := by
  simp only [lossDue, Bool.and_eq_true, beq_iff_eq, Option.any_eq_true, decide_eq_true_eq]
  exact Iff.rfl

theorem referenceDue_iff (s : State) (n : Fin 8) : referenceDue s n = true ↔
    ∃ e, (s.bay n).overEnd = some e ∧ e ≤ s.clock := by
  simp only [referenceDue, Option.any_eq_true, decide_eq_true_eq]

/-- A boundary moves the setpoint from the load that ran before it (R53, R58). -/
theorem Bay.boundary_reference (b : Bay) (clock : Nat) :
    let ma := b.swapSlot.activeSlot.current
    b.boundary clock =
      { b.swapSlot with
        elapsed := 0, setpoint := ma
        overRef := if b.setpoint < ma then ma else b.overRef
        overEnd := if b.setpoint < ma then none else if ma < b.setpoint then some (clock + 1000) else b.overEnd } := by
  intro ma
  simp only [ma, Bay.boundary, Bay.followed, Bay.swapSlot_eq]
  rfl

theorem Banks.posted_discharge (b : Banks) {p : Posting} (bank : p.code.bank = .discharge) (t : Stamp) :
    b.posted p t = { b with discharge := (b.posted p t).discharge } := by
  unfold Banks.posted
  rw [bank]
  rfl

/-- A bay that pauses with an incident of its own: the Feed Controller's part stays as it is (R60, R75). -/
theorem post_pauseBay {s : State} (told : Told s) (n : Fin 8) (cause : PauseCause) {p : Posting}
    (bank : p.code.bank = .discharge) :
    let t := post p (pauseBay n cause s)
    let banks := { s.banks with discharge := t.banks.discharge }
    t = { s with
      bays := vset s.bays n ((s.bay n).pausedBy (s.sup (.contactor n)) cause)
      out := { s.out.contactorTo n false with lineFault := lineFaultLevel banks }
      banks := banks
      link := s.link.setpointTo n (s.bay n).setpoint 0
      ports := t.ports } := by
  intro t banks
  have paused := pauseBay_eq n cause s
  have knows : Told (pauseBay n cause s) := by
    rw [paused]
    exact told
  have answer : ∀ b : Banks, bankAnswer (b.posted p s.now) = bankAnswer b := by
    intro b
    rw [Banks.posted_discharge b bank]
    rfl
  have posted : t = _ := post_told knows (by rw [paused]; exact answer s.banks)
  have after : banks = s.banks.posted p s.now := by
    have its : t.banks = (pauseBay n cause s).banks.posted p (pauseBay n cause s).now := congrArg State.banks posted
    rw [Banks.posted_discharge s.banks bank]
    simp only [banks, its, paused]
    rfl
  rw [after]
  refine posted.trans ?_
  generalize t.ports = P
  rw [paused]
  rfl

theorem quiet_sampleLost (n : Fin 8) (s : State) : (sampleLost n s).ports.quiet = s.ports.quiet := by
  refine (quiet_of_lessBanks (lessBanks_post ..)).trans ?_
  rw [pauseBay_eq]
  exact quiet_bayTold ..

end Sys2Proof.Machine

/-- Settles O31: each expiry where it is due, as one update of the bay; where it is not due nothing happens. -/
theorem bayTimersAct : Obligations.BayTimersAct := by
  intro n s on b w ma
  refine ⟨fun running ended => ?_, fun early => ?_, fun x running last stale told => ?_, fun heard => ?_,
    fun e hold ends => ?_, fun held => ?_⟩
  · refine event_next on _ ((if_pos ((segmentDue_iff s n).2 ⟨running, ended⟩)).trans ?_)
    rw [takeBoundary_eq, Bay.boundary_reference]
  · exact event_next on _ (if_neg (mt (segmentDue_iff s n).1 early))
  · refine ⟨_, event_next on _ (if_pos ((lossDue_iff s n).2 ⟨running, x, last, stale⟩)), ?_, ?_⟩
    · exact portsQuiet_iff.2 (quiet_sampleLost n s)
    · exact post_pauseBay told n .samples rfl
  · exact event_next on _ (if_neg (mt (lossDue_iff s n).1 heard))
  · exact event_next on _ (if_pos ((referenceDue_iff s n).2 ⟨e, hold, ends⟩))
  · exact event_next on _ (if_neg (mt (referenceDue_iff s n).1 held))

end

