-- ==== Sys2Proof/Proofs/Samples.lean ====
section
/-! PROOFS: a sample taken, discarded or accepted, and the checks of a DISCHARGING bay (chapters 03 and 04). -/

open Sys2Proof Sys2Proof.Machine

namespace Sys2Proof.Machine

/-! ### A sample at its bay -/

theorem baySample_next {s : State} (on : s.run = true) (hunts : s.link.receiver = .hunting) (a q v : Nat) (i t : Int)
    (iv : Nat) : exec (.baySample a q v i t iv) s = .next (takeSample a q v i t iv s) := by
  refine event_next on _ (if_neg ?_)
  rw [hunts]
  exact nofun

theorem sampleRanges_iff (q v : Nat) (i t : Int) (iv : Nat) : sampleRanges q v i t iv = true ↔
    q ≤ 65535 ∧ v ≤ 200000 ∧ -500000 ≤ i ∧ i ≤ 500000 ∧ -400 ≤ t ∧ t ≤ 1500 ∧ 1 ≤ iv ∧ iv ≤ 1000 :=
  decide_eq_true_iff

section

variable {n : Fin 8} {q v iv : Nat} {i t : Int} {s : State}

theorem takeSample_vacant (vacant : (s.bay n).occupant = none) : takeSample (n.1 + 1) q v i t iv s = s := by
  simp only [takeSample, index1_succ]
  exact if_pos (by simp [Bay.occupied, vacant])

theorem Bay.occupied_of_some {b : Bay} (holds : b.occupant ≠ none) : b.occupied = true :=
  Option.isSome_iff_ne_none.2 holds

theorem takeSample_outOfRange (holds : (s.bay n).occupant ≠ none) (out : sampleRanges q v i t iv = false) :
    takeSample (n.1 + 1) q v i t iv s = tallyBay n (fun y => { y with outOfRange := sat16 (y.outOfRange + 1) }) s := by
  simp [takeSample, index1_succ, Bay.occupied_of_some holds, out]

section

variable (holds : (s.bay n).occupant ≠ none) (ranges : sampleRanges q v i t iv = true)

include holds ranges

theorem takeSample_duplicate (same : classifySeq (s.bay n).lastSeq q = .duplicate) :
    takeSample (n.1 + 1) q v i t iv s = tallyBay n (fun y => { y with duplicates := sat16 (y.duplicates + 1) }) s := by
  simp [takeSample, index1_succ, Bay.occupied_of_some holds, ranges, same]

theorem takeSample_stale (late : classifySeq (s.bay n).lastSeq q = .stale) :
    takeSample (n.1 + 1) q v i t iv s = tallyBay n (fun y => { y with stale := sat16 (y.stale + 1) }) s := by
  simp [takeSample, index1_succ, Bay.occupied_of_some holds, ranges, late]

/-- A sample in range that is neither a duplicate nor stale is accepted (R80, R81). -/
theorem takeSample_accepted (fresh : classifySeq (s.bay n).lastSeq q ≠ .duplicate)
    (ahead : classifySeq (s.bay n).lastSeq q ≠ .stale) : takeSample (n.1 + 1) q v i t iv s =
      acceptSample n (classifySeq (s.bay n).lastSeq q) q ⟨v, i, t, s.clock⟩ iv s := by
  simp only [takeSample, index1_succ, Bay.occupied_of_some holds, ranges, Bool.not_true, Bool.false_eq_true, if_false]
end

end

/-! ### An accepted sample -/

/-- A bay with a sample recorded (R81). -/
def Bay.sampled (b : Bay) (q : Nat) (x : Sample) : Bay := { b with lastSeq := some q, lastSample := some x }

/-- In a bay whose integration does not run no check is made (R81, R83). -/
theorem sampleChecks_idle {n : Fin 8} {s : State} (idle : (s.bay n).integrates = false) (x : Sample) :
    sampleChecks n x s = s := by
  unfold sampleChecks
  unfold Bay.integrates at idle
  split
  · rfl
  · cases e : (s.bay n).state <;> simp_all

/-- Where integration does not run the sample is recorded and tallied (R81, R83, R88). -/
theorem acceptSample_idle {n : Fin 8} {s : State} (idle : (s.bay n).integrates = false) (k : SeqClass) (q : Nat)
    (x : Sample) (iv : Nat) : acceptSample n k q x iv s =
      s.setBay n { (s.bay n).sampled q x with tally := (s.bay n).tally.accept k false } := by
  unfold acceptSample
  extract_lets run b1 s1 s2 b2 s3
  have off : run = false := idle
  have unbooked : s2 = s1 := if_neg (ne_true_of_eq_false off)
  have recorded : s3 = s.setBay n ((s.bay n).sampled q x) := by
    simp only [s3, b2, unbooked, s1, b1, State.bay_setBay_same]
    simp only [State.setBay, vset_vset]
    rfl
  have still : (s3.bay n).integrates = false := by rw [recorded, State.bay_setBay_same]; exact idle
  rw [sampleChecks_idle still, tallyBay, recorded, State.bay_setBay_same, off]
  simp only [State.setBay, vset_vset]
  rfl

/-- The pack of a bay's zone is booked where it stands: the zone's inventory follows (R19, R87). -/
theorem integrateSample_eq {n : Fin 8} {j : Fin 256} {x : Pack} {s : State} (occ : s.occupantPack n = some (j, x))
    (place : x.loc = .bay n) (calm : (s.zone (bayZone n)).state ≠ .alarm) (v : Nat) (i : Int) (iv : Nat)
    (k : SeqClass) :
    let y := x.integrate (increment v i iv k.missing) k.missing (k == .resync)
    let inv := invStored (some x) y s.inventories
    integrateSample n v i iv k s =
      { s with
        packs := vset s.packs j ⟨(s.record j).gen, some y⟩
        inventories := inv
        fire := { s.fire with zones := tellZone (some (bayZone n)) inv s.fire.zones } } := by
  intro y inv
  obtain ⟨_, f⟩ := occupantPack_eq_some.1 occ
  have zone : x.zone = some (bayZone n) := by rw [Pack.zone, place]; rfl
  have settled : ∀ z, x.zone = some z → Settled z (storePack j y s) := by
    intro z hz
    cases zone.symm.trans hz
    exact settled_of_not_alarm (by rw [storePack_eq]; exact calm)
  have quiet : ∀ z, (none : Option (Fin 8)) = some z → Settled z (storePack j y s) := fun _ h => nomatch h
  simp only [integrateSample, occ]
  rw [deliverPlaces_settled settled quiet, storePack_eq, f, zone]
  rfl

/-- A DISCHARGING bay's state as its checks find it: the sample recorded and its energy booked (R81). -/
def sampledState (n : Fin 8) (j : Fin 256) (x y : Pack) (q : Nat) (r : Sample) (s : State) : State :=
  { s with
    packs := vset s.packs j ⟨(s.record j).gen, some y⟩
    inventories := invStored (some x) y s.inventories
    bays := vset s.bays n ((s.bay n).sampled q r)
    fire := { s.fire with zones := tellZone (some (bayZone n)) (invStored (some x) y s.inventories) s.fire.zones } }

section

variable {n : Fin 8} {j : Fin 256} {x y : Pack} {q : Nat} {r : Sample} {s : State}

theorem bay_sampledState : (sampledState n j x y q r s).bay n = (s.bay n).sampled q r := vget_vset_same ..

/-- The checks of the bay read the reference and the slot that the sample found (R58, R59). -/
theorem dischargeChecks_sampledState :
    let u := sampledState n j x y q r s
    dischargeChecks n y r u =
      if (y.treatment.maxTemp : Int) < r.temp then overTemperature n r u
      else if r.current < -1000 then reverseCurrent n r u
      else if (overLimit (s.bay n).overRef : Int) < r.current then overCurrent n r u
      else if r.voltage / y.cells ≤ (s.bay n).activeSlot.stop then stopReached n u
      else u := by
  intro u
  unfold dischargeChecks
  rw [bay_sampledState]
  rfl

theorem occupantPack_sampledState (occ : s.occupantPack n = some (j, x)) :
    (sampledState n j x y q r s).occupantPack n = some (j, y) := by
  obtain ⟨held, f⟩ := occupantPack_eq_some.1 occ
  refine occupantPack_eq_some.2 ⟨?_, ?_⟩
  · rw [bay_sampledState]
    rw [Bay.sampled, held]
    simp [sampledState, State.handle, State.record]
  · simp [sampledState, State.record]

end

/-- An accepted sample in a DISCHARGING bay: recorded, booked, checked and tallied, in this order (R81). -/
theorem acceptSample_discharging {n : Fin 8} {j : Fin 256} {x : Pack} {s : State}
    (occ : s.occupantPack n = some (j, x)) (place : x.loc = .bay n) (calm : (s.zone (bayZone n)).state ≠ .alarm)
    (running : (s.bay n).state = .discharging) (k : SeqClass) (q : Nat) (r : Sample) (iv : Nat) :
    let y := x.integrate (increment r.voltage r.current iv k.missing) k.missing (k == .resync)
    acceptSample n k q r iv s =
      tallyBay n (·.accept k true) (dischargeChecks n y r (sampledState n j x y q r s)) := by
  intro y
  unfold acceptSample
  extract_lets run b1 s1 s2 b2 s3
  have on : run = true := (Bay.integrates_iff _).2 (.inl running)
  have occ1 : s1.occupantPack n = some (j, x) := by
    refine (occupantPack_congr (s := s) (t := s1) ?_ rfl).trans occ
    simp only [s1, State.bay_setBay_same]
    rfl
  have booked : s2 = _ := (if_pos on).trans (integrateSample_eq occ1 place calm _ _ _ _)
  have recorded : s3 = sampledState n j x y q r s := by
    simp only [s3, b2, booked]
    simp only [State.setBay, s1, State.bay, vget_vset_same, vset_vset]
    rfl
  have load : ((sampledState n j x y q r s).bay n).state = .discharging := by rw [bay_sampledState]; exact running
  rw [recorded, on]
  simp only [sampleChecks, occupantPack_sampledState occ, load]

end Sys2Proof.Machine

theorem discardedSamplesAreOnlyTallied : Claim.DiscardedSamplesAreOnlyTallied := by
  intro a q v i temp iv s on hunts c
  have next : exec c s = .next (takeSample a q v i temp iv s) := baySample_next on hunts ..
  refine ⟨fun out => ?_, ?_⟩
  · rw [next, takeSample, index1_none out]
  · rintro n rfl b inRange
    have taken : ∀ t, takeSample (n.1 + 1) q v i temp iv s = t → exec c s = .next t := fun t e => by rw [next, e]
    refine ⟨fun vacant => taken s (takeSample_vacant vacant), fun holds => ⟨fun out => ?_, fun ranges same => ?_,
      fun ranges late => ?_⟩⟩
    · exact taken _ (takeSample_outOfRange holds (Bool.eq_false_iff.2 (mt (sampleRanges_iff ..).1 out)))
    · exact taken _ (takeSample_duplicate holds ((sampleRanges_iff ..).2 ranges) same)
    · exact taken _ (takeSample_stale holds ((sampleRanges_iff ..).2 ranges) late)

theorem acceptedSamplesAreRecorded : Claim.AcceptedSamplesAreRecorded := by
  intro n q v i temp iv s on hunts b c k holds ranges fresh ahead
  have next : exec c s = .next (acceptSample n k q ⟨v, i, temp, s.clock⟩ iv s) :=
    (baySample_next on hunts ..).trans (congrArg _ (takeSample_accepted holds ranges fresh ahead))
  refine ⟨fun quiet => ?_, fun running j x occ place live calm cool forward within above => ?_⟩
  · have idle : (s.bay n).integrates = false := by
      unfold Bay.integrates
      rcases quiet with e | e | e <;> simp only [b] at e <;> rw [e]
    rw [next, acceptSample_idle idle]
    rfl
  · intro y
    have cold : ¬(y.treatment.maxTemp : Int) < temp := Int.not_lt.2 cool
    have charged : ¬v / y.cells ≤ (s.bay n).activeSlot.stop := Nat.not_le.2 above
    have passes : dischargeChecks n y ⟨v, i, temp, s.clock⟩ (sampledState n j x y q ⟨v, i, temp, s.clock⟩ s) = _ :=
      dischargeChecks_sampledState
    rw [if_neg cold, if_neg (Int.not_lt.2 forward), if_neg (Int.not_lt.2 within), if_neg charged] at passes
    have stored : invStored (some x) y s.inventories = vset s.inventories (bayZone n)
        (vget s.inventories (bayZone n) - x.standing + y.standing) := by
      have zone : x.zone = some (bayZone n) := by rw [Pack.zone, place]; rfl
      have kept : y.zone = some (bayZone n) := zone
      simp only [invStored, zone, kept, creditZone, debitZone, vget_vset_same, vset_vset]
    have done : acceptSample n k q ⟨v, i, temp, s.clock⟩ iv s =
        tallyBay n (·.accept k true) (sampledState n j x y q ⟨v, i, temp, s.clock⟩ s) :=
      (acceptSample_discharging occ place calm running ..).trans (congrArg _ passes)
    refine ⟨_, next, ?_⟩
    rw [done, tallyBay, bay_sampledState]
    refine ⟨?_, stored, rfl⟩
    simp only [State.setBay, sampledState, vset_vset]
    rfl

/-- Settles O27: a sample discarded with its tally, or recorded with its energy booked. -/
theorem samplesAreTaken : Obligations.SamplesAreTaken := ⟨discardedSamplesAreOnlyTallied, acceptedSamplesAreRecorded⟩

end

