-- ==== Sys2Proof/Proofs/DischargeChecks.lean ====
section
/-! PROOFS: the checks of a DISCHARGING bay that stop it (chapter 03). -/

open Sys2Proof Sys2Proof.Machine

namespace Sys2Proof.Machine

/-! ### The frames of a stopped discharge -/

/-- The state without what the work of a bay and its pack may change: records, inventories, bays, their contactors, the
Fire Zone Controller and the field link. -/
def State.lessWork (s : State) : State :=
  { s with
    packs := Vector.replicate 256 ⟨0, none⟩
    inventories := Vector.replicate 8 0
    bays := Vector.replicate 8 Bay.initial
    fire := Fire.initial
    out := { s.out with contactors := Vector.replicate 8 (Supervision.initial false) }
    link := FieldLink.initial
    ports := s.ports.quiet }

/-- The banks without what a posting of the Discharge bank may change. -/
def Banks.lessPosted (b : Banks) : Banks := { b with discharge := Banks.initial.discharge, feed := Banks.initial.feed }

/-- The state without that and without what a posting reaches. -/
def State.lessFault (s : State) : State :=
  { s.lessWork with
    feed := { s.feed with permit := false, inputs := PermitInputs.initial, lock := Lock.initial }
    banks := Banks.initial
    out := Outputs.initial }

theorem eq_of_lessWork {s t : State} (h : t.lessWork = s.lessWork) : t = { s with
    packs := t.packs, inventories := t.inventories, bays := t.bays, fire := t.fire
    out := { s.out with contactors := t.out.contactors }, link := t.link, ports := t.ports } := by
  obtain ⟨_, _, _, _, _, _, _, _, _, _, _, _, _, _, _, _, ⟨_, _, _, _, _, _, _⟩, _, _⟩ := t
  simp only [State.lessWork, State.mk.injEq, Outputs.mk.injEq] at h ⊢
  simp_all

theorem eq_of_lessFault {s t : State} (h : t.lessFault = s.lessFault)
    (banks : t.banks.lessPosted = s.banks.lessPosted) : t = { s with
    packs := t.packs, inventories := t.inventories, bays := t.bays
    feed := { s.feed with permit := t.feed.permit, inputs := t.feed.inputs, lock := t.feed.lock }, fire := t.fire
    banks := { s.banks with discharge := t.banks.discharge, feed := t.banks.feed }, out := t.out, link := t.link
    ports := t.ports } := by
  obtain ⟨_, _, _, _, _, _, _, _, _, _, _, ⟨_, _, _, _, _⟩, _, _, ⟨_, _, _, _, _, _⟩, _, _, _, _⟩ := t
  simp only [State.lessFault, State.lessWork, Banks.lessPosted, State.mk.injEq, Feed.mk.injEq, Banks.mk.injEq]
    at h banks ⊢
  simp_all

theorem State.lessFault_of_lessWork {s t : State} (h : t.lessWork = s.lessWork) : t.lessFault = s.lessFault := by
  have e := congrArg State.lessFault h
  exact e

theorem State.lessFault_of_lessBanks {s t : State} (h : t.lessBanks = s.lessBanks) : t.lessFault = s.lessFault := by
  have e := congrArg State.lessFault h
  exact e

/-- A posting of the Discharge bank may change the FEED bank as well, where the permit it takes off holds the lock. -/
theorem lessPosted_post {p : Posting} (bank : p.code.bank = .discharge) (s : State) :
    (post p s).banks.lessPosted = s.banks.lessPosted := by
  have kept : ∀ k : BankId, k ≠ .discharge → k ≠ .feed → (post p s).banks.get k = s.banks.get k := by
    intro k apart other
    rw [post_bank p s other, if_neg (bank ▸ apart)]
  have links : (post p s).banks.links = s.banks.links := kept .links nofun nofun
  have records : (post p s).banks.records = s.banks.records := kept .records nofun nofun
  have atmosphere : (post p s).banks.atmosphere = s.banks.atmosphere := kept .atmosphere nofun nofun
  have fire : (post p s).banks.fire = s.banks.fire := kept .fire nofun nofun
  simp only [Banks.lessPosted, links, records, atmosphere, fire]

/-! ### What a stopped discharge has written -/

/-- `t` is `s` with pack `y` in record `j`, bay `n` as `b` and its contactor as `v`, and nothing else but energy, fire
zones, setpoints and notices. -/
structure Worked (n : Fin 8) (j : Fin 256) (y : Pack) (b : Bay) (v : Supervision) (s t : State) : Prop where
  packs : t.packs = vset s.packs j ⟨(s.record j).gen, some y⟩
  bays : t.bays = vset s.bays n b
  contactors : t.out.contactors = vset s.out.contactors n v
  rest : t.lessWork = s.lessWork

/-- The same after an incident of the bay: the permit and the FEED bank may follow it. -/
structure Faulted (n : Fin 8) (j : Fin 256) (y : Pack) (b : Bay) (v : Supervision) (s t : State) : Prop where
  packs : t.packs = vset s.packs j ⟨(s.record j).gen, some y⟩
  bays : t.bays = vset s.bays n b
  contactors : t.out.contactors = vset s.out.contactors n v
  banks : t.banks.lessPosted = s.banks.lessPosted
  rest : t.lessFault = s.lessFault

theorem Worked.faulted {n : Fin 8} {j : Fin 256} {y : Pack} {b : Bay} {v : Supervision} {s t : State}
    (h : Worked n j y b v s t) : Faulted n j y b v s t :=
  ⟨h.packs, h.bays, h.contactors, (congrArg (fun x : State => x.banks.lessPosted) h.rest :),
    State.lessFault_of_lessWork h.rest⟩

section

variable {n : Fin 8} {j : Fin 256} {y : Pack} {b : Bay} {v : Supervision} {s t : State}

theorem Faulted.record (h : Faulted n j y b v s t) : t.record j = ⟨(s.record j).gen, some y⟩ := by
  rw [State.record, h.packs, vget_vset_same]

theorem Faulted.bay (h : Faulted n j y b v s t) : t.bay n = b := by rw [State.bay, h.bays, vget_vset_same]

theorem Faulted.sup (h : Faulted n j y b v s t) : t.sup (.contactor n) = v := by
  rw [State.sup, h.contactors, vget_vset_same]

theorem Faulted.onlyBay (h : Faulted n j y b v s t) : OnlyBay n s t := fun m hm => by
  rw [State.bay, h.bays, vget_vset_other _ hm]
  rfl

theorem Faulted.onlyRecord (h : Faulted n j y b v s t) : OnlyRecord j s t := by
  refine ⟨fun i hi => ?_, by rw [h.record]⟩
  rw [State.record, h.packs, vget_vset_other _ hi]
  rfl

theorem Faulted.quiet (h : Faulted n j y b v s t) : PortsQuiet s t := portsQuiet_iff.2 (congrArg State.ports h.rest :)

theorem Worked.record (h : Worked n j y b v s t) : t.record j = ⟨(s.record j).gen, some y⟩ := h.faulted.record

theorem Worked.bay (h : Worked n j y b v s t) : t.bay n = b := h.faulted.bay

theorem Worked.sup (h : Worked n j y b v s t) : t.sup (.contactor n) = v := h.faulted.sup

/-- The bay's pack, found where its handle points. -/
theorem Worked.occupant (h : Worked n j y b v s t) (held : b.occupant = some (s.handle j)) :
    t.occupantPack n = some (j, y) := by
  have its : t.handle j = s.handle j := by rw [State.handle, h.record]; rfl
  rw [occupantPack_eq_some, h.bay, its, h.record]
  exact ⟨held, rfl⟩

theorem worked_sampledState (x : Pack) (q : Nat) (r : Sample) :
    Worked n j y ((s.bay n).sampled q r) (s.sup (.contactor n)) s (sampledState n j x y q r s) where
  packs := rfl
  bays := rfl
  contactors := (vset_vget ..).symm
  rest := rfl

theorem Worked.transition (h : Worked n j y b v s t) (z : Pack) : Worked n j z b v s (transition j z t) where
  packs := by rw [transition_eq, h.packs, h.record]; exact vset_vset ..
  bays := by rw [transition_eq]; exact h.bays
  contactors := by rw [transition_eq]; exact h.contactors
  rest := by
    rw [← h.rest, transition_eq]
    simp only [State.lessWork, quiet_packTold]

theorem Worked.setBay (h : Worked n j y b v s t) (d : Bay) : Worked n j y d v s (t.setBay n d) where
  packs := h.packs
  bays := by rw [State.setBay, h.bays]; exact vset_vset ..
  contactors := h.contactors
  rest := h.rest

theorem Worked.putBay (h : Worked n j y b v s t) (d : Bay) : Worked n j y d v s (putBay n d t) where
  packs := by rw [putBay_eq]; exact h.packs
  bays := by rw [putBay_eq, h.bays]; exact vset_vset ..
  contactors := by rw [putBay_eq]; exact h.contactors
  rest := by
    rw [← h.rest, putBay_eq]
    simp only [State.lessWork, quiet_bayTold]

theorem Worked.stopLoad (h : Worked n j y b v s t) :
    Worked n j y (b.unloaded v) (v.setCommand false) s (stopLoad n t) where
  packs := by rw [stopLoad_eq]; exact h.packs
  bays := by rw [stopLoad_eq, h.bay, h.sup, h.bays]; exact vset_vset ..
  contactors := by
    rw [stopLoad_eq]
    show vset t.out.contactors n ((t.sup (.contactor n)).setCommand false) = _
    rw [h.sup, h.contactors]
    exact vset_vset ..
  rest := by
    rw [← h.rest, stopLoad_eq]
    rfl

theorem Worked.faultBay (h : Worked n j y b v s t) (cause : FaultCause) :
    Worked n j y (b.faultedBy v cause) (v.setCommand false) s (faultBay n cause t) := by
  unfold Machine.faultBay
  dsimp only
  rw [h.stopLoad.bay]
  exact h.stopLoad.putBay _

/-- The rest of an accepted sample: an incident of the bay and the tally (R81, R88). -/
theorem Worked.posted_tallied (h : Worked n j y b v s t) {p : Posting} (bank : p.code.bank = .discharge)
    (f : Tally → Tally) : Faulted n j y { b with tally := f b.tally } v s (tallyBay n f (post p t)) := by
  have frame := lessBanks_post p t
  have banks := (lessPosted_post bank t).trans h.faulted.banks
  generalize post p t = w at frame banks
  have packs : w.packs = t.packs := (congrArg State.packs frame :)
  have bays : w.bays = t.bays := (congrArg State.bays frame :)
  have out : w.out.contactors = t.out.contactors := (congrArg (fun x : State => x.out.contactors) frame :)
  have bay : w.bay n = b := by rw [State.bay, bays, h.bays, vget_vset_same]
  refine ⟨packs.trans h.packs, ?_, out.trans h.contactors, banks,
    (State.lessFault_of_lessBanks frame).trans h.faulted.rest⟩
  simp only [tallyBay, State.setBay, bay, bays, h.bays, vset_vset]

theorem Worked.sampleFault {u : State} {pack : State → State} (h : Worked n j y b v s (pack u)) (cause : FaultCause)
    {code : Code} (bank : code.bank = .discharge) (detail : Nat) (f : Tally → Tally) :
    let d := b.faultedBy v cause
    Faulted n j y { d with tally := f d.tally } (v.setCommand false) s
      (tallyBay n f (sampleFault n cause pack code detail u)) := by
  unfold Machine.sampleFault
  exact (h.faultBay cause).posted_tallied bank f

/-- And without an incident. -/
theorem Worked.tallied (h : Worked n j y b v s t) (f : Tally → Tally) :
    Worked n j y { b with tally := f b.tally } v s (tallyBay n f t) := by
  unfold tallyBay
  rw [h.bay]
  exact h.setBay _

/-! ### The checks -/

/-- A quarantine of the bay's pack where it is (R58). -/
theorem Worked.quarantine (h : Worked n j y b v s t) (held : b.occupant = some (s.handle j))
    (q : y.state ≠ .quarantined) (cause : QuarantineCause) :
    Worked n j (y.quarantinedBy cause) b v s (quarantineOccupant n cause t) := by
  obtain ⟨holds, f⟩ := occupantPack_eq_some.1 (h.occupant held)
  simp only [quarantineOccupant, holds]
  have acts : quarantinePack j cause t = _ := quarantinePack_eq f q cause
  exact acts ▸ h.transition _

/-- The bay's pack LOADED again (R13). -/
theorem Worked.reload (h : Worked n j y b v s t) (held : b.occupant = some (s.handle j))
    (q : y.state ≠ .quarantined) : Worked n j { y with state := .loaded } b v s (reloadOccupant n t) := by
  unfold reloadOccupant
  rw [onOccupant_eq (h.occupant held), if_neg q]
  exact h.transition _

/-- A bay at rest after its stop voltage, the pending slot taken and the load off (R53, R59). -/
def Bay.stopped (b : Bay) (v : Supervision) (ms : Nat) : Bay :=
  { b.swapSlot.unloaded v with state := .resting, rest := some ms, deferred := false, elapsed := 0 }

theorem Bay.stopped_eq (b : Bay) (v : Supervision) (ms : Nat) : b.stopped v ms =
    { b.unloaded v with
      state := .resting, rest := some ms, deferred := false, elapsed := 0
      active := if b.pending then b.active.other else b.active, pending := false } := by
  simp only [Bay.stopped, Bay.swapSlot_eq]
  rfl

theorem Worked.resting (h : Worked n j y b v s t) (held : b.occupant = some (s.handle j)) :
    Worked n j { y with state := .resting } (b.stopped v (y.treatment.rest * 1000)) (v.setCommand false) s
      (stopReached n t) := by
  unfold stopReached
  extract_lets s1 s2 b2
  have moved : Worked n j { y with state := .resting } b v s s1 := by
    simp only [s1, onOccupant_eq (h.occupant held)]
    exact h.transition _
  have stopped : Worked n j { y with state := .resting } (b.swapSlot.unloaded v) (v.setCommand false) s s2 := by
    simp only [s2, moved.bay]
    exact (moved.setBay b.swapSlot).stopLoad
  have kept : (b.swapSlot.unloaded v).occupant = some (s.handle j) := by
    rw [Bay.swapSlot_eq]
    exact held
  have rests : restMs n s2 = y.treatment.rest * 1000 := by rw [restMs, stopped.occupant kept]; rfl
  have left : b2 = b.swapSlot.unloaded v := stopped.bay
  rw [rests, left]
  exact stopped.putBay _

end

end Sys2Proof.Machine

/-- Settles O28: the checks in their order; each that fails stops the load, writes bay and pack, and posts or rests. -/
theorem dischargeChecksInOrder : Obligations.DischargeChecksInOrder := by
  intro n q v i temp iv s j x on hunts b c k ranges fresh ahead running occ place discharging calm faults
  obtain ⟨held, _⟩ := occupantPack_eq_some.1 occ
  let r : Sample := ⟨v, i, temp, s.clock⟩
  let y := x.integrate (increment v i iv k.missing) k.missing (k == .resync)
  let u := sampledState n j x y q r s
  have next : exec c s = .next (tallyBay n (·.accept k true) (dischargeChecks n y r u)) := by
    refine (baySample_next on hunts ..).trans (congrArg _ ?_)
    have occupied : (s.bay n).occupant ≠ none := by rw [held]; exact nofun
    exact (takeSample_accepted occupied ranges fresh ahead).trans
      (acceptSample_discharging occ place calm running ..)
  have worked : Worked n j y (b.sampled q r) (s.sup (.contactor n)) s u := worked_sampledState x q r
  have checks : dischargeChecks n y r u =
      if (x.treatment.maxTemp : Int) < temp then overTemperature n r u
      else if i < -1000 then reverseCurrent n r u
      else if (overLimit b.overRef : Int) < i then overCurrent n r u
      else if v / x.cells ≤ b.activeSlot.stop then stopReached n u
      else u := dischargeChecks_sampledState
  have holds : (b.sampled q r).occupant = some (s.handle j) := held
  have free : y.state ≠ .quarantined := by
    show x.state ≠ .quarantined
    rw [discharging]
    exact nofun
  have fault : ∀ {f after qc z pack code detail}, dischargeChecks n y r u = sampleFault n f pack code detail u →
      Worked n j z (b.sampled q r) (s.sup (.contactor n)) s (pack u) → z.state = after → z.cause = qc →
      code.bank = .discharge → faults f after qc := by
    intro f after qc z pack code detail stops wrote state cause bank
    rw [stops] at next
    have done := wrote.sampleFault f bank detail (·.accept k true)
    refine ⟨_, next, z, by rw [done.record], ?_, ?_, ?_, ?_, state, cause, done.onlyBay, done.onlyRecord, done.quiet,
      eq_of_lessFault done.rest done.banks⟩
    · rw [done.bay]
      rfl
    · rw [done.bay]
      have before : (b.sampled q r).state ≠ .faulted := fun e => nomatch running.symm.trans e
      exact if_neg before
    · rw [done.bay]
      rfl
    · rw [done.sup]
      exact Supervision.setCommand_command ..
  refine ⟨fun hot => ?_, fun cool => ⟨fun reversed => ?_, fun forward => ⟨fun above => ?_, fun within low => ?_⟩⟩⟩
  · exact fault (checks.trans (if_pos hot)) (worked.quarantine holds free _) rfl rfl rfl
  · rw [if_neg (Int.not_lt.2 cool), if_pos reversed] at checks
    exact fault checks (worked.quarantine holds free _) rfl rfl rfl
  · rw [if_neg (Int.not_lt.2 cool), if_neg (Int.not_lt.2 forward), if_pos above] at checks
    exact fault checks (worked.reload holds free) rfl rfl rfl
  · rw [if_neg (Int.not_lt.2 cool), if_neg (Int.not_lt.2 forward), if_neg (Int.not_lt.2 within), if_pos low] at checks
    rw [checks] at next
    have wrote := (worked.resting holds).tallied (·.accept k true)
    have done := wrote.faulted
    have bay := done.bay
    rw [Bay.stopped_eq] at bay
    refine ⟨_, next, ?_, ?_, ?_, ?_, ?_, ?_, ?_, ?_, ?_, done.onlyBay, done.onlyRecord, done.quiet, ?_⟩
    · rw [bay]
    · rw [bay]; rfl
    · rw [bay]
    · rw [bay]
    · rw [bay]; rfl
    · rw [bay]
    · rw [bay]; rfl
    · rw [done.sup]
      exact Supervision.setCommand_command ..
    · rw [done.record]; rfl
    · have frame := eq_of_lessWork wrote.rest
      rw [done.contactors] at frame
      exact frame

end

