-- ==== Sys2Proof/Proofs/Mismatch.lean ====
section
/-! PROOFS, layer 12. What a mismatch of an output reaches: its posting, then the permit, the lock and the FEED bank
(R75, R128, R149, R198, R199). -/

open Sys2Proof Sys2Proof.Machine

namespace Sys2Proof.Machine

/-! ### Banks after a posting -/

/-- An empty bank takes a posting that it records (R176). -/
theorem Bank.posted_of_empty {b : Bank} {p : Posting} (t : Stamp) (empty : b.held = none)
    (recorded : b.enabled p.code = true ∨ p.severity = .uncontained) : (b.posted p t).held = some (p.incident t) := by
  simp [Bank.posted, if_pos recorded, Bank.take, empty]

theorem Severity.eq_uncontained {v : Severity} (top : ¬v.rank < Severity.uncontained.rank) : v = .uncontained := by
  cases v with
  | uncontained => rfl
  | _ => exact absurd (by decide) top

/-- An UNCONTAINED posting leaves an UNCONTAINED incident (R176). -/
theorem Bank.posted_uncontained {b : Bank} {p : Posting} (t : Stamp) (worst : p.severity = .uncontained) :
    (b.posted p t).uncontained = true := by
  unfold Bank.posted
  rw [if_pos (.inr worst)]
  cases held : b.held with
  | none => simp [Bank.take, held, Bank.uncontained, Posting.incident, worst]
  | some h =>
    by_cases lower : h.severity.rank < Severity.uncontained.rank
    · simp [Bank.take, held, Bank.uncontained, Posting.incident, worst, lower]
    · simp [Bank.take, held, Bank.uncontained, Posting.incident, worst, Severity.eq_uncontained lower]

/-- An ADVISORY posting displaces no incident (R176). -/
theorem Bank.posted_advisory_held {b : Bank} {p : Posting} (t : Stamp) (least : p.severity = .advisory) {i : Incident}
    (held : b.held = some i) : (b.posted p t).held = some i := by
  have kept : ¬i.severity.rank < (p.incident t).severity.rank := by
    show ¬i.severity.rank < p.severity.rank
    rw [least]
    exact Nat.not_lt_zero _
  unfold Bank.posted
  split
  · simp [Bank.take, held, kept]
  · exact held

/-- Nor makes it a bank UNCONTAINED. -/
theorem Bank.posted_advisory_uncontained {b : Bank} {p : Posting} (t : Stamp) (least : p.severity = .advisory) :
    (b.posted p t).uncontained = b.uncontained := by
  cases held : b.held with
  | some i => simp only [Bank.uncontained, Bank.posted_advisory_held t least held, held]
  | none =>
    unfold Bank.posted
    split
    · simp [Bank.take, held, Bank.uncontained, Posting.incident, least]
    · rfl

/-! ### Supervision timers -/

/-- Neither timer of a supervised output has run out (R198, R199). -/
def Supervision.Unexpired (v : Supervision) : Prop := v.window ≠ some 0 ∧ v.disagree ≠ some 0

/-- A command begins its window afresh (R198). -/
theorem Supervision.Unexpired.setCommand {v : Supervision} (h : v.Unexpired) (on : Bool) :
    (v.setCommand on).Unexpired := by
  unfold Supervision.setCommand
  split
  · exact h
  · have begins : some Config.windowMs ≠ some 0 := by decide
    exact ⟨begins, nofun⟩

/-! ### What follows a posting -/

/-- The blocks that no mismatch reaches. -/
def State.aside (s : State) : Classification × Option (Fin 8) × Atmosphere × Fire :=
  (s.cls, s.lot.shredLot, s.atm, s.fire)

/-- What the evaluations that follow a posting leave: at most an ADVISORY in the FEED bank, an incident in the RECORDS
bank, packs, the lock and commands of outputs. -/
structure Aftermath (s t : State) : Prop where
  aside : t.aside = s.aside
  bays : t.bays = s.bays
  link : t.link = s.link
  inputs : t.feed.inputs = s.feed.inputs
  held : ∀ k, k ≠ .records → ∀ i, (s.banks.get k).held = some i → (t.banks.get k).held = some i
  others : ∀ k, k ≠ .feed → k ≠ .records → t.banks.get k = s.banks.get k
  uncontained : t.banks.feed.uncontained = s.banks.feed.uncontained
  timers : ∀ o, (s.sup o).Unexpired → (t.sup o).Unexpired

namespace Aftermath

variable {s t u : State}

theorem refl (s : State) : Aftermath s s :=
  ⟨rfl, rfl, rfl, rfl, fun _ _ _ => id, fun _ _ _ => rfl, rfl, fun _ => id⟩

theorem trans (h : Aftermath s t) (k : Aftermath t u) : Aftermath s u where
  aside := k.aside.trans h.aside
  bays := k.bays.trans h.bays
  link := k.link.trans h.link
  inputs := k.inputs.trans h.inputs
  held b hb i := k.held b hb i ∘ h.held b hb i
  others b hb hr := (k.others b hb hr).trans (h.others b hb hr)
  uncontained := k.uncontained.trans h.uncontained
  timers o := k.timers o ∘ h.timers o

theorem ite {c : Prop} [Decidable c] (ht : c → Aftermath s t) (hu : ¬c → Aftermath s u) :
    Aftermath s (if c then t else u) := by
  split
  · exact ht ‹_›
  · exact hu ‹_›

/-- A step that leaves the banks. -/
theorem of_frame (frame : t.lessBanks = s.lessBanks) (inputs : t.feed.inputs = s.feed.inputs)
    (banks : t.banks = s.banks) (timers : ∀ o, (s.sup o).Unexpired → (t.sup o).Unexpired) : Aftermath s t where
  aside := (congrArg State.aside frame :)
  bays := (congrArg State.bays frame :)
  link := (congrArg State.link frame :)
  inputs := inputs
  held k _ i := by rw [banks]; exact id
  others k _ _ := by rw [banks]
  uncontained := by rw [banks]
  timers := timers

/-- A step that writes one of the two banks. -/
theorem of_bank {k : BankId} {b : Bank} (which : k = .feed ∨ k = .records) (frame : t.lessBanks = s.lessBanks)
    (feed : t.feed = s.feed) (banks : t.banks = s.banks.put k b)
    (held : k = .feed → ∀ i, s.banks.feed.held = some i → b.held = some i)
    (uncontained : k = .feed → b.uncontained = s.banks.feed.uncontained) (timers : ∀ o, t.sup o = s.sup o) :
    Aftermath s t where
  aside := (congrArg State.aside frame :)
  bays := (congrArg State.bays frame :)
  link := (congrArg State.link frame :)
  inputs := by rw [feed]
  held j hj i h := by
    rw [banks]
    by_cases e : j = k
    · obtain rfl | rfl := which
      · rw [e, Banks.get_put_same]
        exact held rfl i (by rw [e] at h; exact h)
      · exact absurd e hj
    · rwa [Banks.get_put_other _ e]
  others j hf hr := by
    have e : j ≠ k := by
      rintro rfl
      exact which.elim hf hr
    rw [banks, Banks.get_put_other _ e]
  uncontained := by
    rw [banks]
    obtain rfl | rfl := which
    · exact uncontained rfl
    · rfl
  timers o h := by rwa [timers]

/-- A step that leaves the banks, the outputs and the Feed Controller. -/
theorem of_packs (frame : t.lessPacks = s.lessPacks) : Aftermath s t := by
  have banks : t.banks = s.banks := (congrArg State.banks frame :)
  have out : t.out = s.out := (congrArg State.out frame :)
  have same : ∀ o, t.sup o = s.sup o := fun o => by cases o <;> simp only [State.sup, out]
  exact ⟨(congrArg State.aside frame :), (congrArg State.bays frame :), (congrArg State.link frame :),
    (congrArg (fun x : State => x.feed.inputs) frame :), fun k _ i => by rw [banks]; exact id,
    fun k _ _ => by rw [banks], by rw [banks], fun o h => by rwa [same]⟩

end Aftermath

theorem aftermath_permitTo (on : Bool) (s : State) : Aftermath s (permitTo on s) := by
  have out : (permitTo on s).out = { s.out with permit := s.out.permit.setCommand on } := by
    rw [permitTo, notify_out]
    rfl
  refine .of_frame (lessBanks_permitTo on s) (by rw [permitTo_feed]) (permitTo_banks on s) fun o h => ?_
  cases o <;> simp only [State.sup, out] at h ⊢
  case permit => exact h.setCommand on
  all_goals exact h

theorem aftermath_setLock (l : Lock) (s : State) : Aftermath s (setLock l s) := by
  refine .of_frame (lessBanks_setLock l s) (by rw [setLock_feed]) (setLock_banks l s) fun o h => ?_
  cases o <;> simp only [State.sup, setLock_out] at h ⊢
  case upperGate => exact h.setCommand _
  case lowerGate => exact h.setCommand _
  all_goals exact h

theorem sup_postRaw (p : Posting) (s : State) (o : Output) : (postRaw p s).sup o = s.sup o := by
  rw [postRaw_eq]
  cases o <;> rfl

/-- A hold of the lock posts an ADVISORY (R122). -/
theorem aftermath_lockHeld {p : Posting} (code : p.code = .lockHeld) (least : p.severity = .advisory) (s : State) :
    Aftermath s (postRaw p s) := by
  have bank : p.code.bank = .feed := by rw [code]; rfl
  have banks := postRaw_banks p s
  rw [bank] at banks
  exact .of_bank (.inl rfl) (lessBanks_postRaw p s) (postRaw_feed p s) banks
    (fun _ _ held => Bank.posted_advisory_held s.now least held)
    (fun _ => Bank.posted_advisory_uncontained s.now least) (sup_postRaw p s)

theorem aftermath_holdLock (c : Nat) (s : State) : Aftermath s (holdLock c s) :=
  (aftermath_setLock ..).trans (aftermath_lockHeld rfl rfl _)

theorem aftermath_resumeLock (s : State) : Aftermath s (resumeLock s) := by
  obtain e | ⟨l, e⟩ := resumeLock_cases s
  · rw [e]
    exact .refl s
  · rw [e]
    exact aftermath_setLock l s

theorem aftermath_evalPermit (s : State) : Aftermath s (evalPermit s) := by
  rw [evalPermit_eq]
  refine .trans ?_ (aftermath_resumeLock _)
  exact .ite (fun _ => .refl s) fun _ =>
    .ite (fun _ => (aftermath_permitTo _ s).trans (aftermath_holdLock ..)) fun _ => aftermath_permitTo _ s

/-- The Feed Controller told the banks' answer (R180). -/
def toldBanks (s : State) : State := { s with feed.inputs.uncontained := bankAnswer s.banks }

theorem aftermath_deliverBanks (s : State) : Aftermath (toldBanks s) (deliverBanks s) := by
  unfold deliverBanks toldBanks
  refine .ite (fun known => ?_) fun _ => aftermath_evalPermit _
  rw [known]
  exact .refl s

theorem aftermath_post (p : Posting) (s : State) : Aftermath (toldBanks (postRaw p s)) (post p s) :=
  aftermath_deliverBanks _

/-! ### A lock that is blocked -/

/-- The incident of a pack whose custody is uncertain stands in the RECORDS bank (R131). -/
theorem aftermath_feedUncertain (d : Nat) (h : Handle) (p : Pack) (s : State) :
    Aftermath s (feedUncertain d h p s) := by
  let u := s.setLot p.lot ((s.lotAt p.lot).map fun l => { l with uncertain := true })
  have marked : Aftermath s u :=
    ⟨rfl, rfl, rfl, rfl, fun _ _ _ => id, fun _ _ _ => rfl, rfl, fun _ => id⟩
  refine marked.trans (.of_bank (.inr rfl) (lessBanks_postRaw ..) (postRaw_feed ..) (postRaw_banks ..) nofun nofun ?_)
  exact sup_postRaw _ u

theorem aftermath_blockLock (c : QuarantineCause) (d : Option Nat) (s : State) : Aftermath s (blockLock c d s) := by
  unfold blockLock
  split
  · exact .refl s
  case h_2 h _ =>
    have quarantined : Aftermath s (quarantinePack h.index c s) := .of_packs (lessPacks_quarantinePack ..)
    dsimp only
    refine .trans ?_ (aftermath_setLock ..)
    split
    · exact quarantined.trans (aftermath_feedUncertain ..)
    · exact quarantined

theorem permit_blockLock (c : QuarantineCause) (d : Option Nat) (s : State) :
    (blockLock c d s).feed.permit = s.feed.permit := by
  unfold blockLock
  split
  · rfl
  case h_2 h _ =>
    have feed : (quarantinePack h.index c s).feed = s.feed :=
      (congrArg State.feed (lessPacks_quarantinePack h.index c s) :)
    rw [setLock_feed]
    dsimp only
    split
    · rw [feedUncertain, postRaw_feed]
      exact congrArg Feed.permit feed
    · exact congrArg Feed.permit feed

/-! ### A mismatch, in the order of its effects -/

/-- The incident of a mismatch (R75, R105, R110, R128, R149). -/
def mismatchPosting (o : Output) (s : State) : Posting :=
  let row := mismatchRow o (s.sup o).command
  { code := row.2.1, severity := row.2.2.1, detail := row.2.2.2
    pack := match o with
      | .contactor n => (s.bay n).occupant
      | .upperGate | .lowerGate => s.feed.lock.occupant
      | _ => none
    place := match o with
      | .contactor n | .release n => some (n.1 + 1)
      | _ => none }

/-- The owner's part before the incident: a bay paused or faulted (R75). -/
def mismatchOwner (o : Output) (s : State) : State :=
  match o with
  | .contactor n =>
    if (s.sup o).command then pauseBay n .output s else faultBay n .outputMismatch (stuckPack n s)
  | _ => s

/-- The owner's part after it: the permit evaluated, and a working lock blocked by its lower gate (R108, R128). -/
def mismatchAfter (o : Output) (s : State) : State :=
  match o with
  | .permit | .upperGate => evalPermit s
  | .lowerGate =>
    let t := evalPermit s
    if t.feed.lock.working then blockLock .feedUncertain (some 1) t else t
  | _ => s

theorem reportMismatch_eq (o : Output) (s : State) :
    reportMismatch o s = mismatchAfter o (post (mismatchPosting o s) (mismatchOwner o s)) := by
  have same : ∀ on, (s.sup o).command = on →
      reportMismatch o s = mismatchAfter o (post (mismatchPosting o s) (mismatchOwner o s)) := by
    intro on e
    cases o with
    | contactor n =>
      cases on <;> simp only [reportMismatch, mismatchPosting, mismatchOwner, mismatchAfter, mismatchRow, e, if_true,
        Bool.false_eq_true, if_false, contactorFailed, contactorStuck]
    | lowerGate =>
      cases on <;> simp only [reportMismatch, mismatchPosting, mismatchOwner, mismatchAfter, mismatchRow, e, if_true,
        Bool.false_eq_true, if_false, lowerMismatch, gateMismatch]
    | _ =>
      cases on <;> simp only [reportMismatch, mismatchPosting, mismatchOwner, mismatchAfter, mismatchRow, e, if_true,
        Bool.false_eq_true, if_false, gateMismatch]
  exact same _ rfl

theorem aftermath_mismatchAfter (o : Output) (s : State) : Aftermath s (mismatchAfter o s) := by
  have evaluated := aftermath_evalPermit s
  cases o with
  | permit => exact evaluated
  | upperGate => exact evaluated
  | lowerGate =>
    simp only [mismatchAfter]
    exact .ite (fun _ => evaluated.trans (aftermath_blockLock ..)) fun _ => evaluated
  | _ => exact .refl s

/-- A mismatch is its owner's part and its posting, and what follows that. -/
theorem aftermath_reportMismatch (o : Output) (s : State) :
    Aftermath (toldBanks (postRaw (mismatchPosting o s) (mismatchOwner o s))) (reportMismatch o s) := by
  rw [reportMismatch_eq]
  exact (aftermath_post ..).trans (aftermath_mismatchAfter ..)

end Sys2Proof.Machine
end

