-- ==== Sys2Proof/Proofs/Readbacks.lean ====
section
/-! PROOFS: read-back supervision, and a mismatch as its owner takes it (chapters 03, 05, 06, 07 and 11). -/

open Sys2Proof Sys2Proof.Machine

namespace Sys2Proof.Machine

/-! ### A supervision context written -/

/-- A write of a supervision context changes the outputs alone. -/
theorem setSup_eq (s : State) (o : Output) (v : Supervision) :
    s.setSup o v = { s with out := (s.setSup o v).out } := by cases o <;> rfl

theorem bay_setSup (s : State) (o : Output) (v : Supervision) (n : Fin 8) : (s.setSup o v).bay n = s.bay n := by
  rw [setSup_eq]
  rfl

/-- The Bay Supervisor's part of a read-back changes bays alone. -/
theorem handReadback_eq (o : Output) (level : Bool) (s : State) :
    handReadback o level s = { s with bays := (handReadback o level s).bays } := by
  unfold handReadback
  split
  · split <;> rfl
  · rfl

/-- A contactor seen open while commanded off is confirmed open (R61). -/
theorem bay_handReadback (o : Output) (level : Bool) (s : State) (m : Fin 8) :
    (handReadback o level s).bay m = { s.bay m with confirmedOpen :=
      (s.bay m).confirmedOpen || (decide (o = .contactor m) && !level && !(s.sup o).command) } := by
  cases o with
  | contactor n =>
    unfold handReadback
    dsimp only
    by_cases e : m = n
    · subst e
      cases opened : (!level && !(s.sup (.contactor m)).command) <;> simp [opened]
    · have apart : ¬(Output.contactor n = .contactor m) := fun h => e (Output.contactor.inj h).symm
      split <;> simp [apart, e]
  | _ => simp [handReadback]

theorem onReadback_cases (v : Supervision) (level : Bool) :
    (v.window ≠ none → v.onReadback level = { v with readback := level }) ∧
    (v.window = none → level = v.command →
      v.onReadback level = { v with readback := level, disagree := none, reported := false }) ∧
    (v.window = none → level ≠ v.command → v.reported = false →
      v.onReadback level = { v with readback := level, disagree := some 250 }) ∧
    (v.window = none → level ≠ v.command → v.reported = true → v.onReadback level = { v with readback := level }) := by
  unfold Supervision.onReadback
  refine ⟨fun runs => ?_, fun ended agrees => ?_, fun ended differs fresh => ?_, fun ended differs told => ?_⟩
  · simp [Option.isSome_iff_ne_none.2 runs]
  · simp [ended, agrees]
  · simp [ended, differs, fresh, Config.disagreeMs]
  · simp [ended, differs, told]

/-! ### Expiries of the supervision timers -/

section

variable {o : Output} {s : State} (on : s.run = true)

include on

theorem readbackWindow_idle (idle : (s.sup o).window ≠ some 0) : exec (.readbackWindowExpiry o) s = .next s :=
  event_next on _ (if_neg idle)

theorem readbackWindow_agrees (due : (s.sup o).window = some 0) (agrees : (s.sup o).readback = (s.sup o).command) :
    exec (.readbackWindowExpiry o) s = .next (s.setSup o { s.sup o with window := none }) :=
  event_next on _ ((if_pos due).trans (if_pos agrees))

theorem readbackWindow_differs (due : (s.sup o).window = some 0) (differs : (s.sup o).readback ≠ (s.sup o).command) :
    exec (.readbackWindowExpiry o) s =
      .next (reportMismatch o (s.setSup o { s.sup o with window := none, reported := true })) :=
  event_next on _ ((if_pos due).trans (if_neg differs))

theorem disagreement_idle (idle : (s.sup o).disagree ≠ some 0) : exec (.disagreementTimerExpiry o) s = .next s :=
  event_next on _ (if_neg idle)

theorem disagreement_due (due : (s.sup o).disagree = some 0) : exec (.disagreementTimerExpiry o) s =
    .next (reportMismatch o (s.setSup o { s.sup o with disagree := none, reported := true })) :=
  event_next on _ (if_pos due)

end

/-! ### The owner's part -/

theorem lessPacks_stuckPack (n : Fin 8) (s : State) : (stuckPack n s).lessPacks = s.lessPacks := by
  unfold stuckPack
  split
  · rfl
  · split
    · exact lessPacks_transition ..
    · exact lessPacks_transition ..
    · rfl
    · rfl

/-- The owner's part leaves the banks, the Feed Controller and what no mismatch reaches. -/
theorem mismatchOwner_frame (o : Output) (s : State) : (mismatchOwner o s).banks = s.banks ∧
    (mismatchOwner o s).feed = s.feed ∧ (mismatchOwner o s).aside = s.aside := by
  cases o with
  | contactor n =>
    have packs := lessPacks_stuckPack n s
    unfold mismatchOwner
    dsimp only
    split
    · rw [pauseBay_eq]
      exact ⟨rfl, rfl, rfl⟩
    · rw [faultBay_eq]
      generalize stuckPack n s = t at packs
      exact ⟨(congrArg State.banks packs :), (congrArg State.feed packs :), (congrArg State.aside packs :)⟩
  | _ => exact ⟨rfl, rfl, rfl⟩

theorem mismatchOwner_elsewhere {o : Output} (h : ∀ n, o ≠ .contactor n) (s : State) : mismatchOwner o s = s := by
  cases o with
  | contactor n => exact absurd rfl (h n)
  | _ => rfl

theorem Supervision.Unexpired.contactorTo {s t : State} {n : Fin 8} {on : Bool} (out : t.out = s.out.contactorTo n on)
    (o : Output) (h : (s.sup o).Unexpired) : (t.sup o).Unexpired := by
  cases o with
  | contactor m =>
    simp only [State.sup, out, Outputs.contactorTo, vget_vset] at h ⊢
    split
    · next e => exact e ▸ h.setCommand on
    · exact h
  | _ =>
    simp only [State.sup, out] at h ⊢
    exact h

theorem mismatchOwner_timers (o p : Output) (s : State) (h : (s.sup p).Unexpired) :
    ((mismatchOwner o s).sup p).Unexpired := by
  cases o with
  | contactor n =>
    have packs := lessPacks_stuckPack n s
    unfold mismatchOwner
    dsimp only
    split
    · rw [pauseBay_eq]
      exact .contactorTo (s := s) (n := n) (on := false) rfl p h
    · rw [faultBay_eq]
      have out : (stuckPack n s).out = s.out := by
        generalize stuckPack n s = t at packs
        exact (congrArg State.out packs :)
      exact .contactorTo (s := s) (n := n) (on := false) (congrArg (·.contactorTo n false) out) p h
  | _ => exact h

end Sys2Proof.Machine

theorem readbackChangesAreSupervised : Claim.ReadbackChangesAreSupervised := by
  intro o level s on v c
  have next : exec c s = .next (takeReadback o level s) := congrArg Host.Outcome.next (if_pos on)
  refine ⟨fun same => ?_, fun changed => ?_⟩
  · rw [next, takeReadback, if_pos same]
  · let w := s.setSup o (v.onReadback level)
    have taken : takeReadback o level s = handReadback o level w := if_neg changed
    have framed := handReadback_eq o level w
    have sup : ∀ p, (handReadback o level w).sup p = w.sup p := fun p => by
      rw [framed]
      cases p <;> rfl
    have its : (handReadback o level w).sup o = v.onReadback level := (sup o).trans (State.sup_setSup_same ..)
    obtain ⟨runs, agrees, fresh, told⟩ := onReadback_cases v level
    refine ⟨_, next.trans (congrArg _ taken), fun p hp => ?_, ?_, ?_, fun n => ?_, fun h => its.trans (runs h),
      fun h k => its.trans (agrees h k), fun h k l => its.trans (fresh h k l), fun h k l => its.trans (told h k l)⟩
    · rw [sup, State.sup_setSup_other s (by simpa using hp)]
    · rw [framed]
      exact State.setSup_lineFault ..
    · have out : (handReadback o level w).out = w.out := (congrArg State.out framed :)
      rw [out]
      exact framed.trans (congrArg (fun x : State => { x with bays := (handReadback o level w).bays }) (setSup_eq ..))
    · rw [bay_handReadback, bay_setSup, State.sup_setSup_same, Supervision.onReadback_command]

namespace Sys2Proof.Machine

/-! ### A mismatch reported -/

/-- The bank, the code, the severity and the detail of a mismatch stand in its posting. -/
theorem mismatchPosting_row (o : Output) (s : State) :
    let row := mismatchRow o (s.sup o).command
    let p := mismatchPosting o s
    p.code.bank = row.1 ∧ p.code = row.2.1 ∧ p.severity = row.2.2.1 ∧ p.detail = row.2.2.2 := by
  refine ⟨?_, rfl, rfl, rfl⟩
  show (mismatchRow o (s.sup o).command).2.1.bank = _
  cases o <;> cases (s.sup _).command <;> rfl

/-- A mismatch of the FEED bank is UNCONTAINED (R110, R128). -/
theorem mismatchRow_feed {o : Output} {on : Bool} (feed : (mismatchRow o on).1 = .feed) :
    (mismatchRow o on).2.2.1 = .uncontained ∧ (o = .permit ∨ o = .upperGate ∨ o = .lowerGate) := by
  cases o <;> cases on <;> simp [mismatchRow] at feed ⊢

section

variable {o : Output} {s : State}

/-- The banks before what follows the posting. -/
theorem banks_toldBanks_postRaw (o : Output) (s : State) :
    (toldBanks (postRaw (mismatchPosting o s) (mismatchOwner o s))).banks =
      s.banks.posted (mismatchPosting o s) (mismatchOwner o s).now := by
  obtain ⟨banks, _, _⟩ := mismatchOwner_frame o s
  show (postRaw _ _).banks = _
  rw [postRaw_banks, banks]
  rfl

theorem aside_reportMismatch (o : Output) (s : State) : (reportMismatch o s).aside = s.aside := by
  obtain ⟨_, _, aside⟩ := mismatchOwner_frame o s
  rw [(aftermath_reportMismatch o s).aside, ← aside]
  show (postRaw _ _).aside = _
  rw [postRaw_eq]
  rfl

/-- The Feed Controller knows the banks after a mismatch (R180). -/
theorem inputs_reportMismatch (o : Output) (s : State) :
    (reportMismatch o s).feed.inputs.uncontained = bankAnswer (reportMismatch o s).banks := by
  have after := aftermath_reportMismatch o s
  have fire := after.others .fire nofun nofun
  have atmosphere := after.others .atmosphere nofun nofun
  simp only [Banks.get] at fire atmosphere
  rw [bankAnswer, fire, atmosphere, after.uncontained, after.inputs]
  rfl

theorem timers_reportMismatch (p : Output) (h : (s.sup p).Unexpired) : ((reportMismatch o s).sup p).Unexpired := by
  refine (aftermath_reportMismatch o s).timers p ?_
  have raw : (toldBanks (postRaw (mismatchPosting o s) (mismatchOwner o s))).sup p = (mismatchOwner o s).sup p :=
    sup_postRaw ..
  rw [raw]
  exact mismatchOwner_timers o p s h

/-- An empty bank holds the mismatch that it records (R176). -/
theorem held_reportMismatch (empty : (s.banks.get (mismatchPosting o s).code.bank).held = none)
    (recorded : (s.banks.get (mismatchPosting o s).code.bank).enabled (mismatchPosting o s).code = true ∨
      (mismatchPosting o s).severity = .uncontained) (apart : (mismatchPosting o s).code.bank ≠ .records) :
    ((reportMismatch o s).banks.get (mismatchPosting o s).code.bank).held =
      some ((mismatchPosting o s).incident (mismatchOwner o s).now) := by
  refine (aftermath_reportMismatch o s).held _ apart _ ?_
  rw [banks_toldBanks_postRaw, Banks.posted, Banks.get_put_same]
  exact Bank.posted_of_empty _ empty recorded

theorem bank_reportMismatch {k : BankId} (own : k ≠ (mismatchPosting o s).code.bank) (feed : k ≠ .feed)
    (records : k ≠ .records) : (reportMismatch o s).banks.get k = s.banks.get k := by
  rw [(aftermath_reportMismatch o s).others k feed records, banks_toldBanks_postRaw, Banks.posted,
    Banks.get_put_other _ own]

theorem bankAnswer_feed {b : Banks} (h : b.feed.uncontained = true) : bankAnswer b = true := by simp [bankAnswer, h]

/-- No permit while a bank holds an UNCONTAINED incident (R108). -/
theorem permitHolds_uncontained {i : PermitInputs} (h : i.uncontained = true) : permitHolds i = false := by
  simp [permitHolds, failing, h]

/-- A mismatch of a gate or of the permit takes the permit off (R108). -/
theorem permit_reportMismatch (feed : (mismatchRow o (s.sup o).command).1 = .feed) :
    (reportMismatch o s).feed.permit = false := by
  obtain ⟨worst, which⟩ := mismatchRow_feed feed
  obtain ⟨bank, _, severity, _⟩ := mismatchPosting_row o s
  generalize hp : mismatchPosting o s = p at bank severity
  have held : (postRaw p (mismatchOwner o s)).banks.feed.uncontained = true := by
    rw [postRaw_banks, bank, feed]
    exact Bank.posted_uncontained _ (severity.trans worst)
  have off : (evalPermit (post p (mismatchOwner o s))).feed.permit = false := by
    rw [evalPermit_permit, (aftermath_post p (mismatchOwner o s)).inputs]
    exact permitHolds_uncontained (bankAnswer_feed held)
  rw [reportMismatch_eq, hp]
  rcases which with rfl | rfl | rfl
  · exact off
  · exact off
  · simp only [mismatchAfter]
    split
    · rw [permit_blockLock]
      exact off
    · exact off

/-- Bays and setpoints after a mismatch are as its owner left them. -/
theorem bays_reportMismatch (o : Output) (s : State) : (reportMismatch o s).bays = (mismatchOwner o s).bays ∧
    (reportMismatch o s).link = (mismatchOwner o s).link := by
  have after := aftermath_reportMismatch o s
  have raw := postRaw_eq (mismatchPosting o s) (mismatchOwner o s)
  exact ⟨after.bays.trans (congrArg State.bays raw :), after.link.trans (congrArg State.link raw :)⟩

/-- The lower gate alone reaches a pack beyond its owner's part: that of the lock (R128). -/
theorem packs_reportMismatch (gate : o ≠ .lowerGate) (s : State) :
    (reportMismatch o s).packs = (mismatchOwner o s).packs := by
  have posted := lessBanks_post (mismatchPosting o s) (mismatchOwner o s)
  have frame : (reportMismatch o s).lessBanks = (mismatchOwner o s).lessBanks := by
    rw [reportMismatch_eq]
    cases o with
    | permit => exact (lessBanks_evalPermit _).trans posted
    | upperGate => exact (lessBanks_evalPermit _).trans posted
    | lowerGate => exact absurd rfl gate
    | _ => exact posted
  generalize reportMismatch o s = t at frame
  exact (congrArg State.packs frame :)

/-- A bay whose contactor is stuck (R75). -/
theorem mismatchOwner_stuck {n : Fin 8} {s : State} (off : (s.sup (.contactor n)).command = false) :
    (mismatchOwner (.contactor n) s).bays =
      vset s.bays n ((s.bay n).faultedBy (s.sup (.contactor n)) .outputMismatch) := by
  have packs := lessPacks_stuckPack n s
  unfold mismatchOwner
  simp only [off, Bool.false_eq_true, if_false]
  rw [faultBay_eq]
  generalize stuckPack n s = t at packs
  have bays : t.bays = s.bays := (congrArg State.bays packs :)
  have out : t.out = s.out := (congrArg State.out packs :)
  simp only [State.bay, State.sup, bays, out]

/-- A bay whose contactor has failed to close (R75). -/
theorem mismatchOwner_failed {n : Fin 8} {s : State} (on : (s.sup (.contactor n)).command = true) :
    mismatchOwner (.contactor n) s = pauseBay n .output s := by simp only [mismatchOwner, on, if_true]

/-- One bay written, the others left. -/
theorem bay_of_written {s t : State} {n : Fin 8} {b : Bay} (written : t.bays = vset s.bays n b) :
    (∀ m, m ≠ n → t.bay m = s.bay m) ∧ t.bay n = b := by
  refine ⟨fun m hm => ?_, ?_⟩
  · rw [State.bay, written, vget_vset_other _ hm]
    rfl
  · rw [State.bay, written, vget_vset_same]

theorem mismatchRow_apart (o : Output) (on : Bool) : (mismatchRow o on).1 ≠ .records := by
  cases o <;> cases on <;> exact nofun

end

end Sys2Proof.Machine

theorem mismatchesReachTheirOwners : Claim.MismatchesReachTheirOwners := by
  intro o s on told v row b reported
  obtain ⟨known, lit⟩ := told
  have report : ∀ x : Supervision, x.command = v.command → x.Unexpired →
      reported (reportMismatch o (s.setSup o x)) := by
    intro x command timers
    have write := setSup_eq s o x
    have sup : (s.setSup o x).sup o = x := State.sup_setSup_same ..
    have law : LineFaultLaw (s.setSup o x) := fun _ => by
      rw [State.setSup_lineFault, State.setSup_banks]
      exact lit
    have bays : (s.setSup o x).bays = s.bays := State.setSup_bays ..
    have packs : (s.setSup o x).packs = s.packs := State.setSup_packs ..
    have link : (s.setSup o x).link = s.link := State.setSup_link ..
    have banks : (s.setSup o x).banks = s.banks := State.setSup_banks ..
    have run : (s.setSup o x).run = true := (State.setSup_run ..).trans on
    have aside : (s.setSup o x).aside = s.aside := by rw [write]; rfl
    generalize s.setSup o x = w at *
    have its : mismatchRow o (w.sup o).command = row := by rw [sup, command]
    obtain ⟨bank, code, severity, detail⟩ := mismatchPosting_row o w
    rw [its] at bank code severity detail
    have apart : (mismatchPosting o w).code.bank ≠ .records := by
      rw [bank]
      exact mismatchRow_apart o v.command
    have lawful := (steady_reportMismatch o w).lit law ((follows_reportMismatch o w).run.trans run)
    obtain ⟨window, disagree⟩ : ((reportMismatch o w).sup o).Unexpired :=
      timers_reportMismatch o (by rw [sup]; exact timers)
    obtain ⟨cls, lot, atm, fire⟩ : (reportMismatch o w).cls = s.cls ∧
        (reportMismatch o w).lot.shredLot = s.lot.shredLot ∧ (reportMismatch o w).atm = s.atm ∧
          (reportMismatch o w).fire = s.fire := by
      simpa only [State.aside, Prod.mk.injEq] using (aside_reportMismatch o w).trans aside
    obtain ⟨left, sent⟩ := bays_reportMismatch o w
    refine ⟨cls, lot, atm, fire, ⟨inputs_reportMismatch o w, lawful⟩, window, disagree, fun empty recorded => ?_,
      fun k own feed records => ?_, fun feed => permit_reportMismatch (its.symm ▸ feed), fun elsewhere => ?_,
      fun n contactor => ?_⟩
    · rw [← bank]
      refine ⟨_, held_reportMismatch ?_ ?_ apart, code, severity, detail⟩
      · rw [bank, banks]
        exact empty
      · rw [bank, banks, code, severity]
        exact recorded
    · rw [← banks]
      exact bank_reportMismatch (bank.symm ▸ own) feed records
    · rw [mismatchOwner_elsewhere elsewhere] at left sent
      refine ⟨left.trans bays, sent.trans link, fun gate => ?_⟩
      rw [packs_reportMismatch gate, mismatchOwner_elsewhere elsewhere, packs]
    · subst contactor
      have same : w.bay n = s.bay n := by rw [State.bay, bays]; rfl
      cases commanded : v.command with
      | false =>
        have written := left.trans (mismatchOwner_stuck (by rw [sup, command, commanded]))
        rw [same, bays] at written
        obtain ⟨others, bay⟩ := bay_of_written written
        refine ⟨others, fun _ => ⟨?_, fun sound => ?_⟩, nofun⟩ <;> rw [bay]
        · rfl
        · exact if_neg sound
      | true =>
        have failed := mismatchOwner_failed (n := n) (s := w) (by rw [sup, command, commanded])
        have held := packs_reportMismatch (o := .contactor n) nofun w
        rw [failed, pauseBay_eq] at left held
        rw [same, bays] at left
        obtain ⟨others, bay⟩ := bay_of_written left
        refine ⟨others, nofun, fun _ => ⟨?_, ?_, held.trans packs⟩⟩ <;> rw [bay] <;> rfl
  refine ⟨readbackWindow_idle on, readbackWindow_agrees on, fun due differs fresh => ?_, disagreement_idle on,
    fun due runs => ?_⟩
  · exact ⟨_, readbackWindow_differs on due differs, report _ rfl ⟨nofun, fresh⟩⟩
  · exact ⟨_, disagreement_due on due, report _ rfl ⟨runs, nofun⟩⟩

/-- Settles O33: the supervision context after a read-back, and a mismatch as posting and owner's part. -/
theorem readbacksAreSupervised : Obligations.ReadbacksAreSupervised :=
  ⟨readbackChangesAreSupervised, mismatchesReachTheirOwners⟩

end

