-- ==== Sys2Proof/Proofs/Absence.lean ====
section
/-! PROOFS: what the absence of a station reaches (R74, R122, R146, R191). -/

open Sys2Proof Sys2Proof.Machine

namespace Sys2Proof.Machine

/-! ### The port -/

theorem PortCtx.eq_of_mute {c d : PortCtx} (h : c.mute = d.mute) :
    c = { d with notices := c.notices, overflowed := c.overflowed } := by
  cases c
  cases d
  simpa [PortCtx.mute] using h

/-- A port in a state that agrees in its core: its notices may differ. -/
theorem port_of_core {s t : State} (h : t.core = s.core) (r : Port) :
    t.port r = { s.port r with notices := (t.port r).notices, overflowed := (t.port r).overflowed } := by
  refine PortCtx.eq_of_mute ?_
  cases r with
  | line => exact (congrArg (fun x : State => x.ports.line) h :)
  | fire => exact (congrArg (fun x : State => x.ports.fire) h :)
  | custody => exact (congrArg (fun x : State => x.ports.custody) h :)

/-- STATION_ABSENT of a port (R191). -/
def absentPosting (p : Port) : Posting :=
  { code := .stationAbsent, severity := absentSeverity p, detail := portNumber p }

theorem absentPosting_mild (p : Port) : (absentPosting p).severity ≠ .uncontained := by cases p <;> exact nofun

/-- A port without its station. -/
def PortCtx.absent (c : PortCtx) : PortCtx := { c with present := false, timer := none }

/-- The port ABSENT, the incident posted and the others told, before the blocks act on it. -/
def absentState (p : Port) (s : State) : State :=
  notify (otherPorts p) (.presence p false) (post (absentPosting p) (s.setPort p (s.port p).absent))

theorem becomeAbsent_eq (p : Port) (s : State) : becomeAbsent p s = deliverPresence p (absentState p s) := rfl

theorem core_absentState (p : Port) (s : State) : (absentState p s).core = (s.setPort p (s.port p).absent).core := by
  rw [absentState, core_notify, core_post]

theorem port_absentState (p : Port) (s : State) : ((absentState p s).port p).present = false := by
  rw [port_of_core (core_absentState p s) p, State.port_setPort_same]
  rfl

/-- The LINKS bank is not of those that the Feed Controller is told. -/
theorem absentState_eq {s : State} (told : Told s) (p : Port) : absentState p s =
    { s with
      banks := { s.banks with links := s.banks.links.posted (absentPosting p) s.now }
      out := { s.out with lineFault := (absentState p s).out.lineFault }
      ports := (absentState p s).ports } := by
  have write : ∀ c, s.setPort p c = { s with ports := (s.setPort p c).ports } := fun c => by cases p <;> rfl
  have knows : Told (s.setPort p (s.port p).absent) := by
    rw [write]
    exact told
  have posted := post_told knows (p := absentPosting p) rfl
  unfold absentState
  rw [notify_eq, posted, write]
  rfl

/-! ### The line station -/

/-- The state without what the absence of the line station may change, but for feed and banks. -/
def State.lessAbsence (s : State) : State :=
  { s with
    bays := Vector.replicate 8 Bay.initial
    feed := Feed.initial
    banks := Banks.initial
    ports := s.ports.quiet
    out := Outputs.initial
    link := FieldLink.initial }

theorem State.lessAbsence_of_lessBays {s t : State} (h : t.lessBays = s.lessBays) : t.lessAbsence = s.lessAbsence := by
  have e := congrArg State.lessAbsence h
  exact e

theorem State.lessAbsence_of_lessFeed {s t : State} (h : t.lessFeed = s.lessFeed) : t.lessAbsence = s.lessAbsence := by
  have e := congrArg State.lessAbsence h
  exact e

theorem eq_of_lessAbsence {s t : State} (h : t.lessAbsence = s.lessAbsence)
    (feed : t.feed = { s.feed with lock := t.feed.lock })
    (banks : ∀ k, k ≠ .links → k ≠ .feed → t.banks.get k = s.banks.get k) : t = { s with
      bays := t.bays, feed := { s.feed with lock := t.feed.lock }, out := t.out, link := t.link, ports := t.ports
      banks := { s.banks with links := t.banks.links, feed := t.banks.feed } } := by
  have frame : t = { s with
      bays := t.bays, feed := t.feed, out := t.out, link := t.link, ports := t.ports, banks := t.banks } := by
    obtain ⟨_, _, _, _, _, _, _, _, _, _, _, _, _, _, _, _, _, _, _⟩ := t
    simp only [State.lessAbsence, State.mk.injEq] at h ⊢
    simp_all
  have apart : t.banks = { s.banks with links := t.banks.links, feed := t.banks.feed } := by
    refine Banks.ext_get fun k => ?_
    cases k with
    | links => rfl
    | feed => rfl
    | _ => exact banks _ nofun nofun
  rw [← feed, ← apart]
  exact frame

theorem lessBays_lineAbsentBay (n : Fin 8) (s : State) : (lineAbsentBay n s).lessBays = s.lessBays := by
  unfold lineAbsentBay
  split
  · exact lessBays_pauseBay ..
  · rfl

/-- The bays that pause with the absence of the line station (R74). -/
@[irreducible] def linePaused (s : State) : State := eight.foldl (fun t n => lineAbsentBay n t) s

theorem lessBays_linePaused (s : State) : (linePaused s).lessBays = s.lessBays := by
  unfold linePaused
  induction eight generalizing s with
  | nil => rfl
  | cons n l ih => exact (ih _).trans (lessBays_lineAbsentBay n s)

/-- Bay `n` and its contactor stay as they are from `s` to `t`. -/
structure LoadStays (n : Fin 8) (s t : State) : Prop where
  bay : t.bay n = s.bay n
  contactor : t.sup (.contactor n) = s.sup (.contactor n)

theorem lineAbsentBay_stays {n m : Fin 8} (other : n ≠ m) (s : State) : LoadStays n s (lineAbsentBay m s) := by
  unfold lineAbsentBay
  split
  · rw [pauseBay_eq]
    exact ⟨vget_vset_other _ other _, vget_vset_other _ other _⟩
  · exact ⟨rfl, rfl⟩

theorem foldl_lineAbsentBay_stays {l : List (Fin 8)} {n : Fin 8} (away : n ∉ l) (s : State) :
    LoadStays n s (l.foldl (fun t n => lineAbsentBay n t) s) := by
  induction l generalizing s with
  | nil => exact ⟨rfl, rfl⟩
  | cons m l ih =>
    obtain ⟨other, away⟩ := List.ne_and_not_mem_of_not_mem_cons away
    have first := lineAbsentBay_stays other s
    have rest := ih away (lineAbsentBay m s)
    exact ⟨rest.bay.trans first.bay, rest.contactor.trans first.contactor⟩

/-- Each bay pauses by itself, whatever the others do. -/
theorem linePaused_at (n : Fin 8) (s : State) :
    ∃ t, LoadStays n s t ∧ LoadStays n (lineAbsentBay n t) (linePaused s) := by
  obtain ⟨pre, post, e, notPre, notPost⟩ := eight_split n
  refine ⟨pre.foldl (fun t n => lineAbsentBay n t) s, foldl_lineAbsentBay_stays notPre s, ?_⟩
  rw [linePaused, e, List.foldl_append, List.foldl_cons]
  exact foldl_lineAbsentBay_stays notPost _

theorem linePaused_idle {n : Fin 8} {s : State} (idle : (s.bay n).state ≠ .discharging) :
    (linePaused s).bay n = s.bay n := by
  obtain ⟨t, before, after⟩ := linePaused_at n s
  have still : lineAbsentBay n t = t := if_neg (by rw [before.bay]; exact idle)
  rw [after.bay, still, before.bay]

theorem bay_pauseBay (n : Fin 8) (cause : PauseCause) (s : State) :
    (pauseBay n cause s).bay n = (s.bay n).pausedBy (s.sup (.contactor n)) cause := by
  rw [pauseBay_eq]
  exact vget_vset_same ..

theorem command_pauseBay (n : Fin 8) (cause : PauseCause) (s : State) :
    ((pauseBay n cause s).sup (.contactor n)).command = false := by
  have off : (pauseBay n cause s).sup (.contactor n) = (s.sup (.contactor n)).setCommand false := by
    rw [pauseBay_eq]
    exact vget_vset_same ..
  rw [off, Supervision.setCommand_command]

theorem linePaused_running {n : Fin 8} {s : State} (running : (s.bay n).state = .discharging) :
    (linePaused s).bay n = (s.bay n).pausedBy (s.sup (.contactor n)) .link ∧
      ((linePaused s).sup (.contactor n)).command = false := by
  obtain ⟨t, before, after⟩ := linePaused_at n s
  have paused : lineAbsentBay n t = pauseBay n .link t := if_pos (by rw [before.bay]; exact running)
  rw [after.bay, after.contactor, paused, bay_pauseBay, before.bay, before.contactor]
  exact ⟨rfl, command_pauseBay ..⟩

/-- A lock on its way is held (R122). -/
@[irreducible] def lineHeld (s : State) : State :=
  if s.feed.lock.movesByPermit || s.feed.lock.movesBack then holdLock 2 s else s

theorem deliverPresence_line {s : State} (absent : s.ports.line.present = false) :
    deliverPresence .line s = lineHeld (linePaused s) := by
  unfold deliverPresence lineHeld linePaused
  dsimp only
  rw [if_neg (ne_true_of_eq_false absent)]

theorem lineHeld_lock (s : State) : (lineHeld s).feed = { s.feed with lock :=
    if s.feed.lock.movesByPermit = true ∨ s.feed.lock.movesBack = true then
      { s.feed.lock with state := .held, purgeTimer := none } else s.feed.lock } := by
  unfold lineHeld
  split
  case isTrue moves => rw [holdLock_feed, if_pos (by simpa using moves)]
  case isFalse stands => rw [if_neg (by simpa using stands)]

theorem lineHeld_bank (s : State) {k : BankId} (other : k ≠ .feed) : (lineHeld s).banks.get k = s.banks.get k := by
  unfold lineHeld
  split
  · exact holdLock_bank 2 s other
  · rfl

theorem lessFeed_lineHeld (s : State) : (lineHeld s).lessFeed = s.lessFeed := by
  unfold lineHeld
  split
  · exact lessFeed_holdLock 2 s
  · rfl

/-! ### The fire station -/

/-- What the absence of the fire station leaves, zones aside; an absent station and a permit off stay so. -/
structure Dimmed (s t : State) : Prop where
  core : t.core = s.core
  links : t.banks.links = s.banks.links
  detectors : t.fire.detectors = s.fire.detectors
  queue : t.feed.queue = s.feed.queue
  station : t.feed.inputs.firePresent = s.feed.inputs.firePresent
  off : s.feed.inputs.firePresent = false → s.feed.permit = false → t.feed.permit = false

/-- The same, the zones as they were. -/
structure Dark (s t : State) : Prop extends Dimmed s t where
  zones : t.fire.zones = s.fire.zones

namespace Dimmed

variable {s t u : State}

theorem refl (s : State) : Dimmed s s := ⟨rfl, rfl, rfl, rfl, rfl, fun _ => id⟩

theorem trans (h : Dimmed s t) (k : Dimmed t u) : Dimmed s u where
  core := k.core.trans h.core
  links := k.links.trans h.links
  detectors := k.detectors.trans h.detectors
  queue := k.queue.trans h.queue
  station := k.station.trans h.station
  off absent o := k.off (h.station.trans absent) (h.off absent o)

theorem present (h : Dimmed s t) : t.ports.fire.present = s.ports.fire.present :=
  (congrArg (fun x : State => x.ports.fire.present) h.core :)

end Dimmed

namespace Dark

variable {s t u : State}

theorem refl (s : State) : Dark s s := ⟨.refl s, rfl⟩

theorem trans (h : Dark s t) (k : Dark t u) : Dark s u :=
  ⟨h.toDimmed.trans k.toDimmed, k.zones.trans h.zones⟩

theorem ite {c : Prop} [Decidable c] (ht : c → Dark s t) (hu : ¬c → Dark s u) : Dark s (if c then t else u) := by
  split
  · exact ht ‹_›
  · exact hu ‹_›

/-- A step within the frame of a posting. -/
theorem of_frame (frame : t.lessBanks = s.lessBanks) (links : t.banks.links = s.banks.links)
    (station : t.feed.inputs.firePresent = s.feed.inputs.firePresent)
    (off : s.feed.inputs.firePresent = false → s.feed.permit = false → t.feed.permit = false) : Dark s t where
  core := (congrArg State.core frame :)
  links := links
  detectors := (congrArg (fun x : State => x.fire.detectors) frame :)
  queue := (congrArg (fun x : State => x.feed.queue) frame :)
  station := station
  off := off
  zones := (congrArg (fun x : State => x.fire.zones) frame :)

/-- A step that leaves the Feed Controller. -/
theorem of_feed (frame : t.lessBanks = s.lessBanks) (links : t.banks.links = s.banks.links)
    (feed : t.feed.inputs = s.feed.inputs ∧ t.feed.permit = s.feed.permit) : Dark s t := by
  obtain ⟨inputs, permit⟩ := feed
  exact .of_frame frame links (by rw [inputs]) fun _ off => permit.trans off

end Dark

theorem permitHolds_absent {i : PermitInputs} (h : i.firePresent = false) : permitHolds i = false := by
  simp [permitHolds, failing, h]

theorem dark_notify (ps : List Port) (w : NoticeBody) (s : State) : Dark s (notify ps w s) :=
  .of_feed (lessBanks_notify ps w s) (by rw [notify_banks]) ⟨by rw [notify_feed], by rw [notify_feed]⟩

theorem dark_setLock (l : Lock) (s : State) : Dark s (setLock l s) :=
  .of_feed (lessBanks_setLock l s) (by rw [setLock_banks]) ⟨by rw [setLock_feed], by rw [setLock_feed]⟩

theorem dark_postRaw {p : Posting} (other : .links ≠ p.code.bank) (s : State) : Dark s (postRaw p s) := by
  refine .of_feed (lessBanks_postRaw p s) ?_ ⟨by rw [postRaw_feed], by rw [postRaw_feed]⟩
  rw [postRaw_banks]
  exact Banks.get_put_other _ other _

theorem dark_holdLock (c : Nat) (s : State) : Dark s (holdLock c s) := by
  refine (dark_setLock ..).trans (dark_postRaw ?_ _)
  exact nofun

/-- An evaluation finds no permit while the fire station is absent (R108). -/
theorem dark_evalPermit (s : State) : Dark s (evalPermit s) := by
  refine .of_frame (lessBanks_evalPermit s) (evalPermit_bank s (k := .links) nofun) (by rw [evalPermit_inputs])
    fun absent _ => ?_
  rw [evalPermit_permit]
  exact permitHolds_absent absent

theorem dark_inputs {s : State} {i : PermitInputs} (station : i.firePresent = s.feed.inputs.firePresent) :
    Dark s { s with feed.inputs := i } := .of_frame rfl rfl station fun _ => id

theorem dark_deliverBanks (s : State) : Dark s (deliverBanks s) := by
  unfold deliverBanks
  refine .ite (fun _ => .refl s) fun _ => ?_
  have told : Dark s { s with feed.inputs.uncontained := bankAnswer s.banks } := dark_inputs rfl
  exact told.trans (dark_evalPermit _)

theorem dark_post {p : Posting} (other : .links ≠ p.code.bank) (s : State) : Dark s (post p s) :=
  (dark_postRaw other s).trans (dark_deliverBanks _)

theorem dark_of_packs {s t : State} (frame : t.lessPacks = s.lessPacks) : Dark s t where
  core := State.core_of_lessPacks frame
  links := (congrArg (fun x : State => x.banks.links) frame :)
  detectors := (congrArg (fun x : State => x.fire.detectors) frame :)
  queue := (congrArg (fun x : State => x.feed.queue) frame :)
  station := (congrArg (fun x : State => x.feed.inputs.firePresent) frame :)
  off _ h := ((congrArg (fun x : State => x.feed.permit) frame :).trans h)
  zones := (congrArg (fun x : State => x.fire.zones) frame :)

theorem dark_feedUncertain (d : Nat) (h : Handle) (p : Pack) (s : State) : Dark s (feedUncertain d h p s) := by
  refine .trans ?_ (dark_postRaw ?_ _)
  · exact ⟨⟨rfl, rfl, rfl, rfl, rfl, fun _ => id⟩, rfl⟩
  · exact nofun

theorem dark_blockLock (c : QuarantineCause) (d : Option Nat) (s : State) : Dark s (blockLock c d s) := by
  unfold blockLock
  split
  · exact .refl s
  case h_2 h _ =>
    have quarantined : Dark s (quarantinePack h.index c s) := dark_of_packs (lessPacks_quarantinePack ..)
    dsimp only
    refine .trans ?_ (dark_setLock ..)
    split
    · exact quarantined.trans (dark_feedUncertain ..)
    · exact quarantined

theorem dark_releaseLock (s : State) : Dark s (releaseLock s) := .ite (fun _ => dark_blockLock ..) fun _ => .refl s

theorem dark_deliverFeedZone (z : Fin 8) (st : ZoneState) (s : State) : Dark s (deliverFeedZone z st s) := by
  unfold deliverFeedZone
  refine .trans (.trans (t := if z = 5 then { s with feed.inputs.z6 := st } else { s with feed.inputs.z7 := st }) ?_ ?_)
    (dark_evalPermit _)
  · exact .ite (fun _ => dark_inputs rfl) fun _ => dark_inputs rfl
  · exact .ite (fun _ => dark_holdLock ..) fun _ => .refl _

theorem dark_deliverPurge (released : Bool) (s : State) : Dark s (deliverPurge released s) :=
  ⟨⟨core_deliverPurge .., rfl, rfl, rfl, rfl, fun _ => id⟩, rfl⟩

/-- A zone that was alarmed before reaches no bay (R154). -/
theorem dark_deliverZone {old : ZoneState} (alarmed : old.alarmed = true) (z : Fin 8) (s : State) :
    Dark s (deliverZone z old s) := by
  unfold deliverZone
  extract_lets st s1 s2 s3 s4
  have bays : s1 = s := if_neg (by simp [alarmed])
  have feed : Dark s s2 := by
    simp only [s2, bays]
    exact .ite (fun _ => dark_deliverFeedZone ..) fun _ => .refl s
  have lock : Dark s2 s3 := .ite (fun _ => dark_releaseLock _) fun _ => .refl s2
  have purge : Dark s3 s4 := .ite (fun _ => dark_deliverPurge ..) fun _ => .refl s3
  exact ((feed.trans lock).trans purge).trans (dark_notify ..)

theorem dimmed_setZone (z : Fin 8) (q : Zone) (s : State) : Dimmed s (s.setZone z q) :=
  ⟨rfl, rfl, rfl, rfl, rfl, fun _ => id⟩

/-- A zone in ALARM goes to release without its station (R143, R146). -/
theorem evalRelease_absent {z : Fin 8} {s : State} (alarm : (s.zone z).state = .alarm)
    (absent : s.ports.fire.present = false) :
    ∃ q, ReleaseJudged (s.zone z) false q ∧ Dark (s.setZone z q) (evalRelease z s) := by
  have goes : (s.zone z).state = .alarm ∧ goesToRelease s z = true := ⟨alarm, by simp [goesToRelease, absent]⟩
  unfold evalRelease
  dsimp only
  rw [if_pos goes]
  have alarmed : (s.zone z).state.alarmed = true := by rw [alarm]; rfl
  by_cases delay : (s.zone z).delay = 0
  · rw [if_pos delay]
    refine ⟨{ s.zone z with state := .released, hold := false, timer := none },
      ⟨nofun, fun _ => ⟨fun h => ?_, fun _ => rfl⟩⟩, ?_⟩
    · omega
    · refine .trans (.trans ?_ (dark_post ?_ _)) (dark_deliverZone alarmed z _)
      · exact ⟨⟨core_command .., rfl, rfl, rfl, rfl, fun _ => id⟩, rfl⟩
      · exact nofun
  · rw [if_neg delay]
    exact ⟨_, ⟨nofun, fun _ => ⟨fun _ => rfl, fun h => absurd h delay⟩⟩, dark_deliverZone alarmed z _⟩

/-- A zone without its station: one in ALARM goes to release, a hold of a pending release ends (R146). -/
def AbsentZone (q q' : Zone) : Prop :=
  (q.state = .alarm → ReleaseJudged q false q') ∧ (q.state = .releasePending → q' = { q with hold := false }) ∧
    (q.state ≠ .alarm → q.state ≠ .releasePending → q' = q)

theorem fireAbsentZone_dark {z : Fin 8} {s : State} (absent : s.ports.fire.present = false) :
    ∃ q, AbsentZone (s.zone z) q ∧ Dark (s.setZone z q) (fireAbsentZone z s) := by
  unfold fireAbsentZone
  dsimp only
  split
  case isTrue held =>
    obtain ⟨pending, _⟩ := held
    refine ⟨{ s.zone z with hold := false }, ⟨fun e => ?_, fun _ => rfl, fun _ h => absurd pending h⟩, .refl _⟩
    exact nomatch pending.symm.trans e
  case isFalse free =>
    by_cases alarm : (s.zone z).state = .alarm
    · obtain ⟨q, judged, dark⟩ := evalRelease_absent alarm absent
      refine ⟨q, ⟨fun _ => judged, fun e => ?_, fun h => absurd alarm h⟩, dark⟩
      exact nomatch alarm.symm.trans e
    · have still : evalRelease z s = s := if_neg fun h => alarm h.1
      have same : s.setZone z (s.zone z) = s := by
        have keep : vset s.fire.zones z (vget s.fire.zones z) = s.fire.zones := vset_vget ..
        simp only [State.setZone, State.zone, keep]
      refine ⟨s.zone z, ⟨fun e => absurd e alarm, fun pending => ?_, fun _ _ => rfl⟩, ?_⟩
      · have unheld : (s.zone z).hold = false := by
          cases e : (s.zone z).hold with
          | false => rfl
          | true => exact absurd ⟨pending, e⟩ free
        rw [← unheld]
      · rw [still, same]
        exact .refl s

/-- The zones' parts of the absence, in order. -/
@[irreducible] def firePart (l : List (Fin 8)) (s : State) : State := l.foldl (fun t z => fireAbsentZone z t) s

theorem firePart_dimmed {l : List (Fin 8)} {s : State} (absent : s.ports.fire.present = false) :
    Dimmed s (firePart l s) := by
  unfold firePart
  induction l generalizing s with
  | nil => exact .refl s
  | cons z l ih =>
    obtain ⟨q, _, dark⟩ := fireAbsentZone_dark (z := z) absent
    have first := (dimmed_setZone z q s).trans dark.toDimmed
    exact first.trans (ih (first.present.trans absent))

theorem firePart_elsewhere {l : List (Fin 8)} {s : State} {n : Fin 8} (away : n ∉ l)
    (absent : s.ports.fire.present = false) : (firePart l s).zone n = s.zone n := by
  unfold firePart
  induction l generalizing s with
  | nil => rfl
  | cons z l ih =>
    obtain ⟨other, away⟩ := List.ne_and_not_mem_of_not_mem_cons away
    obtain ⟨q, _, dark⟩ := fireAbsentZone_dark (z := z) absent
    have first := (dimmed_setZone z q s).trans dark.toDimmed
    have kept : (fireAbsentZone z s).zone n = (s.setZone z q).zone n := congrArg (vget · n) dark.zones
    rw [List.foldl_cons, ih away (first.present.trans absent), kept, State.zone_setZone_other _ other]

/-- Each zone is treated by itself, whatever the others do. -/
theorem firePart_zone (n : Fin 8) {s : State} (absent : s.ports.fire.present = false) :
    AbsentZone (s.zone n) ((firePart eight s).zone n) := by
  obtain ⟨pre, post, e, notPre, notPost⟩ := eight_split n
  have parts : firePart eight s = firePart post (fireAbsentZone n (firePart pre s)) := by
    unfold firePart
    rw [e, List.foldl_append, List.foldl_cons]
  have before := firePart_dimmed (l := pre) absent
  have still := before.present.trans absent
  obtain ⟨q, treated, dark⟩ := fireAbsentZone_dark (z := n) still
  have at_n := (dimmed_setZone n q _).trans dark.toDimmed
  have kept : (fireAbsentZone n (firePart pre s)).zone n = ((firePart pre s).setZone n q).zone n :=
    congrArg (vget · n) dark.zones
  rw [firePart_elsewhere notPre absent] at treated
  rw [parts, firePart_elsewhere notPost (at_n.present.trans still), kept, State.zone_setZone_same]
  exact treated

/-- The Feed Controller told the fire port's presence (R108). -/
def fireTold (s : State) : State := { s with feed.inputs.firePresent := s.ports.fire.present }

theorem deliverPresence_fire {s : State} (absent : s.ports.fire.present = false) :
    deliverPresence .fire s = firePart eight (evalPermit (fireTold s)) := by
  unfold deliverPresence firePart
  dsimp only
  rw [if_neg (ne_true_of_eq_false absent)]
  rfl

/-- The absence of the fire station reaches the Feed Controller and the zones (R108, R146). -/
theorem fireAbsence {s : State} (absent : s.ports.fire.present = false) :
    Dimmed (fireTold s) (deliverPresence .fire s) ∧ (deliverPresence .fire s).feed.permit = false ∧
      ∀ z, AbsentZone (s.zone z) ((deliverPresence .fire s).zone z) := by
  have told : (fireTold s).feed.inputs.firePresent = false := absent
  have judged := dark_evalPermit (fireTold s)
  have still : (evalPermit (fireTold s)).ports.fire.present = false := judged.present.trans absent
  have zones := firePart_dimmed (l := eight) still
  have off : (evalPermit (fireTold s)).feed.permit = false := by
    rw [evalPermit_permit]
    exact permitHolds_absent told
  rw [deliverPresence_fire absent]
  refine ⟨judged.toDimmed.trans zones, zones.off (judged.station.trans told) off, fun z => ?_⟩
  have kept : (evalPermit (fireTold s)).zone z = s.zone z := congrArg (vget · z) judged.zones
  rw [← kept]
  exact firePart_zone z still

/-! ### What an absence keeps in every block -/

theorem core_deliverPresence {p : Port} {s : State} (absent : (s.port p).present = false) :
    (deliverPresence p s).core = s.core := by
  cases p with
  | line =>
    rw [deliverPresence_line absent]
    exact (State.core_of_lessFeed (lessFeed_lineHeld _)).trans (State.core_of_lessBays (lessBays_linePaused s))
  | fire =>
    obtain ⟨dimmed, _⟩ := fireAbsence absent
    exact dimmed.core
  | custody => rfl

theorem links_deliverPresence {p : Port} {s : State} (absent : (s.port p).present = false) :
    (deliverPresence p s).banks.links = s.banks.links := by
  cases p with
  | line =>
    rw [deliverPresence_line absent]
    have held := lineHeld_bank (linePaused s) (k := .links) nofun
    exact held.trans (congrArg (fun x : State => x.banks.links) (lessBays_linePaused s) :)
  | fire =>
    obtain ⟨dimmed, _⟩ := fireAbsence absent
    exact dimmed.links
  | custody => rfl

/-- The line's part, in its frame (R74, R122). -/
theorem lineHeld_frame {s u : State} (paused : u.lessBays = s.lessBays) : lineHeld u = { s with
    bays := (lineHeld u).bays
    feed := { s.feed with lock := (lineHeld u).feed.lock }
    out := (lineHeld u).out
    link := (lineHeld u).link
    ports := (lineHeld u).ports
    banks := { s.banks with links := (lineHeld u).banks.links, feed := (lineHeld u).banks.feed } } := by
  have feed : u.feed = s.feed := (congrArg State.feed paused :)
  have banks : u.banks = s.banks := (congrArg State.banks paused :)
  refine eq_of_lessAbsence ((State.lessAbsence_of_lessFeed (lessFeed_lineHeld u)).trans
    (State.lessAbsence_of_lessBays paused)) ?_ fun k _ other => ?_
  · rw [lineHeld_lock, feed]
  · rw [lineHeld_bank u other, banks]

theorem lineHeld_bay (n : Fin 8) (s : State) :
    (lineHeld s).bay n = s.bay n ∧ (lineHeld s).sup (.contactor n) = s.sup (.contactor n) := by
  have frame := lessFeed_lineHeld s
  generalize lineHeld s = t at frame
  exact ⟨(congrArg (fun x : State => x.bay n) frame :), (congrArg (fun x : State => x.sup (.contactor n)) frame :)⟩

theorem absentState_links {s : State} (told : Told s) (p : Port) :
    (absentState p s).banks.links = s.banks.links.posted (absentPosting p) s.now := by
  rw [absentState_eq told p]

/-- Of bays, contactors, Feed Controller and zones, the posting and the notice write nothing. -/
theorem absentState_blocks {s : State} (told : Told s) (p : Port) :
    (absentState p s).bays = s.bays ∧ (absentState p s).out.contactors = s.out.contactors ∧
      (absentState p s).feed = s.feed ∧ (absentState p s).fire = s.fire := by
  rw [absentState_eq told p]
  exact ⟨rfl, rfl, rfl, rfl⟩

theorem absentState_custody {s : State} (told : Told s) : absentState .custody s = { s with
    banks := { s.banks with links := (absentState .custody s).banks.links }
    out := { s.out with lineFault := (absentState .custody s).out.lineFault }
    ports := (absentState .custody s).ports } := by
  rw [absentState_links told]
  exact absentState_eq told .custody

theorem presenceDue_iff (s : State) (p : Port) :
    presenceDue s p = true ↔ (s.port p).present = true ∧ (s.port p).timer = some 0 := by simp [presenceDue]

/-- The line's part as the station's absence brings it about. -/
theorem becomeAbsent_line {s : State} (told : Told s) : becomeAbsent .line s = { s with
    bays := (becomeAbsent .line s).bays
    feed := { s.feed with lock := (becomeAbsent .line s).feed.lock }
    out := (becomeAbsent .line s).out
    link := (becomeAbsent .line s).link
    ports := (becomeAbsent .line s).ports
    banks := { s.banks with
      links := (becomeAbsent .line s).banks.links
      feed := (becomeAbsent .line s).banks.feed } } := by
  rw [becomeAbsent_eq, deliverPresence_line (port_absentState .line s)]
  have frame := lineHeld_frame (lessBays_linePaused (absentState .line s))
  generalize lineHeld _ = t at frame ⊢
  rw [absentState_eq told .line] at frame
  exact frame

end Sys2Proof.Machine

/-- Settles O59: the port's part, then the bays and the lock, or the permit and the zones. -/
theorem absenceReachesTheBlocks : Obligations.AbsenceReachesTheBlocks := by
  intro p s on told x due c
  have elapsed := presenceDue_iff s p
  refine ⟨fun idle => event_next on _ (if_neg (elapsed.not.2 idle)), fun now => ?_⟩
  have absent := port_absentState p s
  have core : (becomeAbsent p s).core = (s.setPort p x.absent).core :=
    (core_deliverPresence absent).trans (core_absentState p s)
  have links : (becomeAbsent p s).banks.links = s.banks.links.posted (absentPosting p) s.now :=
    (links_deliverPresence absent).trans (absentState_links told p)
  obtain ⟨bays, contactors, feed, fire⟩ := absentState_blocks told p
  refine ⟨becomeAbsent p s, event_next on _ (if_pos (elapsed.2 now)), ?_, fun r other => ?_, fun off => ?_,
    fun enabled => ?_, ?_, ?_, ?_⟩
  · have port := port_of_core core p
    rw [State.port_setPort_same] at port
    exact port
  · have port := port_of_core core r
    rw [State.port_setPort_other _ other] at port
    exact port
  · rw [links]
    refine if_neg fun recorded => ?_
    obtain on | worst := recorded
    · exact nomatch off.symm.trans on
    · exact absentPosting_mild p worst
  · rw [links]
    refine (if_pos (.inl enabled)).trans ?_
    cases p <;> rfl
  · rintro rfl
    exact absentState_custody told
  · rintro rfl
    refine ⟨becomeAbsent_line told, ?_⟩
    rw [becomeAbsent_eq, deliverPresence_line absent]
    have bay : ∀ n, (absentState .line s).bay n = s.bay n := fun n => congrArg (vget · n) bays
    have contactor : ∀ n, (absentState .line s).sup (.contactor n) = s.sup (.contactor n) := fun n =>
      congrArg (vget · n) contactors
    refine ⟨fun n idle => ?_, fun n running => ?_, ?_⟩
    · obtain ⟨held, _⟩ := lineHeld_bay n (linePaused (absentState .line s))
      rw [held, linePaused_idle (by rw [bay]; exact idle), bay]
    · obtain ⟨held, switched⟩ := lineHeld_bay n (linePaused (absentState .line s))
      obtain ⟨paused, off⟩ := linePaused_running (s := absentState .line s) (by rw [bay]; exact running)
      rw [held, switched, paused, bay, contactor]
      exact ⟨rfl, off⟩
    · have still : (linePaused (absentState .line s)).feed = s.feed :=
        (congrArg State.feed (lessBays_linePaused _) :).trans feed
      rw [lineHeld_lock, still]
  · rintro rfl
    obtain ⟨dimmed, permit, zones⟩ := fireAbsence absent
    refine ⟨dimmed.station.trans absent, permit, ?_, ?_, ?_, fun z => ?_⟩
    · rw [becomeAbsent_eq, dimmed.detectors]
      exact congrArg Fire.detectors fire
    · rw [becomeAbsent_eq, dimmed.queue]
      exact (congrArg Feed.queue feed :)
    · exact (congrArg State.cls core :)
    · have same : (absentState .fire s).zone z = s.zone z := congrArg (fun f : Fire => vget f.zones z) fire
      rw [← same]
      exact zones z

end

