-- ==== Sys2Proof/Proofs/SampleArithmetic.lean ====
section
/-! PROOFS: the classification of a sample's sequence, its increment and what it books (chapter 04). -/

open Sys2Proof Sys2Proof.Machine

namespace Sys2Proof.Machine

/-! ### The sequence (R80) -/

/-- How far a sequence lies ahead of the bay's last one, as the model counts it in natural numbers (R80). -/
def seqGap (l q : Nat) : Nat := (q + 65536 - l) % 65536

/-- The model's count is the rule's difference modulo 65536: adding 65536 first keeps a sequence number from cutting off
at 0. -/
theorem seqGap_eq_emod {l : Nat} (bound : l ≤ 65535) (q : Nat) : (seqGap l q : Int) = ((q : Int) - l) % 65536 := by
  have whole : ((q + 65536 - l : Nat) : Int) = (q : Int) - l + 65536 := by omega
  rw [seqGap, Int.natCast_mod, whole]
  exact Int.add_emod_right ..

section

variable {l q : Nat}

theorem classifySeq_some : classifySeq (some l) q =
    if seqGap l q = 0 then .duplicate
    else if seqGap l q ≤ 50 then .next (seqGap l q - 1)
    else if seqGap l q ≤ 32767 then .resync
    else .stale := rfl

theorem classifySeq_duplicate (same : seqGap l q = 0) : classifySeq (some l) q = .duplicate := if_pos same

theorem classifySeq_next {m : Nat} (gap : seqGap l q = m + 1) (near : m + 1 ≤ 50) :
    classifySeq (some l) q = .next m := by
  rw [classifySeq_some, gap, if_neg m.succ_ne_zero, if_pos near, Nat.add_sub_cancel]

theorem classifySeq_resync (far : 50 < seqGap l q) (ahead : seqGap l q ≤ 32767) :
    classifySeq (some l) q = .resync := by
  rw [classifySeq_some, if_neg (Nat.ne_zero_of_lt far), if_neg (Nat.not_le.2 far), if_pos ahead]

theorem classifySeq_stale (behind : 32767 < seqGap l q) : classifySeq (some l) q = .stale := by
  have far : 50 < seqGap l q := Nat.lt_trans (by decide) behind
  rw [classifySeq_some, if_neg (Nat.ne_zero_of_lt far), if_neg (Nat.not_le.2 far), if_neg (Nat.not_le.2 behind)]

end

/-! ### The increment (R84) -/

theorem increment_of_nonneg {i : Int} (forward : 0 ≤ i) (v interval missing : Nat) :
    (increment v i interval missing : Int) = v * i * interval * (missing + 1) := by
  simp only [increment, Int.natCast_mul, Int.natCast_add, Int.toNat_of_nonneg forward, Int.natCast_one]

/-- A current that is zero or reversed counts as no energy. -/
theorem increment_of_nonpos {i : Int} (reversed : i ≤ 0) (v interval missing : Nat) :
    increment v i interval missing = 0 := by
  simp only [increment, Int.toNat_of_nonpos reversed, Nat.mul_zero, Nat.zero_mul]

/-! ### The booking (R85) -/

section

variable (p : Pack) (inc missing : Nat) (resync : Bool)

theorem Pack.remainder_integrate :
    (p.integrate inc missing resync).remainder = (p.remainder + inc) % 1000000 := rfl

theorem Pack.remainder_integrate_lt : (p.integrate inc missing resync).remainder < 1000000 :=
  Nat.mod_lt _ (by decide)

/-- No nanojoule is lost: what is not handed over as whole millijoules stays in the remainder. -/
theorem Pack.remainder_integrate_add : p.remainder + inc =
    (p.integrate inc missing resync).remainder + 1000000 * ((p.remainder + inc) / 1000000) := by
  rw [Pack.remainder_integrate, Nat.mod_add_div]

end

end Sys2Proof.Machine

theorem sequenceClassification : Claim.SequenceClassification := by
  refine ⟨fun q _ => ⟨rfl, rfl⟩, ?_⟩
  intro l q last _ d
  have gap : (seqGap l q : Int) = d := seqGap_eq_emod last q
  refine ⟨fun same => classifySeq_duplicate (by omega), fun _ near m missing => ?_, fun far ahead => ?_,
    fun behind => classifySeq_stale (by omega)⟩
  · have accepted : classifySeq (some l) q = .next m := classifySeq_next (by omega) (by omega)
    exact ⟨accepted, congrArg SeqClass.missing accepted⟩
  · have accepted : classifySeq (some l) q = .resync := classifySeq_resync (by omega) (by omega)
    exact ⟨accepted, congrArg SeqClass.missing accepted⟩

theorem integrationBooksWholeMillijoules : Claim.IntegrationBooksWholeMillijoules := by
  refine ⟨fun v i interval missing => ⟨fun forward => increment_of_nonneg forward .., fun reversed =>
    increment_of_nonpos reversed ..⟩, ?_⟩
  intro p inc missing resync r
  exact ⟨p.remainder_integrate_lt .., p.remainder_integrate_add .., rfl, rfl, rfl, rfl⟩

/-- Settles O26: the five classes of a sequence, and the increment with its booking. -/
theorem sampleArithmetic : Obligations.SampleArithmetic :=
  ⟨sequenceClassification, integrationBooksWholeMillijoules⟩

end

