-- ==== Sys2Proof/Proofs/ResetValues.lean ====
section
/-! PROOFS: the part right after its first hardware reset, register by register (chapter 10). -/

open Sys2Proof Sys2Proof.Machine

namespace Sys2Proof.Machine.State.reset

theorem record_free (i : Fin 256) : State.reset.record i = ⟨0, none⟩ := vget_replicate ..

theorem no_inventory (z : Fin 8) : vget State.reset.inventories z = 0 := vget_replicate ..

/-- Z7 goes to release at any inventory and at once, the other zones at 20,000 Wh and after 30 s (R153). -/
theorem zone_limits : ∀ z, (State.reset.zone z).threshold = (if z = 6 then 0 else 20000) ∧
    (State.reset.zone z).delay = if z = 6 then 0 else 30 := by decide +kernel

/-- Every port ABSENT, its lists empty (R192, R196). -/
theorem port_initial (p : Port) : (State.reset.port p).present = false ∧ (State.reset.port p).notices = [] ∧
    (State.reset.port p).received = [] ∧ (State.reset.port p).cursor = 0 := by
  cases p <;> exact ⟨rfl, rfl, rfl, rfl⟩

/-- RETENTION_LOST stands in the RECORDS bank alone (R172). -/
theorem bank_empty {k : BankId} (other : k ≠ .records) :
    (State.reset.banks.get k).held = none ∧ (State.reset.banks.get k).number = 0 := by
  cases k with
  | records => exact absurd rfl other
  | _ => exact ⟨rfl, rfl⟩

end Sys2Proof.Machine.State.reset

open Sys2Proof.Machine.State.reset in
/-- Settles O4: each table by its common entry, each register by its value. -/
theorem resetValues : Obligations.ResetValues :=
  ⟨rfl, rfl, rfl, rfl, record_free, no_inventory, bay_initial, rfl, rfl, rfl, rfl, rfl, rfl, rfl, rfl,
    fun z => ⟨zone_normal z, zone_limits z⟩, lot_free, rfl, rfl, rfl, port_initial, sup_initial, rfl, rfl,
    fun _ => bank_empty, rfl, rfl, rfl, rfl⟩

end

