-- ==== Sys2Proof/Proofs/InertState.lean ====
section
/-! PROOFS, layer 13. The inert state machine: what a change of its state writes, and all that it reaches (R97 to R105). -/

open Sys2Proof Sys2Proof.Machine

namespace Sys2Proof.Machine

/-! ### What the Atmosphere Monitor reaches -/

/-- The state without what an event at the Atmosphere Monitor may change: its context, the purge request, the banks, what a
posting reaches, and of the ports the notices and the response. -/
def State.lessInert (s : State) : State :=
  { s with
    atm := Atmosphere.initial
    feed := { s.feed with permit := false, inputs := PermitInputs.initial, lock := Lock.initial }
    banks := Banks.initial
    out := { s.out with permit := Supervision.initial false, upperGate := Supervision.initial false,
                        lowerGate := Supervision.initial false, purge := Supervision.initial false, lineFault := false }
    ports := s.ports.quiet }

theorem State.lessInert_of_lessBanks {s t : State} (h : t.lessBanks = s.lessBanks) : t.lessInert = s.lessInert := by
  have e := congrArg State.lessInert h
  exact e

/-- Nothing changes but that, and of the banks those of the Atmosphere Monitor and of the Feed Controller. -/
structure InertReach (s t : State) : Prop where
  frame : t.lessInert = s.lessInert
  bank : ∀ k, k ≠ .feed → k ≠ .atmosphere → t.banks.get k = s.banks.get k

namespace InertReach

variable {s t u : State}

theorem refl (s : State) : InertReach s s := ⟨rfl, fun _ _ _ => rfl⟩

theorem trans (h : InertReach s t) (k : InertReach t u) : InertReach s u :=
  ⟨k.frame.trans h.frame, fun b f a => (k.bank b f a).trans (h.bank b f a)⟩

theorem ite {c : Prop} [Decidable c] (ht : c → InertReach s t) (hu : ¬c → InertReach s u) :
    InertReach s (if c then t else u) := by
  split
  · exact ht ‹_›
  · exact hu ‹_›

theorem inertFrame (h : InertReach s t) : InertFrame s t := by
  obtain ⟨frame, bank⟩ := h
  have banks : t.banks = { s.banks with feed := t.banks.feed, atmosphere := t.banks.atmosphere } := by
    refine Banks.ext_get fun k => ?_
    cases k with
    | feed => rfl
    | atmosphere => rfl
    | _ => exact bank _ nofun nofun
  refine ⟨?_, ?_, banks, ?_, portsQuiet_iff.2 (congrArg State.ports frame :)⟩
  · obtain ⟨_, _, _, _, _, _, _, _, _, _, _, _, _, _, _, _, _, _, _⟩ := t
    simp only [State.lessInert, State.mk.injEq] at frame ⊢
    simp_all
  · have queue : t.feed.queue = s.feed.queue := (congrArg (fun x : State => x.feed.queue) frame :)
    have time : t.feed.purgeTime = s.feed.purgeTime := (congrArg (fun x : State => x.feed.purgeTime) frame :)
    dsimp only
    rw [← queue, ← time]
  · have contactors : t.out.contactors = s.out.contactors := (congrArg (fun x : State => x.out.contactors) frame :)
    have releases : t.out.releases = s.out.releases := (congrArg (fun x : State => x.out.releases) frame :)
    dsimp only
    rw [← contactors, ← releases]

end InertReach

theorem inertReach_setAtm (a : Atmosphere) (s : State) : InertReach s { s with atm := a } := ⟨rfl, fun _ _ _ => rfl⟩

theorem inertReach_notify (ps : List Port) (w : NoticeBody) (s : State) : InertReach s (notify ps w s) :=
  ⟨State.lessInert_of_lessBanks (lessBanks_notify ps w s), fun _ _ _ => by rw [notify_banks]⟩

theorem inertReach_answered (p : Port) (i : Instr) (r : Result) (body : List Byte) (s : State) :
    InertReach s (answered p i r body s) := by
  rw [answered_eq]
  refine ⟨?_, fun _ _ _ => rfl⟩
  simp only [State.lessInert, Ports.quiet_answer]

theorem inertReach_post {p : Posting} (own : p.code.bank = .atmosphere) (s : State) : InertReach s (post p s) := by
  refine ⟨State.lessInert_of_lessBanks (lessBanks_post p s), fun k feed atm => ?_⟩
  rw [post_bank p s feed, own, if_neg atm]

theorem inertReach_deliverInert (s : State) : InertReach s (deliverInert s) :=
  ⟨State.lessInert_of_lessBanks (lessBanks_evalPermit _), fun _ feed _ => evalPermit_bank _ feed⟩

theorem inertReach_setInert (st : InertState) (s : State) : InertReach s (setInert st s) := ⟨rfl, fun _ _ _ => rfl⟩

/-! ### The monitor's context and the purge request, which no posting or delivery writes -/

theorem atm_of_lessBanks {s t : State} (h : t.lessBanks = s.lessBanks) : t.atm = s.atm := (congrArg State.atm h :)

theorem purge_of_lessBanks {s t : State} (h : t.lessBanks = s.lessBanks) : t.out.purge = s.out.purge :=
  (congrArg (fun x : State => x.out.purge) h :)

theorem post_atm (p : Posting) (s : State) : (post p s).atm = s.atm := atm_of_lessBanks (lessBanks_post p s)

/-! ### A change of the inert state -/

/-- O2_TRIP (R97). -/
def tripPosting (s : State) : Posting := { code := .o2Trip, severity := .uncontained, detail := s.atm.oxygen }

/-- The inert state entered, before the Feed Controller and the ports are told. -/
def inertEntered (st : InertState) (s : State) : State :=
  if st = .tripped then post (tripPosting (setInert st s)) (setInert st s) else setInert st s

theorem changeInert_eq (st : InertState) (s : State) :
    changeInert st s = noticeInert (deliverInert (inertEntered st s)) := rfl

theorem lessBanks_inertEntered (st : InertState) (s : State) :
    (inertEntered st s).lessBanks = (setInert st s).lessBanks := by
  unfold inertEntered
  split
  · exact lessBanks_post ..
  · rfl

theorem lessBanks_changeInert (st : InertState) (s : State) :
    (changeInert st s).lessBanks = (setInert st s).lessBanks := by
  rw [changeInert_eq, noticeInert, lessBanks_notify, deliverInert, lessBanks_evalPermit, lessBanks_inputs,
    lessBanks_inertEntered]

theorem changeInert_atm (st : InertState) (s : State) : (changeInert st s).atm = s.atm.entered st :=
  atm_of_lessBanks (lessBanks_changeInert st s)

theorem changeInert_purge (st : InertState) (s : State) :
    (changeInert st s).out.purge = s.out.purge.setCommand (st != .vented || s.atm.z7Released) :=
  purge_of_lessBanks (lessBanks_changeInert st s)

theorem inertReach_changeInert (st : InertState) (s : State) : InertReach s (changeInert st s) := by
  have entered : InertReach s (inertEntered st s) :=
    .ite (fun _ => (inertReach_setInert st s).trans (inertReach_post rfl _)) fun _ => inertReach_setInert st s
  exact (entered.trans (inertReach_deliverInert _)).trans (inertReach_notify ..)

/-- A state other than TRIPPED posts no incident of the monitor's own (R97). -/
theorem inertEntered_quiet {st : InertState} (calm : st ≠ .tripped) (s : State) : inertEntered st s = setInert st s :=
  if_neg calm

theorem changeInert_inputs {st : InertState} (calm : st ≠ .tripped) (s : State) :
    (changeInert st s).feed.inputs = { s.feed.inputs with inert := st } := by
  rw [changeInert_eq, inertEntered_quiet calm, noticeInert, notify_feed, deliverInert, evalPermit_inputs]
  rfl

theorem changeInert_bank {st : InertState} (calm : st ≠ .tripped) (s : State) :
    (changeInert st s).banks.atmosphere = s.banks.atmosphere := by
  rw [changeInert_eq, inertEntered_quiet calm, noticeInert, notify_banks, deliverInert]
  exact evalPermit_bank _ (k := .atmosphere) nofun

/-- The machine has entered `st`, without a trip: its context and timers, the purge request and the Feed Controller's copy
(R98 to R105). -/
structure EntersInert (st : InertState) (s t : State) : Prop where
  atm : t.atm = s.atm.entered st
  inputs : t.feed.inputs = { s.feed.inputs with inert := st }
  purge : t.out.purge = s.out.purge.setCommand (st != .vented || s.atm.z7Released)
  bank : t.banks.atmosphere = s.banks.atmosphere
  reach : InertReach s t

theorem entersInert_changeInert {st : InertState} (calm : st ≠ .tripped) (s : State) :
    EntersInert st s (changeInert st s) :=
  ⟨changeInert_atm st s, changeInert_inputs calm s, changeInert_purge st s, changeInert_bank calm s,
    inertReach_changeInert st s⟩

/-- The answer to the request changes none of it. -/
theorem EntersInert.answered {st : InertState} {s t : State} (h : EntersInert st s t) (p : Port) (i : Instr)
    (r : Result) (body : List Byte) : EntersInert st s (answered p i r body t) := by
  have reach := h.reach.trans (inertReach_answered p i r body t)
  rw [answered_eq] at reach ⊢
  exact ⟨h.atm, h.inputs, h.purge, h.bank, reach⟩

/-! ### The evaluation (R97) -/

theorem evalInert_same {s : State} (h : inertOutcome s.atm = s.atm.state) : evalInert s = s := if_pos h

theorem evalInert_change {s : State} (h : inertOutcome s.atm ≠ s.atm.state) :
    evalInert s = changeInert (inertOutcome s.atm) s := if_neg h

theorem evalInert_atm_same {s : State} (h : inertOutcome s.atm = s.atm.state) : (evalInert s).atm = s.atm := by
  rw [evalInert_same h]

theorem evalInert_atm_change {s : State} (h : inertOutcome s.atm ≠ s.atm.state) :
    (evalInert s).atm = s.atm.entered (inertOutcome s.atm) := by
  rw [evalInert_change h, changeInert_atm]

theorem inertReach_evalInert (s : State) : InertReach s (evalInert s) :=
  .ite (fun _ => .refl s) fun _ => inertReach_changeInert ..

/-! ### The purge clock (R98) -/

/-- Every posting taken counts, whether it is kept or not (R174, R176). -/
theorem Bank.take_number (b : Bank) (i : Incident) : (b.take i).1.number = (b.number + 1) % 2 ^ 32 := by
  unfold Bank.take
  dsimp only
  split
  · rfl
  · split <;> rfl

/-- PURGE_TIMEOUT (R98). -/
def purgePosting (s : State) : Posting := { code := .purgeTimeout, severity := .contained, detail := s.atm.oxygen }

/-- The incident marked as reported in this stay in PURGING. -/
def purgeReported (s : State) : State := { s with atm.timeoutReported := true }

theorem purgeDue_iff (s : State) : purgeDue s = true ↔
    s.atm.timeoutReported = false ∧ ∃ k, s.atm.purgeClock = some k ∧ s.atm.limits.maxPurge * 1000 ≤ k := by
  simp [purgeDue, Option.any_eq_true]

theorem checkPurgeTimeout_eq (s : State) : checkPurgeTimeout s =
    if purgeDue s then post (purgePosting s) (purgeReported s) else s := by
  unfold checkPurgeTimeout
  split
  case h_1 stopped =>
    rw [if_neg]
    rw [purgeDue_iff, stopped]
    exact fun ⟨_, _, e, _⟩ => nomatch e
  case h_2 ms running =>
    have due : purgeDue s = true ↔ s.atm.limits.maxPurge * 1000 ≤ ms ∧ s.atm.timeoutReported = false := by
      simp [purgeDue_iff, running, and_comm]
    simp only [due]
    rfl

theorem checkPurgeTimeout_idle {s : State} (h : ¬purgeDue s = true) : checkPurgeTimeout s = s := by
  rw [checkPurgeTimeout_eq, if_neg h]

theorem checkPurgeTimeout_due {s : State} (h : purgeDue s = true) :
    checkPurgeTimeout s = post (purgePosting s) (purgeReported s) := by
  rw [checkPurgeTimeout_eq, if_pos h]

theorem inertReach_checkPurgeTimeout (s : State) : InertReach s (checkPurgeTimeout s) := by
  rw [checkPurgeTimeout_eq]
  exact .ite (fun _ => (inertReach_setAtm _ s).trans (inertReach_post rfl _)) fun _ => .refl s

/-- The report is marked where the clock has reached its maximum, and nothing else of the monitor is written. -/
theorem checkPurgeTimeout_atm (s : State) :
    (checkPurgeTimeout s).atm = { s.atm with timeoutReported := s.atm.timeoutReported || purgeDue s } := by
  cases due : purgeDue s with
  | true => rw [checkPurgeTimeout_due due, post_atm, Bool.or_true]; rfl
  | false => rw [checkPurgeTimeout_idle (by simp [due]), Bool.or_false]

end Sys2Proof.Machine

/-! ### The requests and the timers -/

theorem inertTable : Claim.InertTable := by
  intro a low high o l
  refine ⟨fun st => ?_, fun st le => ?_, fun st gt => ?_, fun st le => ?_, fun st gt lt => ?_, fun st le => ?_,
    fun st le => ?_, fun st gt lt => ?_, fun st le => ?_, fun st => ?_⟩
  all_goals simp only [inertOutcome, st]
  · exact if_pos le
  · exact if_neg (Nat.not_le.2 gt)
  · exact if_pos le
  · rw [if_neg (Nat.not_le.2 lt), if_pos gt]
  · have under : o < l.trip := le.trans_lt (low.trans high)
    rw [if_neg (Nat.not_le.2 under), if_neg (Nat.not_lt.2 le)]
  · exact if_pos le
  · rw [if_neg (Nat.not_le.2 lt), if_pos gt]
  · have under : o < l.trip := le.trans_lt high
    rw [if_neg (Nat.not_le.2 under), if_neg (Nat.not_lt.2 le)]

theorem inertRequestsChangeTheState : Claim.InertRequestsChangeTheState := by
  intro q s enters
  have granted : ∀ {p : Port} {i : Instr} {k : Nat} {owner : State → Reply} {st : InertState},
      exec i s = .next (serve p i.frame owner s) → Ready p s → i.head = some (p, q, k) → mayIssue p k = true →
      st ≠ .tripped → owner (touchPort p s) = reply (changeInert st (touchPort p s)) [] →
      enters i (touchPort p s) st := by
    intro p i k owner st e r hd m calm o
    have t := (entersInert_changeInert calm (touchPort p s)).answered p i .ok []
    refine ⟨_, served_ok e r hd m o, fun h eq => ?_, t.atm, t.inputs, t.purge, t.bank, t.reach.inertFrame⟩
    cases hd.symm.trans eq
    exact answers_answered ..
  refine ⟨fun r => ⟨fun st => ?_, fun st => ?_, fun st => ?_, fun st nt lock => ?_, fun st nt lock => ?_⟩,
    fun r => ⟨fun st => ?_, fun st high => ?_, fun st low => ?_⟩, fun on st due => ?_, fun on idle => ?_⟩
  · exact granted rfl r rfl rfl nofun (if_neg (not_not.2 st))
  · exact served_refused rfl r rfl rfl (if_pos st) nofun
  · exact served_refused rfl r rfl rfl (if_pos st) nofun
  · exact served_refused rfl r rfl rfl ((if_neg (not_or.2 ⟨st, nt⟩)).trans (if_pos lock)) nofun
  · exact granted rfl r rfl rfl nofun ((if_neg (not_or.2 ⟨st, nt⟩)).trans (if_neg (not_not.2 lock)))
  · exact served_refused rfl r rfl rfl ((guarded_right rfl rfl).trans (if_pos st)) nofun
  · exact served_refused rfl r rfl rfl ((guarded_right rfl rfl).trans ((if_neg (not_not.2 st)).trans (if_pos high))) nofun
  · refine granted rfl r rfl rfl nofun ((guarded_right rfl rfl).trans ?_)
    exact (if_neg (not_not.2 st)).trans (if_neg (Nat.not_lt.2 low))
  · have t := entersInert_changeInert (st := .inert) nofun s
    exact ⟨_, event_next on _ (if_pos ⟨st, due⟩), nofun, t.atm, t.inputs, t.purge, t.bank, t.reach.inertFrame⟩
  · exact event_next on _ (if_neg idle)

theorem purgeTimeoutIsPostedOnce : Claim.PurgeTimeoutIsPostedOnce := by
  intro s on
  refine ⟨fun k clock past fresh => ?_, fun idle => event_next on _ (checkPurgeTimeout_idle ?_), fun k clock under =>
    event_next on _ (checkPurgeTimeout_idle ?_)⟩
  · have due : purgeDue s = true := (purgeDue_iff s).2 ⟨fresh, k, clock, past⟩
    have eq := checkPurgeTimeout_due due
    refine ⟨_, event_next on _ rfl, ?_, (inertReach_checkPurgeTimeout s).inertFrame, ?_, fun enabled => ?_⟩
    · rw [eq, post_atm]; rfl
    · rw [eq, purge_of_lessBanks (lessBanks_post ..)]; rfl
    · have own : BankId.atmosphere = (purgePosting s).code.bank := rfl
      have bank := (post_bank (purgePosting s) (purgeReported s) (k := .atmosphere) nofun).trans (if_pos own)
      rw [eq]
      refine (congrArg Bank.number bank).trans ?_
      exact (congrArg Bank.number (if_pos (.inl enabled))).trans (Bank.take_number ..)
  · rw [purgeDue_iff]
    rintro ⟨fresh, k, clock, _⟩
    obtain stopped | reported := idle
    · exact nomatch stopped.symm.trans clock
    · exact nomatch reported.symm.trans fresh
  · rw [purgeDue_iff]
    rintro ⟨_, k', clock', past⟩
    cases clock.symm.trans clock'
    exact absurd past (Nat.not_le.2 under)

/-- Settles O42: the table row by row, each request as its owner's reply, each timer as its event. -/
theorem inertStateChanges : Obligations.InertStateChanges :=
  ⟨inertTable, inertRequestsChangeTheState, purgeTimeoutIsPostedOnce⟩


/-! ### WRITE_INERT_LIMITS (R104) -/

namespace Sys2Proof.Machine

/-- The five values are refused together (R104). -/
theorem writeInertLimits_bad {purge run trip : Nat}
    (bad : ¬(purge ≤ 1200 ∧ run ≤ 1200 ∧ trip ≤ 1200 ∧ purge < run ∧ run < trip)) (hold maxPurge : Nat) (s : State) :
    writeInertLimitsReply purge run trip hold maxPurge s = refuse .malformed s := if_pos (by omega)

theorem writeInertLimits_good {purge run trip : Nat}
    (good : purge ≤ 1200 ∧ run ≤ 1200 ∧ trip ≤ 1200 ∧ purge < run ∧ run < trip) (hold maxPurge : Nat) (s : State) :
    let l : InertLimits := ⟨purge, run, trip, max 10 (min 600 hold), max 60 (min 3600 maxPurge)⟩
    writeInertLimitsReply purge run trip hold maxPurge s = reply (writeLimits l s) (wLimits l) := if_neg (by omega)

/-- The limits written, before the machine is evaluated with them. -/
def limited (l : InertLimits) (s : State) : State := { s with atm.limits := l }

theorem writeLimits_eq (l : InertLimits) (s : State) :
    writeLimits l s = checkPurgeTimeout (evalInert (limited l s)) := rfl

theorem inertReach_writeLimits (l : InertLimits) (s : State) : InertReach s (writeLimits l s) :=
  ((inertReach_setAtm _ s).trans (inertReach_evalInert (limited l s))).trans (inertReach_checkPurgeTimeout _)

/-- Limits that leave the inert state: the purge clock is compared with its new maximum. -/
theorem writeLimits_atm_same {l : InertLimits} {s : State}
    (same : inertOutcome (limited l s).atm = (limited l s).atm.state) : (writeLimits l s).atm =
      { (limited l s).atm with timeoutReported := s.atm.timeoutReported || purgeDue (limited l s) } := by
  rw [writeLimits_eq, evalInert_same same, checkPurgeTimeout_atm]
  rfl

/-- A purge clock that has just begun has not reached a maximum of 60 s or more (R104). -/
theorem purgeDue_entered {st : InertState} {a : Atmosphere} {s : State} (maximum : 0 < a.limits.maxPurge)
    (h : s.atm = a.entered st) : purgeDue s = false := by
  rw [Bool.eq_false_iff, ne_eq, purgeDue_iff, h]
  rintro ⟨_, k, clock, past⟩
  have begun : k = 0 := by
    simp only [Atmosphere.entered] at clock
    split at clock <;> cases clock
    rfl
  have limit : (a.entered st).limits.maxPurge = a.limits.maxPurge := rfl
  omega

/-- Limits that change the inert state: its entry is all of it. -/
theorem writeLimits_atm_change {l : InertLimits} {s : State} (maximum : 0 < l.maxPurge)
    (change : inertOutcome (limited l s).atm ≠ (limited l s).atm.state) :
    (writeLimits l s).atm = (limited l s).atm.entered (inertOutcome (limited l s).atm) := by
  have entered := evalInert_atm_change change
  have early := purgeDue_entered maximum entered
  rw [writeLimits_eq, checkPurgeTimeout_atm, early, Bool.or_false]
  exact entered

/-- Either way the state is the one the evaluation finds. -/
theorem writeLimits_state {l : InertLimits} (maximum : 0 < l.maxPurge) (s : State) :
    (writeLimits l s).atm.state = inertOutcome (limited l s).atm := by
  by_cases same : inertOutcome (limited l s).atm = (limited l s).atm.state
  · rw [writeLimits_atm_same same, same]
  · rw [writeLimits_atm_change maximum same]
    rfl

theorem writeLimits_limits {l : InertLimits} (maximum : 0 < l.maxPurge) (s : State) :
    (writeLimits l s).atm.limits = l := by
  by_cases same : inertOutcome (limited l s).atm = (limited l s).atm.state
  · rw [writeLimits_atm_same same]
    rfl
  · rw [writeLimits_atm_change maximum same]
    rfl

/-- The report stands after the write where it stood, or where the clock is past the new maximum. -/
theorem reported_or_due (s : State) : (s.atm.timeoutReported || purgeDue s) = true ↔
    s.atm.timeoutReported = true ∨ ∃ k, s.atm.purgeClock = some k ∧ s.atm.limits.maxPurge * 1000 ≤ k := by
  rw [Bool.or_eq_true, purgeDue_iff]
  cases s.atm.timeoutReported <;> simp

end Sys2Proof.Machine

/-- Settles O40: the refusal by its bounds; the write as the limits, the evaluation and the comparison of the purge clock. -/
theorem inertLimitsAreEvaluatedAtOnce : Obligations.InertLimitsAreEvaluatedAtOnce := by
  intro q purge run trip hold maxPurge s r u c good l a
  refine ⟨fun bad => served_refused rfl r rfl rfl (writeInertLimits_bad bad hold maxPurge u) nofun, fun fine => ?_⟩
  have maximum : 0 < l.maxPurge := Nat.lt_of_lt_of_le (by decide) (Nat.le_max_left 60 _)
  have frame := (inertReach_writeLimits l u).trans (inertReach_answered .fire c .ok (wLimits l) _)
  have atm : (answered .fire c .ok (wLimits l) (writeLimits l u)).atm = (writeLimits l u).atm := by rw [answered_eq]
  refine ⟨_, served_ok rfl r rfl rfl (writeInertLimits_good fine hold maxPurge u), answers_answered .., ?_, ?_,
    frame.inertFrame, fun same => ?_, fun change => ?_⟩
  · rw [atm, writeLimits_limits maximum]
  · rw [atm, writeLimits_state maximum]
    rfl
  · have written : (writeLimits l u).atm = _ := writeLimits_atm_same same
    rw [atm, written]
    exact ⟨rfl, reported_or_due (limited l u)⟩
  · rw [atm]
    exact writeLimits_atm_change maximum change

end

