-- ==== Sys2Proof/Proofs/Analyzers.lean ====
section
/-! PROOFS, layer 13 continued. A reading and an age expiry as one change of the monitor's context, and its evaluation
(R92 to R97). -/

open Sys2Proof Sys2Proof.Machine

namespace Sys2Proof.Machine

/-! ### The discrepancy (R95) -/

/-- The discrepancy flag as the two valid analyzers make it. -/
def Atmosphere.judged (a : Atmosphere) : Bool :=
  if a.a.valid && a.b.valid then decide (50 < oxygenGap a.a a.b) else a.discrepancy

/-- The flag written. -/
def flagged (on : Bool) (s : State) : State := { s with atm.discrepancy := on }

/-- ANALYZER_DISCREPANCY (R95). -/
def discrepancyPosting (s : State) : Posting :=
  { code := .analyzerDiscrepancy, severity := .advisory, detail := oxygenGap s.atm.a s.atm.b }

/-- The flag follows the rule, and a flag that rises posts its incident. -/
theorem judgeDiscrepancy_cases (s : State) :
    judgeDiscrepancy s = flagged s.atm.judged s ∨
      (s.atm.discrepancy = false ∧ s.atm.judged = true ∧
        judgeDiscrepancy s = post (discrepancyPosting s) (flagged true s)) := by
  have stays : ∀ on, on = s.atm.discrepancy → s = flagged on s := by
    rintro _ rfl
    rfl
  unfold judgeDiscrepancy
  dsimp only
  split
  case isTrue one =>
    have judged : s.atm.judged = s.atm.discrepancy := if_neg (by rwa [Bool.not_eq_true, ← Bool.not_eq_true'])
    exact .inl (stays _ judged)
  case isFalse both =>
    have judged : s.atm.judged = decide (50 < oxygenGap s.atm.a s.atm.b) := if_pos (by simpa using both)
    split
    case isTrue near =>
      rw [judged, decide_eq_false (Nat.not_lt.2 near)]
      exact .inl rfl
    case isFalse far =>
      have apart : s.atm.judged = true := judged.trans (decide_eq_true (Nat.not_le.1 far))
      split
      case isTrue known => exact .inl (stays _ (apart.trans known.symm))
      case isFalse new => exact .inr ⟨Bool.eq_false_iff.2 new, apart, rfl⟩

theorem judgeDiscrepancy_atm (s : State) :
    (judgeDiscrepancy s).atm = { s.atm with discrepancy := s.atm.judged } := by
  obtain e | ⟨_, raised, e⟩ := judgeDiscrepancy_cases s
  · rw [e]; rfl
  · rw [e, post_atm, raised]; rfl

theorem judgeDiscrepancy_banks {s : State} (same : s.atm.judged = s.atm.discrepancy) :
    (judgeDiscrepancy s).banks = s.banks := by
  obtain e | ⟨low, high, _⟩ := judgeDiscrepancy_cases s
  · rw [e]; rfl
  · exact nomatch high.symm.trans (same.trans low)

theorem inertReach_judgeDiscrepancy (s : State) : InertReach s (judgeDiscrepancy s) := by
  obtain e | ⟨_, _, e⟩ := judgeDiscrepancy_cases s
  · rw [e]
    exact inertReach_setAtm ..
  · rw [e]
    exact (inertReach_setAtm ..).trans (inertReach_post rfl _)

/-! ### The loss (R96) -/

theorem judgeLoss_kept {k : AnalyzerId} {before : Nat} {s : State} (h : before ≤ validCount s.atm.a s.atm.b) :
    judgeLoss k before s = s := if_neg (Nat.not_lt.2 h)

theorem judgeLoss_atm (k : AnalyzerId) (before : Nat) (s : State) : (judgeLoss k before s).atm = s.atm := by
  unfold judgeLoss
  dsimp only
  split
  · exact post_atm ..
  · rfl

theorem inertReach_judgeLoss (k : AnalyzerId) (before : Nat) (s : State) : InertReach s (judgeLoss k before s) :=
  .ite (fun _ => inertReach_post rfl s) fun _ => .refl s

/-! ### An analyzer's change (R94) -/

/-- The monitor's context after a change of its analyzers, before it is evaluated. -/
def Atmosphere.measured (m : Atmosphere) (a b : Analyzer) : Atmosphere :=
  { m with a := a, b := b, oxygen := effectiveOxygen a b, discrepancy := { m with a := a, b := b }.judged }

/-- The state with the analyzers changed and their incidents posted. -/
def analyzerJudged (k : AnalyzerId) (x : Analyzer) (s : State) : State :=
  judgeLoss k (validCount s.atm.a s.atm.b) (judgeDiscrepancy { s with atm := s.atm.setAnalyzer k x })

/-- The same, the effective oxygen with it. -/
def analyzerMeasured (k : AnalyzerId) (x : Analyzer) (s : State) : State :=
  let t := analyzerJudged k x s
  { t with atm.oxygen := effectiveOxygen t.atm.a t.atm.b }

theorem analyzerEvent_eq (k : AnalyzerId) (x : Analyzer) (s : State) :
    analyzerEvent k x s = evalInert (analyzerMeasured k x s) := rfl

section

variable {k : AnalyzerId} {x a b : Analyzer} {s : State} (set : s.atm.setAnalyzer k x = { s.atm with a := a, b := b })

include set

theorem analyzerMeasured_atm : (analyzerMeasured k x s).atm = s.atm.measured a b := by
  have judged : (analyzerJudged k x s).atm =
      { s.atm with a := a, b := b, discrepancy := { s.atm with a := a, b := b }.judged } := by
    rw [analyzerJudged, judgeLoss_atm, judgeDiscrepancy_atm]
    dsimp only
    rw [set]
  unfold analyzerMeasured
  dsimp only
  rw [judged]
  rfl

/-- Analyzers that stay as valid as they were, and a flag that stays, post nothing (R95, R96). -/
theorem analyzerMeasured_banks (validA : a.valid = s.atm.a.valid) (validB : b.valid = s.atm.b.valid)
    (flag : (s.atm.measured a b).discrepancy = s.atm.discrepancy) : (analyzerMeasured k x s).banks = s.banks := by
  show (analyzerJudged k x s).banks = s.banks
  have count : validCount a b = validCount s.atm.a s.atm.b := by simp only [validCount, validA, validB]
  have same : (judgeDiscrepancy { s with atm := { s.atm with a := a, b := b } }).banks = s.banks :=
    judgeDiscrepancy_banks flag
  have atm := judgeDiscrepancy_atm { s with atm := { s.atm with a := a, b := b } }
  rw [analyzerJudged, set, judgeLoss_kept, same]
  rw [atm]
  exact count.ge

end

theorem inertReach_analyzerEvent (k : AnalyzerId) (x : Analyzer) (s : State) :
    InertReach s (analyzerEvent k x s) := by
  have judged : InertReach s (analyzerJudged k x s) :=
    ((inertReach_setAtm _ s).trans (inertReach_judgeDiscrepancy _)).trans (inertReach_judgeLoss ..)
  rw [analyzerEvent_eq]
  exact (judged.trans (inertReach_setAtm ..)).trans (inertReach_evalInert _)

/-! ### The events -/

theorem statusAt_none {st : Nat} (h : 2 < st) : statusAt st = none := by
  match st, h with
  | _ + 3, _ => rfl

theorem analyzerAt_none {adr : Nat} (h : adr ≠ 9 ∧ adr ≠ 10) : analyzerAt adr = none := by
  obtain ⟨notA, notB⟩ := h
  unfold analyzerAt
  split
  · exact absurd rfl notA
  · exact absurd rfl notB
  · rfl

/-- The analyzer after a reading (R92). -/
def Analyzer.read (ox : Nat) (st : AnalyzerStatus) (clock : Nat) : Analyzer :=
  ⟨some (Reading.taken ox st clock), st == .ok⟩

theorem takeReading_in {adr ox st : Nat} {k : AnalyzerId} {y : AnalyzerStatus} (known : analyzerAt adr = some k)
    (status : statusAt st = some y) (range : ox ≤ 2500) (s : State) :
    takeReading adr ox st s = analyzerEvent k (.read ox y s.clock) s := by
  simp only [takeReading, known, status, if_neg (Nat.not_lt.2 range)]
  rfl

/-- A reading of another address, value or status is no event (R92). -/
theorem takeReading_out {adr ox st : Nat} (h : (adr ≠ 9 ∧ adr ≠ 10) ∨ 2500 < ox ∨ 2 < st) (s : State) :
    takeReading adr ox st s = s := by
  unfold takeReading
  split
  case h_1 known status =>
    obtain other | high | undefined := h
    · exact nomatch (analyzerAt_none other).symm.trans known
    · exact if_pos high
    · exact nomatch (statusAt_none undefined).symm.trans status
  case h_2 => rfl

theorem exec_analyzerReading {s : State} (on : s.run = true) (hunting : s.link.receiver = .hunting) (adr ox st : Nat) :
    exec (.analyzerReading adr ox st) s = .next (takeReading adr ox st s) :=
  event_next on _ (if_neg (by rw [hunting]; exact nofun))

theorem ageDue_iff (s : State) (k : AnalyzerId) : ageDue s k = true ↔ (s.atm.analyzer k).valid = true ∧
    ∃ r, (s.atm.analyzer k).latest = some r ∧ r.arrival + 5000 ≤ s.clock := by
  simp only [ageDue, Bool.and_eq_true, Option.any_eq_true, decide_eq_true_eq]
  exact Iff.rfl

theorem exec_analyzerAge {s : State} (on : s.run = true) {k : AnalyzerId} (due : ageDue s k = true) :
    exec (.analyzerAgeExpiry k) s = .next (analyzerEvent k { s.atm.analyzer k with valid := false } s) :=
  event_next on _ (if_pos due)

/-! ### The words of the statement -/

/-- The gap as the difference of two signed values. -/
theorem oxygenGap_eq (a b : Analyzer) :
    oxygenGap a b = ((a.latest.elim 0 (·.value) : Int) - b.latest.elim 0 (·.value)).natAbs := by
  have cast : ∀ r : Option Reading, (r.elim 0 (·.value) : Int) = ((r.elim 0 (·.value) : Nat) : Int) := fun r => by
    cases r <;> rfl
  rw [cast a.latest]
  unfold oxygenGap
  dsimp only
  omega

end Sys2Proof.Machine

/-- Settles O41: every event is a change of one analyzer, which is measured, judged and evaluated. -/
theorem analyzerEventsMoveTheOxygen : Obligations.AnalyzerEventsMoveTheOxygen := by
  intro s on hunting moves
  have moved : ∀ {i : Instr} {k : AnalyzerId} {x a b : Analyzer}, exec i s = .next (analyzerEvent k x s) →
      s.atm.setAnalyzer k x = { s.atm with a := a, b := b } → (a.valid = true → a.latest ≠ none) →
      (b.valid = true → b.latest ≠ none) → moves i a b := by
    intro i k x a b e set readA readB
    refine ⟨_, e, ?_⟩
    intro ox gap disc m
    have oxygen : ox = effectiveOxygen a b := by
      cases validA : a.valid with
      | false =>
        cases validB : b.valid with
        | false => simp only [ox, effectiveOxygen, validA, validB, Config.airOxygen]
        | true =>
          obtain ⟨y, latestB⟩ := Option.ne_none_iff_exists'.1 (readB validB)
          simp only [ox, effectiveOxygen, validA, validB, latestB, Option.elim]
      | true =>
        obtain ⟨x, latestA⟩ := Option.ne_none_iff_exists'.1 (readA validA)
        cases validB : b.valid with
        | false => simp only [ox, effectiveOxygen, validA, validB, latestA, Option.elim]
        | true =>
          obtain ⟨y, latestB⟩ := Option.ne_none_iff_exists'.1 (readB validB)
          simp only [ox, effectiveOxygen, validA, validB, latestA, latestB, Option.elim]
    have flag : disc = ({ s.atm with a := a, b := b } : Atmosphere).judged := by
      simp only [disc, gap, Atmosphere.judged, oxygenGap_eq]
    have context : m = s.atm.measured a b := by
      show ({ s.atm with a := a, b := b, oxygen := ox, discrepancy := disc } : Atmosphere) = _
      rw [oxygen, flag]
      rfl
    have atm := analyzerMeasured_atm set
    have reach := inertReach_analyzerEvent k x s
    rw [context, ← atm] 
    rw [analyzerEvent_eq] at reach ⊢
    refine ⟨evalInert_atm_same, evalInert_atm_change, reach.inertFrame, fun validA validB same still => ?_⟩
    rw [evalInert_same still]
    exact analyzerMeasured_banks set validA validB (flag.symm.trans same)
  have reads : ∀ {ox : Nat} {y : AnalyzerStatus}, (Analyzer.read ox y s.clock).valid = true →
      (Analyzer.read ox y s.clock).latest ≠ none := fun _ => nofun
  refine ⟨fun ox st y status range => ?_, fun adr ox st out => ?_, fun r latest valid old other => ?_,
    fun r latest valid old other => ?_, fun invalid => ?_⟩
  · have taken : ∀ {adr k}, analyzerAt adr = some k →
        exec (.analyzerReading adr ox st) s = .next (analyzerEvent k (.read ox y s.clock) s) := fun known =>
      (exec_analyzerReading on hunting ..).trans (congrArg _ (takeReading_in known status range s))
    exact ⟨fun other => moved (taken rfl) rfl reads other, fun other => moved (taken rfl) rfl other reads⟩
  · rw [exec_analyzerReading on hunting, takeReading_out out]
  · exact moved (exec_analyzerAge on ((ageDue_iff s .a).2 ⟨valid, r, latest, old⟩)) rfl nofun other
  · exact moved (exec_analyzerAge on ((ageDue_iff s .b).2 ⟨valid, r, latest, old⟩)) rfl other nofun
  · refine event_next on _ (if_neg ?_)
    rw [ageDue_iff]
    exact fun ⟨valid, _⟩ => nomatch invalid.symm.trans valid

end

