-- ==== Sys2Proof/Proofs/Releases.lean ====
section
/-! PROOFS, layer 14. What the shared operations do to the release outputs and the purge request (R105, R148). -/

open Sys2Proof Sys2Proof.Machine

namespace Sys2Proof.Machine

/-! ### What the law reads -/

/-- The zones' states and the commands of their release outputs, and what the purge request follows. -/
structure Venting where
  run : Bool
  zones : Fin 8 → ZoneState
  releases : Fin 8 → Bool
  known : Bool
  inert : InertState
  purge : Bool

def State.venting (s : State) : Venting :=
  ⟨s.run, fun z => (s.zone z).state, fun z => (s.sup (.release z)).command, s.atm.z7Released, s.atm.state,
    s.out.purge.command⟩

/-- The law of R105 and R148, with `z7` as the state of Z7 that the Atmosphere Monitor was told last. -/
structure Venting.Lawful (v : Venting) (z7 : ZoneState) : Prop where
  releases : ∀ z, v.releases z = (v.zones z == .released)
  known : v.known = (z7 == .released)
  purge : v.purge = (v.inert != .vented || v.known)

theorem releaseLaw_iff (s : State) : ReleaseLaw s ↔ (s.run = true → s.venting.Lawful (s.zone 6).state) :=
  forall_congr' fun _ => ⟨fun ⟨r, k, p⟩ => ⟨r, k, p⟩, fun ⟨r, k, p⟩ => ⟨r, k, p⟩⟩

/-! ### The relation -/

/-- A state that keeps the law of the release outputs where `s` does. -/
structure Vented (s t : State) : Prop where
  run : t.run = s.run
  law : s.venting.Lawful (s.zone 6).state → t.venting.Lawful (t.zone 6).state

namespace Vented

variable {s t u : State}

theorem refl (s : State) : Vented s s := ⟨rfl, id⟩

theorem trans (h : Vented s t) (k : Vented t u) : Vented s u := ⟨k.run.trans h.run, k.law ∘ h.law⟩

/-- An update of what the law does not read. -/
theorem same (h : t.venting = s.venting) : Vented s t := by
  have z7 : (t.zone 6).state = (s.zone 6).state := congrArg (fun v => v.zones 6) h
  exact ⟨congrArg Venting.run h, fun law => by rwa [h, z7]⟩

/-- An operation after an update of what the law does not read. -/
theorem after (k : Vented u t) (h : u.venting = s.venting) : Vented s t := (same h).trans k

/-- An operation before an update of what the law does not read. -/
theorem before (k : Vented s u) (h : t.venting = u.venting) : Vented s t := k.trans (same h)

theorem ite {c : Prop} [Decidable c] (ht : c → Vented s t) (hu : ¬c → Vented s u) :
    Vented s (if c then t else u) := by
  split
  · exact ht ‹_›
  · exact hu ‹_›

/-- A step that may be taken or not. -/
theorem onlyIf {c : Prop} [Decidable c] {f : State → State} (k : Vented s t) (h : ∀ t, Vented t (f t)) :
    Vented s (if c then f t else t) := .ite (fun _ => k.trans (h t)) fun _ => k

theorem foldl {α : Type} {f : State → α → State} (h : ∀ s x, Vented s (f s x)) (l : List α) (s : State) :
    Vented s (l.foldl f s) := by
  induction l generalizing s with
  | nil => exact .refl s
  | cons x l ih => exact (h s x).trans (ih _)

end Vented

/-! ### Frames that leave the zones and the monitor -/

section

variable {s t : State}

theorem venting_of_mute (h : t.mute = s.mute) : t.venting = s.venting := (congrArg State.venting h :)
theorem venting_of_lessFeed (h : t.lessFeed = s.lessFeed) : t.venting = s.venting := (congrArg State.venting h :)
theorem venting_of_lessBays (h : t.lessBays = s.lessBays) : t.venting = s.venting := (congrArg State.venting h :)
theorem venting_of_lessPacks (h : t.lessPacks = s.lessPacks) : t.venting = s.venting := (congrArg State.venting h :)

end

theorem venting_notify (ps : List Port) (w : NoticeBody) (s : State) : (notify ps w s).venting = s.venting :=
  venting_of_mute (mute_notify ..)
theorem venting_postRaw (p : Posting) (s : State) : (postRaw p s).venting = s.venting :=
  venting_of_lessFeed (lessFeed_postRaw ..)
theorem venting_post (p : Posting) (s : State) : (post p s).venting = s.venting :=
  venting_of_lessFeed (lessFeed_post ..)
theorem venting_setLock (l : Lock) (s : State) : (setLock l s).venting = s.venting :=
  venting_of_lessFeed (lessFeed_setLock ..)
theorem venting_evalPermit (s : State) : (evalPermit s).venting = s.venting :=
  venting_of_lessFeed (lessFeed_evalPermit s)
theorem venting_noticePack (ps : List Port) (i : Fin 256) (s : State) : (noticePack ps i s).venting = s.venting :=
  venting_of_mute (mute_noticePack ..)
theorem venting_transition (i : Fin 256) (p : Pack) (s : State) : (transition i p s).venting = s.venting :=
  venting_of_lessPacks (lessPacks_transition ..)
theorem venting_quarantinePack (i : Fin 256) (cause : QuarantineCause) (s : State) :
    (quarantinePack i cause s).venting = s.venting := venting_of_lessPacks (lessPacks_quarantinePack ..)
theorem venting_onOccupant (n : Fin 8) (f : Pack → Pack) (s : State) : (onOccupant n f s).venting = s.venting :=
  venting_of_lessPacks (lessPacks_onOccupant ..)
theorem venting_putBay (n : Fin 8) (b : Bay) (s : State) : (putBay n b s).venting = s.venting :=
  venting_of_lessBays (lessBays_putBay ..)
theorem venting_stopLoad (n : Fin 8) (s : State) : (stopLoad n s).venting = s.venting :=
  venting_of_lessBays (lessBays_stopLoad ..)
theorem venting_enterDischarging (n : Fin 8) (ms : Nat) (s : State) : (enterDischarging n ms s).venting = s.venting :=
  venting_of_lessBays (lessBays_enterDischarging ..)
theorem venting_pauseBay (n : Fin 8) (cause : PauseCause) (s : State) : (pauseBay n cause s).venting = s.venting :=
  venting_of_lessBays (lessBays_pauseBay ..)
theorem venting_faultBay (n : Fin 8) (cause : FaultCause) (s : State) : (faultBay n cause s).venting = s.venting :=
  venting_of_lessBays (lessBays_faultBay ..)
theorem venting_takeBoundary (n : Fin 8) (s : State) : (takeBoundary n s).venting = s.venting :=
  venting_of_lessBays (lessBays_takeBoundary ..)
theorem venting_emptyBay (n : Fin 8) (s : State) : (emptyBay n s).venting = s.venting :=
  venting_of_lessBays (lessBays_emptyBay ..)
theorem venting_leaveLoc (l : Loc) (s : State) : (leaveLoc l s).venting = s.venting :=
  venting_of_lessBays (lessBays_leaveLoc ..)
theorem venting_occupyBay (n : Fin 8) (h : Handle) (t : Treatment) (recheck : Bool) (s : State) :
    (occupyBay n h t recheck s).venting = s.venting := venting_of_lessBays (lessBays_occupyBay ..)
theorem venting_setPort (s : State) (p : Port) (c : PortCtx) : (s.setPort p c).venting = s.venting := by
  cases p <;> rfl

theorem venting_blockLock (cause : QuarantineCause) (detail : Option Nat) (s : State) :
    (blockLock cause detail s).venting = s.venting := by
  unfold blockLock
  split
  · rfl
  · refine (venting_setLock ..).trans ?_
    split
    · exact (venting_postRaw ..).trans (venting_quarantinePack ..)
    · exact venting_quarantinePack ..

theorem venting_releaseLock (s : State) : (releaseLock s).venting = s.venting := by
  unfold releaseLock
  split
  · exact venting_blockLock ..
  · rfl

theorem venting_alarmBay (n : Fin 8) (s : State) : (alarmBay n s).venting = s.venting := by
  unfold alarmBay
  split
  · rfl
  · exact (venting_faultBay ..).trans (venting_quarantinePack ..)

theorem venting_alarmBays (l : List (Fin 8)) (s : State) :
    (l.foldl (fun t n => alarmBay n t) s).venting = s.venting := by
  induction l generalizing s with
  | nil => rfl
  | cons n l ih => exact (ih _).trans (venting_alarmBay n s)

theorem venting_deliverShred (s : State) : (deliverShred s).venting = s.venting :=
  venting_of_lessFeed (lessFeed_deliverShred s)

theorem venting_setShred (shred : Option (Fin 8)) (sw : Option Switch) (s : State) :
    (setShred shred sw s).venting = s.venting := by
  unfold setShred
  split
  · rfl
  · exact (venting_notify ..).trans (venting_deliverShred _)

theorem venting_closeLot (j : Fin 8) (l : Lot) (s : State) : (closeLot j l s).venting = s.venting := by
  unfold closeLot
  refine (venting_notify ..).trans ((venting_setShred ..).trans ?_)
  split
  · exact venting_postRaw ..
  · rfl

theorem venting_testClosing (j : Fin 8) (s : State) : (testClosing j s).venting = s.venting := by
  unfold testClosing
  split
  · split
    · exact venting_closeLot ..
    · rfl
  · rfl

theorem venting_countError (p : Port) (s : State) : (countError p s).venting = s.venting := by
  unfold countError
  dsimp only
  split
  · exact (venting_post ..).trans (venting_setPort ..)
  · exact venting_setPort ..

theorem venting_discardFrame (p : Port) (s : State) : (discardFrame p s).venting = s.venting :=
  (venting_setPort ..).trans (venting_countError ..)

/-! ### Updates -/

theorem venting_setZone (z : Fin 8) (q : Zone) (s : State) :
    (s.setZone z q).venting = { s.venting with zones := Function.update s.venting.zones z q.state } := by
  have zones : (fun y => ((s.setZone z q).zone y).state) = Function.update s.venting.zones z q.state := by
    funext y
    by_cases e : y = z
    · subst e
      rw [State.zone_setZone_same, Function.update_self]
    · rw [State.zone_setZone_other _ e, Function.update_of_ne e]
      rfl
  simp only [State.venting, zones]
  rfl

/-- A zone's context written with its state as it was. -/
theorem venting_setZone_same {z : Fin 8} {q : Zone} {s : State} (h : q.state = (s.zone z).state) :
    (s.setZone z q).venting = s.venting := by
  have still : Function.update s.venting.zones z (s.zone z).state = s.venting.zones := Function.update_eq_self ..
  rw [venting_setZone, h, still]

theorem venting_release (z : Fin 8) (on : Bool) (s : State) : (command (.release z) on s).venting =
    { s.venting with releases := Function.update s.venting.releases z on } := by
  have releases : (fun y => ((command (.release z) on s).sup (.release y)).command) =
      Function.update s.venting.releases z on := by
    funext y
    by_cases e : y = z
    · subst e
      rw [command_sup_same, Function.update_self]
    · rw [command_sup_other _ _ _ (by simpa using e), Function.update_of_ne e]
      rfl
  simp only [State.venting, releases]
  rfl

/-- A supervision context written with its command as it was. -/
theorem vented_setSup {o : Output} {v : Supervision} {s : State} (command : v.command = (s.sup o).command) :
    Vented s (s.setSup o v) := by
  refine .same ?_
  cases o with
  | release z =>
    have releases : (fun y => ((s.setSup (.release z) v).sup (.release y)).command) = s.venting.releases := by
      funext y
      by_cases e : y = z
      · subst e
        rw [State.sup_setSup_same, command]
        rfl
      · rw [State.sup_setSup_other _ (by simpa using e)]
        rfl
    simp only [State.venting, releases]
    rfl
  | purge =>
    have purge : v.command = s.out.purge.command := command
    simp only [State.venting, ← purge]
    rfl
  | _ => rfl

/-! ### Zones -/

/-- Zone `z` in state `st`, its release output commanded `on`. -/
def Venting.set (v : Venting) (z : Fin 8) (st : ZoneState) (on : Bool) : Venting :=
  { v with zones := Function.update v.zones z st, releases := Function.update v.releases z on }

/-- A zone written with its release output; where it is Z7, the monitor has yet to be told. -/
theorem Venting.Lawful.set {v : Venting} (h : v.Lawful (v.zones 6)) {z : Fin 8} {st : ZoneState} {on : Bool}
    (agree : on = (st == .released)) :
    (v.set z st on).Lawful (if z = 6 then v.zones z else (v.set z st on).zones 6) where
  releases y := by
    by_cases e : y = z
    · subst e
      simpa only [Venting.set, Function.update_self] using agree
    · simpa only [Venting.set, Function.update_of_ne e] using h.releases y
  known := by
    by_cases z7 : z = 6
    · subst z7
      rw [if_pos rfl]
      exact h.known
    · rw [if_neg z7]
      simpa only [Venting.set, Function.update_of_ne (Ne.symm z7)] using h.known
  purge := h.purge

theorem venting_deliverPurge (on : Bool) (s : State) : (deliverPurge on s).venting =
    { s.venting with known := on, purge := s.atm.state != .vented || on } := by
  have purge : (deliverPurge on s).out.purge.command = (s.atm.state != .vented || on) :=
    Supervision.setCommand_command ..
  simp only [State.venting, purge]
  rfl

/-- Once a zone's change is delivered, the monitor knows of Z7 (R105, R154). -/
theorem lawful_deliverZone {z : Fin 8} {old : ZoneState} {s : State}
    (h : s.venting.Lawful (if z = 6 then old else (s.zone 6).state)) :
    (deliverZone z old s).venting.Lawful ((deliverZone z old s).zone 6).state := by
  unfold deliverZone
  extract_lets st s1 s2 s3 s4
  have bays : s1.venting = s.venting := by
    simp only [s1]
    split
    · exact venting_alarmBays ..
    · rfl
  have feed : s2.venting = s.venting := by
    simp only [s2]
    split
    · exact (venting_of_lessFeed (lessFeed_deliverFeedZone ..)).trans bays
    · exact bays
  have lock : s3.venting = s.venting := by
    simp only [s3]
    split
    · exact (venting_releaseLock _).trans feed
    · exact feed
  have told : s4.venting.Lawful (s.zone 6).state ∧ s4.venting.zones = s.venting.zones := by
    by_cases z7 : z = 6
    · subst z7
      rw [if_pos rfl] at h
      by_cases passes : st = .released ∨ old = .released
      · have purge : s4.venting = { s.venting with
            known := st == .released, purge := s3.atm.state != .vented || st == .released } := by
          simp only [s4, if_pos (And.intro trivial passes), venting_deliverPurge, lock]
        have inert : s3.atm.state = s.atm.state := congrArg Venting.inert lock
        rw [purge, inert]
        exact ⟨⟨h.releases, rfl, rfl⟩, rfl⟩
      · have same : s4 = s3 := if_neg fun ⟨_, p⟩ => passes p
        obtain ⟨stays, stayed⟩ := not_or.1 passes
        rw [same, lock]
        refine ⟨⟨h.releases, h.known.trans ?_, h.purge⟩, rfl⟩
        rw [beq_false_of_ne stayed, beq_false_of_ne stays]
    · have same : s4 = s3 := if_neg fun ⟨p, _⟩ => z7 p
      rw [if_neg z7] at h
      rw [same, lock]
      exact ⟨h, rfl⟩
  obtain ⟨law, zones⟩ := told
  have noticed : (noticeZone z s4).venting = s4.venting := venting_notify ..
  have z7 : ((noticeZone z s4).zone 6).state = (s.zone 6).state :=
    congrFun ((congrArg Venting.zones noticed).trans zones) 6
  rw [noticed, z7]
  exact law

theorem run_deliverZone (z : Fin 8) (old : ZoneState) (s : State) : (deliverZone z old s).run = s.run :=
  (congrArg State.run (core_deliverZone z old s) :)

/-- A zone written with its release output, and its change delivered. -/
theorem vented_setAndDeliver {z : Fin 8} {st : ZoneState} {on : Bool} {s t : State}
    (set : t.venting = s.venting.set z st on) (agree : on = (st == .released)) :
    Vented s (deliverZone z (s.zone z).state t) where
  run := (run_deliverZone ..).trans (congrArg Venting.run set)
  law law := by
    have z7 : (t.zone 6).state = (s.venting.set z st on).zones 6 := congrArg (fun v => v.zones 6) set
    refine lawful_deliverZone ?_
    rw [set, z7]
    exact law.set agree

/-- A zone written with its release output as it was, neither entering RELEASED nor leaving it. -/
theorem vented_rezone {z : Fin 8} {st : ZoneState} {s t : State}
    (set : t.venting = { s.venting with zones := Function.update s.venting.zones z st })
    (h : (st == .released) = ((s.zone z).state == .released)) : Vented s (deliverZone z (s.zone z).state t) where
  run := (run_deliverZone ..).trans (congrArg Venting.run set)
  law law := by
    have still : Function.update s.venting.releases z (s.venting.releases z) = s.venting.releases :=
      Function.update_eq_self ..
    have both : t.venting = s.venting.set z st (s.venting.releases z) := by rw [set, Venting.set, still]
    exact (vented_setAndDeliver both ((law.releases z).trans h.symm)).law law

theorem vented_changeZone {z : Fin 8} {q : Zone} {s : State}
    (h : (q.state == .released) = ((s.zone z).state == .released)) : Vented s (changeZone z q s) :=
  vented_rezone (venting_setZone ..) h

/-- The release output goes on with the state (R148). -/
theorem vented_enterReleased (z : Fin 8) (detail : Nat) (s : State) : Vented s (enterReleased z detail s) := by
  refine vented_setAndDeliver (st := .released) (on := true) ?_ rfl
  rw [venting_post, venting_release, venting_setZone]
  rfl

theorem vented_evalRelease (z : Fin 8) (s : State) : Vented s (evalRelease z s) := by
  refine .ite (fun ⟨alarm, _⟩ => .ite (fun _ => vented_enterReleased ..) fun _ => vented_changeZone ?_) fun _ => .refl s
  rw [alarm]
  rfl

theorem vented_enterAlarm {z : Fin 8} {s : State} (h : (s.zone z).state ≠ .released) (part : Nat) :
    Vented s (enterAlarm z part s) := by
  refine .trans (vented_rezone (st := .alarm) ((venting_post ..).trans (venting_setZone ..)) ?_) (vented_evalRelease ..)
  exact (beq_false_of_ne h).symm

theorem vented_enterPreAlarm {z : Fin 8} {s : State} (h : (s.zone z).state ≠ .released) (detail : Nat) :
    Vented s (enterPreAlarm z detail s) :=
  vented_rezone (st := .preAlarm) ((venting_post ..).trans (venting_setZone ..)) (beq_false_of_ne h).symm

theorem vented_evalZone (z : Fin 8) (detail : Nat) (s : State) : Vented s (evalZone z detail s) := by
  unfold evalZone
  refine .ite (fun early => ?_) fun _ => .refl s
  have h : (s.zone z).state ≠ .released := by
    obtain e | e := early
    · rw [e]; exact nofun
    · rw [e]; exact nofun
  split
  · exact vented_enterAlarm h _
  · exact .ite (fun _ => .ite (fun _ => vented_enterPreAlarm h _) fun _ => .refl s) fun _ =>
      .ite (fun _ => vented_changeZone (beq_false_of_ne h).symm) fun _ => .refl s

theorem vented_deliverInventory (z : Fin 8) (s : State) : Vented s (deliverInventory z s) :=
  .ite (fun _ => .refl s) fun _ => .after (vented_evalRelease ..) (venting_setZone_same rfl)

theorem vented_deliverPlaces (src dst : Option (Fin 8)) (s : State) : Vented s (deliverPlaces src dst s) := by
  have delivered : ∀ (z : Option (Fin 8)) (t : State), Vented t (match z with
      | none => t
      | some z => deliverInventory z t) := by
    intro z t
    cases z with
    | none => exact .refl t
    | some z => exact vented_deliverInventory z t
  exact (delivered src s).trans (delivered dst _)

/-! ### The residual check -/

theorem vented_actOnCheck (n : Fin 8) (i : Fin 256) (p : Pack) (c : Check) (s : State) :
    Vented s (actOnCheck n i p c s) := by
  have booked : (checkBooked n i p c s).venting = s.venting := venting_transition ..
  rw [actOnCheck_eq]
  refine .trans (.after ?_ booked) (vented_deliverPlaces ..)
  refine .ite (fun _ => .same (venting_putBay ..)) fun _ => .ite (fun _ => .ite (fun _ => ?_) fun _ => ?_) fun _ => ?_
  · exact .same (venting_enterDischarging ..)
  · exact .same (venting_putBay ..)
  · exact .same ((venting_post ..).trans (venting_putBay ..))

theorem vented_runCheck (n : Fin 8) (s : State) : Vented s (runCheck n s) := by
  unfold runCheck
  split
  · exact vented_actOnCheck ..
  · exact .same rfl

/-! ### The inert state -/

/-- The purge request follows the inert state (R105). -/
theorem vented_setInert (st : InertState) (s : State) : Vented s (setInert st s) where
  run := rfl
  law law := ⟨law.releases, law.known, Supervision.setCommand_command ..⟩

theorem vented_changeInert (st : InertState) (s : State) : Vented s (changeInert st s) := by
  unfold changeInert
  extract_lets s1 s2
  have entered : Vented s s2 := .onlyIf (vented_setInert st s) fun t => .same (venting_post _ t)
  exact entered.before ((venting_notify ..).trans (venting_of_lessFeed (lessFeed_deliverInert s2)))

theorem vented_evalInert (s : State) : Vented s (evalInert s) :=
  .ite (fun _ => .refl s) fun _ => vented_changeInert ..

theorem venting_checkPurgeTimeout (s : State) : (checkPurgeTimeout s).venting = s.venting := by
  unfold checkPurgeTimeout
  split
  · rfl
  · split
    · exact venting_post ..
    · rfl

/-! ### Presence and frames -/

theorem vented_fireAbsentZone (z : Fin 8) (s : State) : Vented s (fireAbsentZone z s) :=
  .ite (fun _ => .same (venting_setZone_same rfl)) fun _ => vented_evalRelease z s

theorem vented_lineAbsentBay (n : Fin 8) (s : State) : Vented s (lineAbsentBay n s) :=
  .ite (fun _ => .same (venting_pauseBay ..)) fun _ => .refl s

theorem vented_deliverPresence (p : Port) (s : State) : Vented s (deliverPresence p s) := by
  cases p with
  | line =>
    refine .ite (fun _ => .same (venting_of_lessFeed (lessFeed_resumeLock s))) fun _ => ?_
    refine .onlyIf (Vented.foldl (fun t n => vented_lineAbsentBay n t) eight s) fun t => ?_
    exact .same (venting_of_lessFeed (lessFeed_holdLock 2 t))
  | fire =>
    refine .after (.ite (fun _ => .refl _) fun _ => ?_) (venting_of_lessFeed (lessFeed_deliverFirePort s))
    exact Vented.foldl (fun t z => vented_fireAbsentZone z t) eight _
  | custody => exact .refl s

theorem vented_touchPort (p : Port) (s : State) : Vented s (touchPort p s) := by
  refine .after (.ite (fun _ => .refl _) fun _ => ?_) (venting_setPort ..)
  exact .before (vented_deliverPresence ..) (venting_notify ..)

theorem vented_receiveFrame (p : Port) (f : Frame) (s : State) : Vented s (receiveFrame p f s) :=
  .ite (fun _ => .refl s) fun _ =>
    .ite (fun _ => .after (vented_touchPort ..) (venting_setPort ..)) fun _ =>
      .before (vented_touchPort p s) (venting_discardFrame ..)

end Sys2Proof.Machine
end

