-- ==== Sys2Proof/Proofs/ReleaseOwners.lean ====
section
/-! PROOFS, layer 14 continued. What the owners of the requests do to the release outputs and the purge request (R105,
R148). -/

open Sys2Proof Sys2Proof.Machine

namespace Sys2Proof.Machine

/-! ### Replies -/

/-- A reply to a request found in `s` leaves a state in which the law of the release outputs holds where it did. -/
structure VentedReply (s : State) (r : Reply) : Prop where
  vented : Vented s r.st

namespace VentedReply

variable {s t : State}

theorem refuse (k : Result) (s : State) : VentedReply s (refuse k s) := ⟨.refl s⟩

theorem reply (body : List Byte) (k : Vented s t) : VentedReply s (reply t body) := ⟨k⟩

/-- A reply that changes nothing the law reads. -/
theorem same (body : List Byte) (h : t.venting = s.venting) : VentedReply s (Machine.reply t body) := ⟨.same h⟩

theorem ite {c : Prop} [Decidable c] {q r : Reply} (hq : c → VentedReply s q) (hr : ¬c → VentedReply s r) :
    VentedReply s (if c then q else r) := by
  split
  · exact hq ‹_›
  · exact hr ‹_›

/-- A check that refuses, before the rest of the owner's work. -/
theorem check {c : Prop} [Decidable c] {k : Result} {r : Reply} (h : ¬c → VentedReply s r) :
    VentedReply s (if c then Machine.refuse k s else r) := .ite (fun _ => .refuse k s) h

theorem withPack {index gen : Nat} {k : Handle → Pack → Reply} (h : ∀ d p, VentedReply s (k d p)) :
    VentedReply s (withPack index gen s k) := by
  unfold Machine.withPack
  split
  · exact .refuse ..
  · split
    · exact .refuse ..
    · exact h _ _

theorem withLot {lot : Nat} {k : Fin 8 → Reply} (h : ∀ j, VentedReply s (k j)) : VentedReply s (withLot lot s k) := by
  unfold Machine.withLot
  split
  · exact .refuse ..
  · exact h _

theorem withBay {bay : Nat} {k : Fin 8 → Reply} (h : ∀ n, VentedReply s (k n)) : VentedReply s (withBay bay s k) := by
  unfold Machine.withBay
  split
  · exact .refuse ..
  · exact h _

theorem withZone {zone : Nat} {k : Fin 8 → Reply} (h : ∀ z, VentedReply s (k z)) :
    VentedReply s (withZone zone s k) := by
  unfold Machine.withZone
  split
  · exact .refuse ..
  · exact h _

theorem guarded {code target g1 g2 : Nat} {owner : State → Reply} (h : VentedReply s (owner s)) :
    VentedReply s (guarded code target g1 g2 owner s) := .ite (fun _ => h) fun _ => .refuse ..

end VentedReply

/-! ### Reads and ports -/

theorem vented_status (part : Nat) (s : State) : VentedReply s (statusReply part s) := by
  unfold statusReply
  split <;> exact ⟨.refl s⟩

theorem vented_readPack (index gen : Nat) (s : State) : VentedReply s (readPackReply index gen s) :=
  .withPack fun _ _ => .same _ rfl

theorem vented_list (p : Port) (state lot : Option Nat) (s : State) : VentedReply s (listReply p state lot s) := by
  unfold listReply
  split
  · exact .refuse ..
  · exact .same _ (venting_setPort ..)

theorem vented_cursor (p : Port) (index : Nat) (s : State) : VentedReply s (cursorReply p index s) := by
  unfold cursorReply
  split
  · exact .refuse ..
  · exact .same _ (venting_setPort ..)

theorem vented_readBay (bay : Nat) (s : State) : VentedReply s (readBayReply bay s) := by
  unfold readBayReply
  split <;> exact ⟨.refl s⟩

theorem vented_readZone (zone : Nat) (s : State) : VentedReply s (readZoneReply zone s) := by
  unfold readZoneReply
  split <;> exact ⟨.refl s⟩

theorem vented_readLot (lot : Nat) (s : State) : VentedReply s (readLotReply lot s) := by
  unfold readLotReply
  split
  · exact .refuse ..
  · split <;> exact ⟨.refl s⟩

theorem vented_readBank (bank : Nat) (s : State) : VentedReply s (readBankReply bank s) := by
  unfold readBankReply
  split <;> exact ⟨.refl s⟩

theorem vented_readConfig (item index : Nat) (s : State) : VentedReply s (readConfigReply item index s) := by
  unfold readConfigReply
  split <;> exact ⟨.refl s⟩

theorem vented_fetch (p : Port) (s : State) : VentedReply s (fetchReply p s) := .same _ (venting_setPort ..)

theorem vented_presence (p : Port) (seconds : Nat) (s : State) : VentedReply s (presenceReply p seconds s) :=
  .same _ (venting_setPort ..)

theorem venting_clearBankState (k : BankId) (s : State) : (clearBankState k s).venting = s.venting :=
  (venting_of_lessFeed (lessFeed_deliverBanks _)).trans (venting_notify ..)

theorem vented_clearBank (p : Port) (bank number : Nat) (s : State) :
    VentedReply s (clearBankReply p bank number s) := by
  unfold clearBankReply
  split
  · exact .refuse ..
  · exact .check fun _ => .check fun _ => .ite (fun _ => .same _ rfl) fun _ =>
      .check fun _ => .same _ (venting_clearBankState ..)

theorem vented_enables (p : Port) (bank : Nat) (es : List Nat) (s : State) :
    VentedReply s (enablesReply p bank es s) := by
  unfold enablesReply
  split
  · exact .refuse ..
  · split
    · exact .refuse ..
    · exact .check fun _ => .same _ rfl

/-! ### Classification -/

theorem vented_writeTreatment (index : Nat) (f : TreatmentFields) (s : State) :
    VentedReply s (writeTreatmentReply index f s) := by
  unfold writeTreatmentReply
  split
  · exact .same _ rfl
  · exact .refuse ..

theorem vented_writeRange (index low high treatment enabled : Nat) (s : State) :
    VentedReply s (writeRangeReply index low high treatment enabled s) := by
  unfold writeRangeReply
  split
  · exact .check fun _ => .same _ rfl
  · exact .refuse ..

theorem vented_writeSlotMap (fam treatment enabled : Nat) (s : State) :
    VentedReply s (writeSlotMapReply fam treatment enabled s) := by
  unfold writeSlotMapReply
  split
  · exact .same _ rfl
  · exact .refuse ..

theorem vented_setMap (enable treatment : Nat) (s : State) : VentedReply s (setMapReply enable treatment s) := by
  unfold setMapReply
  split
  · exact .same _ rfl
  · exact .refuse ..

theorem vented_curveBegin (curve : Nat) (s : State) : VentedReply s (curveBeginReply curve s) := by
  unfold curveBeginReply
  split
  · exact .refuse ..
  · exact .check fun _ => .same _ rfl

theorem vented_curvePoint (curve voltage fraction : Nat) (s : State) :
    VentedReply s (curvePointReply curve voltage fraction s) := by
  unfold curvePointReply
  split
  · exact .refuse ..
  · exact .check fun _ => .check fun _ => .check fun _ => .same _ rfl

/-- The checks that a curve wakes tell the zones of their bays (R40, R44). -/
theorem vented_wakeChecks (k : Fin 4) (s : State) : Vented s (wakeChecks k s) :=
  Vented.foldl (fun t n => .onlyIf (.refl t) (vented_runCheck n)) eight s

theorem vented_judgeCurve (k : Fin 4) (points : List Point) (s : State) : Vented s (judgeCurve k points s) :=
  .ite (fun _ => .after (vented_wakeChecks ..) rfl) fun _ => .same (venting_post ..)

theorem vented_curveEnd (curve : Nat) (s : State) : VentedReply s (curveEndReply curve s) := by
  unfold curveEndReply
  split
  · exact .refuse ..
  · exact .check fun _ => .reply _ (vented_judgeCurve ..)

/-! ### Fire Zone Controller -/

theorem vented_evalZones (old new : Option (Fin 8)) (detail : Nat) (s : State) :
    Vented s (evalZones old new detail s) := by
  unfold evalZones
  cases new with
  | none =>
    cases old with
    | none => exact .refl s
    | some z => exact .ite (fun _ => .refl s) fun _ => vented_evalZone ..
  | some w =>
    cases old with
    | none => exact vented_evalZone ..
    | some z => exact .ite (fun _ => vented_evalZone ..) fun _ => (vented_evalZone ..).trans (vented_evalZone ..)

theorem vented_writeDetector (detector zone kind : Nat) (s : State) :
    VentedReply s (writeDetectorReply detector zone kind s) := by
  unfold writeDetectorReply
  split
  · exact .check fun _ => .reply _ (.after (vented_evalZones ..) rfl)
  · exact .refuse ..

theorem vented_writeFireTimes (dwell rearm : Nat) (s : State) : VentedReply s (writeFireTimesReply dwell rearm s) :=
  .same _ rfl

theorem vented_writeZone (zone threshold delay : Nat) (s : State) :
    VentedReply s (writeZoneReply zone threshold delay s) :=
  .withZone fun _ => .check fun _ => .reply _ (.after (vented_evalRelease ..) (venting_setZone_same rfl))

theorem vented_setHold (z : Fin 8) (on : Bool) (s : State) : VentedReply s (setHold z on s) :=
  .check fun _ => .ite (fun _ => .same _ rfl) fun _ =>
    .same _ ((venting_notify ..).trans (venting_setZone_same rfl))

theorem vented_release (target : Nat) (s : State) : VentedReply s (releaseReply target s) := by
  refine .withZone fun z => ?_
  split
  · exact .same _ rfl
  · exact .refuse ..
  · exact .reply _ (vented_enterReleased ..)

/-- The release output goes off with the state (R150). -/
theorem vented_zoneReset (target : Nat) (s : State) : VentedReply s (zoneResetReply target s) := by
  refine .withZone fun z => .check fun _ => .check fun _ => .reply _ (.trans ?_ (vented_evalZone ..))
  refine vented_setAndDeliver (z := z) (st := .normal) (on := false) ?_ rfl
  rw [venting_setZone, venting_release]
  rfl

theorem vented_isolate (zone : Nat) (s : State) : VentedReply s (isolateReply zone s) := by
  refine .withZone fun _ => .check fun normal => .check fun _ => .reply _ (vented_changeZone ?_)
  rw [not_not.1 normal]
  rfl

theorem vented_restore (zone : Nat) (s : State) : VentedReply s (restoreReply zone s) := by
  refine .withZone fun _ => .check fun isolated => .reply _ (.trans (vented_changeZone ?_) (vented_evalZone ..))
  rw [not_not.1 isolated]
  rfl

/-! ### Atmosphere Monitor -/

theorem vented_inertStart (s : State) : VentedReply s (inertStartReply s) :=
  .check fun _ => .reply _ (vented_changeInert ..)

theorem vented_inertStop (s : State) : VentedReply s (inertStopReply s) :=
  .check fun _ => .check fun _ => .reply _ (vented_changeInert ..)

theorem vented_inertReset (target : Nat) (s : State) : VentedReply s (inertResetReply target s) :=
  .check fun _ => .check fun _ => .check fun _ => .reply _ (vented_changeInert ..)

theorem vented_writeLimits (l : InertLimits) (s : State) : Vented s (writeLimits l s) := by
  rw [writeLimits_eq]
  exact .before (.after (vented_evalInert (limited l s)) rfl) (venting_checkPurgeTimeout _)

theorem vented_writeInertLimits (purge run trip hold maxPurge : Nat) (s : State) :
    VentedReply s (writeInertLimitsReply purge run trip hold maxPurge s) :=
  .check fun _ => .reply _ (vented_writeLimits ..)

/-! ### Pack Register -/

theorem vented_admitAt (i : Fin 256) (p : Pack) (s : State) : Vented s (admitAt i p s) := by
  unfold admitAt
  exact .after (vented_deliverPlaces ..) (venting_noticePack ..)

theorem vented_admit (tag lot typeCode damaged mass nominal cells : Nat) (s : State) :
    VentedReply s (admitReply tag lot typeCode damaged mass nominal cells s) := by
  unfold admitReply
  split
  · refine .check fun _ => .check fun _ => .check fun _ => ?_
    split
    · exact .refuse ..
    · exact .check fun _ => .reply _ (vented_admitAt ..)
  · exact .refuse ..

theorem vented_withdraw (index gen : Nat) (s : State) : VentedReply s (withdrawReply index gen s) := by
  refine .withPack fun _ _ => .check fun _ => .check fun _ => .reply _ (.before ?_ (venting_testClosing ..))
  exact .after (vented_deliverPlaces ..) (venting_transition ..)

theorem vented_placeInBay (h : Handle) (p : Pack) (n : Fin 8) (recheck : Bool) (s : State) :
    Vented s (placeInBay h p n recheck s) :=
  .after (vented_deliverPlaces ..) ((venting_occupyBay ..).trans ((venting_leaveLoc ..).trans (venting_transition ..)))

theorem vented_assign (index gen bay : Nat) (s : State) : VentedReply s (assignReply index gen bay s) := by
  unfold assignReply
  split
  · exact .refuse ..
  · exact .withPack fun _ _ => .check fun _ => .check fun _ => .check fun _ => .reply _ (vented_placeInBay ..)

theorem vented_move (index gen dest : Nat) (s : State) : VentedReply s (moveReply index gen dest s) := by
  unfold moveReply
  split
  · exact .refuse ..
  · refine .withPack fun _ _ => .ite (fun _ => .same _ rfl) fun _ => .check fun _ => .check fun _ => .reply _ ?_
    exact .after (vented_deliverPlaces ..) ((venting_leaveLoc ..).trans (venting_noticePack ..))

theorem venting_quarantinePlace (h : Handle) (p : Pack) (s : State) : (quarantinePlace h p s).venting = s.venting := by
  unfold quarantinePlace
  split
  · unfold quarantineBay
    split
    · exact (venting_putBay ..).trans (venting_stopLoad ..)
    · rfl
  · split <;> rfl

theorem vented_quarantine (index gen : Nat) (s : State) : VentedReply s (quarantineReply index gen s) := by
  refine .withPack fun h p => ?_
  split
  case h_5 => exact .same _ ((venting_quarantinePlace ..).trans (venting_quarantinePack ..))
  all_goals exact ⟨.refl s⟩

/-! ### Lot Table -/

theorem venting_noticeLot (j : Fin 8) (st : Option LotState) (number : Nat)
    (closing : Option (Option Balance × Option Nat × Bool)) (s : State) :
    (noticeLot j st number closing s).venting = s.venting := venting_notify ..

theorem vented_openLot (number : Nat) (s : State) : VentedReply s (openLotReply number s) := by
  refine .check fun _ => .check fun _ => ?_
  split
  · exact .refuse ..
  · exact .same _ (venting_noticeLot ..)

theorem vented_closeLot (lot : Nat) (s : State) : VentedReply s (closeLotReply lot s) := by
  refine .withLot fun j => ?_
  split
  · exact .refuse ..
  · exact .check fun _ => .same _ ((venting_testClosing ..).trans (venting_noticeLot ..))

theorem vented_releaseLot (lot : Nat) (s : State) : VentedReply s (releaseLotReply lot s) := by
  refine .withLot fun j => ?_
  split
  · exact .refuse ..
  · exact .check fun _ => .same _ (venting_noticeLot ..)

theorem venting_finalWeight (j : Fin 8) (s : State) : (finalWeight j s).venting = s.venting :=
  (venting_testClosing ..).trans (venting_setShred ..)

theorem vented_outputWeight (lot mass final : Nat) (s : State) :
    VentedReply s (outputWeightReply lot mass final s) := by
  unfold outputWeightReply
  split
  · refine .check fun _ => ?_
    split
    · exact .refuse ..
    · refine .check fun _ => .check fun _ => .check fun _ => .check fun _ => .reply _ ?_
      exact .onlyIf (.same rfl) fun t => .same (venting_finalWeight _ t)
  · exact .refuse ..

theorem vented_switch (lot : Nat) (s : State) : VentedReply s (switchReply lot s) := by
  refine .withLot fun j => .check fun _ => .check fun _ => ?_
  split
  · exact .refuse ..
  · refine .check fun _ => .ite (fun _ => .same _ rfl) fun _ => ?_
    split <;> exact .same _ (venting_setShred ..)

theorem vented_cancel (s : State) : VentedReply s (cancelReply s) := .check fun _ => .same _ (venting_setShred ..)

theorem vented_chamberClear (s : State) : VentedReply s (chamberClearReply s) := by
  unfold chamberClearReply
  split
  · exact .refuse ..
  · exact .ite (fun _ => .same _ rfl) fun _ =>
      .ite (fun _ => .same _ (venting_setShred ..)) fun _ => .same _ (venting_setShred ..)

theorem vented_bounds (low high : Nat) (s : State) : VentedReply s (boundsReply low high s) :=
  .check fun _ => .same _ rfl

/-! ### Feed Controller -/

theorem vented_refuseRecheck (i : Fin 256) (p : Pack) (s : State) : VentedReply s (refuseRecheck i p s) := ⟨.same rfl⟩

theorem vented_enqueueState (h : Handle) (p : Pack) (n : Fin 8) (s : State) : Vented s (enqueueState h p n s) := by
  unfold enqueueState
  extract_lets s1
  have queued : ({ s1 with feed.queue := s1.feed.queue ++ [h] } : State).venting = s.venting := venting_transition ..
  exact .after (vented_deliverPlaces ..) ((venting_emptyBay ..).trans queued)

theorem vented_enqueue (index gen : Nat) (s : State) : VentedReply s (enqueueReply index gen s) := by
  refine .withPack fun h p => ?_
  split
  · exact .refuse ..
  · exact .ite (fun _ => vented_refuseRecheck ..) fun _ => .check fun _ => .check fun _ =>
      .reply _ (vented_enqueueState ..)

theorem vented_remove (index gen dest : Nat) (s : State) : VentedReply s (removeReply index gen dest s) := by
  unfold removeReply
  split
  · exact .refuse ..
  · refine .withPack fun h p => .check fun _ => ?_
    split
    · exact .check fun _ => .check fun _ => .reply _ (.after (vented_placeInBay ..) rfl)
    · exact .check fun _ => .reply _ (.after (vented_deliverPlaces ..) (venting_transition ..))

theorem vented_feedState (h : Handle) (p : Pack) (s : State) : Vented s (feedState h p s) := by
  unfold feedState
  refine .after (vented_deliverPlaces ..) ((venting_setLock ..).trans ?_)
  rw [venting_transition]
  rfl

theorem vented_feed (index gen : Nat) (s : State) : VentedReply s (feedReply index gen s) :=
  .withPack fun _ _ => .check fun _ => .check fun _ => .check fun _ => .check fun _ => .check fun _ =>
    .ite (fun _ => vented_refuseRecheck ..) fun _ => .check fun _ => .reply _ (vented_feedState ..)

theorem vented_lockClosed (s : State) : VentedReply s (lockClosedReply s) :=
  .ite (fun _ => .same _ (venting_setLock ..)) fun _ => .refuse ..

theorem vented_return (index gen : Nat) (s : State) : VentedReply s (returnReply index gen s) :=
  .withPack fun _ _ => .check fun _ => .check fun _ => .check fun _ => .check fun _ => .same _ (venting_setLock ..)

theorem vented_dropDone (index gen : Nat) (s : State) : VentedReply s (dropDoneReply index gen s) := by
  refine .withPack fun _ _ => .check fun _ => .reply _ (.before ?_ (venting_testClosing ..))
  exact .after (vented_deliverPlaces ..) ((venting_setLock ..).trans (venting_transition ..))

theorem vented_requeue (h : Handle) (p : Pack) (s : State) : Vented s (requeue h p s) := by
  unfold requeue
  extract_lets s1
  exact .after (vented_deliverPlaces ..) ((venting_setLock ..).trans (venting_transition ..))

theorem vented_lockEmptied (s : State) : VentedReply s (lockEmptiedReply s) := by
  unfold lockEmptiedReply
  dsimp only
  split
  · exact .refuse ..
  · refine .ite (fun _ => .reply _ (vented_requeue ..)) fun _ => .ite (fun _ => .reply _ ?_) fun _ => .refuse ..
    exact .after (vented_deliverPlaces ..) ((venting_setLock ..).trans (venting_noticePack ..))

theorem vented_writeFeed (seconds : Nat) (s : State) : VentedReply s (writeFeedReply seconds s) := .same _ rfl

/-! ### Bay Supervisor -/

theorem vented_bayReady {n : Fin 8} {s t : State} (h : t.venting = s.venting) : VentedReply s (bayReady n s t) :=
  .check fun _ => .check fun _ => .same _ h

theorem vented_start (bay : Nat) (s : State) : VentedReply s (startReply bay s) := by
  refine .withBay fun n => .check fun _ => vented_bayReady ?_
  split
  · exact (venting_putBay ..).trans (venting_onOccupant ..)
  · exact (venting_enterDischarging ..).trans (venting_onOccupant ..)

theorem vented_pause (bay : Nat) (s : State) : VentedReply s (pauseReply bay s) :=
  .withBay fun _ => .check fun _ => .same _ (venting_pauseBay ..)

theorem vented_resume (bay : Nat) (s : State) : VentedReply s (resumeReply bay s) := by
  refine .withBay fun n => .check fun _ => vented_bayReady ?_
  unfold resumeState
  dsimp only
  split
  · exact (venting_takeBoundary ..).trans (venting_enterDischarging ..)
  · exact venting_enterDischarging ..

theorem vented_abort (bay : Nat) (s : State) : VentedReply s (abortReply bay s) :=
  .withBay fun _ => .check fun _ =>
    .same _ ((venting_putBay ..).trans ((venting_stopLoad ..).trans (venting_onOccupant ..)))

theorem venting_followSlot (n : Fin 8) (s : State) : (followSlot n s).venting = s.venting :=
  venting_of_lessBays (lessBays_followSlot ..)

theorem venting_writeSlotState (n : Fin 8) (sl : SlotName) (x : Slot) (s : State) :
    (writeSlotState n sl x s).venting = s.venting := by
  unfold writeSlotState
  extract_lets b s1
  split
  · rfl
  · split
    · rfl
    · split
      · exact (venting_takeBoundary ..).trans (venting_followSlot ..)
      · exact venting_followSlot ..

theorem vented_writeSlot (bay slot current stop segment : Nat) (s : State) :
    VentedReply s (writeSlotReply bay slot current stop segment s) := by
  unfold writeSlotReply
  split
  · exact .check fun _ => .check fun _ => .same _ (venting_writeSlotState ..)
  · exact .refuse ..

theorem vented_clearBay (bay : Nat) (s : State) : VentedReply s (clearBayReply bay s) :=
  .withBay fun _ => .check fun _ => .check fun _ =>
    .reply _ (.ite (fun _ => .same (venting_putBay ..)) fun _ => .same (venting_emptyBay ..))

/-! ### LINE_RESTART -/

theorem venting_restartPack (i : Fin 256) (p : Pack) (s : State) : (restartPack i p s).venting = s.venting := by
  unfold restartPack
  split
  · exact venting_transition ..
  · exact venting_transition ..
  · rfl
  · rfl

theorem vented_restartBay (n : Fin 8) (s : State) : Vented s (restartBay n s) := by
  unfold restartBay
  split
  · exact .ite (fun _ => .same (venting_emptyBay ..)) fun _ => .refl s
  · refine .ite (fun _ => .same rfl) fun _ => .same ?_
    exact (venting_putBay ..).trans ((venting_stopLoad ..).trans (venting_restartPack ..))

theorem venting_restartLock (s : State) : (restartLock s).venting = s.venting := by
  unfold restartLock
  split
  · exact venting_blockLock ..
  · exact venting_setLock ..

/-- The monitor is VENTED by a restart, and the purge request follows (R105, R107). -/
theorem vented_restartMonitor (s : State) : Vented s (restartMonitor s) := by
  unfold restartMonitor
  split
  case h_4 => exact .refl s
  all_goals exact .before (vented_setInert .vented s) (venting_notify ..)

theorem vented_restartLine (s : State) : Vented s (restartLine s) := by
  refine .before (.trans ?_ (vented_restartMonitor _)) ((venting_evalPermit _).trans (venting_setShred ..))
  exact .before (Vented.foldl (fun t n => vented_restartBay n t) eight s) (venting_restartLock _)

theorem vented_lineRestart (target : Nat) (s : State) : VentedReply s (lineRestartReply target s) :=
  .check fun _ => .reply _ (vented_restartLine s)

/-! ### A request served -/

theorem vented_takeRequest {p : Port} {f : Frame} {owner : State → Reply} (h : ∀ s, VentedReply s (owner s))
    (s : State) : Vented s (takeRequest p f owner s) := by
  have served : ∀ r, VentedReply (touchPort p s) r → Vented s (respond p f r) := fun _ k =>
    .before ((vented_touchPort p s).trans k.vented) (venting_setPort ..)
  exact served _ (.ite (fun _ => h _) fun _ => .refuse ..)

theorem vented_serve {p : Port} {f : Frame} {owner : State → Reply} (h : ∀ s, VentedReply s (owner s)) (s : State) :
    Vented s (serve p f owner s) := by
  refine .ite (fun _ => .refl s) fun _ => ?_
  split
  · exact .ite (fun _ => .refl s) fun _ => vented_takeRequest h s
  · exact .ite (fun _ => .after (vented_takeRequest h _) (venting_setPort ..)) fun _ => vented_receiveFrame ..

end Sys2Proof.Machine
end

