-- ==== Sys2Proof/Proofs/ReleaseLaw.lean ====
section
/-! PROOFS: a zone's release output is on exactly in RELEASED, and the purge request follows the inert state and Z7 (R105,
R148), after every command and every millisecond. -/

open Sys2Proof Sys2Proof.Machine

namespace Sys2Proof.Machine

/-! ### Samples and the bays' timers -/

theorem venting_quarantineOccupant (n : Fin 8) (cause : QuarantineCause) (s : State) :
    (quarantineOccupant n cause s).venting = s.venting := by
  unfold quarantineOccupant
  split
  · rfl
  · exact venting_quarantinePack ..

theorem venting_sampleFault {n : Fin 8} {pack : State → State} {s : State} (cause : FaultCause) (code : Code)
    (detail : Nat) (h : (pack s).venting = s.venting) : (sampleFault n cause pack code detail s).venting = s.venting :=
  (venting_post ..).trans ((venting_faultBay ..).trans h)

theorem venting_stopReached (n : Fin 8) (s : State) : (stopReached n s).venting = s.venting := by
  unfold stopReached
  extract_lets s1 s2
  have packs : s1.venting = s.venting := venting_onOccupant ..
  have stopped : s2.venting = s1.venting := venting_stopLoad ..
  exact (venting_putBay ..).trans (stopped.trans packs)

theorem vented_dischargeChecks (n : Fin 8) (p : Pack) (x : Sample) (s : State) : Vented s (dischargeChecks n p x s) :=
  .ite (fun _ => .same (venting_sampleFault _ _ _ (venting_quarantineOccupant ..))) fun _ =>
    .ite (fun _ => .same (venting_sampleFault _ _ _ (venting_quarantineOccupant ..))) fun _ =>
      .ite (fun _ => .same (venting_sampleFault _ _ _ (venting_onOccupant ..))) fun _ =>
        .ite (fun _ => .same (venting_stopReached n s)) fun _ => .refl s

theorem vented_restChecks (n : Fin 8) (p : Pack) (x : Sample) (s : State) : Vented s (restChecks n p x s) :=
  .ite (fun _ => .same (venting_sampleFault _ _ _ (venting_quarantineOccupant ..))) fun _ =>
    .ite (fun _ => .same (venting_sampleFault _ _ _ (venting_quarantineOccupant ..))) fun _ =>
      .ite (fun _ => vented_runCheck n s) fun _ => .refl s

theorem vented_sampleChecks (n : Fin 8) (x : Sample) (s : State) : Vented s (sampleChecks n x s) := by
  unfold sampleChecks
  split
  · exact .refl s
  · split
    · exact vented_dischargeChecks ..
    · exact vented_restChecks ..
    · exact vented_restChecks ..
    · exact .refl s

/-- The energy booked reaches the bay's zone (R87). -/
theorem vented_integrateSample (n : Fin 8) (v : Nat) (i : Int) (interval : Nat) (k : SeqClass) (s : State) :
    Vented s (integrateSample n v i interval k s) := by
  unfold integrateSample
  split
  · exact .refl s
  · exact .after (vented_deliverPlaces ..) rfl

theorem vented_acceptSample (n : Fin 8) (k : SeqClass) (q : Nat) (x : Sample) (interval : Nat) (s : State) :
    Vented s (acceptSample n k q x interval s) := by
  unfold acceptSample
  extract_lets run _ s1 s2 _ s3
  have counted : Vented s s1 := .same rfl
  have integrated : Vented s s2 := counted.onlyIf (vented_integrateSample n x.voltage x.current interval k)
  have sampled : Vented s s3 := integrated.before rfl
  exact (sampled.trans (vented_sampleChecks ..)).before rfl

theorem vented_takeSample (address q v : Nat) (i t : Int) (interval : Nat) (s : State) :
    Vented s (takeSample address q v i t interval s) := by
  unfold takeSample
  split
  · exact .refl s
  · refine .ite (fun _ => .refl s) fun _ => .ite (fun _ => .same rfl) fun _ => ?_
    split
    · exact .same rfl
    · exact .same rfl
    · exact vented_acceptSample ..

theorem vented_sampleLost (n : Fin 8) (s : State) : Vented s (sampleLost n s) :=
  .same ((venting_post ..).trans (venting_pauseBay ..))

theorem vented_endRest (n : Fin 8) (s : State) : Vented s (endRest n s) := .after (vented_runCheck n _) rfl

/-! ### The field link -/

theorem venting_transmitLoadSet (s : State) : (transmitLoadSet s).venting = s.venting := by
  unfold transmitLoadSet
  split <;> rfl

theorem venting_refreshBay (n : Fin 8) (s : State) : (refreshBay n s).venting = s.venting := by
  unfold refreshBay
  split
  · dsimp only
    split <;> rfl
  · rfl

theorem vented_onFieldLink {f : State → State} (h : ∀ s, Vented s (f s)) (s : State) : Vented s (onFieldLink f s) :=
  .ite (fun _ => .refl s) fun _ => h s

/-! ### Analyzers and detectors -/

theorem vented_judgeDiscrepancy (s : State) : Vented s (judgeDiscrepancy s) :=
  .ite (fun _ => .refl s) fun _ => .ite (fun _ => .same rfl) fun _ => .ite (fun _ => .refl s) fun _ =>
    .same (venting_post ..)

theorem vented_judgeLoss (k : AnalyzerId) (before : Nat) (s : State) : Vented s (judgeLoss k before s) :=
  .ite (fun _ => .same (venting_post ..)) fun _ => .refl s

/-- An analyzer written leaves the inert state and what is known of Z7. -/
theorem vented_setAnalyzer (k : AnalyzerId) (x : Analyzer) (s : State) :
    Vented s { s with atm := s.atm.setAnalyzer k x } := .same (by cases k <;> rfl)

theorem vented_analyzerEvent (k : AnalyzerId) (x : Analyzer) (s : State) : Vented s (analyzerEvent k x s) := by
  have judged : Vented s (analyzerJudged k x s) :=
    ((vented_setAnalyzer k x s).trans (vented_judgeDiscrepancy _)).trans (vented_judgeLoss ..)
  have measured : Vented s (analyzerMeasured k x s) := judged.before rfl
  rw [analyzerEvent_eq]
  exact measured.trans (vented_evalInert _)

theorem vented_takeReading (address oxygen status : Nat) (s : State) :
    Vented s (takeReading address oxygen status s) := by
  unfold takeReading
  split
  · exact .ite (fun _ => .refl s) fun _ => vented_analyzerEvent ..
  · exact .refl s

theorem vented_handToZone (d : Fin 24) (s : State) : Vented s (handToZone d s) := by
  unfold handToZone
  split
  · exact .refl s
  · exact vented_evalZone ..

theorem venting_noticeDetector (d : Fin 24) (x : Detector) (s : State) : (noticeDetector d x s).venting = s.venting :=
  venting_notify ..

theorem vented_changeDetector (d : Fin 24) (x : Detector) (s : State) : Vented s (changeDetector d x s) := by
  refine .after (u := s.setDetector d x) (.ite (fun _ => .refl _) fun _ => .trans ?_ (vented_handToZone d _)) rfl
  refine .ite (fun _ => .same ((venting_noticeDetector ..).trans (venting_post ..))) fun _ => ?_
  exact .ite (fun _ => .same (venting_noticeDetector ..)) fun _ => .refl _

theorem vented_takeLine (d : Fin 24) (l : LineState) (s : State) : Vented s (takeLine d l s) :=
  .ite (fun _ => .refl s) fun _ => vented_changeDetector ..

/-! ### Read-backs -/

theorem vented_handReadback (o : Output) (level : Bool) (s : State) : Vented s (handReadback o level s) := by
  unfold handReadback
  split
  · exact .ite (fun _ => .same rfl) fun _ => .refl s
  · exact .refl s

theorem vented_takeReadback (o : Output) (level : Bool) (s : State) : Vented s (takeReadback o level s) :=
  .ite (fun _ => .refl s) fun _ =>
    (vented_setSup (Supervision.onReadback_command ..)).trans (vented_handReadback ..)

theorem venting_stuckPack (n : Fin 8) (s : State) : (stuckPack n s).venting = s.venting := by
  unfold stuckPack
  split
  · rfl
  · split
    · exact venting_transition ..
    · exact venting_transition ..
    · rfl
    · rfl

theorem venting_mismatchOwner (o : Output) (s : State) : (mismatchOwner o s).venting = s.venting := by
  cases o with
  | contactor n =>
    simp only [mismatchOwner]
    split
    · exact venting_pauseBay ..
    · exact (venting_faultBay ..).trans (venting_stuckPack ..)
  | _ => rfl

theorem venting_mismatchAfter (o : Output) (s : State) : (mismatchAfter o s).venting = s.venting := by
  cases o with
  | permit => exact venting_evalPermit s
  | upperGate => exact venting_evalPermit s
  | lowerGate =>
    simp only [mismatchAfter]
    split
    · exact (venting_blockLock ..).trans (venting_evalPermit s)
    · exact venting_evalPermit s
  | _ => rfl

/-- A mismatch is posted, and no output is commanded for it but those of bays and lock (R149). -/
theorem vented_reportMismatch (o : Output) (s : State) : Vented s (reportMismatch o s) := by
  rw [reportMismatch_eq]
  exact .same ((venting_mismatchAfter ..).trans ((venting_post ..).trans (venting_mismatchOwner ..)))

theorem vented_endWindow (o : Output) (s : State) : Vented s (endWindow o s) := by
  refine .ite (fun _ => vented_setSup rfl) fun _ => .trans ?_ (vented_reportMismatch ..)
  exact vented_setSup rfl

theorem vented_endDisagreement (o : Output) (s : State) : Vented s (endDisagreement o s) := by
  refine .trans ?_ (vented_reportMismatch ..)
  exact vented_setSup rfl

/-! ### Station links -/

theorem vented_takeDiscard (p : Port) (why : FrameFault) (s : State) : Vented s (takeDiscard p why s) := by
  refine .ite (fun _ => .refl s) fun _ => ?_
  cases why with
  | overrun => exact .ite (fun _ => .refl s) fun _ => .before (vented_touchPort p s) (venting_discardFrame ..)
  | _ => exact .same (venting_discardFrame ..)

theorem vented_becomeAbsent (p : Port) (s : State) : Vented s (becomeAbsent p s) :=
  .after (vented_deliverPresence p _) ((venting_notify ..).trans ((venting_post ..).trans (venting_setPort ..)))

/-! ### Hardware reset -/

/-- Every zone NORMAL, the monitor VENTED, every output off (R106, R156, R200). -/
theorem lawful_rebuild (s : State) : (rebuild s).venting.Lawful ((rebuild s).zone 6).state where
  releases z := by
    have zone : ((rebuild s).zone z).state = .normal := by rw [zone_rebuild]
    have output : ((rebuild s).sup (.release z)).command = false := by rw [sup_rebuild]; rfl
    show _ = (((rebuild s).zone z).state == .released)
    rw [zone]
    exact output
  known := by
    rw [zone_rebuild]
    rfl
  purge := rfl

theorem venting_deposit (p : Posting) (s : State) : (deposit p s).venting = s.venting := by
  rw [deposit_eq]
  rfl

theorem venting_resetUncertain (old : Vector Rec 256) (s : State) : (resetUncertain old s).venting = s.venting := by
  unfold resetUncertain
  split
  · split
    · exact venting_deposit ..
    · rfl
  · rfl

theorem Vented.releaseLaw {s t : State} (h : Vented s t) (law : ReleaseLaw s) : ReleaseLaw t := by
  rw [releaseLaw_iff] at law ⊢
  exact fun run => h.law (law (h.run.symm.trans run))

theorem releaseLaw_hardwareReset (straps : Straps) (agrees : Bool) (s : State) :
    ReleaseLaw (hardwareReset straps agrees s) := by
  have started : ∀ s t, t.venting = (rebuild s).venting → ReleaseLaw (firstDeliveries t) := fun s t same =>
    (releaseLaw_iff _).2 fun _ => ((Vented.same same).before rfl).law (lawful_rebuild s)
  unfold hardwareReset
  split
  · exact started _ _ (venting_resetUncertain ..)
  · exact started _ _ (venting_deposit ..)

/-! ### Commands and time -/

/-- An outcome after which the law of the release outputs stands, where it stood before. -/
def KeepsReleases (o : Host.Outcome State Fault Refusal) (s : State) : Prop :=
  ∃ t, o = .next t ∧ (ReleaseLaw s → ReleaseLaw t)

theorem keepsReleases_of {s t : State} (h : Vented s t) : KeepsReleases (.next t) s := ⟨t, rfl, h.releaseLaw⟩

theorem keepsReleases_request {p : Port} {f : Frame} {owner : State → Reply} (h : ∀ s, VentedReply s (owner s))
    (s : State) : KeepsReleases (.next (serve p f owner s)) s := keepsReleases_of (vented_serve h s)

theorem keepsReleases_event {f : State → State} (h : ∀ s, Vented s (f s)) (s : State) :
    KeepsReleases (.next (whenRunning f s)) s := keepsReleases_of (.ite (fun _ => h s) fun _ => .refl s)

/-- An event of the running part that is carried out where it is due. -/
theorem keepsReleases_dueEvent {c : State → Prop} [∀ s, Decidable (c s)] {f : State → State}
    (h : ∀ s, Vented s (f s)) (s : State) :
    KeepsReleases (.next (whenRunning (fun s => if c s then f s else s) s)) s :=
  keepsReleases_event (fun s => .ite (fun _ => h s) fun _ => .refl s) s

theorem Zone.tick_state (q : Zone) : q.tick.state = q.state := by
  unfold Zone.tick
  split <;> rfl

theorem venting_advance (s : State) : (advance s).venting = s.venting := by
  have zones : (fun z => ((advance s).zone z).state) = s.venting.zones := funext fun z =>
    (congrArg Zone.state (vget_vmap ..)).trans (Zone.tick_state _)
  have releases : (fun z => ((advance s).sup (.release z)).command) = s.venting.releases := funext fun z =>
    have ticked : (advance s).sup (.release z) = (s.sup (.release z)).tick := vget_vmap ..
    (congrArg Supervision.command ticked).trans rfl
  simp only [State.venting, zones, releases]
  rfl

theorem venting_unreadReply (p : Port) (f : Frame) (s : State) :
    (respond p f (unreadReply p f s)).venting = s.venting := by
  refine (venting_setPort ..).trans ?_
  unfold unreadReply
  split <;> rfl

theorem vented_answerUnread (p : Port) (s : State) : Vented s (answerUnread p s) := by
  unfold answerUnread
  split
  · exact .refl s
  · split
    · exact .refl s
    · exact (Vented.after (vented_touchPort ..) (venting_setPort ..)).before (venting_unreadReply ..)

theorem vented_setReceiver (r : Receiver) (s : State) : Vented s { s with link.receiver := r } := .same rfl

theorem vented_dropReference (n : Fin 8) (s : State) : Vented s (dropReference n s) := .same rfl

theorem vented_tick (s : State) : Vented s (tick s) := by
  have answered := Vented.foldl (fun t p => vented_answerUnread p t) allPorts (advance s)
  exact .ite (fun _ => (answered.after (venting_advance s)).before rfl) fun _ => .refl s

theorem keepsReleases_exec (i : Instr) (s : State) : KeepsReleases (exec i s) s := by
  cases i with
  | hardwareReset straps agrees => exact ⟨_, rfl, fun _ => releaseLaw_hardwareReset straps agrees s⟩
  | mainSupplyLoss cause => exact ⟨_, rfl, fun _ running => nomatch running⟩
  | stationFrameValid p seq code body => exact keepsReleases_event (vented_receiveFrame p _) s
  | stationFrameDiscard p why => exact keepsReleases_event (vented_takeDiscard p why) s
  | stationLineIdleTimeout p =>
    exact keepsReleases_event (fun s => .ite (fun _ => .refl s) fun _ => .same (venting_countError p s)) s
  | stationPortHuntsAgain p => exact keepsReleases_event (fun s => .same (venting_setPort ..)) s
  | presenceTimerExpiry p => exact keepsReleases_dueEvent (vented_becomeAbsent p) s
  | readStatus p seq part => exact keepsReleases_request (vented_status part) s
  | readPack p seq index gen => exact keepsReleases_request (vented_readPack index gen) s
  | listPacks p seq state lot => exact keepsReleases_request (vented_list p state lot) s
  | setCursor p seq index => exact keepsReleases_request (vented_cursor p index) s
  | readBay p seq bay => exact keepsReleases_request (vented_readBay bay) s
  | readZone p seq zone => exact keepsReleases_request (vented_readZone zone) s
  | readLot p seq lot => exact keepsReleases_request (vented_readLot lot) s
  | readBank p seq bank => exact keepsReleases_request (vented_readBank bank) s
  | readConfig p seq item index => exact keepsReleases_request (vented_readConfig item index) s
  | fetchNotices p seq => exact keepsReleases_request (vented_fetch p) s
  | setPresenceTime p seq seconds => exact keepsReleases_request (vented_presence p seconds) s
  | clearBank p seq bank number => exact keepsReleases_request (vented_clearBank p bank number) s
  | setReportEnables p seq bank enables => exact keepsReleases_request (vented_enables p bank enables) s
  | admitPack p seq tag lot typeCode damaged mass nominal cells =>
    exact keepsReleases_request (vented_admit tag lot typeCode damaged mass nominal cells) s
  | withdraw p seq index gen => exact keepsReleases_request (vented_withdraw index gen) s
  | openLot p seq number => exact keepsReleases_request (vented_openLot number) s
  | closeLot p seq lot => exact keepsReleases_request (vented_closeLot lot) s
  | releaseLot p seq lot => exact keepsReleases_request (vented_releaseLot lot) s
  | outputWeight p seq lot mass final => exact keepsReleases_request (vented_outputWeight lot mass final) s
  | switchShredLot p seq lot => exact keepsReleases_request (vented_switch lot) s
  | cancelSwitch p seq => exact keepsReleases_request vented_cancel s
  | setRecoveryBounds p seq low high => exact keepsReleases_request (vented_bounds low high) s
  | assign p seq index gen bay => exact keepsReleases_request (vented_assign index gen bay) s
  | move p seq index gen dest => exact keepsReleases_request (vented_move index gen dest) s
  | quarantine p seq index gen => exact keepsReleases_request (vented_quarantine index gen) s
  | start p seq bay => exact keepsReleases_request (vented_start bay) s
  | pause p seq bay => exact keepsReleases_request (vented_pause bay) s
  | resume p seq bay => exact keepsReleases_request (vented_resume bay) s
  | abort p seq bay => exact keepsReleases_request (vented_abort bay) s
  | writeSlot p seq bay slot current stop segment =>
    exact keepsReleases_request (vented_writeSlot bay slot current stop segment) s
  | clearBay p seq bay => exact keepsReleases_request (vented_clearBay bay) s
  | enqueue p seq index gen => exact keepsReleases_request (vented_enqueue index gen) s
  | remove p seq index gen dest => exact keepsReleases_request (vented_remove index gen dest) s
  | feed p seq index gen => exact keepsReleases_request (vented_feed index gen) s
  | lockClosed p seq => exact keepsReleases_request vented_lockClosed s
  | returnPack p seq index gen => exact keepsReleases_request (vented_return index gen) s
  | dropDone p seq index gen => exact keepsReleases_request (vented_dropDone index gen) s
  | lockEmptied p seq => exact keepsReleases_request vented_lockEmptied s
  | chamberClear p seq => exact keepsReleases_request vented_chamberClear s
  | inertStart p seq => exact keepsReleases_request vented_inertStart s
  | inertStop p seq => exact keepsReleases_request vented_inertStop s
  | writeFeed p seq seconds => exact keepsReleases_request (vented_writeFeed seconds) s
  | writeTreatment p seq index fields => exact keepsReleases_request (vented_writeTreatment index fields) s
  | writeRange p seq index low high treatment enabled =>
    exact keepsReleases_request (vented_writeRange index low high treatment enabled) s
  | writeSlotMap p seq family treatment enabled =>
    exact keepsReleases_request (vented_writeSlotMap family treatment enabled) s
  | setMap p seq enable treatment => exact keepsReleases_request (vented_setMap enable treatment) s
  | curveBegin p seq curve => exact keepsReleases_request (vented_curveBegin curve) s
  | curvePoint p seq curve voltage fraction => exact keepsReleases_request (vented_curvePoint curve voltage fraction) s
  | curveEnd p seq curve => exact keepsReleases_request (vented_curveEnd curve) s
  | lineRestart p seq target g1 g2 => exact keepsReleases_request (fun s => .guarded (vented_lineRestart target s)) s
  | writeDetector p seq detector zone kind => exact keepsReleases_request (vented_writeDetector detector zone kind) s
  | writeFireTimes p seq dwell rearm => exact keepsReleases_request (vented_writeFireTimes dwell rearm) s
  | writeZone p seq zone threshold delay => exact keepsReleases_request (vented_writeZone zone threshold delay) s
  | hold p seq zone => exact keepsReleases_request (fun s => .withZone fun z => vented_setHold z true s) s
  | holdEnd p seq zone => exact keepsReleases_request (fun s => .withZone fun z => vented_setHold z false s) s
  | release p seq target g1 g2 => exact keepsReleases_request (fun s => .guarded (vented_release target s)) s
  | zoneReset p seq target g1 g2 => exact keepsReleases_request (fun s => .guarded (vented_zoneReset target s)) s
  | isolateZone p seq zone => exact keepsReleases_request (vented_isolate zone) s
  | restoreZone p seq zone => exact keepsReleases_request (vented_restore zone) s
  | inertReset p seq target g1 g2 => exact keepsReleases_request (fun s => .guarded (vented_inertReset target s)) s
  | writeInertLimits p seq purge run trip hold maxPurge =>
    exact keepsReleases_request (vented_writeInertLimits purge run trip hold maxPurge) s
  | baySample address sequence voltage current temperature interval =>
    exact keepsReleases_event
      (vented_onFieldLink (vented_takeSample address sequence voltage current temperature interval)) s
  | analyzerReading address oxygen status =>
    exact keepsReleases_event (fun s => .ite (fun _ => .refl s) fun _ => vented_takeReading ..) s
  | fieldFrameDiscard why => exact keepsReleases_event (vented_onFieldLink fun s => vented_setReceiver _ s) s
  | fieldLinkHuntsAgain => exact keepsReleases_event (vented_setReceiver .hunting) s
  | loadSetTransmit => exact keepsReleases_event (fun s => .same (venting_transmitLoadSet s)) s
  | loadSetRefreshExpiry bay => exact keepsReleases_event (fun s => .same (venting_refreshBay bay s)) s
  | segmentTimerExpiry bay => exact keepsReleases_dueEvent (fun s => .same (venting_takeBoundary bay s)) s
  | sampleLoss bay => exact keepsReleases_dueEvent (vented_sampleLost bay) s
  | overCurrentReferenceDrop bay => exact keepsReleases_dueEvent (vented_dropReference bay) s
  | restTimerExpiry bay => exact keepsReleases_dueEvent (vented_endRest bay) s
  | analyzerAgeExpiry analyzer => exact keepsReleases_dueEvent (fun s => vented_analyzerEvent analyzer _ s) s
  | purgeTimeout => exact keepsReleases_event (fun s => .same (venting_checkPurgeTimeout s)) s
  | holdTimerExpiry => exact keepsReleases_dueEvent (vented_changeInert .inert) s
  | lockPurgeTimerExpiry => exact keepsReleases_dueEvent (fun s => .same (venting_setLock _ s)) s
  | detectorLineChange detector line =>
    exact keepsReleases_of (.ite (fun _ => vented_takeLine ..) fun _ => .same rfl)
  | detectorDwellExpiry detector => exact keepsReleases_dueEvent (fun s => vented_changeDetector detector _ s) s
  | faultDwellExpiry detector => exact keepsReleases_dueEvent (fun s => vented_changeDetector detector _ s) s
  | rearmExpiry detector => exact keepsReleases_dueEvent (fun s => vented_changeDetector detector _ s) s
  | recoveryTimerExpiry detector => exact keepsReleases_dueEvent (fun s => vented_changeDetector detector _ s) s
  | releaseTimerExpiry zone => exact keepsReleases_dueEvent (vented_enterReleased zone 1) s
  | readbackChange output level =>
    exact keepsReleases_of (.ite (fun _ => vented_takeReadback ..) fun _ => vented_setSup rfl)
  | readbackWindowExpiry output => exact keepsReleases_dueEvent (vented_endWindow output) s
  | disagreementTimerExpiry output => exact keepsReleases_dueEvent (vented_endDisagreement output) s

end Sys2Proof.Machine

/-- Settles O10: every command and every millisecond keeps the law, operation by operation; a zone's release output is
commanded with its entry to RELEASED and its reset, the purge request with the inert state and with the delivery of Z7. -/
theorem releaseLawKept : Obligations.ReleaseLawKept := by
  intro s t law h
  unfold step at h
  split at h
  case h_1 c rest _ =>
    obtain ⟨u, e, kept⟩ := keepsReleases_exec c { s with pending := rest }
    rw [e] at h
    cases h
    exact kept law
  case h_2 =>
    cases h
    exact (vented_tick s).releaseLaw law

end

