-- ==== Sys2Proof/Proofs/PermitEvaluation.lean ====
section
/-! PROOFS: an evaluation of the permit, the hold of the lock and its resumption (chapter 06). -/

open Sys2Proof Sys2Proof.Machine

namespace Sys2Proof.Machine

/-! ### The condition of the permit -/

/-- The condition of R108, input by input. -/
theorem permitHolds_iff (i : PermitInputs) : permitHolds i = true ↔
    i.inert = .inert ∧ i.z6 = .normal ∧ i.z7 = .normal ∧ i.firePresent = true ∧ i.uncontained = false ∧
      i.shredLotSet = true := by
  simp [permitHolds, failing]

/-! ### The permit's output -/

@[simp] theorem permitTo_out (on : Bool) (s : State) :
    (permitTo on s).out = { s.out with permit := s.out.permit.setCommand on } := by
  rw [permitTo, notify_out]; rfl

@[simp] theorem postRaw_out_permit (p : Posting) (s : State) : (postRaw p s).out.permit = s.out.permit := by
  rw [postRaw_eq]

@[simp] theorem holdLock_out_permit (c : Nat) (s : State) : (holdLock c s).out.permit = s.out.permit := by simp [holdLock]

@[simp] theorem resumeLock_out_permit (s : State) : (resumeLock s).out.permit = s.out.permit := by
  obtain e | ⟨l, e⟩ := resumeLock_cases s <;> simp [e]

/-- The output follows a change of the permit (R109). -/
theorem evalPermit_out_permit (s : State) : (evalPermit s).out.permit =
    if permitHolds s.feed.inputs = s.feed.permit then s.out.permit
    else s.out.permit.setCommand (permitHolds s.feed.inputs) := by
  rw [evalPermit_eq, resumeLock_out_permit]
  split
  · rfl
  · split <;> simp

/-! ### The lock at an evaluation -/

theorem line_of_lessBanks {s t : State} (h : t.lessBanks = s.lessBanks) : t.ports.line.present = s.ports.line.present :=
  (congrArg (fun x : State => x.ports.line.present) h :)

/-- A HELD lock that moves toward the shredder resumes its purge (R123). -/
theorem resumeLock_forward {s : State} (held : s.feed.lock.state = .held) (forward : s.feed.lock.returning = false)
    (permit : s.feed.permit = true) (present : s.ports.line.present = true) : resumeLock s =
      setLock { s.feed.lock with state := .lockPurge, purgeTimer := some (s.feed.purgeTime * 1000) } s := by
  simp [resumeLock, held, forward, permit, present]

/-- A HELD lock that moves back goes on LOADING (R123). -/
theorem resumeLock_back {s : State} (held : s.feed.lock.state = .held) (back : s.feed.lock.returning = true)
    (z6 : s.feed.inputs.z6 = .normal) (z7 : s.feed.inputs.z7 = .normal) (present : s.ports.line.present = true) :
    resumeLock s = setLock { s.feed.lock with state := .loading } s := by
  simp [resumeLock, held, back, z6, z7, present]

/-- A HELD lock stays so without the permit (R123). -/
theorem resumeLock_off {s : State} (forward : s.feed.lock.returning = false) (off : s.feed.permit = false) :
    resumeLock s = s := by
  simp [resumeLock, forward, off]

/-- No permit is changed before a HELD lock is looked at that the lock would notice (R109). -/
theorem evalPermit_held {s : State} (held : s.feed.lock.state = .held) : ∃ u, evalPermit s = resumeLock u ∧
    u.feed = { s.feed with permit := permitHolds s.feed.inputs } ∧ u.ports.line.present = s.ports.line.present := by
  have still : s.feed.lock.movesByPermit = false := by simp [Lock.movesByPermit, held]
  rw [evalPermit_eq]
  simp only [still, Bool.and_false, Bool.false_eq_true, if_false]
  refine ⟨_, rfl, ?_⟩
  split
  case isTrue known => exact ⟨by rw [known], rfl⟩
  case isFalse =>
    exact ⟨permitTo_feed .., line_of_lessBanks (lessBanks_permitTo ..)⟩

/-- A permit that goes off holds a lock that moves toward the shredder, with drop started kept (R122). -/
theorem evalPermit_holds {s : State} (was : s.feed.permit = true) (off : permitHolds s.feed.inputs = false)
    (moves : s.feed.lock.movesByPermit = true) (forward : s.feed.lock.returning = false) :
    (evalPermit s).feed.lock = { s.feed.lock with state := .held, purgeTimer := none } := by
  rw [evalPermit_eq, was, off, moves]
  simp only [Bool.false_eq_true, if_false, Bool.not_false, Bool.and_self, if_true]
  rw [resumeLock_off (by simpa using forward) (by simp)]
  simp

/-! ### What an evaluation may reach -/

/-- A state that agrees with `u` but for what a posting or an evaluation may change, block by block. -/
theorem blocks_of_lessBanks {u t : State} (h : t.lessBanks = u.lessBanks) :
    t = { u with feed := t.feed, banks := t.banks, out := t.out, ports := t.ports } :=
  (eq_of_lessBanks h).trans (congrArg
    (fun x : State => ({ u with feed := x.feed, banks := x.banks, out := x.out, ports := x.ports } : State))
    (eq_of_lessBanks h).symm)

/-- Banks that agree but for the FEED bank. -/
theorem Banks.eq_but_feed {b c : Banks} (h : ∀ k, k ≠ .feed → c.get k = b.get k) : c = { b with feed := c.feed } := by
  have links : c.links = b.links := h .links nofun
  have records : c.records = b.records := h .records nofun
  have discharge : c.discharge = b.discharge := h .discharge nofun
  have atmosphere : c.atmosphere = b.atmosphere := h .atmosphere nofun
  have fire : c.fire = b.fire := h .fire nofun
  simp only [← links, ← records, ← discharge, ← atmosphere, ← fire]

theorem permitFrame_evalPermit (s : State) : PermitFrame s (evalPermit s) := by
  have frame := lessBanks_evalPermit s
  have reached := eq_of_lessBanks frame
  refine ⟨congrArg State.feed reached, ?_, congrArg State.out reached, portsQuiet_iff.2 (quiet_of_lessBanks frame)⟩
  exact Banks.eq_but_feed fun k other => evalPermit_bank s other

end Sys2Proof.Machine

/-- Settles O39: the permit is its condition; a lock that moves is held as it goes off, a HELD lock is looked at last. -/
theorem permitEvaluation : Obligations.PermitEvaluation := by
  intro s t i
  have level : t.feed.permit = permitHolds i := evalPermit_permit s
  refine ⟨?_, evalPermit_inputs s, (congrArg (fun x : State => x.feed.queue) (lessBanks_evalPermit s) :), fun changed => ?_,
    fun same => ?_, fun was off moves forward => ?_, fun held forward on present => ?_,
    fun held back z6 z7 present => ?_, fun idle => ?_, fun same idle => ?_, blocks_of_lessBanks (lessBanks_evalPermit s),
    permitFrame_evalPermit s⟩
  · rw [level]
    exact permitHolds_iff i
  · rw [level] at changed ⊢
    exact (evalPermit_out_permit s).trans (if_neg changed)
  · rw [level] at same
    exact (evalPermit_out_permit s).trans (if_pos same)
  · exact evalPermit_holds was (level.symm.trans off) moves forward
  · obtain ⟨u, e, feed, station⟩ := evalPermit_held held
    have resumed := resumeLock_forward (s := u) (by rw [feed]; exact held) (by rw [feed]; exact forward)
      (by rw [feed]; exact level.symm.trans on) (station.trans present)
    show (evalPermit s).feed.lock = _
    rw [e, resumed, setLock_feed, feed]
  · obtain ⟨u, e, feed, station⟩ := evalPermit_held held
    have resumed := resumeLock_back (s := u) (by rw [feed]; exact held) (by rw [feed]; exact back)
      (by rw [feed]; exact z6) (by rw [feed]; exact z7) (station.trans present)
    show (evalPermit s).feed.lock = _
    rw [e, resumed, setLock_feed, feed]
  · have still : s.feed.lock.movesByPermit = false := by
      obtain e | e := idle <;> simp [Lock.movesByPermit, e]
    have notHeld : s.feed.lock.state ≠ .held := by
      obtain e | e := idle <;> simp [e]
    exact evalPermit_lock still notHeld
  · exact evalPermit_same (level.symm.trans same) idle

end

