-- ==== Sys2Proof/Proofs/FeedRequests.lean ====
section
/-! PROOFS: ENQUEUE, REMOVE, FEED, LOCK_CLOSED, RETURN, the lock purge timer and WRITE_FEED (chapter 06). -/

open Sys2Proof Sys2Proof.Machine

namespace Sys2Proof.Machine

/-- A transition of the pack that a handle names (R3, R19, R23). -/
theorem transition_of_lookup {h : Handle} {p : Pack} {s : State} (f : s.lookup h = some p) (q : Pack) :
    transition h.index q s =
      { s with
        packs := vset s.packs h.index ⟨h.gen, some q⟩
        inventories := invStored (some p) q s.inventories
        ports := packTold q.state.noticePorts h q s.now s.ports } := by
  rw [transition_eq, record_of_lookup f, handle_of_lookup f]

/-- An expired dwell refuses the request and marks the pack for a recheck (R114). -/
theorem served_recheck {p : Port} {q : Byte} {k : Nat} {c : Instr} {owner : State → Reply} {s : State} {i : Fin 256}
    {x : Pack} (e : exec c s = .next (serve p c.frame owner s)) (r : Ready p s) (hd : c.head = some (p, q, k))
    (m : mayIssue p k = true) (o : owner (touchPort p s) = refuseRecheck i x (touchPort p s)) :
    exec c s = .next (answered p c .recheckRequired [] ((touchPort p s).setPack i (some { x with recheck := true }))) := by
  rw [e, serve_ready r (by rw [frame_code hd]; exact m), o, refuseRecheck, respond_refuse _ _ _ _ (by decide)]

/-! ### ENQUEUE -/

/-- A pack as it stands in the queue (R113). -/
def Pack.enqueued (p : Pack) : Pack := { p with state := .queued, loc := .buffer }

theorem doneBay_eq {s : State} {p : Pack} {n : Fin 8} (hl : p.loc = .bay n) :
    doneBay s p = if p.state = .discharged ∧ (s.bay n).state = .done then some n else none := by
  unfold doneBay
  cases hs : p.state <;> simp [hl]

/-- ENQUEUE of a pack in a bay, check by check (R112). -/
theorem enqueueReply_eq {h : Handle} {p : Pack} {n : Fin 8} {u : State} (g : h.gen < 256) (f : u.lookup h = some p)
    (hl : p.loc = .bay n) : enqueueReply h.index.1 h.gen u =
      if p.state = .discharged ∧ (u.bay n).state = .done then
        if dwellExpired u p then refuseRecheck h.index p u
        else if 6 ≤ u.feed.queueCount then refuse .full u
        else if moveFrozen u p.zone (some 5) then refuse .frozen u
        else reply (enqueueState h p n u) (be 1 (u.feed.queue.length + 1))
      else refuse .wrongState u := by
  rw [enqueueReply, withPack_found g f, doneBay_eq hl]
  by_cases able : p.state = .discharged ∧ (u.bay n).state = .done
  · simp only [if_pos able]
    rfl
  · simp only [if_neg able]

/-- Record, queue and bay after an ENQUEUE, the zones not in ALARM (R113). -/
theorem enqueueState_settled {h : Handle} {p : Pack} {n : Fin 8} {s : State} (f : s.lookup h = some p)
    (hs : ∀ z, p.zone = some z → (s.zone z).state ≠ .alarm) (hd : ∀ z, some 5 = some z → (s.zone z).state ≠ .alarm) :
    let inv := invStored (some p) p.enqueued s.inventories
    enqueueState h p n s =
      { s with
        packs := vset s.packs h.index ⟨h.gen, some p.enqueued⟩
        inventories := inv
        bays := vset s.bays n (s.bay n).emptied
        feed := { s.feed with queue := s.feed.queue ++ [h] }
        fire := { s.fire with zones := tellZone (some 5) inv (tellZone p.zone inv s.fire.zones) }
        ports := bayTold n (s.bay n).state (s.bay n).emptied s.now (packTold [.line] h p.enqueued s.now s.ports) } := by
  intro inv
  let t := transition h.index p.enqueued s
  show deliverPlaces p.zone (some 5) (emptyBay n { t with feed.queue := t.feed.queue ++ [h] }) = _
  rw [emptyBay_eq, show t = _ from transition_of_lookup f p.enqueued, deliverPlaces_settled]
  · rfl
  · exact fun z hz => settled_of_not_alarm (hs z hz)
  · exact fun z hz => settled_of_not_alarm (hd z hz)

/-! ### REMOVE -/

/-- A pack as it stands in the quarantine store, taken there by the operator (R115). -/
def Pack.storedAway (p : Pack) : Pack := { p with state := .quarantined, cause := some .operator, loc := .quarantine }

/-- Record and queue after a REMOVE to the quarantine store, the zones not in ALARM (R115). -/
theorem removeToStore_settled {h : Handle} {p : Pack} {s : State} (f : s.lookup h = some p)
    (hs : ∀ z, p.zone = some z → (s.zone z).state ≠ .alarm) (hd : ∀ z, some 7 = some z → (s.zone z).state ≠ .alarm) :
    let inv := invStored (some p) p.storedAway s.inventories
    removeToStore h p s =
      { s with
        packs := vset s.packs h.index ⟨h.gen, some p.storedAway⟩
        inventories := inv
        feed := { s.feed with queue := s.feed.queue.filter (· != h) }
        fire := { s.fire with zones := tellZone (some 7) inv (tellZone p.zone inv s.fire.zones) }
        ports := packTold [.line, .custody] h p.storedAway s.now s.ports } := by
  intro inv
  have stands : (unqueue h s).lookup h = some p := f
  show deliverPlaces p.zone (some 7) (transition h.index p.storedAway (unqueue h s)) = _
  rw [transition_of_lookup stands, deliverPlaces_settled]
  · rfl
  · exact fun z hz => settled_of_not_alarm (hs z hz)
  · exact fun z hz => settled_of_not_alarm (hd z hz)

/-- REMOVE of a QUEUED pack to a bay, check by check (R115). -/
theorem removeReply_bay {h : Handle} {p : Pack} {u : State} (g : h.gen < 256) (f : u.lookup h = some p)
    (queued : p.state = .queued) (n : Fin 8) : removeReply h.index.1 h.gen (n.1 + 1) u =
      if (u.bay n).state ≠ .empty then refuse .busy u
      else if moveFrozen u (some 5) (some (bayZone n)) then refuse .frozen u
      else reply (placeInBay h p n true (unqueue h u)) [] := by
  simp only [removeReply, removeDest, index1_succ, Nat.add_eq_zero_iff, one_ne_zero, and_false, if_false, Option.map_some,
    withPack_found g f, queued, ne_eq, not_true_eq_false]

/-- REMOVE of a QUEUED pack to the quarantine store, check by check (R115). -/
theorem removeReply_store {h : Handle} {p : Pack} {u : State} (g : h.gen < 256) (f : u.lookup h = some p)
    (queued : p.state = .queued) : removeReply h.index.1 h.gen 0 u =
      if moveFrozen u (some 5) (some 7) then refuse .frozen u else reply (removeToStore h p u) [] := by
  simp only [removeReply, removeDest, if_true, withPack_found g f, queued, ne_eq, not_true_eq_false, if_false]

/-! ### FEED -/

/-- A pack as it stands at the lock (R119). -/
def Pack.fed (p : Pack) : Pack := { p with state := .feeding, loc := .feedLock, residualAtFeed := some p.standing }

/-- FEED, check by check (R118). -/
theorem feedReply_eq {h : Handle} {p : Pack} {u : State} (g : h.gen < 256) (f : u.lookup h = some p) :
    feedReply h.index.1 h.gen u =
      if p.state ≠ .queued ∨ u.feed.queue.head? ≠ some h then refuse .wrongState u
      else if u.feed.lock.state ≠ .empty then refuse .busy u
      else if u.lot.switch.isSome then refuse .busy u
      else if u.lot.shredLot ≠ some p.lot then refuse .wrongLot u
      else if !u.feed.permit then refuse .notPermitted u
      else if dwellExpired u p then refuseRecheck h.index p u
      else if moveFrozen u (some 5) (some 6) then refuse .frozen u
      else reply (feedState h p u) [] := withPack_found g f _

/-- The ports after the notice of the lock, where it changed what is noticed of it (R117). -/
def lockTold (o l : Lock) (t : Stamp) (P : Ports) : Ports :=
  if o.state = l.state ∧ o.returning = l.returning ∧ o.dropStarted = l.dropStarted then P
  else P.tell [.line] ⟨.lock l.state l.occupant l.dropStarted l.returning, t⟩

@[simp] theorem quiet_lockTold (o l : Lock) (t : Stamp) (P : Ports) : (lockTold o l t P).quiet = P.quiet := by
  unfold lockTold
  split <;> simp

/-- A lock written: its gates and its notice (R117). -/
theorem setLock_eq (l : Lock) (s : State) : setLock l s =
    { s with
      feed := { s.feed with lock := l }
      out := { s.out with
        upperGate := s.out.upperGate.setCommand (l.state == .loading)
        lowerGate := s.out.lowerGate.setCommand (l.state == .dropping) }
      ports := lockTold s.feed.lock l s.now s.ports } := by
  unfold setLock lockTold
  dsimp only
  split
  · rfl
  · rw [notify_eq]; rfl

/-- Record, queue and lock after a FEED, the zones not in ALARM (R119). -/
theorem feedState_settled {h : Handle} {p : Pack} {s : State} (f : s.lookup h = some p)
    (hs : ∀ z, p.zone = some z → (s.zone z).state ≠ .alarm) (hd : ∀ z, some 6 = some z → (s.zone z).state ≠ .alarm) :
    let inv := invStored (some p) p.fed s.inventories
    let l : Lock := ⟨.loading, some h, false, false, none⟩
    feedState h p s =
      { s with
        packs := vset s.packs h.index ⟨h.gen, some p.fed⟩
        inventories := inv
        feed := { s.feed with queue := s.feed.queue.tail, lock := l }
        out := { s.out with upperGate := s.out.upperGate.setCommand true, lowerGate := s.out.lowerGate.setCommand false }
        fire := { s.fire with zones := tellZone (some 6) inv (tellZone p.zone inv s.fire.zones) }
        ports := lockTold s.feed.lock l s.now (packTold [.line] h p.fed s.now s.ports) } := by
  intro inv l
  have stands : ({ s with feed.queue := s.feed.queue.tail } : State).lookup h = some p := f
  show deliverPlaces p.zone (some 6) (setLock l (transition h.index p.fed { s with feed.queue := s.feed.queue.tail })) = _
  rw [transition_of_lookup stands, setLock_eq, deliverPlaces_settled]
  · rfl
  · exact fun z hz => settled_of_not_alarm (hs z hz)
  · exact fun z hz => settled_of_not_alarm (hd z hz)

/-! ### RETURN -/

/-- The states in which a lock lets its pack be returned (R124). -/
theorem returnable_iff (l : Lock) : l.returnable = true ↔
    (l.state = .loading ∨ l.state = .lockPurge ∨ l.state = .held) ∧ l.dropStarted = false ∧ l.returning = false := by
  simp [Lock.returnable, or_assoc, and_assoc]

/-- RETURN, check by check (R124). -/
theorem returnReply_eq {h : Handle} {p : Pack} {u : State} (g : h.gen < 256) (f : u.lookup h = some p) :
    returnReply h.index.1 h.gen u =
      if p.state ≠ .feeding ∨ u.feed.lock.occupant ≠ some h then refuse .wrongState u
      else if !u.feed.lock.returnable then refuse .wrongState u
      else if 6 ≤ u.feed.queue.length then refuse .full u
      else if moveFrozen u (some 6) (some 5) then refuse .frozen u
      else reply (setLock { u.feed.lock with state := .loading, returning := true, purgeTimer := none } u) [] :=
  withPack_found g f _

end Sys2Proof.Machine

theorem dwellRule : Claim.DwellRule := by
  intro s p t discharged
  refine ⟨fun recheck => ?_, fun fresh => ?_⟩
  · simp [dwellExpired, recheck]
  · simp only [dwellExpired, fresh, discharged, State.now, Bool.false_or, Bool.or_eq_true, bne_iff_ne]
    exact or_congr_right decide_eq_true_iff

theorem enqueueJoinsTheTail : Claim.EnqueueJoinsTheTail := by
  intro q h n s x r g u f hl c
  have owner := enqueueReply_eq g f hl
  refine ⟨fun unable => ?_, fun discharged done => ?_⟩
  · refine served_refused rfl r rfl rfl (owner.trans (if_neg ?_)) (by decide)
    rintro ⟨hs, hd⟩
    exact unable.elim (· hs) (· hd)
  · rw [if_pos ⟨discharged, done⟩] at owner
    refine ⟨fun expired => ?_, fun valid => ⟨fun full => ?_, fun room => ⟨fun frozen => ?_, fun free => ?_⟩⟩⟩
    · rw [if_pos expired] at owner
      exact served_recheck rfl r rfl rfl owner
    all_goals rw [if_neg (by simp [valid])] at owner
    · exact served_refused rfl r rfl rfl (owner.trans (if_pos full)) (by decide)
    all_goals rw [if_neg (Nat.not_le.2 room)] at owner
    · exact served_refused rfl r rfl rfl (owner.trans (if_pos frozen)) (by decide)
    · rw [if_neg (by simp [free])] at owner
      obtain ⟨hsrc, hdst⟩ := not_alarm_of_not_frozen free
      refine ⟨_, served_ok rfl r rfl rfl owner, answers_answered .., ?_⟩
      rw [answered_eq, enqueueState_settled f hsrc hdst]
      have moved : invStored (some x) x.enqueued u.inventories =
          creditZone (some 5) x.standing (debitZone x.zone x.standing u.inventories) :=
        invStored_move (Pack.standing_of_live (by rw [discharged]; rfl) rfl rfl rfl)
      exact ⟨rfl, energyMoved_of moved rfl, portsQuiet_iff.2 (by simp)⟩

/-- Settles O34: the dwell's rule, and the checks of ENQUEUE before its one update. -/
theorem enqueueUnderDwell : Obligations.EnqueueUnderDwell := ⟨dwellRule, enqueueJoinsTheTail⟩

/-- Settles O35: a REMOVE takes the handle out of the queue and the pack to its bay or to the store. -/
theorem removeTakesThePackOut : Obligations.RemoveTakesThePackOut := by
  intro q h n s x r g u f queued hl rest c d
  have live : x.state.terminal = false := by rw [queued]; rfl
  have from5 : x.zone = some 5 := by rw [Pack.zone, hl]; rfl
  have toBay := removeReply_bay g f queued n
  have toStore := removeReply_store g f queued
  refine ⟨fun full => ?_, fun empty frozen => ?_, fun empty free => ?_, fun frozen => ?_, fun free => ?_⟩
  · exact served_refused rfl r rfl rfl (toBay.trans (if_pos full)) (by decide)
  · refine served_refused rfl r rfl rfl (toBay.trans ?_) (by decide)
    rw [if_neg (not_not.2 empty), if_pos frozen]
  · rw [if_neg (not_not.2 empty), if_neg (by simp [free])] at toBay
    obtain ⟨hsrc, hdst⟩ := not_alarm_of_not_frozen free
    refine ⟨_, served_ok rfl r rfl rfl toBay, answers_answered .., ?_⟩
    rw [answered_eq, placeInBay_settled (s := unqueue h u) f (by rw [from5]; exact hsrc) hdst]
    have moved : invStored (some x) (x.loadedIn n) u.inventories =
        creditZone (some (bayZone n)) x.standing (debitZone x.zone x.standing u.inventories) :=
      invStored_move (Pack.standing_of_live live rfl rfl rfl)
    refine ⟨?_, energyMoved_of moved rfl, portsQuiet_iff.2 (by simp; rfl)⟩
    simp only [(State.lookup_eq_some.1 f).1]
    rfl
  · exact served_refused rfl r rfl rfl (toStore.trans (if_pos frozen)) (by decide)
  · rw [if_neg (by simp [free])] at toStore
    obtain ⟨hsrc, hdst⟩ := not_alarm_of_not_frozen free
    refine ⟨_, served_ok rfl r rfl rfl toStore, answers_answered .., ?_⟩
    rw [answered_eq, removeToStore_settled f (by rw [from5]; exact hsrc) hdst, from5]
    have moved : invStored (some x) x.storedAway u.inventories =
        creditZone (some 7) x.standing (debitZone (some 5) x.standing u.inventories) :=
      from5 ▸ invStored_move (Pack.standing_of_live live rfl rfl rfl)
    exact ⟨rfl, energyMoved_of moved rfl, portsQuiet_iff.2 (by simp)⟩

/-- Settles O36: the checks of FEED in their order, then the head of the queue at the lock and the upper gate. -/
theorem feedChecksInOrderAndLoadsTheLock : Obligations.FeedChecksInOrderAndLoadsTheLock := by
  intro q h s x r g u f c refused
  have owner := feedReply_eq g f
  have refuses : ∀ {k : Result}, feedReply h.index.1 h.gen u = refuse k u → k ≠ .ok → refused k := fun o hk =>
    served_refused rfl r rfl rfl o hk
  refine ⟨fun notHead => refuses (owner.trans (if_pos notHead)) (by decide), fun queued head hl => ?_⟩
  rw [if_neg (by simp [queued, head])] at owner
  refine ⟨fun full => refuses (owner.trans (if_pos full)) (by decide), fun empty => ?_⟩
  rw [if_neg (not_not.2 empty)] at owner
  refine ⟨fun switching => refuses (owner.trans (if_pos (Option.isSome_iff_ne_none.2 switching))) (by decide), fun closed => ?_⟩
  rw [if_neg (by simp [closed])] at owner
  refine ⟨fun other => refuses (owner.trans (if_pos other)) (by decide), fun lot => ?_⟩
  rw [if_neg (not_not.2 lot)] at owner
  refine ⟨fun off => refuses (owner.trans (if_pos (by simp [off]))) (by decide), fun permit => ?_⟩
  rw [if_neg (by simp [permit])] at owner
  refine ⟨fun expired => served_recheck rfl r rfl rfl (owner.trans (if_pos expired)), fun valid => ?_⟩
  rw [if_neg (by simp [valid])] at owner
  refine ⟨fun frozen => refuses (owner.trans (if_pos frozen)) (by decide), fun free => ?_⟩
  rw [if_neg (by simp [free])] at owner
  have from5 : x.zone = some 5 := by rw [Pack.zone, hl]; rfl
  obtain ⟨hsrc, hdst⟩ := not_alarm_of_not_frozen free
  refine ⟨_, served_ok rfl r rfl rfl owner, answers_answered .., ?_⟩
  rw [answered_eq, feedState_settled f (by rw [from5]; exact hsrc) hdst, from5]
  have moved : invStored (some x) x.fed u.inventories =
      creditZone (some 6) x.standing (debitZone (some 5) x.standing u.inventories) :=
    from5 ▸ invStored_move (Pack.standing_of_live (by rw [queued]; rfl) rfl rfl rfl)
  exact ⟨rfl, energyMoved_of moved rfl, portsQuiet_iff.2 (by simp)⟩

theorem lockClosedAndReturnMoveTheLock : Claim.LockClosedAndReturnMoveTheLock := by
  intro q s r u l moved
  have moves : ∀ {i : Instr} {k : Nat} {owner : State → Reply} {m : Lock}, i.head = some (.line, q, k) →
      mayIssue .line k = true → exec i s = .next (serve .line i.frame owner s) → owner u = reply (setLock m u) [] →
      (m.state == .dropping) = false → ∃ t, moved i m t := fun {i k owner m} hd may e o shut => by
    refine ⟨_, served_ok e r hd may o, answers_answered .., ?_⟩
    rw [answered_eq, setLock_eq, shut]
    exact ⟨rfl, portsQuiet_iff.2 (by simp)⟩
  refine ⟨fun loading forward => ?_, fun other => ?_, fun h x g f => ?_⟩
  · exact moves rfl rfl rfl (if_pos ⟨loading, forward⟩) rfl
  · refine served_refused rfl r rfl rfl (if_neg ?_) (by decide)
    rintro ⟨loading, forward⟩
    exact other.elim (· loading) fun back => nomatch forward.symm.trans back
  · intro c taken
    have owner := returnReply_eq g f
    refine ⟨fun notHere => served_refused rfl r rfl rfl (owner.trans (if_pos notHere)) (by decide),
      fun feeding here => ?_⟩
    rw [if_neg (not_or.2 ⟨not_not.2 feeding, not_not.2 here⟩)] at owner
    have lets : ¬(!u.feed.lock.returnable) = true ↔ taken := by
      simpa using returnable_iff l
    refine ⟨fun no => ?_, fun yes full => ?_, fun yes room frozen => ?_, fun yes room free => ?_⟩
    · refine served_refused rfl r rfl rfl (owner.trans (if_pos ?_)) (by decide)
      exact not_not.1 (mt lets.1 no)
    all_goals rw [if_neg (lets.2 yes)] at owner
    · exact served_refused rfl r rfl rfl (owner.trans (if_pos full)) (by decide)
    all_goals rw [if_neg (Nat.not_le.2 room)] at owner
    · exact served_refused rfl r rfl rfl (owner.trans (if_pos frozen)) (by decide)
    · rw [if_neg (by simp [free])] at owner
      exact moves rfl rfl rfl owner rfl

theorem lockPurgeTimerAndTime : Claim.LockPurgeTimerAndTime := by
  intro s running l
  have runs : exec .lockPurgeTimerExpiry s = .next (if lockPurgeDue s then openLower s else s) := by
    show Host.Outcome.next (whenRunning _ s) = _
    rw [whenRunning, if_pos running]
  have due : lockPurgeDue s = true ↔ l.state = .lockPurge ∧ l.purgeTimer = some 0 := by simp [lockPurgeDue, l]
  refine ⟨fun purging out => ?_, fun idle => ?_, fun q seconds r => ?_⟩
  · rw [if_pos (due.2 ⟨purging, out⟩), openLower, setLock_eq] at runs
    exact ⟨_, runs, portsQuiet_iff.2 (by simp), rfl⟩
  · rw [runs, if_neg (mt due.1 idle)]
  · exact served_ok rfl r rfl rfl rfl

/-- Settles O38: each movement writes the lock, and the gates follow. -/
theorem lockMovesToTheDrop : Obligations.LockMovesToTheDrop := ⟨lockClosedAndReturnMoveTheLock, lockPurgeTimerAndTime⟩

end

