-- ==== Sys2Proof/Proofs/Feeding.lean ====
section
/-! PROOFS, layer 15. What the laws of the shred permit and of the shred queue read of the state, and what the shared
operations of the Feed Controller do to it (R108, R109, R111, R117, R122, R123). -/

open Sys2Proof Sys2Proof.Machine

namespace Sys2Proof.Machine

/-! ### What the laws read -/

/-- What the owners hold of the permit's inputs (R108). -/
def State.owned (s : State) : PermitInputs :=
  ⟨s.atm.state, (s.zone 5).state, (s.zone 6).state, s.ports.fire.present, bankAnswer s.banks, s.lot.shredLot.isSome⟩

/-- The lock without its pack and its timer. -/
def Lock.bare (l : Lock) : Lock := { l with occupant := none, dropStarted := false, purgeTimer := none }

/-- The run, the permit with its inputs as they are known and as they are owned, the lock, the shred queue, and the commands
of the permit output and of the gates. -/
structure Feeding where
  run : Bool
  permit : Bool
  inputs : PermitInputs
  owned : PermitInputs
  lock : Lock
  queue : List Handle
  permitOn : Bool
  upperOn : Bool
  lowerOn : Bool

def State.feeding (s : State) : Feeding :=
  ⟨s.run, s.feed.permit, s.feed.inputs, s.owned, s.feed.lock.bare, s.feed.queue, s.out.permit.command,
    s.out.upperGate.command, s.out.lowerGate.command⟩

/-- The outputs follow the permit and the lock, and no lock moves toward the shredder without the permit (R109, R117, R122). -/
structure Feeding.Geared (v : Feeding) : Prop where
  output : v.permitOn = v.permit
  upper : v.upperOn = (v.lock.state == .loading)
  lower : v.lowerOn = (v.lock.state == .dropping)
  moves : v.lock.movesByPermit = true → v.permit = true

/-- And the permit is on exactly under its condition (R108). -/
structure Feeding.Lawful (v : Feeding) : Prop extends v.Geared where
  level : v.permit = permitHolds v.inputs

theorem permitLaw_iff (s : State) :
    PermitLaw s ↔ (s.run = true → s.feeding.inputs = s.feeding.owned ∧ s.feeding.Lawful) :=
  forall_congr' fun _ => ⟨fun ⟨told, level, output, upper, lower, moves⟩ => ⟨told, ⟨output, upper, lower, moves⟩, level⟩,
    fun ⟨told, ⟨output, upper, lower, moves⟩, level⟩ => ⟨told, level, output, upper, lower, moves⟩⟩

/-- The generation of the QUEUED pack that a record holds. -/
def Rec.waits (r : Rec) : Option Nat := if r.pack.any (·.state == .queued) then some r.gen else none

/-- The QUEUED packs, record by record. -/
def State.waits (s : State) (i : Fin 256) : Option Nat := (s.record i).waits

/-- The law of the shred queue (R111). -/
structure State.Queued (s : State) : Prop where
  places : s.feed.queueCount ≤ 6
  nodup : s.feed.queue.Nodup
  waiting : ∀ h, h ∈ s.feed.queue ↔ s.waits h.index = some h.gen

theorem Rec.waits_eq_some {r : Rec} {g : Nat} :
    r.waits = some g ↔ r.gen = g ∧ ∃ p, r.pack = some p ∧ p.state = .queued := by
  unfold Rec.waits
  cases r.pack <;> simp [and_comm]

theorem Rec.waits_of_state {g : Nat} {p : Pack} (h : p.state ≠ .queued) : (Rec.mk g (some p)).waits = none := by
  simp [Rec.waits, h]

theorem queueLaw_iff (s : State) : QueueLaw s ↔ s.Queued := by
  have names : ∀ h : Handle, s.waits h.index = some h.gen ↔ ∃ p, s.lookup h = some p ∧ p.state = .queued := fun h => by
    simp only [State.waits, Rec.waits_eq_some, State.lookup_eq_some, and_assoc, exists_and_left]
  constructor
  · rintro ⟨places, nodup, queued, all⟩
    refine ⟨places, nodup, fun h => ⟨fun m => (names h).2 (queued h m), fun w => ?_⟩⟩
    obtain ⟨p, f, hs⟩ := (names h).1 w
    have member := all h.index p (pack_of_lookup f) hs
    rwa [handle_of_lookup f] at member
  · rintro ⟨places, nodup, waiting⟩
    refine ⟨places, nodup, fun h m => (names h).1 ((waiting h).1 m), fun i p f hs => (waiting _).2 ?_⟩
    exact (names (s.handle i)).2 ⟨p, by rw [State.lookup_handle, f], hs⟩

/-! ### The queue as packs join and leave it -/

theorem Handle.eq_of_parts {h k : Handle} (index : k.index = h.index) (gen : k.gen = h.gen) : k = h := by
  cases h
  cases k
  simp_all

section

variable {s t : State} {h : Handle}

/-- A queue whose packs and places are as they were; a reserved place may be given up. -/
theorem State.Queued.same (q : s.Queued) (queue : t.feed.queue = s.feed.queue)
    (reserved : t.feed.lock.returning = true → s.feed.lock.returning = true) (waits : t.waits = s.waits) : t.Queued where
  places := by
    have places := q.places
    simp only [Feed.queueCount, queue] at places ⊢
    split
    case isTrue r => rwa [if_pos (reserved r)] at places
    case isFalse => omega
  nodup := queue ▸ q.nodup
  waiting := by rw [queue, waits]; exact q.waiting

/-- A pack that was not QUEUED joins the queue somewhere (R113, R125). -/
theorem State.Queued.join (q : s.Queued) (idle : s.waits h.index = none) {a b : List Handle} (was : s.feed.queue = a ++ b)
    (queue : t.feed.queue = a ++ h :: b) (places : t.feed.queueCount ≤ 6)
    (waits : t.waits = Function.update s.waits h.index (some h.gen)) : t.Queued where
  places := places
  nodup := by
    have fresh : h ∉ s.feed.queue := fun m => nomatch idle.symm.trans ((q.waiting h).1 m)
    have nodup := q.nodup
    rw [was] at fresh nodup
    rw [queue]
    exact List.nodup_middle.2 (List.nodup_cons.2 ⟨fresh, nodup⟩)
  waiting k := by
    have mine := q.waiting k
    rw [was] at mine
    rw [queue, waits, List.mem_append, List.mem_cons, or_left_comm, ← List.mem_append]
    by_cases e : k.index = h.index
    · have away : k ∉ a ++ b := fun m => by
        have w := mine.1 m
        rw [e, idle] at w
        exact nomatch w
      rw [e, Function.update_self]
      simp only [away, or_false, Option.some.injEq]
      exact ⟨fun same => by rw [same], fun gen => Handle.eq_of_parts e gen.symm⟩
    · rw [Function.update_of_ne e]
      have other : k ≠ h := fun same => e (congrArg Handle.index same)
      simp only [other, false_or]
      exact mine

/-- A pack leaves the queue (R115). -/
theorem State.Queued.leave (q : s.Queued) (own : (s.record h.index).gen = h.gen)
    (queue : t.feed.queue = s.feed.queue.filter (· != h))
    (reserved : t.feed.lock.returning = true → s.feed.lock.returning = true)
    (waits : t.waits = Function.update s.waits h.index none) : t.Queued where
  places := by
    have places := q.places
    have fewer := List.length_filter_le (· != h) s.feed.queue
    simp only [Feed.queueCount, queue] at places ⊢
    split
    case isTrue r => rw [if_pos (reserved r)] at places; omega
    case isFalse => omega
  nodup := queue ▸ q.nodup.filter _
  waiting k := by
    rw [queue, waits, List.mem_filter, bne_iff_ne]
    by_cases e : k.index = h.index
    · rw [e, Function.update_self]
      simp only [reduceCtorEq, iff_false, not_and, not_not]
      intro m
      have w := (q.waiting k).1 m
      rw [e] at w
      exact Handle.eq_of_parts e ((Rec.waits_eq_some.1 w).1.symm.trans own)
    · rw [Function.update_of_ne e, q.waiting k]
      exact and_iff_left fun same => e (congrArg Handle.index same)

end

/-! ### The relations -/

/-- From `s` to `t` the laws of the site, of the permit's outputs and of the queue are kept. -/
structure Drives (s t : State) : Prop where
  kept : Keeps s t
  run : t.run = s.run
  law : s.feeding.Lawful → t.feeding.Lawful
  queue : SiteClauses s → s.Queued → t.Queued

/-- And where the Feed Controller knew its inputs, it knows them. -/
structure Feeds (s t : State) : Prop extends Drives s t where
  told : s.feed.inputs = s.owned → t.feed.inputs = t.owned

/-- An update of nothing that the laws read. -/
structure Still (s t : State) : Prop where
  site : t.site = s.site
  feeding : t.feeding = s.feeding

section

variable {s t u : State}

theorem waits_of_packs (h : t.packs = s.packs) : t.waits = s.waits := by
  funext i
  simp only [State.waits, State.record, h]

theorem waits_of_site (h : t.site = s.site) : t.waits = s.waits := waits_of_packs (congrArg Site.packs h)

/-- The queue with its places, read off what the laws read. -/
theorem Queued.of_feeding (q : s.Queued) (h : t.feeding = s.feeding) (waits : t.waits = s.waits) : t.Queued := by
  have queue : t.feed.queue = s.feed.queue := congrArg Feeding.queue h
  have lock : t.feed.lock.returning = s.feed.lock.returning := congrArg (fun v : Feeding => v.lock.returning) h
  exact q.same queue (lock ▸ id) waits

theorem Drives.refl (s : State) : Drives s s := ⟨.refl s, rfl, id, fun _ => id⟩

theorem Drives.trans (h : Drives s t) (k : Drives t u) : Drives s u where
  kept := h.kept.trans k.kept
  run := k.run.trans h.run
  law := k.law ∘ h.law
  queue c := k.queue (h.kept.laws c).1 ∘ h.queue c

namespace Feeds

theorem refl (s : State) : Feeds s s := ⟨.refl s, id⟩

theorem trans (h : Feeds s t) (k : Feeds t u) : Feeds s u := ⟨h.toDrives.trans k.toDrives, k.told ∘ h.told⟩

/-- An operation whose packs join and leave no queue. -/
theorem same (kept : Keeps s t) (h : t.feeding = s.feeding) (waits : SiteClauses s → t.waits = s.waits) : Feeds s t where
  kept := kept
  run := congrArg Feeding.run h
  law law := by rwa [h]
  queue c q := Queued.of_feeding q h (waits c)
  told e := by
    have both := congrArg (fun v : Feeding => (v.inputs, v.owned)) h
    simp only [State.feeding, Prod.mk.injEq] at both
    rw [both.1, both.2, e]

theorem still (h : Still s t) : Feeds s t := same (.of_site h.site) h.feeding fun _ => waits_of_site h.site

/-- An operation after an update of nothing that the laws read. -/
theorem after (k : Feeds u t) (h : Still s u) : Feeds s t := (still h).trans k

/-- An operation before an update of nothing that the laws read. -/
theorem before (k : Feeds s u) (h : Still u t) : Feeds s t := k.trans (still h)

theorem ite {c : Prop} [Decidable c] (ht : c → Feeds s t) (hu : ¬c → Feeds s u) : Feeds s (if c then t else u) := by
  split
  · exact ht ‹_›
  · exact hu ‹_›

/-- A step that may be taken or not. -/
theorem onlyIf {c : Prop} [Decidable c] {f : State → State} (k : Feeds s t) (h : ∀ t, Feeds t (f t)) :
    Feeds s (if c then f t else t) := .ite (fun _ => k.trans (h t)) fun _ => k

theorem foldl {α : Type} {f : State → α → State} (h : ∀ s x, Feeds s (f s x)) (l : List α) (s : State) :
    Feeds s (l.foldl f s) := by
  induction l generalizing s with
  | nil => exact .refl s
  | cons x l ih => exact (h s x).trans (ih _)

end Feeds

namespace Still

theorem refl (s : State) : Still s s := ⟨rfl, rfl⟩

theorem trans (h : Still s t) (k : Still t u) : Still s u := ⟨k.site.trans h.site, k.feeding.trans h.feeding⟩

end Still

/-! ### Frames -/

theorem feeding_of_mute (h : t.mute = s.mute) : t.feeding = s.feeding := (congrArg State.feeding h :)
theorem feeding_of_lessBays (h : t.lessBays = s.lessBays) : t.feeding = s.feeding := (congrArg State.feeding h :)
theorem feeding_of_lessPacks (h : t.lessPacks = s.lessPacks) : t.feeding = s.feeding := (congrArg State.feeding h :)
theorem waits_of_lessBays (h : t.lessBays = s.lessBays) : t.waits = s.waits := (congrArg State.waits h :)
theorem waits_of_lessFeed (h : t.lessFeed = s.lessFeed) : t.waits = s.waits := (congrArg State.waits h :)

theorem run_of_core (h : t.core = s.core) : t.run = s.run := (congrArg State.run h :)

theorem aside_of_lessBanks (h : t.lessBanks = s.lessBanks) : t.aside = s.aside := (congrArg State.aside h :)

/-- What the owners hold, but for the banks, is read off what no event of the plant writes and the blocks aside. -/
theorem owned_of_core {b : Bool} (aside : t.aside = s.aside) (core : t.core = s.core)
    (banks : bankAnswer t.banks = b) : t.owned = { s.owned with uncontained := b } := by
  have present : t.ports.fire.present = s.ports.fire.present := (congrArg (fun x : State => x.ports.fire.present) core :)
  simp only [State.aside, Prod.mk.injEq] at aside
  obtain ⟨_, shred, atm, fire⟩ := aside
  simp only [State.owned, State.zone, shred, atm, fire, present, banks]

/-- What follows a posting changes no answer of the banks (R180). -/
theorem Aftermath.answer (a : Aftermath s t) : bankAnswer t.banks = bankAnswer s.banks := by
  have fire : t.banks.fire = s.banks.fire := a.others .fire nofun nofun
  have atmosphere : t.banks.atmosphere = s.banks.atmosphere := a.others .atmosphere nofun nofun
  simp only [bankAnswer, fire, atmosphere, a.uncontained]

theorem Aftermath.owned (a : Aftermath s t) (core : t.core = s.core) : t.owned = s.owned :=
  owned_of_core a.aside core a.answer

end

/-- An operation on bays alone. -/
theorem Feeds.bays {s t : State} (kept : Keeps s t) (h : t.lessBays = s.lessBays) : Feeds s t :=
  .same kept (feeding_of_lessBays h) fun _ => waits_of_lessBays h

/-- An operation of what follows a posting. -/
theorem Feeds.of_aftermath {s t : State} (a : Aftermath s t) (core : t.core = s.core) (kept : Keeps s t)
    (law : s.feeding.Lawful → t.feeding.Lawful) (queue : SiteClauses s → s.Queued → t.Queued) : Feeds s t where
  kept := kept
  run := run_of_core core
  law := law
  queue := queue
  told e := by rw [a.inputs, a.owned core, e]

/-! ### Writes that reach nothing of the laws -/

section

variable (s : State)

theorem still_notify (ps : List Port) (w : NoticeBody) : Still s (notify ps w s) :=
  ⟨site_notify .., feeding_of_mute (mute_notify ..)⟩

theorem still_noticePack (ps : List Port) (i : Fin 256) : Still s (noticePack ps i s) :=
  ⟨site_noticePack .., feeding_of_mute (mute_noticePack ..)⟩

/-- A port's context written, its presence as it was. -/
theorem still_setPort {p : Port} {c : PortCtx} {s : State} (present : c.present = (s.port p).present) :
    Still s (s.setPort p c) := by
  refine ⟨site_setPort .., ?_⟩
  cases p with
  | fire =>
    have fire : c.present = s.ports.fire.present := present
    simp only [State.feeding, State.owned, ← fire]
    rfl
  | _ => rfl

/-- A supervision context written, its command as it was. -/
theorem still_setSup {o : Output} {v : Supervision} {s : State} (command : v.command = (s.sup o).command) :
    Still s (s.setSup o v) := by
  refine ⟨site_setSup .., ?_⟩
  cases o with
  | permit =>
    have permit : v.command = s.out.permit.command := command
    simp only [State.feeding, ← permit]
    rfl
  | upperGate =>
    have upper : v.command = s.out.upperGate.command := command
    simp only [State.feeding, ← upper]
    rfl
  | lowerGate =>
    have lower : v.command = s.out.lowerGate.command := command
    simp only [State.feeding, ← lower]
    rfl
  | _ => rfl

/-- A posting that is not UNCONTAINED makes no bank so (R176, R180). -/
theorem Bank.posted_mild {b : Bank} {p : Posting} (t : Stamp) (mild : p.severity ≠ .uncontained) :
    (b.posted p t).uncontained = b.uncontained := by
  have incident : ((p.incident t).severity == .uncontained) = false := beq_false_of_ne mild
  unfold Bank.posted
  split
  case isFalse => rfl
  case isTrue =>
    cases held : b.held with
    | none => simp [Bank.take, held, Bank.uncontained, incident]
    | some h =>
      by_cases lower : h.severity.rank < (p.incident t).severity.rank
      · have below : h.severity ≠ .uncontained := fun top => by
          rw [top] at lower
          revert lower
          cases (p.incident t).severity <;> decide
        simp [Bank.take, held, Bank.uncontained, incident, lower, below]
      · simp [Bank.take, held, Bank.uncontained, lower]

theorem still_postRaw {p : Posting} (mild : p.severity ≠ .uncontained) : Still s (postRaw p s) := by
  refine ⟨site_postRaw .., ?_⟩
  have answer : bankAnswer (postRaw p s).banks = bankAnswer s.banks := by
    rw [postRaw_banks]
    cases p.code.bank <;> simp only [bankAnswer, Banks.put, Banks.get, Bank.posted_mild s.now mild]
  have owned : (postRaw p s).owned = s.owned := 
    owned_of_core (aside_of_lessBanks (lessBanks_postRaw p s)) (core_postRaw p s) answer
  have outs := postRaw_eq p s
  simp only [State.feeding, owned, postRaw_feed]
  rw [outs]

end

end Sys2Proof.Machine
end

