-- ==== Sys2Proof/Proofs/FeedOps.lean ====
section
/-! PROOFS, layer 15 continued. The shared operations keep the laws of the shred permit and of the shred queue (R108, R109,
R111, R117, R122, R123). -/

open Sys2Proof Sys2Proof.Machine

namespace Sys2Proof.Machine

/-! ### The lock -/

/-- The lock written as `l`, the gates with it (R117). -/
def Feeding.locked (v : Feeding) (l : Lock) : Feeding :=
  { v with lock := l.bare, upperOn := l.state == .loading, lowerOn := l.state == .dropping }

theorem Feeding.Geared.locked {v : Feeding} (geared : v.Geared) {l : Lock}
    (moves : l.movesByPermit = true → v.permit = true) : (v.locked l).Geared := ⟨geared.output, rfl, rfl, moves⟩

theorem Feeding.Lawful.locked {v : Feeding} (law : v.Lawful) {l : Lock}
    (moves : l.movesByPermit = true → v.permit = true) : (v.locked l).Lawful := ⟨law.toGeared.locked moves, law.level⟩

section

variable {s t : State}

theorem feeding_setLock (l : Lock) (s : State) : (setLock l s).feeding = s.feeding.locked l := by
  have run : (setLock l s).run = s.run := run_of_core (core_setLock l s)
  have owned : (setLock l s).owned = s.owned := (aftermath_setLock l s).owned (core_setLock l s)
  simp only [State.feeding, run, owned, setLock_feed, setLock_out, Supervision.setCommand_command]
  rfl

theorem feeding_holdLock (c : Nat) (s : State) :
    (holdLock c s).feeding = s.feeding.locked { s.feed.lock with state := .held, purgeTimer := none } :=
  (still_postRaw _ (by exact nofun)).feeding.trans (feeding_setLock ..)

/-- A step that reaches no more of the queue than a reserved place. -/
theorem State.Queued.of_lessBanks (q : s.Queued) (frame : t.lessBanks = s.lessBanks)
    (reserved : t.feed.lock.returning = true → s.feed.lock.returning = true) : t.Queued :=
  q.same (congrArg (fun x : State => x.feed.queue) frame :) reserved (waits_of_packs (congrArg State.packs frame :))

/-- A lock written that keeps its place in the queue at most, and moves toward the shredder under the permit alone. -/
theorem feeds_setLock {l : Lock} (kept : Keeps s (setLock l s))
    (moves : s.feeding.Lawful → l.movesByPermit = true → s.feed.permit = true)
    (reserved : l.returning = true → s.feed.lock.returning = true) : Feeds s (setLock l s) := by
  refine .of_aftermath (aftermath_setLock l s) (core_setLock l s) kept (fun law => ?_) fun _ q => ?_
  · rw [feeding_setLock]
    exact law.locked (moves law)
  · exact q.of_lessBanks (lessBanks_setLock l s) (by rw [setLock_feed]; exact reserved)

theorem feeds_holdLock (c : Nat) (moving : (s.feed.lock.movesByPermit || s.feed.lock.movesBack) = true) :
    Feeds s (holdLock c s) := by
  refine .of_aftermath (aftermath_holdLock c s) (core_holdLock c s) (.of_site (site_holdLock_moving c moving))
    (fun law => ?_) fun _ q => ?_
  · rw [feeding_holdLock]
    exact law.locked nofun
  · exact q.of_lessBanks (lessBanks_holdLock c s) (by rw [holdLock_feed]; exact id)

theorem resumeLock_returning (s : State) : (resumeLock s).feed.lock.returning = s.feed.lock.returning := by
  unfold resumeLock
  dsimp only
  split
  · rfl
  · split
    · split <;> simp
    · split <;> simp

/-- A lock resumes toward the shredder under the permit alone (R123). -/
theorem lawful_resumeLock (law : s.feeding.Lawful) : (resumeLock s).feeding.Lawful := by
  unfold resumeLock
  extract_lets l i
  split
  · exact law
  · split
    case isTrue back =>
      split
      · rw [feeding_setLock]
        exact law.locked (by simp [Lock.movesByPermit, back])
      · exact law
    case isFalse =>
      split
      case isTrue on =>
        rw [feeding_setLock]
        exact law.locked fun _ => (Bool.and_eq_true_iff.1 on).1
      case isFalse => exact law

theorem feeds_resumeLock (s : State) : Feeds s (resumeLock s) :=
  .of_aftermath (aftermath_resumeLock s) (core_resumeLock s) (.of_site (site_resumeLock s)) lawful_resumeLock
    fun _ q => q.of_lessBanks (lessBanks_resumeLock s) (by rw [resumeLock_returning]; exact id)

/-! ### The permit -/

theorem feeding_permitTo (on : Bool) (s : State) :
    (permitTo on s).feeding = { s.feeding with permit := on, permitOn := on } := by
  have core : (permitTo on s).core = s.core := by
    rw [permitTo, core_notify, core_command]
    rfl
  have run : (permitTo on s).run = s.run := run_of_core core
  simp only [State.feeding, run, (aftermath_permitTo on s).owned core, permitTo_feed, permitTo_out,
    Supervision.setCommand_command]

/-- An evaluation puts the permit at its condition, and holds a lock that it no longer lets move (R108, R109, R122). -/
theorem lawful_evalPermit (geared : s.feeding.Geared) : (evalPermit s).feeding.Lawful := by
  rw [evalPermit_eq]
  refine lawful_resumeLock ?_
  split
  case isTrue known => exact ⟨geared, known.symm⟩
  case isFalse =>
    split
    case isTrue =>
      rw [feeding_holdLock, feeding_permitTo]
      exact ⟨⟨rfl, rfl, rfl, nofun⟩, rfl⟩
    case isFalse unheld =>
      rw [feeding_permitTo]
      refine ⟨⟨rfl, geared.upper, geared.lower, fun moves => ?_⟩, rfl⟩
      have lets : s.feed.lock.movesByPermit = true := moves
      simpa [lets] using unheld

theorem evalPermit_returning (s : State) : (evalPermit s).feed.lock.returning = s.feed.lock.returning := by
  rw [evalPermit_eq, resumeLock_returning]
  split
  · rfl
  · split <;> simp

theorem queued_evalPermit (q : s.Queued) : (evalPermit s).Queued :=
  q.of_lessBanks (lessBanks_evalPermit s) (by rw [evalPermit_returning]; exact id)

theorem feeds_evalPermit (s : State) : Feeds s (evalPermit s) :=
  .of_aftermath (aftermath_evalPermit s) (core_evalPermit s) (.of_site (site_evalPermit s))
    (fun law => lawful_evalPermit law.toGeared) fun _ => queued_evalPermit

/-! ### Deliveries -/

/-- What the Feed Controller knows agrees with what the owners hold, as far as `f` looks. -/
def State.Knows (f : PermitInputs → PermitInputs) (s : State) : Prop := f s.feed.inputs = f s.owned

theorem knows_of_feeding {f : PermitInputs → PermitInputs} (h : t.feeding = s.feeding) (k : s.Knows f) : t.Knows f := by
  have inputs : t.feed.inputs = s.feed.inputs := congrArg Feeding.inputs h
  have owned : t.owned = s.owned := congrArg Feeding.owned h
  rwa [State.Knows, inputs, owned]

/-- The inputs with the banks' answer `a` (R180). -/
def PermitInputs.answered (i : PermitInputs) (a : Bool) : PermitInputs := { i with uncontained := a }

/-- The inputs with whether a shred lot is set (R166). -/
def PermitInputs.lotted (i : PermitInputs) (b : Bool) : PermitInputs := { i with shredLotSet := b }

/-- The Feed Controller told its inputs, and the permit evaluated (R108, R109). -/
def evaluated (i : PermitInputs) (s : State) : State := evalPermit { s with feed.inputs := i }

theorem evaluated_inputs (i : PermitInputs) (s : State) : (evaluated i s).feed.inputs = i := evalPermit_inputs _

theorem evaluated_owned (i : PermitInputs) (s : State) : (evaluated i s).owned = s.owned :=
  (aftermath_evalPermit _).owned (core_evalPermit _)

theorem drives_evaluated (i : PermitInputs) (s : State) : Drives s (evaluated i s) := by
  let u : State := { s with feed.inputs := i }
  have site : (evalPermit u).site = u.site := site_evalPermit u
  have run : (evalPermit u).run = u.run := run_of_core (core_evalPermit u)
  refine ⟨.of_site site, run, fun law => lawful_evalPermit (s := u) ?_, fun _ q => queued_evalPermit (s := u) ?_⟩
  · exact ⟨law.output, law.upper, law.lower, law.moves⟩
  · exact q.same rfl id (waits_of_packs rfl)

/-- An owner's update of an input, before it is delivered. -/
theorem drives_owner (site : t.site = s.site) (h : t.feeding = { s.feeding with owned := t.owned }) : Drives s t where
  kept := .of_site site
  run := congrArg Feeding.run h
  law law := by
    rw [h]
    exact ⟨⟨law.output, law.upper, law.lower, law.moves⟩, law.level⟩
  queue _ q := by
    have lock : t.feed.lock.returning = s.feed.lock.returning := congrArg (fun v : Feeding => v.lock.returning) h
    exact q.same (congrArg Feeding.queue h) (lock ▸ id) (waits_of_site site)

theorem drives_deliverBanks (s : State) : Drives s (deliverBanks s) := by
  unfold deliverBanks
  dsimp only
  split
  · exact .refl s
  · exact drives_evaluated _ s

/-- A posting, with what it brings about. -/
theorem drives_post (p : Posting) (s : State) : Drives s (post p s) := by
  have out := postRaw_eq p s
  have raw : Drives s (postRaw p s) := {
    kept := .of_site (site_postRaw ..)
    run := run_of_core (core_postRaw p s)
    law := fun law => by
      have feed := postRaw_feed p s
      have permit : (postRaw p s).out.permit = s.out.permit := by rw [out]
      have upper : (postRaw p s).out.upperGate = s.out.upperGate := by rw [out]
      have lower : (postRaw p s).out.lowerGate = s.out.lowerGate := by rw [out]
      obtain ⟨⟨output, up, low, moves⟩, level⟩ := law
      simp only [State.feeding] at output up low moves level
      refine ⟨⟨?_, ?_, ?_, ?_⟩, ?_⟩ <;> simpa only [State.feeding, feed, permit, upper, lower]
    queue := fun _ q => q.of_lessBanks (lessBanks_postRaw p s) (by rw [postRaw_feed]; exact id) }
  exact raw.trans (drives_deliverBanks _)

/-- After a posting the Feed Controller knows the banks' answer (R180). -/
theorem knows_post (p : Posting) {f : PermitInputs → PermitInputs}
    (apart : ∀ i a, f (i.answered a) = (f i).answered a) (k : s.Knows f) : (post p s).Knows f := by
  have answer := (aftermath_post p s).answer
  have owned : (post p s).owned = s.owned.answered (bankAnswer (postRaw p s).banks) :=
    owned_of_core (aside_of_lessBanks (lessBanks_post p s)) (core_post p s) answer
  have inputs : (post p s).feed.inputs = s.feed.inputs.answered (bankAnswer (postRaw p s).banks) := by
    rw [post, deliverBanks_inputs, postRaw_feed]
    rfl
  rw [State.Knows, owned, inputs, apart, apart, k]

theorem feeds_post (p : Posting) (s : State) : Feeds s (post p s) :=
  ⟨drives_post p s, knows_post p (f := id) fun _ _ => rfl⟩

/-- A shred lot set or cleared is delivered (R166). -/
theorem feeds_setShred (shred : Option (Fin 8)) (sw : Option Switch) (s : State) : Feeds s (setShred shred sw s) := by
  unfold setShred
  refine .ite (fun _ => .refl s) fun _ => .before ?_ (still_notify ..)
  let u : State := { s with lot.shredLot := shred, lot.switch := sw }
  have delivered : Drives s (deliverShred u) := by
    have written : Drives s u := drives_owner rfl rfl
    refine written.trans ?_
    unfold deliverShred
    dsimp only
    split
    · exact .refl u
    · exact drives_evaluated _ u
  refine ⟨delivered, fun told => ?_⟩
  have owned : (deliverShred u).owned = u.owned := by
    unfold deliverShred
    dsimp only
    split
    · rfl
    · exact evaluated_owned _ u
  have inputs : (deliverShred u).feed.inputs = s.feed.inputs.lotted shred.isSome := deliverShred_inputs u
  rw [inputs, owned, told]
  rfl

end

/-! ### Packs -/

section

variable {s t : State} {i : Fin 256} {o p : Pack}

theorem waits_stored {r : Rec} (h : t.packs = vset s.packs i r) : t.waits = Function.update s.waits i r.waits := by
  funext j
  by_cases e : j = i
  · subst e
    rw [Function.update_self, State.waits, State.record, h, vget_vset_same]
  · rw [Function.update_of_ne e, State.waits, State.record, h, vget_vset_other _ e]
    rfl

/-- A record without a QUEUED pack. -/
theorem waits_idle (f : (s.record i).pack = some o) (ho : o.state ≠ .queued) : s.waits i = none := by
  simp [State.waits, Rec.waits, f, ho]

theorem waits_free (f : (s.record i).pack = none) : s.waits i = none := by
  simp [State.waits, Rec.waits, f]

/-- A pack that was not QUEUED, written as one that is not. -/
theorem waits_rewritten {g : Nat} (h : t.packs = vset s.packs i ⟨g, some p⟩) (idle : s.waits i = none)
    (hp : p.state ≠ .queued) : t.waits = s.waits := by
  rw [waits_stored h, Rec.waits_of_state hp, ← idle, Function.update_eq_self]

theorem waits_transition (idle : s.waits i = none) (hp : p.state ≠ .queued) : (transition i p s).waits = s.waits :=
  waits_rewritten (congrArg State.packs (transition_eq i p s)) idle hp

theorem waits_quarantinePack (idle : s.waits i = none) (cause : QuarantineCause) :
    (quarantinePack i cause s).waits = s.waits := by
  unfold quarantinePack
  split
  · rfl
  · split
    · rfl
    · exact waits_transition idle nofun

/-- The occupant of a bay is not QUEUED (R4). -/
theorem occupant_idle (c : SiteClauses s) {n : Fin 8} (occ : s.occupantPack n = some (i, p)) :
    p.state ≠ .queued ∧ s.waits i = none := by
  obtain ⟨f, hl, placed⟩ := occupant_stands c occ
  have idle : p.state ≠ .queued := by
    obtain e | e | e | e | e := bayState_of_placed placed hl <;> rw [e] <;> exact nofun
  exact ⟨idle, waits_idle f idle⟩

theorem waits_onOccupant (c : SiteClauses s) {n : Fin 8} {f : Pack → Pack} (hf : ∀ p, p.state ≠ .queued → (f p).state ≠ .queued) :
    (onOccupant n f s).waits = s.waits := by
  unfold onOccupant
  split
  · rfl
  case h_2 occ =>
    obtain ⟨idle, free⟩ := occupant_idle c occ
    exact waits_transition free (hf _ idle)

/-- What a bay's handle names is not QUEUED (R4). -/
theorem waits_in_bay (c : SiteClauses s) {n : Fin 8} {h : Handle} (occ : (s.bay n).occupant = some h) :
    s.waits h.index = none := by
  obtain ⟨p, f, _⟩ := c.held (.bay n) h occ
  have found : s.occupantPack n = some (h.index, p) := by simp [State.occupantPack, occ, f]
  exact (occupant_idle c found).2

/-- Nor is what the lock holds (R117). -/
theorem waits_in_lock (c : SiteClauses s) {h : Handle} (occ : s.feed.lock.occupant = some h) : s.waits h.index = none := by
  obtain ⟨p, f, _, hs⟩ := lock_stands c occ
  refine waits_idle (pack_of_lookup f) ?_
  rw [hs, Lock.packState]
  split <;> exact nofun

/-! ### The lock blocked -/

theorem still_feedUncertain (d : Nat) (h : Handle) (p : Pack) (s : State) : Still s (feedUncertain d h p s) := by
  refine ⟨site_feedUncertain .., ?_⟩
  unfold feedUncertain
  exact (still_postRaw _ (by exact nofun)).feeding

theorem feeding_blockLock {h : Handle} (occ : s.feed.lock.occupant = some h) (cause : QuarantineCause)
    (detail : Option Nat) : (blockLock cause detail s).feeding = s.feeding.locked s.feed.lock.blockedWith := by
  have packs : (quarantinePack h.index cause s).feeding = s.feeding :=
    feeding_of_lessPacks (lessPacks_quarantinePack ..)
  unfold blockLock
  simp only [occ, feeding_setLock]
  split
  · rw [(still_feedUncertain ..).feeding, packs]
  · rw [packs]

theorem waits_blockLock (c : SiteClauses s) (cause : QuarantineCause) (detail : Option Nat) :
    (blockLock cause detail s).waits = s.waits := by
  unfold blockLock
  split
  · rfl
  case h_2 h occ =>
    have packs := waits_quarantinePack (waits_in_lock c occ) cause
    refine (waits_of_lessFeed (lessFeed_setLock ..)).trans ?_
    split
    · exact (waits_of_site (site_feedUncertain ..)).trans packs
    · exact packs

theorem feeds_blockLock (working : s.feed.lock.working = true) (cause : QuarantineCause) (detail : Option Nat) :
    Feeds s (blockLock cause detail s) := by
  refine .of_aftermath (aftermath_blockLock ..) (core_blockLock ..) (keeps_blockLock working ..) (fun law => ?_)
    fun c q => ?_
  · cases occ : s.feed.lock.occupant with
    | none =>
      have same : blockLock cause detail s = s := by simp only [blockLock, occ]
      rwa [same]
    | some h =>
      rw [feeding_blockLock occ]
      exact law.locked nofun
  · obtain ⟨h, _, occ, _⟩ := working_stands c working
    have blocked := feeding_blockLock occ cause detail
    have lock : (blockLock cause detail s).feed.lock.returning = false :=
      congrArg (fun v : Feeding => v.lock.returning) blocked
    refine q.same (congrArg Feeding.queue blocked :) (fun r => ?_) (waits_blockLock c ..)
    rw [lock] at r
    exact nomatch r

theorem feeds_releaseLock (s : State) : Feeds s (releaseLock s) :=
  .ite (fun working => feeds_blockLock working ..) fun _ => .refl s

/-! ### Bays -/

theorem feeds_pauseBay (n : Fin 8) (cause : PauseCause) (s : State) : Feeds s (pauseBay n cause s) :=
  .bays (keeps_pauseBay ..) (lessBays_pauseBay ..)

theorem feeding_alarmBay (n : Fin 8) (s : State) : (alarmBay n s).feeding = s.feeding := by
  unfold alarmBay
  split
  · rfl
  · exact (feeding_of_lessBays (lessBays_faultBay ..)).trans (feeding_of_lessPacks (lessPacks_quarantinePack ..))

theorem feeds_alarmBay (n : Fin 8) (s : State) : Feeds s (alarmBay n s) := by
  refine .same (keeps_alarmBay n s) (feeding_alarmBay n s) fun c => ?_
  unfold alarmBay
  split
  · rfl
  case h_2 occ => exact (waits_of_lessBays (lessBays_faultBay ..)).trans (waits_quarantinePack (waits_in_bay c occ) _)

theorem feeding_alarmBays (l : List (Fin 8)) (s : State) :
    (l.foldl (fun t n => alarmBay n t) s).feeding = s.feeding := by
  induction l generalizing s with
  | nil => rfl
  | cons n l ih => exact (ih _).trans (feeding_alarmBay n s)

end

end Sys2Proof.Machine
end

