-- ==== Sys2Proof/Proofs/FeedZones.lean ====
section
/-! PROOFS, layer 15 continued. Lots, zones, the inert state and the ports: what their changes tell the Feed Controller, and
the laws of the shred permit and of the shred queue that stand after them (R97, R108, R154, R166). -/

open Sys2Proof Sys2Proof.Machine

namespace Sys2Proof.Machine

/-! ### Lots -/

/-- The lots, but for the shred lot, are nothing the laws read. -/
theorem feeding_setLot (j : Fin 8) (l : Option Lot) (s : State) : (s.setLot j l).feeding = s.feeding := rfl

theorem feeds_setLot {j : Fin 8} {l : Option Lot} {s : State} (kept : Keeps s (s.setLot j l)) : Feeds s (s.setLot j l) :=
  .same kept rfl fun _ => rfl

theorem feeds_closeLot {j : Fin 8} {l : Lot} {s : State} (used : s.lotAt j = some l) (closes : lotCloses s j l = true) :
    Feeds s (closeLot j l s) := by
  simp only [lotCloses, Bool.and_eq_true] at closes
  obtain ⟨⟨_, all⟩, _⟩ := closes
  unfold closeLot
  extract_lets bal closed s1 s2 s3
  have written : Feeds s s1 := feeds_setLot (keeps_setLot used rfl fun _ => .inr all)
  have posted : Still s1 s2 := by
    simp only [s2]
    split
    · exact still_postRaw _ (by exact nofun)
    · exact .refl s1
  exact ((written.before posted).trans (feeds_setShred ..)).before (still_notify ..)

theorem feeds_testClosing (j : Fin 8) (s : State) : Feeds s (testClosing j s) := by
  unfold testClosing
  split
  · exact .ite (fun closes => feeds_closeLot ‹_› closes) fun _ => .refl s
  · exact .refl s

/-! ### Zones -/

/-- The inputs with the state of a zone, where it is Z6 or Z7 (R108). -/
def PermitInputs.atZone (z : Fin 8) (st : ZoneState) (i : PermitInputs) : PermitInputs :=
  if z = 5 then { i with z6 := st } else if z = 6 then { i with z7 := st } else i

theorem PermitInputs.atZone_other {z : Fin 8} {st : ZoneState} {i : PermitInputs} (h : ¬(z = 5 ∨ z = 6)) :
    i.atZone z st = i := by
  obtain ⟨h5, h6⟩ := not_or.1 h
  rw [PermitInputs.atZone, if_neg h5, if_neg h6]

theorem PermitInputs.atZone_atZone (z : Fin 8) (a b : ZoneState) (i : PermitInputs) :
    (i.atZone z a).atZone z b = i.atZone z b := by
  unfold PermitInputs.atZone
  split
  · rfl
  · split <;> rfl

theorem PermitInputs.atZone_answered (z : Fin 8) (st : ZoneState) (i : PermitInputs) (a : Bool) :
    (i.answered a).atZone z st = (i.atZone z st).answered a := by
  unfold PermitInputs.atZone
  split
  · rfl
  · split <;> rfl

section

variable {s t u : State} {z : Fin 8}

theorem owned_setZone (z : Fin 8) (q : Zone) (s : State) : (s.setZone z q).owned = s.owned.atZone z q.state := by
  by_cases h5 : z = 5
  · subst h5
    have z7 : (s.setZone 5 q).zone 6 = s.zone 6 := State.zone_setZone_other s (by decide) q
    simp only [State.owned, PermitInputs.atZone, if_true, State.zone_setZone_same, z7]
    rfl
  · have z6 : (s.setZone z q).zone 5 = s.zone 5 := State.zone_setZone_other s (Ne.symm h5) q
    by_cases h6 : z = 6
    · subst h6
      simp only [State.owned, PermitInputs.atZone, if_neg h5, if_true, State.zone_setZone_same, z6]
      rfl
    · have z7 : (s.setZone z q).zone 6 = s.zone 6 := State.zone_setZone_other s (Ne.symm h6) q
      simp only [State.owned, PermitInputs.atZone, if_neg h5, if_neg h6, z6, z7]
      rfl

/-- What the owners hold of a zone is its state. -/
theorem owned_atZone (z : Fin 8) (s : State) : s.owned.atZone z (s.zone z).state = s.owned := by
  unfold PermitInputs.atZone
  split
  case isTrue h => rw [h]; rfl
  case isFalse =>
    split
    case isTrue h => rw [h]; rfl
    case isFalse => rfl

theorem drives_setZone (z : Fin 8) (q : Zone) (s : State) : Drives s (s.setZone z q) :=
  drives_owner (site_setZone ..) rfl

/-- A zone's context written with its state as it was. -/
theorem still_setZone {q : Zone} (h : q.state = (s.zone z).state) : Still s (s.setZone z q) := by
  refine ⟨site_setZone .., ?_⟩
  have owned : (s.setZone z q).owned = s.owned := by rw [owned_setZone, h, owned_atZone]
  simp only [State.feeding, owned]
  rfl

/-- A zone's change of state, before it is delivered. -/
theorem knows_setZone (z : Fin 8) (q : Zone) (told : s.feed.inputs = s.owned) :
    (s.setZone z q).Knows (PermitInputs.atZone z .normal) := by
  rw [State.Knows, owned_setZone, PermitInputs.atZone_atZone, ← told]
  rfl

/-- Delivered, it is known (R108, R154). -/
theorem told_of_atZone (k : u.Knows (PermitInputs.atZone z .normal)) :
    u.feed.inputs.atZone z (u.zone z).state = u.owned := by
  rw [← PermitInputs.atZone_atZone z .normal, k, PermitInputs.atZone_atZone, owned_atZone]

/-- The state of Z6 or Z7 written to the inputs (R108). -/
def zoneWritten (z : Fin 8) (st : ZoneState) (s : State) : State := { s with feed.inputs := s.feed.inputs.atZone z st }

/-- And a lock that moves back held (R122). -/
def heldBack (z : Fin 8) (st : ZoneState) (s : State) : State :=
  if (zoneWritten z st s).feed.lock.movesBack ∧ st ≠ .normal then holdLock 3 (zoneWritten z st s) else zoneWritten z st s

theorem deliverFeedZone_eq (h : z = 5 ∨ z = 6) (st : ZoneState) (s : State) :
    deliverFeedZone z st s = evalPermit (heldBack z st s) := by
  have written : (if z = 5 then { s with feed.inputs.z6 := st } else { s with feed.inputs.z7 := st } : State) =
      zoneWritten z st s := by
    unfold zoneWritten PermitInputs.atZone
    by_cases h5 : z = 5
    · simp only [if_pos h5]
    · simp only [if_neg h5, if_pos (h.resolve_left h5)]
  simp only [deliverFeedZone, written, heldBack]

theorem aftermath_heldBack (z : Fin 8) (st : ZoneState) (s : State) : Aftermath (zoneWritten z st s) (heldBack z st s) :=
  .ite (fun _ => aftermath_holdLock ..) fun _ => .refl _

theorem core_heldBack (z : Fin 8) (st : ZoneState) (s : State) : (heldBack z st s).core = (zoneWritten z st s).core := by
  unfold heldBack
  split
  · exact core_holdLock 3 _
  · rfl

theorem geared_heldBack (geared : s.feeding.Geared) (st : ZoneState) : (heldBack z st s).feeding.Geared := by
  have written : (zoneWritten z st s).feeding.Geared := ⟨geared.output, geared.upper, geared.lower, geared.moves⟩
  unfold heldBack
  split
  · rw [feeding_holdLock]
    exact written.locked nofun
  · exact written

theorem queued_heldBack (q : s.Queued) (z : Fin 8) (st : ZoneState) : (heldBack z st s).Queued := by
  have written : (zoneWritten z st s).Queued := q.same rfl id (waits_of_packs rfl)
  unfold heldBack
  split
  · exact written.of_lessBanks (lessBanks_holdLock 3 _) (by rw [holdLock_feed]; exact id)
  · exact written

theorem drives_deliverFeedZone (h : z = 5 ∨ z = 6) (st : ZoneState) (s : State) : Drives s (deliverFeedZone z st s) where
  kept := .of_site (site_deliverFeedZone ..)
  run := run_of_core (core_deliverFeedZone ..)
  law law := by
    rw [deliverFeedZone_eq h]
    exact lawful_evalPermit (geared_heldBack law.toGeared st)
  queue _ q := by
    rw [deliverFeedZone_eq h]
    exact queued_evalPermit (queued_heldBack q z st)

theorem deliverFeedZone_inputs (h : z = 5 ∨ z = 6) (st : ZoneState) (s : State) :
    (deliverFeedZone z st s).feed.inputs = s.feed.inputs.atZone z st := by
  rw [deliverFeedZone_eq h, evalPermit_inputs, (aftermath_heldBack z st s).inputs, zoneWritten]

theorem deliverFeedZone_owned (h : z = 5 ∨ z = 6) (st : ZoneState) (s : State) :
    (deliverFeedZone z st s).owned = s.owned := by
  rw [deliverFeedZone_eq h, (aftermath_evalPermit _).owned (core_evalPermit _),
    (aftermath_heldBack z st s).owned (core_heldBack z st s)]
  rfl

theorem still_deliverPurge (on : Bool) (s : State) : Still s (deliverPurge on s) := ⟨site_deliverPurge .., rfl⟩

theorem still_release (z : Fin 8) (on : Bool) (s : State) : Still s (command (.release z) on s) := ⟨site_command .., rfl⟩

/-- Where a zone's change awaits its delivery, the delivery makes it known (R108, R154). -/
theorem feeds_deliverZone {old : ZoneState} (k : Drives s u)
    (knows : s.feed.inputs = s.owned → u.Knows (PermitInputs.atZone z .normal)) : Feeds s (deliverZone z old u) := by
  unfold deliverZone
  extract_lets st u1 u2 u3 u4
  have alarms : Feeds u u1 := .onlyIf (.refl u) fun t => Feeds.foldl (fun t n => feeds_alarmBay n t) _ t
  have told : Feeds s u2 := by
    simp only [u2]
    split
    case isTrue h =>
      have feeding : u1.feeding = u.feeding := by
        simp only [u1]
        split
        · exact feeding_alarmBays ..
        · rfl
      have inputs : u1.feed.inputs = u.feed.inputs := congrArg Feeding.inputs feeding
      have owned : u1.owned = u.owned := congrArg Feeding.owned feeding
      refine ⟨(k.trans alarms.toDrives).trans (drives_deliverFeedZone h st u1), fun e => ?_⟩
      rw [deliverFeedZone_inputs h, deliverFeedZone_owned h, inputs, owned]
      exact told_of_atZone (knows e)
    case isFalse h =>
      refine ⟨k.trans alarms.toDrives, fun e => alarms.told ?_⟩
      have known := knows e
      rwa [State.Knows, PermitInputs.atZone_other h, PermitInputs.atZone_other h] at known
  have released : Feeds s u3 := told.onlyIf feeds_releaseLock
  have purged : Feeds s u4 := released.onlyIf fun t => .still (still_deliverPurge _ t)
  exact purged.before (still_notify ..)

theorem feeds_changeZone (z : Fin 8) (q : Zone) (s : State) : Feeds s (changeZone z q s) :=
  feeds_deliverZone (drives_setZone z q s) (knows_setZone z q)

/-- A zone's change of state with its posting before it (log entry 9). -/
theorem feeds_postAndDeliver (z : Fin 8) (q : Zone) (p : Posting) {old : ZoneState} (h : Still (s.setZone z q) t) :
    Feeds s (deliverZone z old (post p t)) := by
  have written : Drives s t := (drives_setZone z q s).trans (Feeds.still h).toDrives
  refine feeds_deliverZone (written.trans (drives_post p t)) fun told => ?_
  exact knows_post p (PermitInputs.atZone_answered z .normal) (knows_of_feeding h.feeding (knows_setZone z q told))

theorem feeds_enterReleased (z : Fin 8) (detail : Nat) (s : State) : Feeds s (enterReleased z detail s) :=
  feeds_postAndDeliver z _ _ (still_release ..)

theorem feeds_evalRelease (z : Fin 8) (s : State) : Feeds s (evalRelease z s) :=
  .ite (fun _ => .ite (fun _ => feeds_enterReleased ..) fun _ => feeds_changeZone ..) fun _ => .refl s

theorem feeds_enterAlarm (z : Fin 8) (part : Nat) (s : State) : Feeds s (enterAlarm z part s) :=
  .trans (feeds_postAndDeliver z _ _ (.refl _)) (feeds_evalRelease ..)

theorem feeds_enterPreAlarm (z : Fin 8) (detail : Nat) (s : State) : Feeds s (enterPreAlarm z detail s) :=
  feeds_postAndDeliver z _ _ (.refl _)

theorem feeds_evalZone (z : Fin 8) (detail : Nat) (s : State) : Feeds s (evalZone z detail s) := by
  unfold evalZone
  refine .ite (fun _ => ?_) fun _ => .refl s
  split
  · exact feeds_enterAlarm ..
  · exact .ite (fun _ => .ite (fun _ => feeds_enterPreAlarm ..) fun _ => .refl s) fun _ =>
      .ite (fun _ => feeds_changeZone ..) fun _ => .refl s

theorem feeds_deliverInventory (z : Fin 8) (s : State) : Feeds s (deliverInventory z s) :=
  .ite (fun _ => .refl s) fun _ => .after (feeds_evalRelease ..) (still_setZone rfl)

theorem feeds_deliverPlaces (src dst : Option (Fin 8)) (s : State) : Feeds s (deliverPlaces src dst s) := by
  have delivered : ∀ (z : Option (Fin 8)) (t : State), Feeds t (match z with
      | none => t
      | some z => deliverInventory z t) := by
    intro z t
    cases z with
    | none => exact .refl t
    | some z => exact feeds_deliverInventory z t
  exact (delivered src s).trans (delivered dst _)

end

end Sys2Proof.Machine
end

