-- ==== Sys2Proof/Proofs/FeedPorts.lean ====
section
/-! PROOFS, layer 15 continued. The residual check, the inert state and the ports: what they tell the Feed Controller, and
the laws of the shred permit and of the shred queue that stand after them (R44, R97, R108, R191). -/

open Sys2Proof Sys2Proof.Machine

namespace Sys2Proof.Machine

section

variable {s t u : State}

/-! ### The residual check -/

theorem feeds_putBay {n : Fin 8} {b : Bay} (ho : b.occupant = (s.bay n).occupant) (hb : b.state ≠ .empty) :
    Feeds s (putBay n b s) := .bays (keeps_putBay ho hb) (lessBays_putBay ..)

theorem feeds_enterDischarging (n : Fin 8) (ms : Nat) (s : State) : Feeds s (enterDischarging n ms s) :=
  .bays (keeps_enterDischarging ..) (lessBays_enterDischarging ..)

theorem still_setBay {n : Fin 8} {b : Bay} (h : b.kind = (s.bay n).kind) : Still s (s.setBay n b) := ⟨site_setBay h, rfl⟩

/-- A bay's occupant written as another pack of the bay joins no queue (R4). -/
theorem feeds_occupant {n : Fin 8} {i : Fin 256} {o p : Pack} (occ : s.occupantPack n = some (i, o))
    (loc : p.loc = o.loc) (lot : p.lot = o.lot) (hs : p.state = .loaded ∨ p.state = .discharging ∨
    p.state = .resting ∨ p.state = .discharged ∨ p.state = .quarantined) : Feeds s (transition i p s) := by
  refine .same (keeps_occupant occ loc lot hs) (feeding_of_lessPacks (lessPacks_transition ..)) fun c => ?_
  refine waits_transition (occupant_idle c occ).2 ?_
  obtain e | e | e | e | e := hs <;> rw [e] <;> exact nofun

theorem feeds_checkBooked {n : Fin 8} {i : Fin 256} {p : Pack} (occ : s.occupantPack n = some (i, p)) (c : Check) :
    Feeds s (checkBooked n i p c s) := by
  have noted : Still s (s.setBay n ((s.bay n).noted c)) := still_setBay rfl
  have still : (s.setBay n ((s.bay n).noted c)).occupantPack n = some (i, p) :=
    (occupantPack_congr (t := s.setBay n ((s.bay n).noted c)) (s := s) (by simp [Bay.noted]) rfl).trans occ
  refine .after (feeds_occupant still ?_ ?_ ?_) noted
  all_goals
    unfold checkedPack
    split
    · simp [Pack.rebased]
    · split <;> simp [Pack.rebased]

theorem feeds_actOnCheck {n : Fin 8} {i : Fin 256} {p : Pack} (occ : s.occupantPack n = some (i, p)) (c : Check) :
    Feeds s (actOnCheck n i p c s) := by
  have booked := feeds_checkBooked occ c
  have acted : ∀ t, Feeds t (if c.pass then putBay n { t.bay n with state := .done } t
      else if p.retries < p.treatment.retries then
        if t.ports.line.present then enterDischarging n 0 t
        else putBay n { t.bay n with state := .paused, pauseCause := some .link, elapsed := 0 } t
      else post { code := .reboundLimit, severity := .contained, detail := min c.residual 65535,
                  pack := some (t.handle i), place := some (n.1 + 1) } (putBay n { t.bay n with state := .done } t)) :=
    fun t => .ite (fun _ => feeds_putBay rfl nofun) fun _ =>
      .ite (fun _ => .ite (fun _ => feeds_enterDischarging ..) fun _ => feeds_putBay rfl nofun) fun _ =>
        (feeds_putBay (b := { t.bay n with state := .done }) rfl nofun).trans (feeds_post ..)
  rw [actOnCheck_eq]
  exact (booked.trans (acted _)).trans (feeds_deliverPlaces ..)

theorem feeds_runCheck (n : Fin 8) (s : State) : Feeds s (runCheck n s) := by
  unfold runCheck
  split
  · exact feeds_actOnCheck (readyCheck_occupant ‹_›) _
  · exact .still (still_setBay rfl)

/-! ### The inert state -/

/-- The inputs with the inert state (R97). -/
def PermitInputs.inerted (st : InertState) (i : PermitInputs) : PermitInputs := { i with inert := st }

theorem owned_setInert (st : InertState) (s : State) : (setInert st s).owned = s.owned.inerted st := rfl

/-- An inert state entered, before it is delivered. -/
theorem drives_setInert (st : InertState) (s : State) : Drives s (setInert st s) := drives_owner (site_setInert ..) rfl

/-- A change of the inert state reaches the permit (R97, R108). -/
theorem feeds_changeInert (st : InertState) (s : State) : Feeds s (changeInert st s) := by
  unfold changeInert
  extract_lets s1 s2
  have entered : Drives s s1 ∧ (s.feed.inputs = s.owned → s1.Knows (PermitInputs.inerted .vented)) := by
    refine ⟨drives_setInert st s, fun e => ?_⟩
    rw [State.Knows, owned_setInert, ← e]
    rfl
  have posted : Drives s s2 ∧ (s.feed.inputs = s.owned → s2.Knows (PermitInputs.inerted .vented)) := by
    simp only [s2]
    split
    · exact ⟨entered.1.trans (drives_post ..), fun e => knows_post _ (fun _ _ => rfl) (entered.2 e)⟩
    · exact entered
  have delivered : Feeds s (evaluated (s2.feed.inputs.inerted s2.atm.state) s2) := by
    refine ⟨posted.1.trans (drives_evaluated ..), fun e => ?_⟩
    rw [evaluated_inputs, evaluated_owned]
    exact congrArg (PermitInputs.inerted s2.atm.state) (posted.2 e)
  exact delivered.before (still_notify ..)

theorem feeds_evalInert (s : State) : Feeds s (evalInert s) := .ite (fun _ => .refl s) fun _ => feeds_changeInert ..

/-- The atmosphere, but for the inert state, is nothing the laws read. -/
theorem still_atmosphere {a : Atmosphere} (h : a.state = s.atm.state) : Still s { s with atm := a } := by
  refine ⟨rfl, ?_⟩
  simp only [State.feeding, State.owned, ← h]
  rfl

theorem feeds_checkPurgeTimeout (s : State) : Feeds s (checkPurgeTimeout s) := by
  unfold checkPurgeTimeout
  split
  · exact .refl s
  · exact .ite (fun _ => .after (feeds_post ..) (still_atmosphere rfl)) fun _ => .refl s

/-! ### Presence -/

/-- The inputs with the fire port's presence (R108). -/
def PermitInputs.fired (b : Bool) (i : PermitInputs) : PermitInputs := { i with firePresent := b }

theorem feeds_fireAbsentZone (z : Fin 8) (s : State) : Feeds s (fireAbsentZone z s) :=
  .ite (fun _ => .still (still_setZone rfl)) fun _ => feeds_evalRelease z s

theorem feeds_lineAbsentBay (n : Fin 8) (s : State) : Feeds s (lineAbsentBay n s) :=
  .ite (fun _ => feeds_pauseBay ..) fun _ => .refl s

/-- What the presence of port `p` adds to the inputs. -/
def presenceHidden (p : Port) (i : PermitInputs) : PermitInputs :=
  match p with
  | .fire => i.fired true
  | _ => i

theorem drives_setPort (p : Port) (c : PortCtx) (s : State) : Drives s (s.setPort p c) := by
  refine drives_owner (site_setPort ..) ?_
  cases p <;> rfl

/-- A port's context written, before its presence is delivered. -/
theorem knows_setPort (p : Port) (c : PortCtx) (told : s.feed.inputs = s.owned) :
    (s.setPort p c).Knows (presenceHidden p) := by
  have inputs : (s.setPort p c).feed.inputs = s.owned := by
    rw [← told]
    cases p <;> rfl
  rw [State.Knows, inputs]
  cases p <;> rfl

theorem presenceHidden_answered (p : Port) (i : PermitInputs) (a : Bool) :
    presenceHidden p (i.answered a) = (presenceHidden p i).answered a := by cases p <;> rfl

/-- A change of presence, delivered, is known (R108, R191). -/
theorem feeds_deliverPresence {p : Port} (k : Drives s u) (knows : s.feed.inputs = s.owned → u.Knows (presenceHidden p)) :
    Feeds s (deliverPresence p u) := by
  cases p with
  | custody => exact ⟨k, knows⟩
  | line =>
    have known : Feeds s u := ⟨k, knows⟩
    refine .ite (fun _ => known.trans (feeds_resumeLock u)) fun _ => known.trans ?_
    refine (Feeds.foldl (fun t n => feeds_lineAbsentBay n t) eight u).trans ?_
    exact .ite (fun moving => feeds_holdLock 2 moving) fun _ => .refl _
  | fire =>
    have delivered : Feeds s (evaluated (u.feed.inputs.fired u.ports.fire.present) u) := by
      refine ⟨k.trans (drives_evaluated ..), fun e => ?_⟩
      rw [evaluated_inputs, evaluated_owned]
      exact congrArg (PermitInputs.fired u.ports.fire.present) (knows e)
    exact .ite (fun _ => delivered) fun _ => delivered.trans (Feeds.foldl (fun t z => feeds_fireAbsentZone z t) eight _)

theorem feeds_touchPort (p : Port) (s : State) : Feeds s (touchPort p s) := by
  unfold touchPort
  extract_lets c s1
  split
  case isTrue present => exact .still (still_setPort present.symm)
  case isFalse => exact .before (feeds_deliverPresence (drives_setPort ..) fun told => knows_setPort p _ told) (still_notify ..)

theorem feeds_becomeAbsent (p : Port) (s : State) : Feeds s (becomeAbsent p s) := by
  unfold becomeAbsent
  extract_lets c s1 s2
  have noticed : Still s2 (notify (otherPorts p) (.presence p false) s2) := still_notify ..
  have posted : Drives s s2 := (drives_setPort p _ s).trans (drives_post _ s1)
  refine feeds_deliverPresence (posted.trans (Feeds.still noticed).toDrives) fun told => ?_
  refine knows_of_feeding noticed.feeding (knows_post _ (presenceHidden_answered p) ?_)
  exact knows_setPort p _ told

/-! ### Frames -/

theorem feeds_countError (p : Port) (s : State) : Feeds s (countError p s) := by
  unfold countError
  extract_lets c n s1
  have counted : Still s s1 := still_setPort rfl
  exact .ite (fun _ => .after (feeds_post ..) counted) fun _ => .still counted

theorem feeds_discardFrame (p : Port) (s : State) : Feeds s (discardFrame p s) :=
  (feeds_countError p s).before (still_setPort rfl)

theorem feeds_receiveFrame (p : Port) (f : Frame) (s : State) : Feeds s (receiveFrame p f s) :=
  .ite (fun _ => .refl s) fun _ =>
    .ite (fun _ => .after (feeds_touchPort ..) (still_setPort rfl)) fun _ =>
      (feeds_touchPort p s).trans (feeds_discardFrame ..)

end

end Sys2Proof.Machine
end

