-- ==== Sys2Proof/Proofs/FeedMoves.lean ====
section
/-! PROOFS, layer 15 continued. The moves of packs that the requests carry out, and what they do to the shred queue and to
the lock (R111, R113, R115, R119, R124, R125, R126). -/

open Sys2Proof Sys2Proof.Machine

namespace Sys2Proof.Machine

section

variable {s t u : State}

/-! ### A move, before and after its inventories are delivered -/

/-- Neither zone of a move is in ALARM. -/
def Calm (src dst : Option (Fin 8)) (s : State) : Prop :=
  (∀ z, src = some z → (s.zone z).state ≠ .alarm) ∧ ∀ z, dst = some z → (s.zone z).state ≠ .alarm

theorem site_deliverPlaces {src dst : Option (Fin 8)} (calm : Calm src dst s) : (deliverPlaces src dst s).site = s.site := by
  rw [deliverPlaces_settled (fun z e => settled_of_not_alarm (calm.1 z e)) fun z e => settled_of_not_alarm (calm.2 z e)]
  rfl

/-- A move that no zone in ALARM is told of keeps the laws of the site before the inventories are delivered. -/
theorem keeps_undelivered {src dst : Option (Fin 8)} (kept : Keeps s (deliverPlaces src dst u)) (fire : u.fire = s.fire)
    (calm : SiteClauses s → Calm src dst s) : Keeps s u := by
  refine .of_clauses fun c => kept.trans (.of_site ?_)
  have zones : ∀ z, u.zone z = s.zone z := fun z => by simp only [State.zone, fire]
  refine (site_deliverPlaces ?_).symm
  simpa only [Calm, zones] using calm c

/-- And the laws of the permit and of the queue, once they are delivered. -/
theorem feeds_moved {src dst : Option (Fin 8)} (kept : Keeps s (deliverPlaces src dst u)) (fire : u.fire = s.fire)
    (calm : SiteClauses s → Calm src dst s) (moved : Keeps s u → Feeds s u) : Feeds s (deliverPlaces src dst u) :=
  (moved (keeps_undelivered kept fire calm)).trans (feeds_deliverPlaces ..)

/-- A move with the queue. -/
theorem feeds_requeued {l : List Handle} (kept : Keeps s u) (h : u.feeding = { s.feeding with queue := l })
    (queue : u.feed.queue = l → u.feed.lock.returning = s.feed.lock.returning → SiteClauses s → s.Queued → u.Queued) :
    Feeds s u where
  kept := kept
  run := congrArg Feeding.run h
  law law := by
    rw [h]
    exact ⟨⟨law.output, law.upper, law.lower, law.moves⟩, law.level⟩
  queue := queue (congrArg Feeding.queue h) (congrArg (fun v : Feeding => v.lock.returning) h)
  told e := by
    have both := congrArg (fun v : Feeding => (v.inputs, v.owned)) h
    simp only [State.feeding, Prod.mk.injEq] at both
    rw [both.1, both.2, e]

/-- A move with the queue and the lock, the lock moving under the permit alone. -/
theorem feeds_relocked {l : List Handle} {k : Lock} (kept : Keeps s u)
    (h : u.feeding = ({ s.feeding with queue := l } : Feeding).locked k)
    (moves : k.movesByPermit = true → s.feed.permit = true)
    (queue : u.feed.queue = l → u.feed.lock.returning = k.returning → SiteClauses s → s.Queued → u.Queued) : Feeds s u where
  kept := kept
  run := congrArg Feeding.run h
  law law := by
    rw [h]
    have queued : ({ s.feeding with queue := l } : Feeding).Lawful :=
      ⟨⟨law.output, law.upper, law.lower, law.moves⟩, law.level⟩
    exact queued.locked moves
  queue := queue (congrArg Feeding.queue h) (congrArg (fun v : Feeding => v.lock.returning) h)
  told e := by
    have both := congrArg (fun v : Feeding => (v.inputs, v.owned)) h
    simp only [State.feeding, Feeding.locked, Prod.mk.injEq] at both
    rw [both.1, both.2, e]

theorem fire_of_lessBays (h : t.lessBays = s.lessBays) : t.fire = s.fire := (congrArg State.fire h :)

theorem fire_transition (i : Fin 256) (p : Pack) (s : State) : (transition i p s).fire = s.fire := by rw [transition_eq]

theorem feeding_transition (i : Fin 256) (p : Pack) (s : State) : (transition i p s).feeding = s.feeding :=
  feeding_of_lessPacks (lessPacks_transition ..)

theorem feeding_leaveLoc (l : Loc) (s : State) : (leaveLoc l s).feeding = s.feeding :=
  feeding_of_lessBays (lessBays_leaveLoc ..)

theorem feeding_occupyBay (n : Fin 8) (h : Handle) (t : Treatment) (recheck : Bool) (s : State) :
    (occupyBay n h t recheck s).feeding = s.feeding := feeding_of_lessBays (lessBays_occupyBay ..)

theorem waits_leaveLoc (l : Loc) (s : State) : (leaveLoc l s).waits = s.waits := waits_of_lessBays (lessBays_leaveLoc ..)

theorem waits_occupyBay (n : Fin 8) (h : Handle) (t : Treatment) (recheck : Bool) (s : State) :
    (occupyBay n h t recheck s).waits = s.waits := waits_of_lessBays (lessBays_occupyBay ..)

theorem waits_setLock (l : Lock) (s : State) : (setLock l s).waits = s.waits := waits_of_lessFeed (lessFeed_setLock ..)

theorem waits_transition_eq (i : Fin 256) (p : Pack) (s : State) :
    (transition i p s).waits = Function.update s.waits i (Rec.waits ⟨(s.record i).gen, some p⟩) :=
  waits_stored (congrArg State.packs (transition_eq i p s))

/-! ### Into a bay -/

/-- The pack in its bay, the inventories not yet delivered. -/
def takenIn (h : Handle) (p : Pack) (n : Fin 8) (recheck : Bool) (s : State) : State :=
  occupyBay n h p.treatment recheck (leaveLoc p.loc (transition h.index (p.loadedIn n) s))

theorem placeInBay_eq (h : Handle) (p : Pack) (n : Fin 8) (recheck : Bool) (s : State) :
    placeInBay h p n recheck s = deliverPlaces p.zone (some (bayZone n)) (takenIn h p n recheck s) := rfl

theorem feeding_takenIn (h : Handle) (p : Pack) (n : Fin 8) (recheck : Bool) (s : State) :
    (takenIn h p n recheck s).feeding = s.feeding :=
  (feeding_occupyBay ..).trans ((feeding_leaveLoc ..).trans (feeding_transition ..))

theorem waits_takenIn (h : Handle) (p : Pack) (n : Fin 8) (recheck : Bool) (s : State) :
    (takenIn h p n recheck s).waits = Function.update s.waits h.index none := by
  have loaded : (Rec.mk (s.record h.index).gen (some (p.loadedIn n))).waits = none := Rec.waits_of_state nofun
  rw [takenIn, waits_occupyBay, waits_leaveLoc, waits_transition_eq, loaded]

theorem fire_takenIn (h : Handle) (p : Pack) (n : Fin 8) (recheck : Bool) (s : State) :
    (takenIn h p n recheck s).fire = s.fire :=
  (fire_of_lessBays (lessBays_occupyBay ..)).trans ((fire_of_lessBays (lessBays_leaveLoc ..)).trans (fire_transition ..))

/-- A pack that was not QUEUED takes a bay (R8, R50). -/
theorem feeds_placeInBay {h : Handle} {p : Pack} {n : Fin 8} {recheck : Bool} (kept : Keeps s (placeInBay h p n recheck s))
    (f : s.lookup h = some p) (idle : p.state ≠ .queued) (calm : Calm p.zone (some (bayZone n)) s) :
    Feeds s (placeInBay h p n recheck s) := by
  rw [placeInBay_eq] at kept ⊢
  refine feeds_moved kept (fire_takenIn ..) (fun _ => calm) fun kept => .same kept (feeding_takenIn ..) fun _ => ?_
  rw [waits_takenIn, ← waits_idle (pack_of_lookup f) idle, Function.update_eq_self]

theorem gen_of_lookup {h : Handle} {p : Pack} (f : s.lookup h = some p) : (s.record h.index).gen = h.gen :=
  (State.lookup_eq_some.1 f).1

/-- A QUEUED pack stands in Z6 (R4). -/
theorem queued_zone {h : Handle} {p : Pack} (c : SiteClauses s) (f : s.lookup h = some p) (queued : p.state = .queued) :
    p.zone = some 5 := by
  rw [Pack.zone, queued_in_buffer (c.placed _ p (pack_of_lookup f)) queued]
  rfl

/-- A QUEUED pack leaves the queue for a bay (R115). -/
theorem feeds_removeToBay {h : Handle} {p : Pack} {n : Fin 8} (f : s.lookup h = some p) (queued : p.state = .queued)
    (empty : (s.bay n).state = .empty) (calm : Calm (some 5) (some (bayZone n)) s) :
    Feeds s (placeInBay h p n true (unqueue h s)) := by
  have kept : Keeps s (placeInBay h p n true (unqueue h s)) := .of_clauses fun c => by
    have hl := queued_in_buffer (c.placed _ p (pack_of_lookup f)) queued
    exact .after (site_queue ..) (keeps_placeInBay f (by rw [queued]; rfl) (by rw [hl]; exact nofun) empty)
  rw [placeInBay_eq] at kept ⊢
  refine feeds_moved kept (fire_takenIn ..) (fun c => queued_zone c f queued ▸ calm) fun kept => ?_
  have feeding : (takenIn h p n true (unqueue h s)).feeding = _ := feeding_takenIn ..
  exact feeds_requeued kept feeding fun queue lock _ q => q.leave (gen_of_lookup f) queue (lock ▸ id) (waits_takenIn ..)

/-! ### Out of the queue to the store -/

/-- The pack in the store, the inventories not yet delivered. -/
def takenAway (h : Handle) (p : Pack) (s : State) : State := transition h.index p.storedAway (unqueue h s)

theorem removeToStore_eq (h : Handle) (p : Pack) (s : State) :
    removeToStore h p s = deliverPlaces p.zone (some 7) (takenAway h p s) := rfl

theorem waits_takenAway (h : Handle) (p : Pack) (s : State) :
    (takenAway h p s).waits = Function.update s.waits h.index none := by
  have stored : (Rec.mk ((unqueue h s).record h.index).gen (some p.storedAway)).waits = none := Rec.waits_of_state nofun
  rw [takenAway, waits_transition_eq, stored]
  rfl

/-- A QUEUED pack leaves the queue for the quarantine store (R115). -/
theorem feeds_removeToStore {h : Handle} {p : Pack} (f : s.lookup h = some p) (queued : p.state = .queued)
    (calm : Calm (some 5) (some 7) s) : Feeds s (removeToStore h p s) := by
  have kept := keeps_removeToStore f queued
  have fire : (takenAway h p s).fire = s.fire := fire_transition ..
  have feeding : (takenAway h p s).feeding = (unqueue h s).feeding := feeding_transition ..
  rw [removeToStore_eq] at kept ⊢
  refine feeds_moved kept fire (fun c => queued_zone c f queued ▸ calm) fun kept => ?_
  exact feeds_requeued kept feeding fun queue lock _ q => q.leave (gen_of_lookup f) queue (lock ▸ id) (waits_takenAway ..)

/-! ### Into the queue -/

/-- The record written and its handle at the tail of the queue. -/
def tailed (h : Handle) (p : Pack) (s : State) : State :=
  let t := transition h.index p.enqueued s
  { t with feed.queue := t.feed.queue ++ [h] }

theorem enqueueState_eq (h : Handle) (p : Pack) (n : Fin 8) (s : State) :
    enqueueState h p n s = deliverPlaces p.zone (some 5) (emptyBay n (tailed h p s)) := rfl

theorem feeding_tailed (h : Handle) (p : Pack) (s : State) :
    (tailed h p s).feeding = { s.feeding with queue := s.feed.queue ++ [h] } := by
  have written : (transition h.index p.enqueued s).feeding = s.feeding := feeding_transition ..
  have queue : (transition h.index p.enqueued s).feed.queue = s.feed.queue := congrArg Feeding.queue written
  rw [← written, ← queue]
  rfl

/-- A pack that becomes QUEUED waits by the generation of its record. -/
theorem waits_queued {h : Handle} {o p : Pack} (f : s.lookup h = some o) (queued : p.state = .queued) :
    (transition h.index p s).waits = Function.update s.waits h.index (some h.gen) := by
  have waits : (Rec.mk (s.record h.index).gen (some p)).waits = some h.gen := by
    rw [gen_of_lookup f]
    simp [Rec.waits, queued]
  rw [waits_transition_eq, waits]

theorem waits_tailed {h : Handle} {p : Pack} (f : s.lookup h = some p) :
    (tailed h p s).waits = Function.update s.waits h.index (some h.gen) :=
  (waits_of_packs rfl).trans (waits_queued (p := p.enqueued) f rfl)

/-- A DISCHARGED pack joins the tail of the queue (R113). -/
theorem feeds_enqueueState {h : Handle} {p : Pack} {n : Fin 8} (f : s.lookup h = some p) (done : doneBay s p = some n)
    (room : s.feed.queueCount < 6) (calm : Calm p.zone (some 5) s) : Feeds s (enqueueState h p n s) := by
  obtain ⟨hs, _⟩ := discharged_of_doneBay done
  have kept := keeps_enqueueState f done
  have fire : (emptyBay n (tailed h p s)).fire = s.fire :=
    (fire_of_lessBays (lessBays_emptyBay ..)).trans (fire_transition ..)
  have feeding := (feeding_of_lessBays (lessBays_emptyBay n (tailed h p s))).trans (feeding_tailed h p s)
  have waits := (waits_of_lessBays (lessBays_emptyBay n (tailed h p s))).trans (waits_tailed f)
  rw [enqueueState_eq] at kept ⊢
  refine feeds_moved kept fire (fun _ => calm) fun kept => feeds_requeued kept feeding fun queue lock _ q => ?_
  refine q.join (waits_idle (pack_of_lookup f) (by rw [hs]; exact nofun)) (List.append_nil _).symm queue ?_ waits
  simp only [Feed.queueCount] at room ⊢
  rw [queue, lock, List.length_append, List.length_singleton]
  omega

end

end Sys2Proof.Machine
end

