-- ==== Sys2Proof/Proofs/FeedLock.lean ====
section
/-! PROOFS, layer 15 continued. The moves into the lock and out of it, and those that reach no queue (R7, R9, R15, R119,
R125, R126). -/

open Sys2Proof Sys2Proof.Machine

namespace Sys2Proof.Machine

section

variable {s t u : State}

/-! ### Into the lock -/

/-- The lock as FEED loads it (R119). -/
def Lock.loadedWith (h : Handle) : Lock := ⟨.loading, some h, false, false, none⟩

/-- The head of the queue at the lock, the inventories not yet delivered. -/
def takenToLock (h : Handle) (p : Pack) (s : State) : State :=
  setLock (.loadedWith h) (transition h.index p.fed { s with feed.queue := s.feed.queue.tail })

theorem feedState_eq (h : Handle) (p : Pack) (s : State) :
    feedState h p s = deliverPlaces p.zone (some 6) (takenToLock h p s) := rfl

theorem feeding_takenToLock (h : Handle) (p : Pack) (s : State) : (takenToLock h p s).feeding =
    ({ s.feeding with queue := s.feed.queue.tail } : Feeding).locked (.loadedWith h) := by
  rw [takenToLock, feeding_setLock, feeding_transition]
  rfl

theorem waits_takenToLock (h : Handle) (p : Pack) (s : State) :
    (takenToLock h p s).waits = Function.update s.waits h.index none := by
  let v : State := { s with feed.queue := s.feed.queue.tail }
  have fed : (Rec.mk (v.record h.index).gen (some p.fed)).waits = none := Rec.waits_of_state nofun
  have written : (transition h.index p.fed v).waits = Function.update v.waits h.index none := by
    rw [waits_transition_eq, fed]
  exact (waits_setLock ..).trans written

theorem fire_setLock (l : Lock) (s : State) : (setLock l s).fire = s.fire :=
  (congrArg (fun a : Classification × Option (Fin 8) × Atmosphere × Fire => a.2.2.2) (aftermath_setLock l s).aside :)

/-- The queue without its head. -/
theorem tail_eq_filter {h : Handle} {q : List Handle} (nodup : q.Nodup) (head : q.head? = some h) :
    q.tail = q.filter (· != h) := by
  cases q with
  | nil => exact nomatch head
  | cons a rest =>
    cases head
    obtain ⟨fresh, _⟩ := List.nodup_cons.1 nodup
    rw [List.tail_cons, List.filter_cons_of_neg (by simp), List.filter_eq_self.2]
    exact fun k m => bne_iff_ne.2 fun e => fresh (e ▸ m)

/-- FEED takes the head of the queue into an EMPTY lock under the permit (R118, R119). -/
theorem feeds_feedState {h : Handle} {p : Pack} (f : s.lookup h = some p) (queued : p.state = .queued)
    (head : s.feed.queue.head? = some h) (empty : s.feed.lock.state = .empty) (permit : s.feed.permit = true)
    (calm : Calm (some 5) (some 6) s) : Feeds s (feedState h p s) := by
  have kept := keeps_feedState f queued empty
  have fire : (takenToLock h p s).fire = s.fire := (fire_setLock ..).trans (fire_transition ..)
  rw [feedState_eq] at kept ⊢
  refine feeds_moved kept fire (fun c => queued_zone c f queued ▸ calm) fun kept => ?_
  refine feeds_relocked kept (feeding_takenToLock ..) (fun _ => permit) fun queue lock _ q => ?_
  refine q.leave (gen_of_lookup f) (queue.trans (tail_eq_filter q.nodup head)) (fun r => ?_) (waits_takenToLock ..)
  rw [lock] at r
  exact nomatch r

/-! ### Out of the lock -/

/-- A record written and noticed. -/
def noticed (ps : List Port) (i : Fin 256) (p : Pack) (s : State) : State := noticePack ps i (storePack i p s)

theorem feeding_noticed (ps : List Port) (i : Fin 256) (p : Pack) (s : State) : (noticed ps i p s).feeding = s.feeding :=
  (still_noticePack ..).feeding.trans (feeding_of_lessPacks (lessPacks_storePack ..))

theorem packs_noticed (ps : List Port) (i : Fin 256) (p : Pack) (s : State) :
    (noticed ps i p s).packs = vset s.packs i ⟨(s.record i).gen, some p⟩ := by
  rw [noticed, noticePack_storePack]

theorem fire_noticed (ps : List Port) (i : Fin 256) (p : Pack) (s : State) : (noticed ps i p s).fire = s.fire := by
  rw [noticed, noticePack_storePack]

/-- A returned pack at the head of the queue, the inventories not yet delivered. -/
def takenBack (h : Handle) (p : Pack) (s : State) : State :=
  let t := transition h.index { p with state := .queued, loc := .buffer, residualAtFeed := none } s
  setLock Lock.initial { t with feed.queue := h :: t.feed.queue }

theorem requeue_eq (h : Handle) (p : Pack) (s : State) :
    requeue h p s = deliverPlaces p.zone (some 5) (takenBack h p s) := rfl

theorem keeps_takenBack {h : Handle} {p : Pack} (f : s.lookup h = some p) (hl : p.loc = .feedLock)
    (live : p.state.terminal = false) : Keeps s (takenBack h p s) := by
  refine keeps_outOfLock (o := p) (p := { p with state := .queued, loc := .buffer, residualAtFeed := none })
    (pack_of_lookup f) rfl live hl rfl rfl rfl ?_
  rw [takenBack, site_lockedAs, site_queue, site_transition, pack_of_lookup f]

theorem feeding_takenBack (h : Handle) (p : Pack) (s : State) : (takenBack h p s).feeding =
    ({ s.feeding with queue := h :: s.feed.queue } : Feeding).locked Lock.initial := by
  let y : Pack := { p with state := .queued, loc := .buffer, residualAtFeed := none }
  have written : (transition h.index y s).feeding = s.feeding := feeding_transition ..
  have queue : (transition h.index y s).feed.queue = s.feed.queue := congrArg Feeding.queue written
  rw [takenBack, feeding_setLock, ← written, ← queue]
  rfl

theorem waits_takenBack {h : Handle} {p : Pack} (f : s.lookup h = some p) :
    (takenBack h p s).waits = Function.update s.waits h.index (some h.gen) :=
  (waits_setLock ..).trans ((waits_of_packs rfl).trans
    (waits_queued (p := { p with state := .queued, loc := .buffer, residualAtFeed := none }) f rfl))

/-- The returned pack takes the place reserved for it (R111, R125). -/
theorem feeds_requeue {h : Handle} {p : Pack} (kept : Keeps s (takenBack h p s)) (f : s.lookup h = some p)
    (occ : s.feed.lock.occupant = some h) (returning : s.feed.lock.returning = true) : Feeds s (requeue h p s) := by
  rw [requeue_eq]
  refine .trans (feeds_relocked kept (feeding_takenBack ..) nofun fun queue lock c q => ?_) (feeds_deliverPlaces ..)
  refine q.join (waits_in_lock c occ) (List.nil_append _).symm queue ?_ (waits_takenBack f)
  have places := q.places
  simp only [Feed.queueCount, returning, if_true] at places
  simp only [Feed.queueCount]
  rw [queue, lock, List.length_cons]
  exact places

/-- A lock emptied, the queue as it was. -/
theorem feeds_unlocked (kept : Keeps s u) (h : u.feeding = s.feeding.locked Lock.initial)
    (waits : SiteClauses s → u.waits = s.waits) : Feeds s u := by
  refine feeds_relocked (l := s.feed.queue) kept h nofun fun queue lock c q => q.same queue (fun r => ?_) (waits c)
  rw [lock] at r
  exact nomatch r

/-- A record written with its pack's state as it was. -/
theorem waits_of_state {i : Fin 256} {o p : Pack} (h : t.packs = vset s.packs i ⟨(s.record i).gen, some p⟩)
    (f : (s.record i).pack = some o) (state : p.state = o.state) : t.waits = s.waits := by
  have same : (Rec.mk (s.record i).gen (some p)).waits = s.waits i := by
    simp only [State.waits, Rec.waits, f, Option.any_some, state]
  rw [waits_stored h, same, Function.update_eq_self]

/-- A blocked lock's pack in the store, the inventories not yet delivered. -/
def stowed (h : Handle) (p : Pack) (s : State) : State :=
  setLock Lock.initial (noticed [.line] h.index { p with loc := .quarantine } s)

theorem emptyBlocked_eq (h : Handle) (p : Pack) (s : State) :
    emptyBlocked h p s = deliverPlaces p.zone (some 7) (stowed h p s) := rfl

theorem keeps_stowed {h : Handle} {p : Pack} (f : s.lookup h = some p) (hl : p.loc = .feedLock)
    (q : p.state = .quarantined) : Keeps s (stowed h p s) := by
  refine keeps_outOfLock (o := p) (p := { p with loc := .quarantine }) (pack_of_lookup f) rfl (by rw [q]; rfl) hl
    (by simp [Pack.placed, q]) (by rw [q]; rfl) rfl ?_
  rw [stowed, site_lockedAs, noticed, site_noticePack, site_storePack, pack_of_lookup f]

theorem feeds_emptyBlocked {h : Handle} {p : Pack} (kept : Keeps s (stowed h p s)) (f : s.lookup h = some p) :
    Feeds s (emptyBlocked h p s) := by
  rw [emptyBlocked_eq]
  refine .trans (feeds_unlocked kept ?_ fun _ => ?_) (feeds_deliverPlaces ..)
  · rw [stowed, feeding_setLock, feeding_noticed]
  · rw [stowed, waits_setLock]
    exact waits_of_state (packs_noticed ..) (pack_of_lookup f) rfl

/-- The shredded pack, the lock EMPTY, the inventories not yet delivered. -/
def droppedFrom (h : Handle) (p : Pack) (s : State) : State :=
  let q : Pack := { p with state := .shredded, loc := .shredder }
  setLock Lock.initial (reportTerminal q (transition h.index q s))

theorem dropState_eq (h : Handle) (p : Pack) (s : State) :
    dropState h p s = testClosing p.lot (deliverPlaces p.zone none (droppedFrom h p s)) := rfl

theorem lot_of_lessFeed (h : t.lessFeed = s.lessFeed) : t.lot = s.lot := (congrArg State.lot h :)

theorem keeps_droppedFrom {h : Handle} {p : Pack} (f : s.lookup h = some p) (feeding : p.state = .feeding) :
    Keeps s (droppedFrom h p s) := by
  refine .of_clauses fun c => ?_
  let y : Pack := { p with state := .shredded, loc := .shredder }
  have stood := pack_of_lookup f
  have hl : p.loc = .feedLock := by
    have placed := c.placed _ p stood
    cases e : p.loc <;> simp [Pack.placed, feeding, e] at placed ⊢
  have site := site_lockedAs Lock.initial (reportTerminal y (transition h.index y s))
  rw [site_reportTerminal, site_transition, stood] at site
  refine Moves.keeps_retired (o := p) (p := y) stood rfl (by rw [feeding]; rfl) rfl rfl rfl ?_
    (Moves.of_site site (fun n => ?_) ?_)
  · have lot : (setLock Lock.initial (reportTerminal y (transition h.index y s))).lot =
        (reportTerminal y (transition h.index y s)).lot := lot_of_lessFeed (lessFeed_setLock ..)
    rw [droppedFrom, lot, transition_eq]
    rfl
  · simp [y, hl, State.site, State.bay]
  · simp [y, hl]

theorem feeds_dropState {h : Handle} {p : Pack} (f : s.lookup h = some p) (feeding : p.state = .feeding) :
    Feeds s (dropState h p s) := by
  rw [dropState_eq]
  refine .trans (.trans (feeds_unlocked (keeps_droppedFrom f feeding) ?_ fun _ => ?_) (feeds_deliverPlaces ..))
    (feeds_testClosing ..)
  · rw [droppedFrom, feeding_setLock, reportTerminal, feeding_setLot, feeding_transition]
  · refine (waits_setLock ..).trans ((waits_of_packs rfl).trans (waits_transition (waits_idle (pack_of_lookup f) ?_) nofun))
    rw [feeding]
    exact nofun

/-! ### Moves that reach no queue -/

/-- The moved pack at its place, the inventories not yet delivered. -/
def movedTo (h : Handle) (p : Pack) (dest : Loc) (s : State) : State :=
  leaveLoc p.loc (noticed [.line] h.index (movedPack p dest) s)

theorem moveState_eq (h : Handle) (p : Pack) (dest : Loc) (s : State) :
    moveState h p dest s = deliverPlaces p.zone (zoneOf dest) (movedTo h p dest s) := rfl

/-- A movable pack is QUEUED neither before nor after (R9). -/
theorem idle_of_movable {p : Pack} {dest : Loc} (m : movable p dest = true) :
    p.state ≠ .queued ∧ (movedPack p dest).state ≠ .queued := by
  unfold movable at m
  split at m
  case h_5 => exact nomatch m
  all_goals
    rename_i hs _
    simp [movedPack, hs]

theorem feeds_moveState {h : Handle} {p : Pack} {dest : Loc} (f : s.lookup h = some p) (m : movable p dest = true)
    (calm : Calm p.zone (zoneOf dest) s) : Feeds s (moveState h p dest s) := by
  obtain ⟨was, is⟩ := idle_of_movable m
  have kept := keeps_moveState f m
  have fire : (movedTo h p dest s).fire = s.fire := (fire_of_lessBays (lessBays_leaveLoc ..)).trans (fire_noticed ..)
  rw [moveState_eq] at kept ⊢
  refine feeds_moved kept fire (fun _ => calm) fun kept => .same kept ?_ fun _ => ?_
  · rw [movedTo, feeding_leaveLoc, feeding_noticed]
  · rw [movedTo, waits_leaveLoc]
    exact waits_rewritten (packs_noticed ..) (waits_idle (pack_of_lookup f) was) is

/-- WITHDRAW (R15). -/
theorem feeds_retire {h : Handle} {p : Pack} (f : s.lookup h = some p) (q : p.state = .quarantined)
    (hl : p.loc = .quarantine) (calm : Calm p.zone none s) :
    Feeds s (retire h.index p { p with state := .withdrawn, loc := .out } s) := by
  have kept := keeps_retire f q hl
  unfold retire at kept ⊢
  refine feeds_moved kept (fire_transition ..) (fun _ => calm) fun kept => .same kept (feeding_transition ..) fun _ => ?_
  refine (waits_of_packs rfl).trans (waits_transition (waits_idle (pack_of_lookup f) ?_) nofun)
  rw [q]
  exact nofun

/-- The admitted pack's record and lot, the inventories not yet delivered. -/
def takenOn (i : Fin 256) (p : Pack) (s : State) : State :=
  let t := noticed [.line, .custody] i p s
  t.setLot p.lot ((t.lotAt p.lot).map fun l => { l with admitted := l.admitted + 1, intakeMass := l.intakeMass + p.mass })

theorem admitAt_undelivered (i : Fin 256) (p : Pack) (s : State) :
    admitAt i p s = deliverPlaces none p.zone (takenOn i p s) := rfl

theorem feeds_admitAt {i : Fin 256} {p : Pack} (kept : Keeps s (admitAt i p s)) (f : (s.record i).pack = none)
    (idle : p.state ≠ .queued) (calm : Calm none p.zone s) : Feeds s (admitAt i p s) := by
  rw [admitAt_undelivered] at kept ⊢
  refine feeds_moved kept (fire_noticed ..) (fun _ => calm) fun kept => .same kept (feeding_noticed ..) fun _ => ?_
  exact waits_rewritten (packs_noticed ..) (waits_free f) idle

end

end Sys2Proof.Machine
end

