-- ==== Sys2Proof/Proofs/FeedOwners.lean ====
section
/-! PROOFS, layer 15 continued. What the owners of the requests do to the shred permit and the shred queue (R108, R109, R111,
R117, R122). -/

open Sys2Proof Sys2Proof.Machine

namespace Sys2Proof.Machine

/-! ### Replies -/

/-- A reply to a request found in `s` leaves a state in which the laws of the permit and of the queue hold where they did. -/
structure FeedsReply (s : State) (r : Reply) : Prop where
  feeds : Feeds s r.st

namespace FeedsReply

variable {s t : State}

theorem refuse (k : Result) (s : State) : FeedsReply s (refuse k s) := ⟨.refl s⟩

theorem reply (body : List Byte) (k : Feeds s t) : FeedsReply s (reply t body) := ⟨k⟩

/-- A reply that changes nothing the laws read. -/
theorem still (body : List Byte) (h : Still s t) : FeedsReply s (Machine.reply t body) := ⟨.still h⟩

theorem ite {c : Prop} [Decidable c] {q r : Reply} (hq : c → FeedsReply s q) (hr : ¬c → FeedsReply s r) :
    FeedsReply s (if c then q else r) := by
  split
  · exact hq ‹_›
  · exact hr ‹_›

/-- A check that refuses, before the rest of the owner's work. -/
theorem check {c : Prop} [Decidable c] {k : Result} {r : Reply} (h : ¬c → FeedsReply s r) :
    FeedsReply s (if c then Machine.refuse k s else r) := .ite (fun _ => .refuse k s) h

theorem withPack {index gen : Nat} {k : Handle → Pack → Reply} (h : ∀ d p, s.lookup d = some p → FeedsReply s (k d p)) :
    FeedsReply s (withPack index gen s k) := by
  unfold Machine.withPack
  split
  · exact .refuse ..
  · split
    · exact .refuse ..
    · exact h _ _ ‹_›

theorem withLot {lot : Nat} {k : Fin 8 → Reply} (h : ∀ j, FeedsReply s (k j)) : FeedsReply s (withLot lot s k) := by
  unfold Machine.withLot
  split
  · exact .refuse ..
  · exact h _

theorem withBay {bay : Nat} {k : Fin 8 → Reply} (h : ∀ n, FeedsReply s (k n)) : FeedsReply s (withBay bay s k) := by
  unfold Machine.withBay
  split
  · exact .refuse ..
  · exact h _

theorem withZone {zone : Nat} {k : Fin 8 → Reply} (h : ∀ z, FeedsReply s (k z)) :
    FeedsReply s (withZone zone s k) := by
  unfold Machine.withZone
  split
  · exact .refuse ..
  · exact h _

theorem guarded {code target g1 g2 : Nat} {owner : State → Reply} (h : FeedsReply s (owner s)) :
    FeedsReply s (guarded code target g1 g2 owner s) := .ite (fun _ => h) fun _ => .refuse ..

end FeedsReply

/-- What a passed check for a frozen zone says (R4, R143). -/
theorem calm_of_passed {src dst : Option (Fin 8)} {s : State} (h : ¬moveFrozen s src dst = true) : Calm src dst s :=
  not_alarm_of_not_frozen (Bool.not_eq_true _ ▸ h)

/-! ### Reads and ports -/

theorem feeds_status (part : Nat) (s : State) : FeedsReply s (statusReply part s) := by
  unfold statusReply
  split <;> exact ⟨.refl s⟩

theorem feeds_readPack (index gen : Nat) (s : State) : FeedsReply s (readPackReply index gen s) :=
  .withPack fun _ _ _ => .reply _ (.refl s)

theorem feeds_list (p : Port) (state lot : Option Nat) (s : State) : FeedsReply s (listReply p state lot s) := by
  unfold listReply
  split
  · exact .refuse ..
  · exact .still _ (still_setPort rfl)

theorem feeds_cursor (p : Port) (index : Nat) (s : State) : FeedsReply s (cursorReply p index s) := by
  unfold cursorReply
  split
  · exact .refuse ..
  · exact .still _ (still_setPort rfl)

theorem feeds_readBay (bay : Nat) (s : State) : FeedsReply s (readBayReply bay s) := by
  unfold readBayReply
  split <;> exact ⟨.refl s⟩

theorem feeds_readZone (zone : Nat) (s : State) : FeedsReply s (readZoneReply zone s) := by
  unfold readZoneReply
  split <;> exact ⟨.refl s⟩

theorem feeds_readLot (lot : Nat) (s : State) : FeedsReply s (readLotReply lot s) := by
  unfold readLotReply
  split
  · exact .refuse ..
  · split <;> exact ⟨.refl s⟩

theorem feeds_readBank (bank : Nat) (s : State) : FeedsReply s (readBankReply bank s) := by
  unfold readBankReply
  split <;> exact ⟨.refl s⟩

theorem feeds_readConfig (item index : Nat) (s : State) : FeedsReply s (readConfigReply item index s) := by
  unfold readConfigReply
  split <;> exact ⟨.refl s⟩

theorem feeds_fetch (p : Port) (s : State) : FeedsReply s (fetchReply p s) := .still _ (still_setPort rfl)

theorem feeds_presence (p : Port) (seconds : Nat) (s : State) : FeedsReply s (presenceReply p seconds s) :=
  .still _ (still_setPort rfl)

/-- The banks written, their answer not yet delivered. -/
def banksWritten (b : Banks) (s : State) : State := relight { s with banks := b }

/-- The banks' answer delivered after a change of the banks (R180). -/
theorem feeds_deliverBanks {b : Banks} {s u : State} (h : Still (banksWritten b s) u) : Feeds s (deliverBanks u) := by
  have written : Drives s (banksWritten b s) := drives_owner rfl rfl
  refine ⟨(written.trans (Feeds.still h).toDrives).trans (drives_deliverBanks u), fun told => ?_⟩
  have answered : (deliverBanks u).owned = u.owned := (aftermath_deliverBanks u).owned (core_deliverBanks u)
  have owned : u.owned = s.owned.answered (bankAnswer b) := congrArg Feeding.owned h.feeding
  have inputs : u.feed.inputs = s.feed.inputs := congrArg Feeding.inputs h.feeding
  have answer : bankAnswer u.banks = bankAnswer b := congrArg PermitInputs.uncontained owned
  rw [answered, owned, deliverBanks_inputs, inputs, told, answer]
  rfl

theorem feeds_clearBankState (k : BankId) (s : State) : Feeds s (clearBankState k s) :=
  feeds_deliverBanks (still_notify ..)

theorem feeds_clearBank (p : Port) (bank number : Nat) (s : State) : FeedsReply s (clearBankReply p bank number s) := by
  unfold clearBankReply
  split
  · exact .refuse ..
  · exact .check fun _ => .check fun _ => .ite (fun _ => .reply _ (.refl s)) fun _ =>
      .check fun _ => .reply _ (feeds_clearBankState ..)

/-- The report enables of a bank are nothing the laws read. -/
theorem still_enables (k : BankId) (es : List Bool) (s : State) :
    Still s { s with banks := s.banks.put k { s.banks.get k with enables := es } } := ⟨rfl, by cases k <;> rfl⟩

theorem feeds_enables (p : Port) (bank : Nat) (es : List Nat) (s : State) : FeedsReply s (enablesReply p bank es s) := by
  unfold enablesReply
  split
  · exact .refuse ..
  · split
    · exact .refuse ..
    · exact .check fun _ => .still _ (still_enables ..)

/-! ### Classification -/

/-- The classification is nothing the laws read. -/
theorem still_classification (c : Classification) (s : State) : Still s { s with cls := c } := ⟨rfl, rfl⟩

theorem feeds_writeTreatment (index : Nat) (f : TreatmentFields) (s : State) :
    FeedsReply s (writeTreatmentReply index f s) := by
  unfold writeTreatmentReply
  split
  · exact .still _ (still_classification ..)
  · exact .refuse ..

theorem feeds_writeRange (index low high treatment enabled : Nat) (s : State) :
    FeedsReply s (writeRangeReply index low high treatment enabled s) := by
  unfold writeRangeReply
  split
  · exact .check fun _ => .still _ (still_classification ..)
  · exact .refuse ..

theorem feeds_writeSlotMap (fam treatment enabled : Nat) (s : State) :
    FeedsReply s (writeSlotMapReply fam treatment enabled s) := by
  unfold writeSlotMapReply
  split
  · exact .still _ (still_classification ..)
  · exact .refuse ..

theorem feeds_setMap (enable treatment : Nat) (s : State) : FeedsReply s (setMapReply enable treatment s) := by
  unfold setMapReply
  split
  · exact .still _ (still_classification ..)
  · exact .refuse ..

theorem feeds_curveBegin (curve : Nat) (s : State) : FeedsReply s (curveBeginReply curve s) := by
  unfold curveBeginReply
  split
  · exact .refuse ..
  · exact .check fun _ => .still _ (still_classification ..)

theorem feeds_curvePoint (curve voltage fraction : Nat) (s : State) :
    FeedsReply s (curvePointReply curve voltage fraction s) := by
  unfold curvePointReply
  split
  · exact .refuse ..
  · exact .check fun _ => .check fun _ => .check fun _ => .still _ (still_classification ..)

/-- The checks that a curve wakes tell the zones of their bays (R40, R44). -/
theorem feeds_wakeChecks (k : Fin 4) (s : State) : Feeds s (wakeChecks k s) :=
  Feeds.foldl (fun t n => .onlyIf (.refl t) (feeds_runCheck n)) eight s

theorem feeds_judgeCurve (k : Fin 4) (points : List Point) (s : State) : Feeds s (judgeCurve k points s) :=
  .ite (fun _ => .after (feeds_wakeChecks ..) (still_classification ..)) fun _ =>
    .after (feeds_post ..) (still_classification ..)

theorem feeds_curveEnd (curve : Nat) (s : State) : FeedsReply s (curveEndReply curve s) := by
  unfold curveEndReply
  split
  · exact .refuse ..
  · exact .check fun _ => .reply _ (feeds_judgeCurve ..)

/-! ### Fire Zone Controller -/

theorem still_setDetector (d : Fin 24) (x : Detector) (s : State) : Still s (s.setDetector d x) := ⟨rfl, rfl⟩

theorem feeds_evalZones (old new : Option (Fin 8)) (detail : Nat) (s : State) : Feeds s (evalZones old new detail s) := by
  unfold evalZones
  cases new with
  | none =>
    cases old with
    | none => exact .refl s
    | some z => exact .ite (fun _ => .refl s) fun _ => feeds_evalZone ..
  | some w =>
    cases old with
    | none => exact feeds_evalZone ..
    | some z => exact .ite (fun _ => feeds_evalZone ..) fun _ => (feeds_evalZone ..).trans (feeds_evalZone ..)

theorem feeds_writeDetector (detector zone kind : Nat) (s : State) :
    FeedsReply s (writeDetectorReply detector zone kind s) := by
  unfold writeDetectorReply
  split
  · exact .check fun _ => .reply _ (.after (feeds_evalZones ..) (still_setDetector ..))
  · exact .refuse ..

theorem feeds_writeFireTimes (dwell rearm : Nat) (s : State) : FeedsReply s (writeFireTimesReply dwell rearm s) :=
  .still _ ⟨rfl, rfl⟩

theorem feeds_writeZone (zone threshold delay : Nat) (s : State) : FeedsReply s (writeZoneReply zone threshold delay s) :=
  .withZone fun _ => .check fun _ => .reply _ (.after (feeds_evalRelease ..) (still_setZone rfl))

theorem feeds_setHold (z : Fin 8) (on : Bool) (s : State) : FeedsReply s (setHold z on s) :=
  .check fun _ => .ite (fun _ => .reply _ (.refl s)) fun _ =>
    .still _ ((still_setZone (z := z) (q := { s.zone z with hold := on }) rfl).trans (still_notify ..))

theorem feeds_release (target : Nat) (s : State) : FeedsReply s (releaseReply target s) := by
  refine .withZone fun z => ?_
  split
  · exact .reply _ (.refl s)
  · exact .refuse ..
  · exact .reply _ (feeds_enterReleased ..)

theorem feeds_zoneReset (target : Nat) (s : State) : FeedsReply s (zoneResetReply target s) :=
  .withZone fun z => .check fun _ => .check fun _ =>
    .reply _ ((feeds_changeZone z _ _).after (still_release z false s) |>.trans (feeds_evalZone ..))

theorem feeds_isolate (zone : Nat) (s : State) : FeedsReply s (isolateReply zone s) :=
  .withZone fun _ => .check fun _ => .check fun _ => .reply _ (feeds_changeZone ..)

theorem feeds_restore (zone : Nat) (s : State) : FeedsReply s (restoreReply zone s) :=
  .withZone fun _ => .check fun _ => .reply _ ((feeds_changeZone ..).trans (feeds_evalZone ..))

/-! ### Atmosphere Monitor -/

theorem feeds_inertStart (s : State) : FeedsReply s (inertStartReply s) := .check fun _ => .reply _ (feeds_changeInert ..)

theorem feeds_inertStop (s : State) : FeedsReply s (inertStopReply s) :=
  .check fun _ => .check fun _ => .reply _ (feeds_changeInert ..)

theorem feeds_inertReset (target : Nat) (s : State) : FeedsReply s (inertResetReply target s) :=
  .check fun _ => .check fun _ => .check fun _ => .reply _ (feeds_changeInert ..)

theorem feeds_writeLimits (l : InertLimits) (s : State) : Feeds s (writeLimits l s) := by
  rw [writeLimits_eq]
  exact (Feeds.after (feeds_evalInert (limited l s)) (still_atmosphere rfl)).trans (feeds_checkPurgeTimeout _)

theorem feeds_writeInertLimits (purge run trip hold maxPurge : Nat) (s : State) :
    FeedsReply s (writeInertLimitsReply purge run trip hold maxPurge s) :=
  .check fun _ => .reply _ (feeds_writeLimits ..)

end Sys2Proof.Machine
end

