-- ==== Sys2Proof/Proofs/FeedRequestsKept.lean ====
section
/-! PROOFS, layer 15 continued. The requests that move packs, lots, the lock and bays, and LINE_RESTART: the laws of the shred
permit and of the shred queue after them (R8, R9, R113, R115, R119, R124, R125, R126, R190). -/

open Sys2Proof Sys2Proof.Machine

namespace Sys2Proof.Machine

/-! ### Pack Register -/

/-- An admitted pack is RECEIVED or QUARANTINED (R7). -/
theorem admitted_state (s : State) (tag : Nat) (lot : Fin 8) (typeCode : Nat) (damaged : Bool) (mass nominal cells : Nat) :
    let p := admitted s tag lot typeCode damaged mass nominal cells
    p.state = .received ∨ p.state = .quarantined := by
  simp only [admitted, admitState]
  split
  · exact .inr rfl
  · split
    · exact .inr rfl
    · exact .inl rfl

theorem feeds_admit (tag lot typeCode damaged mass nominal cells : Nat) (s : State) :
    FeedsReply s (admitReply tag lot typeCode damaged mass nominal cells s) := by
  unfold admitReply
  split
  case h_2 => exact .refuse ..
  case h_1 j d _ _ =>
    refine .check fun _ => .check fun isOpen => .check fun _ => ?_
    split
    · exact .refuse ..
    case h_2 i lowest =>
      refine .check fun normal => .reply _ ?_
      have free : (s.record i).pack = none := by simpa using List.find?_some lowest
      have state := admitted_state s tag j typeCode d mass nominal cells
      obtain ⟨l, used, opened⟩ : ∃ l, s.lotAt j = some l ∧ l.state = .opened := by
        simpa [lotIn, Option.any_eq_true] using isOpen
      refine feeds_admitAt (keeps_admitAt (l := l) free used opened rfl state) free ?_ ⟨nofun, fun z hz => ?_⟩
      · obtain e | e := state <;> rw [e] <;> exact nofun
      · cases hz
        rw [not_not.1 normal]
        exact nofun

theorem feeds_withdraw (index gen : Nat) (s : State) : FeedsReply s (withdrawReply index gen s) := by
  refine .withPack fun h p f => .check fun stored => .check fun free => .reply _ ?_
  obtain ⟨q, hl⟩ := not_or.1 stored
  exact (feeds_retire f (not_not.1 q) (not_not.1 hl) (calm_of_passed free)).trans (feeds_testClosing ..)

theorem idle_of_assignable {s : State} {p : Pack} {n : Fin 8} (h : assignable s p n = true) : p.state ≠ .queued := by
  unfold assignable at h
  split at h
  case h_1 hs _ => rw [hs]; exact nofun
  case h_2 hs _ => rw [hs]; exact nofun
  case h_3 => exact nomatch h

theorem feeds_assign (index gen bay : Nat) (s : State) : FeedsReply s (assignReply index gen bay s) := by
  unfold assignReply
  split
  · exact .refuse ..
  case h_2 n _ =>
    refine .withPack fun h p f => .check fun ready => .check fun empty => .check fun free => .reply _ ?_
    have ready : assignable s p n = true := by simpa using ready
    obtain ⟨live, off⟩ := live_of_assignable ready
    have kept := keeps_placeInBay (recheck := p.state == .discharged) f live off (not_not.1 empty)
    exact feeds_placeInBay kept f (idle_of_assignable ready) (calm_of_passed free)

theorem feeds_move (index gen dest : Nat) (s : State) : FeedsReply s (moveReply index gen dest s) := by
  unfold moveReply
  split
  · exact .refuse ..
  · refine .withPack fun h p f => .ite (fun _ => .reply _ (.refl s)) fun _ => .check fun lets => .check fun free => .reply _ ?_
    simp only [Bool.or_eq_true, not_or, Bool.not_eq_true', Bool.not_eq_false] at lets
    exact feeds_moveState f lets.1 (calm_of_passed free)

theorem lessBays_quarantineBay (n : Fin 8) (s : State) : (quarantineBay n s).lessBays = s.lessBays := by
  unfold quarantineBay
  split
  · exact (lessBays_putBay ..).trans (lessBays_stopLoad ..)
  · rfl

/-- A location's part of a quarantine reaches at most the queue (R116). -/
theorem feeding_quarantinePlace (h : Handle) (p : Pack) (s : State) :
    (quarantinePlace h p s).feeding = { s.feeding with queue := (quarantinePlace h p s).feed.queue } := by
  unfold quarantinePlace
  split
  case h_1 n _ =>
    have bay := feeding_of_lessBays (lessBays_quarantineBay n s)
    have queue : (quarantineBay n s).feed.queue = s.feed.queue := congrArg Feeding.queue bay
    rw [bay, queue]
    rfl
  case h_2 => split <;> rfl

/-- And leaves it where the pack was not QUEUED. -/
theorem idle_quarantinePlace {h : Handle} {p : Pack} {s : State} (idle : p.state ≠ .queued) :
    (quarantinePlace h p s).feed.queue = s.feed.queue ∧ (quarantinePlace h p s).waits = s.waits := by
  unfold quarantinePlace
  split
  case h_1 n _ =>
    have bay := lessBays_quarantineBay n s
    exact ⟨congrArg Feeding.queue (feeding_of_lessBays bay), waits_of_lessBays bay⟩
  case h_2 =>
    rw [if_neg idle]
    exact ⟨rfl, rfl⟩

/-- A pack quarantined by request, and out of the queue where it was in it (R11, R116). -/
theorem feeds_quarantinePlace {h : Handle} {p : Pack} {s : State} (f : s.lookup h = some p)
    (live : p.state.terminal = false) (unfed : p.state ≠ .feeding) (unheld : p.state ≠ .quarantined) :
    Feeds s (quarantinePlace h p (quarantinePack h.index .operator s)) := by
  have stood := pack_of_lookup f
  have kept : Keeps s (quarantinePlace h p (quarantinePack h.index .operator s)) := .of_clauses fun c =>
    (keeps_quarantinePack stood live (fun hl => (lockState_of_placed (c.placed _ p stood) hl).elim unfed unheld) _).trans
      (keeps_quarantinePlace ..)
  have feeding : (quarantinePack h.index .operator s).feeding = s.feeding :=
    feeding_of_lessPacks (lessPacks_quarantinePack ..)
  have queue : (quarantinePack h.index .operator s).feed.queue = s.feed.queue := congrArg Feeding.queue feeding
  have waits : (quarantinePack h.index .operator s).waits = Function.update s.waits h.index none := by
    rw [quarantinePack_eq stood unheld, waits_transition_eq]
    exact congrArg (Function.update s.waits h.index) (Rec.waits_of_state nofun)
  refine feeds_requeued kept (feeding ▸ feeding_quarantinePlace h p _) fun _ lock c q => ?_
  by_cases queued : p.state = .queued
  · have hl := queued_in_buffer (c.placed _ p stood) queued
    have place : quarantinePlace h p (quarantinePack h.index .operator s) = unqueue h (quarantinePack h.index .operator s) := by
      simp only [quarantinePlace, hl, queued, if_true, unqueue]
    rw [place] at lock ⊢
    exact q.leave (gen_of_lookup f) (congrArg (List.filter (· != h)) queue) (lock ▸ id) waits
  · obtain ⟨same, still⟩ := idle_quarantinePlace (h := h) (s := quarantinePack h.index .operator s) queued
    refine q.same (same.trans queue) (lock ▸ id) (still.trans (waits.trans ?_))
    rw [← waits_idle stood queued, Function.update_eq_self]

theorem feeds_quarantine (index gen : Nat) (s : State) : FeedsReply s (quarantineReply index gen s) := by
  refine .withPack fun h p f => ?_
  split
  case h_5 unfed unshredded unwithdrawn unheld =>
    exact .reply _ (feeds_quarantinePlace f ((not_terminal_iff _).2 ⟨unshredded, unwithdrawn⟩) unfed unheld)
  all_goals exact ⟨.refl s⟩

/-! ### Lot Table -/

theorem feeds_openLot (number : Nat) (s : State) : FeedsReply s (openLotReply number s) := by
  refine .check fun _ => .check fun _ => ?_
  split
  · exact .refuse ..
  case h_2 j lowest =>
    have free : s.lotAt j = none := by simpa using List.find?_some lowest
    exact .reply _ ((feeds_setLot (keeps_openLot number free)).before (still_notify ..))

theorem feeds_drainLot {j : Fin 8} {l : Lot} {s : State} (used : s.lotAt j = some l) : Feeds s (drainLot j l s) := by
  refine .trans (.before ?_ (still_notify ..)) (feeds_testClosing ..)
  exact feeds_setLot (keeps_setLot used rfl nofun)

theorem feeds_closeLotReply (lot : Nat) (s : State) : FeedsReply s (closeLotReply lot s) := by
  refine .withLot fun j => ?_
  split
  · exact .refuse ..
  · exact .check fun _ => .reply _ (feeds_drainLot ‹_›)

/-- No record of a CLOSED lot holds a QUEUED pack (R16). -/
theorem waits_freed {j : Fin 8} {l : Lot} {s t : State} (c : SiteClauses s) (used : s.lotAt j = some l)
    (closed : l.state = .closed) (packs : t.packs = freeRecords j s.packs) : t.waits = s.waits := by
  funext i
  have record : t.record i = if (s.record i).ofLot j then (s.record i).freed else s.record i := by
    rw [State.record, packs, freeRecords, vget_vmap]
    rfl
  rw [State.waits, State.waits, record]
  split
  case isFalse => rfl
  case isTrue mine =>
    obtain ⟨p, f, lot⟩ := (Option.any_eq_true _ _).1 mine
    have ended := c.closed i p l f (by rw [beq_iff_eq.1 lot]; exact used) closed
    have idle : p.state ≠ .queued := fun e => by
      rw [e] at ended
      exact nomatch ended
    exact (waits_idle f idle).symm

theorem feeds_releaseLot (lot : Nat) (s : State) : FeedsReply s (releaseLotReply lot s) := by
  refine .withLot fun j => ?_
  split
  · exact .refuse ..
  case h_2 l used =>
    refine .check fun closed => .reply _ (.before ?_ (still_notify ..))
    have closed := not_not.1 closed
    refine .same ?_ rfl fun c => waits_freed c used closed rfl
    exact keeps_releaseLot used closed rfl rfl (fun _ => rfl) rfl fun k => by
      simp only [State.lotAt, State.setLot, vget_vset]

theorem feeds_finalWeight (j : Fin 8) (s : State) : Feeds s (finalWeight j s) := by
  have marked : (s.setLot j ((s.lotAt j).map fun l => { l with final := true })).site = s.site :=
    site_setLot (by cases s.lotAt j <;> rfl)
  exact ((feeds_setLot (.of_site marked)).trans (feeds_setShred ..)).trans (feeds_testClosing ..)

theorem feeds_outputWeight (lot mass final : Nat) (s : State) : FeedsReply s (outputWeightReply lot mass final s) := by
  unfold outputWeightReply
  split
  · refine .check fun _ => ?_
    split
    · exact .refuse ..
    case h_2 l used =>
      refine .check fun _ => .check fun _ => .check fun _ => .check fun _ => .reply _ ?_
      refine .onlyIf (feeds_setLot (.of_site (site_setLot ?_))) (feeds_finalWeight _)
      rw [used]
      rfl
  · exact .refuse ..

theorem feeds_switch (lot : Nat) (s : State) : FeedsReply s (switchReply lot s) := by
  refine .withLot fun j => .check fun _ => .check fun _ => ?_
  split
  · exact .refuse ..
  · refine .check fun _ => .ite (fun _ => .reply _ (.refl s)) fun _ => ?_
    split <;> exact .reply _ (feeds_setShred ..)

theorem feeds_cancel (s : State) : FeedsReply s (cancelReply s) := .check fun _ => .reply _ (feeds_setShred ..)

theorem feeds_chamberClear (s : State) : FeedsReply s (chamberClearReply s) := by
  unfold chamberClearReply
  split
  · exact .refuse ..
  · exact .ite (fun _ => .reply _ (.refl s)) fun _ =>
      .ite (fun _ => .reply _ (feeds_setShred ..)) fun _ => .reply _ (feeds_setShred ..)

theorem feeds_bounds (low high : Nat) (s : State) : FeedsReply s (boundsReply low high s) :=
  .check fun _ => .still _ ⟨rfl, rfl⟩

/-! ### Feed Controller -/

/-- Recheck required is set on a pack in its state (R12, R114). -/
theorem feeds_refuseRecheck {h : Handle} {p : Pack} {s : State} (f : s.lookup h = some p)
    (kept : Keeps s (s.setPack h.index (some { p with recheck := true }))) : FeedsReply s (refuseRecheck h.index p s) :=
  ⟨.same kept rfl fun _ => waits_of_state rfl (pack_of_lookup f) rfl⟩

theorem feeds_enqueue (index gen : Nat) (s : State) : FeedsReply s (enqueueReply index gen s) := by
  refine .withPack fun h p f => ?_
  split
  · exact .refuse ..
  case h_2 n done =>
    obtain ⟨hs, hl⟩ := discharged_of_doneBay done
    refine .ite (fun _ => feeds_refuseRecheck f (keeps_recheck (pack_of_lookup f) ?_ ?_)) fun _ => .check fun room =>
      .check fun free => .reply _ ?_
    · rw [hs]; rfl
    · rw [hl]; exact nofun
    · exact feeds_enqueueState f done (Nat.not_le.1 room) (calm_of_passed free)

theorem feeds_remove (index gen dest : Nat) (s : State) : FeedsReply s (removeReply index gen dest s) := by
  unfold removeReply
  split
  · exact .refuse ..
  · refine .withPack fun h p f => .check fun queued => ?_
    have queued := not_not.1 queued
    split
    · exact .check fun empty => .check fun free =>
        .reply _ (feeds_removeToBay f queued (not_not.1 empty) (calm_of_passed free))
    · exact .check fun free => .reply _ (feeds_removeToStore f queued (calm_of_passed free))

theorem feeds_feed (index gen : Nat) (s : State) : FeedsReply s (feedReply index gen s) := by
  refine .withPack fun h p f => .check fun head => .check fun empty => .check fun _ => .check fun _ =>
    .check fun permit => .ite (fun _ => feeds_refuseRecheck f (.of_clauses fun c => ?_)) fun _ => .check fun free =>
      .reply _ ?_
  all_goals
    obtain ⟨queued, head⟩ := not_or.1 head
    have queued := not_not.1 queued
  · have hl := queued_in_buffer (c.placed _ p (pack_of_lookup f)) queued
    exact keeps_recheck (pack_of_lookup f) (by rw [queued]; rfl) (by rw [hl]; exact nofun)
  · exact feeds_feedState f queued (not_not.1 head) (not_not.1 empty) (by simpa using permit) (calm_of_passed free)

theorem feeds_lockClosed (s : State) : FeedsReply s (lockClosedReply s) := by
  refine .ite (fun ⟨loading, forward⟩ => .reply _ (feeds_setLock (.of_site (site_setLock ?_)) (fun law _ => ?_) id))
    fun _ => .refuse ..
  · exact Lock.kind_moved rfl (by rw [loading]; decide) (by simp)
  · exact law.moves (by simp [State.feeding, Lock.bare, Lock.movesByPermit, loading, forward])

/-- The lock on its way back, a place of the queue reserved for its pack (R111, R124). -/
theorem feeds_turnedBack {s : State} (moving : s.feed.lock.state ≠ .empty ∧ s.feed.lock.state ≠ .blocked)
    (room : s.feed.queue.length < 6) :
    Feeds s (setLock { s.feed.lock with state := .loading, returning := true, purgeTimer := none } s) := by
  refine .of_aftermath (aftermath_setLock ..) (core_setLock ..) (.of_site (site_setLock ?_)) (fun law => ?_) fun _ q => ?_
  · exact Lock.kind_moved rfl moving (by simp)
  · rw [feeding_setLock]
    exact law.locked nofun
  · refine ⟨?_, ?_, ?_⟩
    · rw [setLock_feed]
      exact room
    · rw [setLock_feed]
      exact q.nodup
    · rw [setLock_feed, waits_setLock]
      exact q.waiting

theorem feeds_return (index gen : Nat) (s : State) : FeedsReply s (returnReply index gen s) := by
  refine .withPack fun h p f => .check fun _ => .check fun lets => .check fun room => .check fun _ => .reply _ ?_
  obtain ⟨state, _, _⟩ := (returnable_iff _).1 (by simpa using lets)
  refine feeds_turnedBack ?_ (Nat.not_le.1 room)
  obtain e | e | e := state <;> rw [e] <;> decide

theorem feeds_dropDone (index gen : Nat) (s : State) : FeedsReply s (dropDoneReply index gen s) :=
  .withPack fun _ _ f => .check fun dropping => .reply _ (feeds_dropState f (not_not.1 (not_or.1 dropping).1))

theorem lockPack_eq_some {s : State} {h : Handle} {p : Pack} (found : lockPack s = some (h, p)) :
    s.feed.lock.occupant = some h ∧ s.lookup h = some p := by
  unfold lockPack at found
  split at found
  · exact nomatch found
  case h_2 k occ =>
    obtain ⟨q, f, e⟩ := Option.map_eq_some_iff.1 found
    cases e
    exact ⟨occ, f⟩

theorem feeds_lockEmptied (s : State) : FeedsReply s (lockEmptiedReply s) := by
  unfold lockEmptiedReply
  dsimp only
  split
  · exact .refuse ..
  case h_2 h p found =>
    obtain ⟨occ, f⟩ := lockPack_eq_some found
    have stands : SiteClauses s → p.loc = .feedLock ∧ p.state = s.feed.lock.packState := fun c => by
      obtain ⟨q, g, hl, hs⟩ := lock_stands c occ
      rw [f] at g
      cases g
      exact ⟨hl, hs⟩
    refine .ite (fun ⟨inward, returning⟩ => .reply _ (feeds_requeue (.of_clauses fun c => ?_) f occ returning)) fun _ =>
      .ite (fun blocked => .reply _ (feeds_emptyBlocked (.of_clauses fun c => ?_) f)) fun _ => .refuse ..
    · obtain ⟨hl, hs⟩ := stands c
      have notBlocked : s.feed.lock.state ≠ .blocked := by obtain e | e := inward <;> rw [e] <;> decide
      refine keeps_takenBack f hl ?_
      rw [hs, Lock.packState, if_neg notBlocked]
      rfl
    · obtain ⟨hl, hs⟩ := stands c
      exact keeps_stowed f hl (by rw [hs, Lock.packState, if_pos blocked])

theorem feeds_writeFeed (seconds : Nat) (s : State) : FeedsReply s (writeFeedReply seconds s) := .still _ ⟨rfl, rfl⟩

end Sys2Proof.Machine
end

