-- ==== Sys2Proof/Proofs/FeedBays.lean ====
section
/-! PROOFS, layer 15 continued. The requests of the bays, LINE_RESTART, and a request served: the laws of the shred permit and
of the shred queue after them (R47, R190). -/

open Sys2Proof Sys2Proof.Machine

namespace Sys2Proof.Machine

/-! ### Bays -/

theorem feeds_stopLoad (n : Fin 8) (s : State) : Feeds s (stopLoad n s) := .bays (keeps_stopLoad n s) (lessBays_stopLoad ..)

theorem feeds_faultBay (n : Fin 8) (cause : FaultCause) (s : State) : Feeds s (faultBay n cause s) :=
  .bays (keeps_faultBay ..) (lessBays_faultBay ..)

theorem feeds_takeBoundary (n : Fin 8) (s : State) : Feeds s (takeBoundary n s) :=
  .bays (.of_site (site_takeBoundary n s)) (lessBays_takeBoundary ..)

/-- An occupant changed to another pack of the bay. -/
theorem feeds_onOccupant {n : Fin 8} {f : Pack → Pack} {s : State} (kept : Keeps s (onOccupant n f s))
    (hf : ∀ p, p.state ≠ .queued → (f p).state ≠ .queued) : Feeds s (onOccupant n f s) :=
  .same kept (feeding_of_lessPacks (lessPacks_onOccupant ..)) fun c => waits_onOccupant c hf

theorem feeds_occupantState {n : Fin 8} {s : State} (st : PackState) (hs : st = .loaded ∨ st = .discharging ∨
    st = .resting ∨ st = .discharged ∨ st = .quarantined) : Feeds s (onOccupant n (fun p => { p with state := st }) s) := by
  refine feeds_onOccupant (keeps_occupantState st hs) fun p _ => ?_
  obtain e | e | e | e | e := hs <;> rw [e] <;> exact nofun

theorem feeds_bayReady {n : Fin 8} {s t : State} (k : Feeds s t) : FeedsReply s (bayReady n s t) :=
  .check fun _ => .check fun _ => .reply _ k

theorem feeds_startRecheck (n : Fin 8) (s : State) : Feeds s (startRecheck n s) := by
  refine .trans (feeds_occupantState (n := n) .resting (by simp)) (feeds_putBay ?_ ?_)
  · rfl
  · exact nofun

theorem feeds_startDischarge (n : Fin 8) (s : State) : Feeds s (startDischarge n s) :=
  .trans (feeds_occupantState (n := n) .discharging (by simp)) (feeds_enterDischarging ..)

theorem feeds_start (bay : Nat) (s : State) : FeedsReply s (startReply bay s) :=
  .withBay fun n => .check fun _ => feeds_bayReady (.ite (fun _ => feeds_startRecheck n s) fun _ => feeds_startDischarge n s)

theorem feeds_pause (bay : Nat) (s : State) : FeedsReply s (pauseReply bay s) :=
  .withBay fun _ => .check fun _ => .reply _ (feeds_pauseBay ..)

theorem feeds_resumeState (n : Fin 8) (s : State) : Feeds s (resumeState n s) :=
  .onlyIf (feeds_enterDischarging ..) fun t => feeds_takeBoundary n t

theorem feeds_resume (bay : Nat) (s : State) : FeedsReply s (resumeReply bay s) :=
  .withBay fun n => .check fun _ => feeds_bayReady (feeds_resumeState n s)

theorem feeds_abortState (n : Fin 8) (s : State) : Feeds s (abortState n s) := by
  refine .trans (.trans (feeds_occupantState (n := n) .loaded (by simp)) (feeds_stopLoad ..)) (feeds_putBay ?_ ?_)
  · rfl
  · exact nofun

theorem feeds_abort (bay : Nat) (s : State) : FeedsReply s (abortReply bay s) :=
  .withBay fun n => .check fun _ => .reply _ (feeds_abortState n s)

theorem lessBays_writeSlotState (n : Fin 8) (sl : SlotName) (x : Slot) (s : State) :
    (writeSlotState n sl x s).lessBays = s.lessBays := by
  unfold writeSlotState
  extract_lets b s1
  split
  · rfl
  · split
    · rfl
    · split
      · exact (lessBays_takeBoundary ..).trans (lessBays_followSlot ..)
      · exact lessBays_followSlot ..

theorem feeds_writeSlot (bay slot current stop segment : Nat) (s : State) :
    FeedsReply s (writeSlotReply bay slot current stop segment s) := by
  unfold writeSlotReply
  split
  · exact .check fun _ => .check fun _ => .reply _ (.bays (.of_site (site_writeSlotState ..)) (lessBays_writeSlotState ..))
  · exact .refuse ..

theorem lessBays_clearBayState (n : Fin 8) (s : State) : (clearBayState n s).lessBays = s.lessBays := by
  unfold clearBayState
  split
  · exact lessBays_putBay ..
  · exact lessBays_emptyBay ..

theorem feeds_clearBay (bay : Nat) (s : State) : FeedsReply s (clearBayReply bay s) :=
  .withBay fun _ => .check fun _ => .check fun _ => .reply _ (.bays (keeps_clearBayState ..) (lessBays_clearBayState ..))

/-! ### LINE_RESTART -/

/-- An occupant asked to be checked again keeps its state (R25, R75). -/
theorem feeds_recheckOccupant {n : Fin 8} {s : State} {i : Fin 256} {p : Pack} (occ : s.occupantPack n = some (i, p)) :
    Feeds s (s.setPack i (some { p with recheck := true })) := by
  obtain ⟨_, f⟩ := occupantPack_eq_some.1 occ
  exact .same (keeps_recheckOccupant occ) rfl fun _ => waits_of_state rfl f rfl

theorem feeds_restartPack {n : Fin 8} {s : State} {i : Fin 256} {p : Pack} (occ : s.occupantPack n = some (i, p)) :
    Feeds s (restartPack i p s) := by
  unfold restartPack
  split
  · exact feeds_occupant occ rfl rfl (by simp)
  · exact feeds_occupant occ rfl rfl (by simp)
  · exact feeds_recheckOccupant occ
  · exact .refl s

theorem feeds_restartBay (n : Fin 8) (s : State) : Feeds s (restartBay n s) := by
  unfold restartBay
  split
  case h_1 free => exact .ite (fun _ => .bays (keeps_emptyBay free) (lessBays_emptyBay ..)) fun _ => .refl s
  case h_2 i p occ =>
    refine .ite (fun _ => .still (still_setBay rfl)) fun _ => ?_
    refine .trans (.trans (feeds_restartPack occ) (feeds_stopLoad n _)) (feeds_putBay ?_ ?_)
    · rfl
    · exact bayStateOf_ne_empty _

/-- A lock that does not work moves no pack (R131). -/
theorem feeds_restartLock (s : State) : Feeds s (restartLock s) := by
  refine .ite (fun working => feeds_blockLock working ..) fun idle => ?_
  refine feeds_setLock (.of_site (site_setLock rfl)) (fun _ moves => absurd ?_ idle) nofun
  obtain ⟨filled, unblocked⟩ := Lock.moving_of_movesByPermit moves
  exact (Bool.and_eq_true _ _).mpr ⟨bne_iff_ne.2 filled, bne_iff_ne.2 unblocked⟩

/-- The monitor VENTED and the Feed Controller told, the permit not yet evaluated (R107, R190). -/
theorem restartMonitor_feeding (s : State) : (restartMonitor s).feeding = s.feeding ∨ (restartMonitor s).feeding =
    { s.feeding with inputs := s.feed.inputs.inerted .vented, owned := s.owned.inerted .vented } := by
  unfold restartMonitor
  split
  case h_4 => exact .inl rfl
  all_goals exact .inr ((still_notify ..).feeding.trans rfl)

theorem geared_restartMonitor {s : State} (geared : s.feeding.Geared) : (restartMonitor s).feeding.Geared := by
  obtain e | e := restartMonitor_feeding s
  · rwa [e]
  · rw [e]
    exact ⟨geared.output, geared.upper, geared.lower, geared.moves⟩

theorem told_restartMonitor {s : State} (told : s.feed.inputs = s.owned) :
    (restartMonitor s).feed.inputs = (restartMonitor s).owned := by
  obtain e | e := restartMonitor_feeding s
  all_goals
    have both := congrArg (fun v : Feeding => (v.inputs, v.owned)) e
    simp only [State.feeding, Prod.mk.injEq] at both
    rw [both.1, both.2, told]

theorem queued_restartMonitor {s : State} (q : s.Queued) : (restartMonitor s).Queued := by
  have waits := waits_of_site (site_restartMonitor s)
  obtain e | e := restartMonitor_feeding s
  all_goals
    have lock : (restartMonitor s).feed.lock.returning = s.feed.lock.returning :=
      congrArg (fun v : Feeding => v.lock.returning) e
    exact q.same (congrArg Feeding.queue e :) (lock ▸ id) waits

theorem geared_setShred {s : State} (geared : s.feeding.Geared) (shred : Option (Fin 8)) (sw : Option Switch) :
    (setShred shred sw s).feeding.Geared := by
  unfold setShred
  split
  · exact geared
  · rw [(still_notify ..).feeding]
    unfold deliverShred
    dsimp only
    split
    · exact ⟨geared.output, geared.upper, geared.lower, geared.moves⟩
    · refine (lawful_evalPermit ?_).toGeared
      exact ⟨geared.output, geared.upper, geared.lower, geared.moves⟩

theorem run_restartMonitor (s : State) : (restartMonitor s).run = s.run := by
  obtain e | e := restartMonitor_feeding s
  · exact congrArg Feeding.run e
  · exact congrArg Feeding.run e

/-- The evaluation of the permit makes good what the monitor's restart leaves open (R109, R190). -/
theorem feeds_restartEnd (s : State) : Feeds s (evalPermit (endSwitch (restartMonitor s))) := by
  have vented : Keeps s (restartMonitor s) := .of_site (site_restartMonitor s)
  have ended : Feeds (restartMonitor s) (endSwitch (restartMonitor s)) := feeds_setShred ..
  have judged : Feeds (restartMonitor s) (evalPermit (endSwitch (restartMonitor s))) := ended.trans (feeds_evalPermit _)
  refine ⟨⟨vented.trans judged.kept, judged.run.trans (run_restartMonitor s), fun law => ?_, fun c q => ?_⟩,
    fun told => judged.told (told_restartMonitor told)⟩
  · exact lawful_evalPermit (geared_setShred (geared_restartMonitor law.toGeared) ..)
  · exact judged.queue (vented.laws c).1 (queued_restartMonitor q)

/-- Every block restarted, then one evaluation of the permit (R190). -/
theorem feeds_restartLine (s : State) : Feeds s (restartLine s) :=
  ((Feeds.foldl (fun t n => feeds_restartBay n t) eight s).trans (feeds_restartLock _)).trans (feeds_restartEnd _)

theorem feeds_lineRestart (target : Nat) (s : State) : FeedsReply s (lineRestartReply target s) :=
  .check fun _ => .reply _ (feeds_restartLine s)

/-! ### A request served -/

theorem feeds_takeRequest {p : Port} {f : Frame} {owner : State → Reply} (h : ∀ s, FeedsReply s (owner s))
    (s : State) : Feeds s (takeRequest p f owner s) := by
  have served : ∀ r, FeedsReply (touchPort p s) r → Feeds s (respond p f r) := fun _ k =>
    .before ((feeds_touchPort p s).trans k.feeds) (still_setPort rfl)
  exact served _ (.ite (fun _ => h _) fun _ => .refuse ..)

theorem feeds_serve {p : Port} {f : Frame} {owner : State → Reply} (h : ∀ s, FeedsReply s (owner s)) (s : State) :
    Feeds s (serve p f owner s) := by
  refine .ite (fun _ => .refl s) fun _ => ?_
  split
  · exact .ite (fun _ => .refl s) fun _ => feeds_takeRequest h s
  · exact .ite (fun _ => .after (feeds_takeRequest h _) (still_setPort rfl)) fun _ => feeds_receiveFrame ..

end Sys2Proof.Machine
end

