-- ==== Sys2Proof/Proofs/FeedEvents.lean ====
section
/-! PROOFS, layer 15 continued. Samples, timers, detectors, read-backs and the station links: the laws of the shred permit and
of the shred queue after them (R58, R61, R75, R128, R199). -/

open Sys2Proof Sys2Proof.Machine

namespace Sys2Proof.Machine

/-! ### Samples and the bays' timers -/

theorem feeds_quarantineOccupant (n : Fin 8) (cause : QuarantineCause) (s : State) :
    Feeds s (quarantineOccupant n cause s) := by
  refine .same (keeps_quarantineOccupant ..) ?_ fun c => ?_
  · unfold quarantineOccupant
    split
    · rfl
    · exact feeding_of_lessPacks (lessPacks_quarantinePack ..)
  · unfold quarantineOccupant
    split
    · rfl
    case h_2 occ => exact waits_quarantinePack (waits_in_bay c occ) _

theorem feeds_reloadOccupant (n : Fin 8) (s : State) : Feeds s (reloadOccupant n s) := by
  refine feeds_onOccupant (keeps_reloadOccupant n s) fun p idle => ?_
  split
  · exact idle
  · exact nofun

theorem feeds_sampleFault {n : Fin 8} {pack : State → State} {s : State} (cause : FaultCause) (code : Code)
    (detail : Nat) (h : Feeds s (pack s)) : Feeds s (sampleFault n cause pack code detail s) :=
  (h.trans (feeds_faultBay ..)).trans (feeds_post ..)

theorem feeds_stopReached (n : Fin 8) (s : State) : Feeds s (stopReached n s) := by
  refine .trans (.trans (feeds_occupantState (n := n) .resting (by simp)) ?_) (feeds_putBay ?_ ?_)
  · refine .after (feeds_stopLoad n _) (still_setBay (n := n) ?_)
    unfold Bay.swapSlot
    split <;> rfl
  · rfl
  · exact nofun

theorem feeds_dischargeChecks (n : Fin 8) (p : Pack) (x : Sample) (s : State) : Feeds s (dischargeChecks n p x s) :=
  .ite (fun _ => feeds_sampleFault _ _ _ (feeds_quarantineOccupant ..)) fun _ =>
    .ite (fun _ => feeds_sampleFault _ _ _ (feeds_quarantineOccupant ..)) fun _ =>
      .ite (fun _ => feeds_sampleFault _ _ _ (feeds_reloadOccupant ..)) fun _ =>
        .ite (fun _ => feeds_stopReached n s) fun _ => .refl s

theorem feeds_restChecks (n : Fin 8) (p : Pack) (x : Sample) (s : State) : Feeds s (restChecks n p x s) :=
  .ite (fun _ => feeds_sampleFault _ _ _ (feeds_quarantineOccupant ..)) fun _ =>
    .ite (fun _ => feeds_sampleFault _ _ _ (feeds_quarantineOccupant ..)) fun _ =>
      .ite (fun _ => feeds_runCheck n s) fun _ => .refl s

theorem feeds_sampleChecks (n : Fin 8) (x : Sample) (s : State) : Feeds s (sampleChecks n x s) := by
  unfold sampleChecks
  split
  · exact .refl s
  · split
    · exact feeds_dischargeChecks ..
    · exact feeds_restChecks ..
    · exact feeds_restChecks ..
    · exact .refl s

/-- The energy booked reaches the bay's zone (R87). -/
theorem feeds_integrateSample (n : Fin 8) (v : Nat) (i : Int) (interval : Nat) (k : SeqClass) (s : State) :
    Feeds s (integrateSample n v i interval k s) := by
  unfold integrateSample
  split
  · exact .refl s
  case h_2 j p occ =>
    obtain ⟨_, f⟩ := occupantPack_eq_some.1 occ
    refine .trans ?_ (feeds_deliverPlaces ..)
    refine .same (keeps_storeOccupant occ rfl rfl rfl) ?_ fun _ => ?_
    · exact feeding_of_lessPacks (lessPacks_storePack ..)
    · exact waits_of_state (congrArg State.packs (storePack_eq ..)) f rfl

theorem still_tallyBay (n : Fin 8) (f : Tally → Tally) (s : State) : Still s (tallyBay n f s) := still_setBay rfl

theorem feeds_acceptSample (n : Fin 8) (k : SeqClass) (q : Nat) (x : Sample) (interval : Nat) (s : State) :
    Feeds s (acceptSample n k q x interval s) := by
  unfold acceptSample
  extract_lets run _ s1 s2 _ s3
  have counted : Feeds s s1 := .still (still_setBay rfl)
  have integrated : Feeds s s2 := counted.onlyIf (feeds_integrateSample n x.voltage x.current interval k)
  have sampled : Feeds s s3 := integrated.before (still_setBay rfl)
  exact (sampled.trans (feeds_sampleChecks ..)).before (still_tallyBay ..)

theorem feeds_takeSample (address q v : Nat) (i t : Int) (interval : Nat) (s : State) :
    Feeds s (takeSample address q v i t interval s) := by
  unfold takeSample
  split
  · exact .refl s
  · refine .ite (fun _ => .refl s) fun _ => .ite (fun _ => .still (still_tallyBay ..)) fun _ => ?_
    split
    · exact .still (still_tallyBay ..)
    · exact .still (still_tallyBay ..)
    · exact feeds_acceptSample ..

theorem feeds_sampleLost (n : Fin 8) (s : State) : Feeds s (sampleLost n s) := (feeds_pauseBay ..).trans (feeds_post ..)

theorem feeds_endRest (n : Fin 8) (s : State) : Feeds s (endRest n s) := .after (feeds_runCheck n _) (still_setBay rfl)

theorem still_dropReference (n : Fin 8) (s : State) : Still s (dropReference n s) := still_setBay rfl

/-! ### The field link -/

theorem still_transmitLoadSet (s : State) : Still s (transmitLoadSet s) := by
  unfold transmitLoadSet
  split <;> exact ⟨rfl, rfl⟩

theorem still_refreshBay (n : Fin 8) (s : State) : Still s (refreshBay n s) := by
  unfold refreshBay
  split
  · dsimp only
    split <;> exact ⟨rfl, rfl⟩
  · exact .refl s

theorem feeds_onFieldLink {f : State → State} (h : ∀ s, Feeds s (f s)) (s : State) : Feeds s (onFieldLink f s) :=
  .ite (fun _ => .refl s) fun _ => h s

theorem still_setReceiver (r : Receiver) (s : State) : Still s { s with link.receiver := r } := ⟨rfl, rfl⟩

/-! ### Analyzers and detectors -/

theorem feeds_judgeDiscrepancy (s : State) : Feeds s (judgeDiscrepancy s) :=
  .ite (fun _ => .refl s) fun _ => .ite (fun _ => .still (still_atmosphere rfl)) fun _ => .ite (fun _ => .refl s) fun _ =>
    .after (feeds_post ..) (still_atmosphere rfl)

theorem feeds_judgeLoss (k : AnalyzerId) (before : Nat) (s : State) : Feeds s (judgeLoss k before s) :=
  .ite (fun _ => feeds_post ..) fun _ => .refl s

theorem still_setAnalyzer (k : AnalyzerId) (x : Analyzer) (s : State) : Still s { s with atm := s.atm.setAnalyzer k x } :=
  still_atmosphere (by cases k <;> rfl)

theorem feeds_analyzerEvent (k : AnalyzerId) (x : Analyzer) (s : State) : Feeds s (analyzerEvent k x s) := by
  have judged : Feeds s (analyzerJudged k x s) :=
    ((Feeds.still (still_setAnalyzer k x s)).trans (feeds_judgeDiscrepancy _)).trans (feeds_judgeLoss ..)
  have measured : Feeds s (analyzerMeasured k x s) := judged.before (still_atmosphere rfl)
  rw [analyzerEvent_eq]
  exact measured.trans (feeds_evalInert _)

theorem feeds_takeReading (address oxygen status : Nat) (s : State) : Feeds s (takeReading address oxygen status s) := by
  unfold takeReading
  split
  · exact .ite (fun _ => .refl s) fun _ => feeds_analyzerEvent ..
  · exact .refl s

theorem feeds_handToZone (d : Fin 24) (s : State) : Feeds s (handToZone d s) := by
  unfold handToZone
  split
  · exact .refl s
  · exact feeds_evalZone ..

theorem feeds_changeDetector (d : Fin 24) (x : Detector) (s : State) : Feeds s (changeDetector d x s) := by
  refine .after (u := s.setDetector d x) (.ite (fun _ => .refl _) fun _ => .trans ?_ (feeds_handToZone d _))
    (still_setDetector ..)
  refine .ite (fun _ => .before (feeds_post ..) (still_notify ..)) fun _ => ?_
  exact .ite (fun _ => .still (still_notify ..)) fun _ => .refl _

theorem feeds_takeLine (d : Fin 24) (l : LineState) (s : State) : Feeds s (takeLine d l s) :=
  .ite (fun _ => .refl s) fun _ => feeds_changeDetector ..

/-- The lower gate opens for a lock that has been purging under the permit (R121). -/
theorem feeds_openLower {s : State} (due : lockPurgeDue s = true) : Feeds s (openLower s) := by
  refine feeds_setLock (.of_site (site_openLower due)) (fun law _ => law.moves ?_) id
  simp only [lockPurgeDue, Bool.and_eq_true, beq_iff_eq] at due
  simp [State.feeding, Lock.bare, Lock.movesByPermit, due.1]

/-! ### Read-backs -/

theorem feeds_handReadback (o : Output) (level : Bool) (s : State) : Feeds s (handReadback o level s) := by
  unfold handReadback
  split
  · exact .ite (fun _ => .still (still_setBay rfl)) fun _ => .refl s
  · exact .refl s

theorem feeds_takeReadback (o : Output) (level : Bool) (s : State) : Feeds s (takeReadback o level s) :=
  .ite (fun _ => .refl s) fun _ =>
    .after (feeds_handReadback ..) (still_setSup (Supervision.onReadback_command ..))

theorem feeds_stuckPack (n : Fin 8) (s : State) : Feeds s (stuckPack n s) := by
  unfold stuckPack
  split
  · exact .refl s
  case h_2 i p occ =>
    split
    · exact feeds_occupant (o := p) occ rfl rfl (by simp)
    · exact feeds_occupant (o := p) occ rfl rfl (by simp)
    · exact feeds_recheckOccupant occ
    · exact .refl s

theorem feeds_mismatchOwner (o : Output) (s : State) : Feeds s (mismatchOwner o s) := by
  cases o with
  | contactor n => exact .ite (fun _ => feeds_pauseBay ..) fun _ => (feeds_stuckPack n s).trans (feeds_faultBay ..)
  | _ => exact .refl s

theorem feeds_mismatchAfter (o : Output) (s : State) : Feeds s (mismatchAfter o s) := by
  cases o with
  | permit => exact feeds_evalPermit s
  | upperGate => exact feeds_evalPermit s
  | lowerGate =>
    exact .ite (fun working => (feeds_evalPermit s).trans (feeds_blockLock working ..)) fun _ => feeds_evalPermit s
  | _ => exact .refl s

/-- A mismatch of an output, with what it brings about (R75, R128, R199). -/
theorem feeds_reportMismatch (o : Output) (s : State) : Feeds s (reportMismatch o s) := by
  rw [reportMismatch_eq]
  exact ((feeds_mismatchOwner o s).trans (feeds_post ..)).trans (feeds_mismatchAfter ..)

theorem feeds_endWindow (o : Output) (s : State) : Feeds s (endWindow o s) :=
  .ite (fun _ => .still (still_setSup rfl)) fun _ => .after (feeds_reportMismatch ..) (still_setSup rfl)

theorem feeds_endDisagreement (o : Output) (s : State) : Feeds s (endDisagreement o s) :=
  .after (feeds_reportMismatch ..) (still_setSup rfl)

/-! ### Station links and time -/

theorem feeds_takeDiscard (p : Port) (why : FrameFault) (s : State) : Feeds s (takeDiscard p why s) := by
  refine .ite (fun _ => .refl s) fun _ => ?_
  cases why with
  | overrun => exact .ite (fun _ => .refl s) fun _ => (feeds_touchPort p s).trans (feeds_discardFrame ..)
  | _ => exact feeds_discardFrame ..

theorem feeds_unreadReply (p : Port) (f : Frame) (s : State) : Feeds s (respond p f (unreadReply p f s)) := by
  refine .before ?_ (still_setPort rfl)
  unfold unreadReply
  split <;> exact .refl s

theorem feeds_answerUnread (p : Port) (s : State) : Feeds s (answerUnread p s) := by
  unfold answerUnread
  split
  · exact .refl s
  · split
    · exact .refl s
    · refine .trans ?_ (feeds_unreadReply ..)
      exact .after (feeds_touchPort ..) (still_setPort rfl)

/-- A millisecond moves timers alone. -/
theorem still_advance (s : State) : Still s (advance s) := by
  refine ⟨site_advance s, ?_⟩
  have zones : ∀ z, ((advance s).zone z).state = (s.zone z).state := fun z =>
    (congrArg Zone.state (vget_vmap ..)).trans (Zone.tick_state _)
  simp only [State.feeding, State.owned, zones]
  rfl

theorem feeds_tick (s : State) : Feeds s (tick s) := by
  have answered := Feeds.foldl (fun t p => feeds_answerUnread p t) allPorts (advance s)
  exact .ite (fun _ => (answered.after (still_advance s)).before ⟨rfl, rfl⟩) fun _ => .refl s

end Sys2Proof.Machine
end

