-- ==== Sys2Proof/Proofs/FeedLaws.lean ====
section
/-! PROOFS: the shred permit is on exactly under its condition, and the shred queue holds exactly the QUEUED packs, after every
command and every millisecond (R108, R109, R111, R117, R122). -/

open Sys2Proof Sys2Proof.Machine

namespace Sys2Proof.Machine

/-! ### Hardware reset -/

/-- A pack is QUEUED after a reset where it was before (R24). -/
theorem waits_afterReset (r : Rec) : r.afterReset.waits = r.waits := by
  have state : ∀ p : Pack, (p.afterReset.state == .queued) = (p.state == .queued) := fun p => by
    unfold Pack.afterReset
    cases hs : p.state <;> simp [hs]
  cases e : r.pack <;> simp [Rec.waits, Rec.afterReset, e, state]

theorem waits_rebuild (s : State) : (rebuild s).waits = s.waits := by
  funext i
  rw [State.waits, record_rebuild, waits_afterReset]
  rfl

/-- The lock rebuilt moves no pack (R130). -/
theorem resetLock_still (packs : Vector Rec 256) : (resetLock packs).returning = false ∧
    ((resetLock packs).state = .empty ∨ (resetLock packs).state = .blocked) := by
  unfold resetLock
  split
  · exact ⟨rfl, .inl rfl⟩
  · exact ⟨rfl, .inr rfl⟩

theorem queued_rebuild {s : State} (q : s.Queued) : (rebuild s).Queued := by
  refine q.same rfl (fun r => ?_) (waits_rebuild s)
  have lock : (rebuild s).feed.lock.returning = false := (resetLock_still _).1
  rw [lock] at r
  exact nomatch r

/-- What the owners hold after a reset, before the banks and the Lot Table deliver (R106, R156, R196). -/
theorem owned_rebuild (s : State) : (rebuild s).owned =
    { PermitInputs.initial with uncontained := bankAnswer s.banks, shredLotSet := s.lot.shredLot.isSome } := by
  have zone : ∀ z, ((rebuild s).zone z).state = .normal := fun z => by rw [zone_rebuild]
  simp only [State.owned, zone]
  rfl

/-- Between the blocks rebuilt and their first deliveries, banks and lots are written alone. -/
structure Undelivered (s t : State) : Prop where
  feeding : t.feeding = { s.feeding with owned := t.owned }
  owned : t.owned = s.owned.answered (bankAnswer t.banks)
  shred : t.lot.shredLot = s.lot.shredLot
  packs : t.packs = s.packs

theorem undelivered_deposit (p : Posting) (s : State) : Undelivered s (deposit p s) := by
  rw [deposit_eq]
  exact ⟨rfl, rfl, rfl, rfl⟩

theorem undelivered_resetUncertain (old : Vector Rec 256) (s : State) : Undelivered s (resetUncertain old s) := by
  unfold resetUncertain
  split
  · split
    · rw [deposit_eq]
      exact ⟨rfl, rfl, rfl, rfl⟩
    · exact ⟨rfl, rfl, rfl, rfl⟩
  · exact ⟨rfl, rfl, rfl, rfl⟩

/-- The first deliveries tell the Feed Controller what it does not know; the monitor is VENTED, and the permit off
(R109, R196). -/
theorem permitLaw_firstDeliveries {s t : State} (h : Undelivered (rebuild s) t) : PermitLaw (firstDeliveries t) := by
  rw [permitLaw_iff]
  intro _
  have permit : t.feed.permit = false := congrArg Feeding.permit h.feeding
  have inputs : t.feed.inputs = PermitInputs.initial := congrArg Feeding.inputs h.feeding
  have lock : t.feed.lock.bare = (rebuild s).feed.lock.bare := congrArg Feeding.lock h.feeding
  have output : t.out.permit.command = false := congrArg Feeding.permitOn h.feeding
  have upper : t.out.upperGate.command = false := congrArg Feeding.upperOn h.feeding
  have lower : t.out.lowerGate.command = false := congrArg Feeding.lowerOn h.feeding
  obtain ⟨_, state⟩ := resetLock_still s.packsAfterReset
  have same : t.feed.lock.bare.state = (rebuild s).feed.lock.bare.state := congrArg Lock.state lock
  have state : t.feed.lock.state = .empty ∨ t.feed.lock.state = .blocked := by
    rw [show t.feed.lock.state = (resetLock s.packsAfterReset).state from same]
    exact state
  have told : (firstDeliveries t).feed.inputs =
      { PermitInputs.initial with uncontained := bankAnswer t.banks, shredLotSet := t.lot.shredLot.isSome } := by
    rw [← inputs]
    rfl
  have owned : (firstDeliveries t).owned = (firstDeliveries t).feed.inputs := by
    rw [told, h.shred]
    refine h.owned.trans ?_
    rw [owned_rebuild]
    rfl
  refine ⟨owned.symm, ⟨output.trans permit.symm, ?_, ?_, ?_⟩, ?_⟩
  · refine upper.trans (beq_false_of_ne ?_).symm
    obtain e | e := state <;> exact e ▸ nofun
  · refine lower.trans (beq_false_of_ne ?_).symm
    obtain e | e := state <;> exact e ▸ nofun
  · intro moves
    obtain ⟨filled, unblocked⟩ := Lock.moving_of_movesByPermit moves
    exact (state.elim filled unblocked).elim
  · refine permit.trans ?_
    show false = permitHolds (firstDeliveries t).feed.inputs
    rw [told]
    rfl

theorem queued_firstDeliveries {s t : State} (h : Undelivered (rebuild s) t) (q : s.Queued) : (firstDeliveries t).Queued := by
  have feed : t.feed.queue = (rebuild s).feed.queue := congrArg Feeding.queue h.feeding
  have lock : t.feed.lock.returning = (rebuild s).feed.lock.returning :=
    congrArg (fun v : Feeding => v.lock.returning) h.feeding
  exact (queued_rebuild q).same feed (lock ▸ id) (waits_of_packs h.packs)

theorem permitLaw_hardwareReset (straps : Straps) (agrees : Bool) (s : State) :
    PermitLaw (hardwareReset straps agrees s) := by
  unfold hardwareReset
  split
  · exact permitLaw_firstDeliveries (undelivered_resetUncertain ..)
  · exact permitLaw_firstDeliveries (undelivered_deposit ..)

/-- Newly initialised memory holds no pack, and the queue none (R172). -/
theorem queued_forget (straps : Straps) (s : State) : ({ forget s with straps := straps } : State).Queued := by
  have none : ∀ i, ({ forget s with straps := straps } : State).waits i = none := fun i => by
    have record : ({ forget s with straps := straps } : State).record i = State.reset.record i := rfl
    rw [State.waits, record, Rec.waits, State.reset.no_pack]
    rfl
  refine ⟨Nat.zero_le _, List.nodup_nil, fun h => ⟨nofun, fun w => ?_⟩⟩
  rw [none] at w
  exact nomatch w

theorem queued_hardwareReset (straps : Straps) (agrees : Bool) {s : State} (q : s.Queued) :
    (hardwareReset straps agrees s).Queued := by
  unfold hardwareReset
  split
  · refine queued_firstDeliveries (undelivered_resetUncertain ..) ?_
    exact q.same rfl id rfl
  · exact queued_firstDeliveries (undelivered_deposit ..) (queued_forget straps s)

/-! ### Commands and time -/

/-- An outcome after which the laws of the permit and of the queue stand, where they stood before. -/
def KeepsFeeding (o : Host.Outcome State Fault Refusal) (s : State) : Prop :=
  ∃ t, o = .next t ∧ (PermitLaw s → PermitLaw t) ∧ (SiteClauses s → s.Queued → t.Queued)

theorem Feeds.permitLaw {s t : State} (h : Feeds s t) (law : PermitLaw s) : PermitLaw t := by
  rw [permitLaw_iff] at law ⊢
  intro run
  obtain ⟨told, lawful⟩ := law (h.run.symm.trans run)
  exact ⟨h.told told, h.law lawful⟩

theorem keepsFeeding_of {s t : State} (h : Feeds s t) : KeepsFeeding (.next t) s := ⟨t, rfl, h.permitLaw, h.queue⟩

theorem keepsFeeding_request {p : Port} {f : Frame} {owner : State → Reply} (h : ∀ s, FeedsReply s (owner s))
    (s : State) : KeepsFeeding (.next (serve p f owner s)) s := keepsFeeding_of (feeds_serve h s)

theorem keepsFeeding_event {f : State → State} (h : ∀ s, Feeds s (f s)) (s : State) :
    KeepsFeeding (.next (whenRunning f s)) s := keepsFeeding_of (.ite (fun _ => h s) fun _ => .refl s)

/-- An event of the running part that is carried out where it is due. -/
theorem keepsFeeding_dueEvent {c : State → Prop} [∀ s, Decidable (c s)] {f : State → State}
    (h : ∀ s, c s → Feeds s (f s)) (s : State) :
    KeepsFeeding (.next (whenRunning (fun s => if c s then f s else s) s)) s :=
  keepsFeeding_event (fun s => .ite (h s) fun _ => .refl s) s

theorem keepsFeeding_exec (i : Instr) (s : State) : KeepsFeeding (exec i s) s := by
  cases i with
  | hardwareReset straps agrees =>
    exact ⟨_, rfl, fun _ => permitLaw_hardwareReset straps agrees s, fun _ => queued_hardwareReset straps agrees⟩
  | mainSupplyLoss cause => exact ⟨_, rfl, fun _ running => (nomatch running), fun _ q => q.same rfl id rfl⟩
  | stationFrameValid p seq code body => exact keepsFeeding_event (feeds_receiveFrame p _) s
  | stationFrameDiscard p why => exact keepsFeeding_event (feeds_takeDiscard p why) s
  | stationLineIdleTimeout p =>
    exact keepsFeeding_event (fun s => .ite (fun _ => .refl s) fun _ => feeds_countError p s) s
  | stationPortHuntsAgain p =>
    exact keepsFeeding_event (f := fun s => s.setPort p { s.port p with receiver := .hunting })
      (fun s => .still (still_setPort rfl)) s
  | presenceTimerExpiry p => exact keepsFeeding_dueEvent (fun s _ => feeds_becomeAbsent p s) s
  | readStatus p seq part => exact keepsFeeding_request (feeds_status part) s
  | readPack p seq index gen => exact keepsFeeding_request (feeds_readPack index gen) s
  | listPacks p seq state lot => exact keepsFeeding_request (feeds_list p state lot) s
  | setCursor p seq index => exact keepsFeeding_request (feeds_cursor p index) s
  | readBay p seq bay => exact keepsFeeding_request (feeds_readBay bay) s
  | readZone p seq zone => exact keepsFeeding_request (feeds_readZone zone) s
  | readLot p seq lot => exact keepsFeeding_request (feeds_readLot lot) s
  | readBank p seq bank => exact keepsFeeding_request (feeds_readBank bank) s
  | readConfig p seq item index => exact keepsFeeding_request (feeds_readConfig item index) s
  | fetchNotices p seq => exact keepsFeeding_request (feeds_fetch p) s
  | setPresenceTime p seq seconds => exact keepsFeeding_request (feeds_presence p seconds) s
  | clearBank p seq bank number => exact keepsFeeding_request (feeds_clearBank p bank number) s
  | setReportEnables p seq bank enables => exact keepsFeeding_request (feeds_enables p bank enables) s
  | admitPack p seq tag lot typeCode damaged mass nominal cells =>
    exact keepsFeeding_request (feeds_admit tag lot typeCode damaged mass nominal cells) s
  | withdraw p seq index gen => exact keepsFeeding_request (feeds_withdraw index gen) s
  | openLot p seq number => exact keepsFeeding_request (feeds_openLot number) s
  | closeLot p seq lot => exact keepsFeeding_request (feeds_closeLotReply lot) s
  | releaseLot p seq lot => exact keepsFeeding_request (feeds_releaseLot lot) s
  | outputWeight p seq lot mass final => exact keepsFeeding_request (feeds_outputWeight lot mass final) s
  | switchShredLot p seq lot => exact keepsFeeding_request (feeds_switch lot) s
  | cancelSwitch p seq => exact keepsFeeding_request feeds_cancel s
  | setRecoveryBounds p seq low high => exact keepsFeeding_request (feeds_bounds low high) s
  | assign p seq index gen bay => exact keepsFeeding_request (feeds_assign index gen bay) s
  | move p seq index gen dest => exact keepsFeeding_request (feeds_move index gen dest) s
  | quarantine p seq index gen => exact keepsFeeding_request (feeds_quarantine index gen) s
  | start p seq bay => exact keepsFeeding_request (feeds_start bay) s
  | pause p seq bay => exact keepsFeeding_request (feeds_pause bay) s
  | resume p seq bay => exact keepsFeeding_request (feeds_resume bay) s
  | abort p seq bay => exact keepsFeeding_request (feeds_abort bay) s
  | writeSlot p seq bay slot current stop segment =>
    exact keepsFeeding_request (feeds_writeSlot bay slot current stop segment) s
  | clearBay p seq bay => exact keepsFeeding_request (feeds_clearBay bay) s
  | enqueue p seq index gen => exact keepsFeeding_request (feeds_enqueue index gen) s
  | remove p seq index gen dest => exact keepsFeeding_request (feeds_remove index gen dest) s
  | feed p seq index gen => exact keepsFeeding_request (feeds_feed index gen) s
  | lockClosed p seq => exact keepsFeeding_request feeds_lockClosed s
  | returnPack p seq index gen => exact keepsFeeding_request (feeds_return index gen) s
  | dropDone p seq index gen => exact keepsFeeding_request (feeds_dropDone index gen) s
  | lockEmptied p seq => exact keepsFeeding_request feeds_lockEmptied s
  | chamberClear p seq => exact keepsFeeding_request feeds_chamberClear s
  | inertStart p seq => exact keepsFeeding_request feeds_inertStart s
  | inertStop p seq => exact keepsFeeding_request feeds_inertStop s
  | writeFeed p seq seconds => exact keepsFeeding_request (feeds_writeFeed seconds) s
  | writeTreatment p seq index fields => exact keepsFeeding_request (feeds_writeTreatment index fields) s
  | writeRange p seq index low high treatment enabled =>
    exact keepsFeeding_request (feeds_writeRange index low high treatment enabled) s
  | writeSlotMap p seq family treatment enabled =>
    exact keepsFeeding_request (feeds_writeSlotMap family treatment enabled) s
  | setMap p seq enable treatment => exact keepsFeeding_request (feeds_setMap enable treatment) s
  | curveBegin p seq curve => exact keepsFeeding_request (feeds_curveBegin curve) s
  | curvePoint p seq curve voltage fraction => exact keepsFeeding_request (feeds_curvePoint curve voltage fraction) s
  | curveEnd p seq curve => exact keepsFeeding_request (feeds_curveEnd curve) s
  | lineRestart p seq target g1 g2 => exact keepsFeeding_request (fun s => .guarded (feeds_lineRestart target s)) s
  | writeDetector p seq detector zone kind => exact keepsFeeding_request (feeds_writeDetector detector zone kind) s
  | writeFireTimes p seq dwell rearm => exact keepsFeeding_request (feeds_writeFireTimes dwell rearm) s
  | writeZone p seq zone threshold delay => exact keepsFeeding_request (feeds_writeZone zone threshold delay) s
  | hold p seq zone => exact keepsFeeding_request (fun s => .withZone fun z => feeds_setHold z true s) s
  | holdEnd p seq zone => exact keepsFeeding_request (fun s => .withZone fun z => feeds_setHold z false s) s
  | release p seq target g1 g2 => exact keepsFeeding_request (fun s => .guarded (feeds_release target s)) s
  | zoneReset p seq target g1 g2 => exact keepsFeeding_request (fun s => .guarded (feeds_zoneReset target s)) s
  | isolateZone p seq zone => exact keepsFeeding_request (feeds_isolate zone) s
  | restoreZone p seq zone => exact keepsFeeding_request (feeds_restore zone) s
  | inertReset p seq target g1 g2 => exact keepsFeeding_request (fun s => .guarded (feeds_inertReset target s)) s
  | writeInertLimits p seq purge run trip hold maxPurge =>
    exact keepsFeeding_request (feeds_writeInertLimits purge run trip hold maxPurge) s
  | baySample address sequence voltage current temperature interval =>
    exact keepsFeeding_event
      (feeds_onFieldLink (feeds_takeSample address sequence voltage current temperature interval)) s
  | analyzerReading address oxygen status =>
    exact keepsFeeding_event (fun s => .ite (fun _ => .refl s) fun _ => feeds_takeReading ..) s
  | fieldFrameDiscard why => exact keepsFeeding_event (feeds_onFieldLink fun s => .still (still_setReceiver _ s)) s
  | fieldLinkHuntsAgain => exact keepsFeeding_event (fun s => .still (still_setReceiver .hunting s)) s
  | loadSetTransmit => exact keepsFeeding_event (fun s => .still (still_transmitLoadSet s)) s
  | loadSetRefreshExpiry bay => exact keepsFeeding_event (fun s => .still (still_refreshBay bay s)) s
  | segmentTimerExpiry bay => exact keepsFeeding_dueEvent (fun s _ => feeds_takeBoundary bay s) s
  | sampleLoss bay => exact keepsFeeding_dueEvent (fun s _ => feeds_sampleLost bay s) s
  | overCurrentReferenceDrop bay => exact keepsFeeding_dueEvent (fun s _ => .still (still_dropReference bay s)) s
  | restTimerExpiry bay => exact keepsFeeding_dueEvent (fun s _ => feeds_endRest bay s) s
  | analyzerAgeExpiry analyzer => exact keepsFeeding_dueEvent (fun s _ => feeds_analyzerEvent analyzer _ s) s
  | purgeTimeout => exact keepsFeeding_event feeds_checkPurgeTimeout s
  | holdTimerExpiry => exact keepsFeeding_dueEvent (fun s _ => feeds_changeInert .inert s) s
  | lockPurgeTimerExpiry => exact keepsFeeding_dueEvent (fun _ due => feeds_openLower due) s
  | detectorLineChange detector line =>
    exact keepsFeeding_of (.ite (fun _ => feeds_takeLine ..) fun _ => .still (still_setDetector ..))
  | detectorDwellExpiry detector => exact keepsFeeding_dueEvent (fun s _ => feeds_changeDetector detector _ s) s
  | faultDwellExpiry detector => exact keepsFeeding_dueEvent (fun s _ => feeds_changeDetector detector _ s) s
  | rearmExpiry detector => exact keepsFeeding_dueEvent (fun s _ => feeds_changeDetector detector _ s) s
  | recoveryTimerExpiry detector => exact keepsFeeding_dueEvent (fun s _ => feeds_changeDetector detector _ s) s
  | releaseTimerExpiry zone => exact keepsFeeding_dueEvent (fun s _ => feeds_enterReleased zone 1 s) s
  | readbackChange output level =>
    exact keepsFeeding_of (.ite (fun _ => feeds_takeReadback ..) fun _ => .still (still_setSup rfl))
  | readbackWindowExpiry output => exact keepsFeeding_dueEvent (fun s _ => feeds_endWindow output s) s
  | disagreementTimerExpiry output => exact keepsFeeding_dueEvent (fun s _ => feeds_endDisagreement output s) s

end Sys2Proof.Machine

/-- A step is a command carried out or a millisecond. -/
theorem keepsFeeding_step {s t : State} (h : step s = .next t) :
    (PermitLaw s → PermitLaw t) ∧ (SiteClauses s → s.Queued → t.Queued) := by
  unfold step at h
  split at h
  case h_1 c rest _ =>
    obtain ⟨u, e, law, queue⟩ := keepsFeeding_exec c { s with pending := rest }
    rw [e] at h
    cases h
    refine ⟨law, fun clauses q => queue ?_ ?_⟩
    · exact siteClauses_of_site (site_pending ..) clauses
    · exact q.same rfl id rfl
  case h_2 =>
    cases h
    exact ⟨(feeds_tick s).permitLaw, (feeds_tick s).queue⟩

/-- Settles O8: every command and every millisecond keeps the law, operation by operation; an owner's change of an input is
delivered with it, and an evaluation puts the permit, its output and the lock where the law wants them. -/
theorem permitLawKept : Obligations.PermitLawKept := fun _ _ law h => (keepsFeeding_step h).1 law

/-- Settles O13: the queue is written with the record of the pack that joins or leaves it, and no other record is written
into QUEUED or out of it. -/
theorem queueLawKept : Obligations.QueueLawKept := by
  intro s t site queue h
  rw [siteLaw_iff] at site
  rw [queueLaw_iff] at queue ⊢
  exact (keepsFeeding_step h).2 site queue

end
